-- ==== Sys2Proof/Word.lean ====
section
/-!
DEFINITION. The widths the manual gives its words, and fixed-size tables indexed by a channel or a slot.
-/
namespace Sys2Proof

/-- One byte of the control link (R161, R162). -/
abbrev Byte := BitVec 8

/-- A reading of the 48-bit device clock (R2). -/
abbrev Time := BitVec 48

/-- A channel number, 0 to 7. -/
abbrev Channel := Fin 8

/-- A slot number of the Action Pool, 0 to 255 (R15). -/
abbrev SlotNo := Fin 256

/-- A handle: the slot in the low byte, the generation in the high byte (R16). -/
abbrev Handle := BitVec 16

/-- The limit of device time, 2^48 - 1 (R3). -/
def maxTime : Nat := 2 ^ 48 - 1

/-- The entry of a table at an index. -/
def getAt {α : Type} {n : Nat} (v : Vector α n) (i : Fin n) : α := v[i.val]

/-- The table with one entry replaced. -/
def setAt {α : Type} {n : Nat} (v : Vector α n) (i : Fin n) (x : α) : Vector α n := v.set i.val x

/-- The table of eight entries given by a function of the channel. -/
def tab8 {α : Type} (f : Channel → α) : Vector α 8 :=
  #v[f 0, f 1, f 2, f 3, f 4, f 5, f 6, f 7]

/-- The table with every entry changed by `f`. -/
def mapAt {α β : Type} {n : Nat} (f : α → β) (v : Vector α n) : Vector β n :=
  ⟨⟨v.toArray.toList.map f⟩, by simp⟩

/-- The eight channels in channel order. -/
def allChannels : List Channel := [0, 1, 2, 3, 4, 5, 6, 7]

end Sys2Proof
end

