-- ==== Sys2Proof/Syntax.lean ====
section
/-!
DEFINITION. The commands of the block: one constructor per row of spec/opcode_table.json.
The table gives no row any field. The operands here are what the event brings from outside the part (the levels on the
pins, the bytes on RXD) and, for an event of one channel, the channel. A request row has none: its fields stand in the
request at the head of the Receive Queue (R170, R171).
-/
namespace Sys2Proof

/-- The direction of a SYNC edge, and the polarity of a sync arm (R8, R9). -/
inductive SyncPolarity where
  | rising
  | falling
  deriving DecidableEq, Repr

/-- The levels sampled at one tick: SYNC (R8), SAFEn (R136) and TRG7:0, bit n for TRGn (R79). -/
structure Pins where
  sync  : Bool
  safen : Bool
  trg   : BitVec 8
  deriving DecidableEq, Repr

/-- A byte as the receiver has it at the end of its stop bit: its value and the level of the stop bit (R164, R165). -/
structure RxByte where
  value : Byte
  stop  : Bool
  deriving DecidableEq, Repr

/-- The commands. -/
inductive Instr where
  | tick (pins : Pins)
  | syncEdge (dir : SyncPolarity)
  | skippedSpanRule (ch : Channel)
  | headDue (ch : Channel)
  | channelEnd (ch : Channel)
  | pulseExpiry (ch : Channel)
  | trainPhaseExpiry (ch : Channel)
  | squarePhaseExpiry (ch : Channel)
  | delayExpiry (ch : Channel)
  | pulseEnd (ch : Channel)
  | strobeExpiry (ch : Channel)
  | armedWindowExpiry (ch : Channel)
  | countWindowExpiry (ch : Channel)
  | filterTimerExpiry (ch : Channel)
  | edge (ch : Channel)
  | snapshotCapture
  | safenFallingEdge
  | safeSettingAtEngine (ch : Channel)
  | safeSettingAtPlan (ch : Channel)
  | safeReleaseAtEngine (ch : Channel)
  | groupTimerExpiry
  | retryTimerExpiry
  | gapTimerExpiry
  | requestFrameReceived (bytes : List RxByte)
  | linkReset
  | replyFromCache
  | badKind
  | replySend
  | noticeSend
  | identify
  | readStatus
  | readTime
  | setGlobal
  | setChannel
  | readConfig
  | schedule
  | stagingSchedule
  | cancel
  | cancelChannel
  | queryAction
  | queryChannel
  | groupBegin
  | groupCommit
  | groupAbort
  | snapshot
  | waitIdle
  | armSync
  | cancelTag
  | noticeAck
  | enterSafe
  | releaseSafe
  | restart
  | powerOnReset
  | resetRelease (baud : BitVec 2) (safen : Bool)
  | byteReceived (rx : RxByte)
  | frameTransmitted
  deriving DecidableEq, Repr

end Sys2Proof
end

