-- ==== Sys2Proof/Decode.lean ====
section
/-!
DEFINITION. Decoding words of the table's bits. spec/opcode_table.json gives no row any bits, so no word spells a command.
Requests are read from the bytes of a frame by the request family (Machine/Operands.lean), not here.
-/
namespace Sys2Proof

/-- The command a word spells by the table's bits: none, since the table gives no row any bits. -/
def decodeTableWord (_nbits _w : Nat) : Option Instr := none

end Sys2Proof
end

