-- ==== Sys2Proof/Config.lean ====
section
/-!
DEFINITION. What is fixed for the part: its capacities (00_scope.md, "Capacities"), the ranges and power-on values of the
global settings, and its identity (R180). The spec leaves no result undefined in an operation that goes on, so there is no
free value here.
-/
namespace Sys2Proof.Config

/-- Records in one channel plan (R33). -/
def planCap : Nat := 64
/-- Records staged in one group (R101). -/
def stagingCap : Nat := 32
/-- Entries of the Tag Table (R117). -/
def tagCap : Nat := 16
/-- Notices queued (R145). -/
def noticeCap : Nat := 32
/-- Notices sent and unacknowledged (R145). -/
def windowCap : Nat := 4
/-- Frames in each of the Receive Queue, the Reply Queue and the reply cache (R170, R172, R173). -/
def linkCap : Nat := 4

/-- Minimum lead: range and power-on value, in ticks (R35). -/
def minLeadMin : Nat := 10
def minLeadMax : Nat := 10000
def minLeadPowerOn : Nat := 100
/-- Horizon: range and power-on value, in ticks (R35). -/
def horizonMin : Nat := 65536
def horizonMax : Nat := 2 ^ 40
def horizonPowerOn : Nat := 2 ^ 32
/-- Group timeout default: range and power-on value, in milliseconds (R103). -/
def groupDefaultMin : Nat := 1
def groupDefaultMax : Nat := 60000
def groupDefaultPowerOn : Nat := 1000
/-- Notice retry time: range and power-on value, in milliseconds (R152). -/
def retryTimeMin : Nat := 5
def retryTimeMax : Nat := 1000
def retryTimePowerOn : Nat := 50
/-- Ticks in a millisecond (R5). -/
def ticksPerMs : Nat := 1000
/-- Consecutive retry expiries that set the stall flag (R153). -/
def stallAfter : Nat := 8

/-- The identity the IDENTIFY reply carries (R180). -/
def vendorCode : Nat := 0x00A7
def partNumber : Nat := 2280
def revision : Nat := 1

end Sys2Proof.Config
end

