-- ==== Sys2Proof/Machine/State.lean ====
section
/-!
DEFINITION. The state of the part, as plain data: every register, queue, table, timer, mode and pin the spec names, and the
events that one block has handed to another and that block has not yet taken (log 1). Also the reasons a step could stop.
-/
namespace Sys2Proof.Machine

/-- Why the machine could stop with a fault. No constructor: the spec gives every event of the table an effect (log 25). -/
inductive Fault where
  deriving DecidableEq, Repr

/-- Why a command could be refused. -/
inductive Refusal where
  /-- Raised only by an arm of `exec` whose command has no meaning yet: safe. No arm raises it now (log 25). -/
  | notModelled (mnemonic : String)
  deriving DecidableEq, Repr

/-! ### Action records (02_action_records_and_the_pool.md) -/

/-- What a due head does on a busy channel (R20). -/
inductive Policy where
  | preempt | skip | wait
  deriving DecidableEq, Repr

/-- What an ARMED action does with an edge during a firing (R90 to R92). -/
inductive RetrigMode where
  | noRetrigger | extend | holdOne
  deriving DecidableEq, Repr

/-- The kind of an action with the parameters of its kind, in ticks and counts (R21). -/
inductive Params where
  | set (level : Bool)
  | pulse (w : Nat)
  | train (w p n : Nat)
  | square (p : Nat)
  | armed (w n d v : Nat) (mode : RetrigMode)
  | count (w n v : Nat)
  deriving DecidableEq, Repr

/-- The state of a record in use; a FREE slot has no record (R15). -/
inductive RecState where
  | staged | planned | waiting | current
  deriving DecidableEq, Repr

/-- A record in use (R20 to R23). Its progress part is held by the engine that runs it (R24). -/
structure Record where
  channel : Channel
  params  : Params
  start   : Time
  policy  : Policy
  report  : Bool
  tag     : Option Nat
  state   : RecState
  deriving DecidableEq, Repr

/-- A slot of the pool: its generation, 1 to 255, and its record, none while FREE (R15, R17). -/
structure Slot where
  gen    : Nat
  record : Option Record
  deriving DecidableEq, Repr

/-- The phases of a current action (R24). -/
inductive Phase where
  | active | rest | listen | delay | strobe
  deriving DecidableEq, Repr

/-- The progress part of a CURRENT record (R24), with the active level fixed at the start (R60), the window expiry that a
tick has counted and the engine has not yet taken (`windowDue`, R89, log 14), and the mark of an ACTIVE or STROBE phase begun
in the open interval (`activeBegan`, R63). -/
structure Progress where
  activeLevel     : Bool
  actualStart     : Time
  late            : Bool
  phase           : Phase
  phaseRemaining  : Option Nat
  windowRemaining : Option Nat
  windowDue       : Bool
  pulses          : Nat
  firings         : Nat
  edges           : Nat
  overruns        : Nat
  activeBegan     : Bool
  deriving DecidableEq, Repr

/-- The end results of records and of the other tagged subjects (R27, R120). -/
inductive EndResult where
  | complete | short | noTrigger | cancelled | preempted | skipped | missed | safed | discarded
  | applied | rejected | idle | captured
  deriving DecidableEq, Repr

/-- The body of an ENDED notice (R29). -/
structure EndedBody where
  handle      : Handle
  channel     : Channel
  params      : Params
  result      : EndResult
  actualStart : Option Time
  endTime     : Time
  pulses      : Nat
  edges       : Nat
  overruns    : Nat
  late        : Bool
  deriving DecidableEq, Repr

/-! ### Plans and engines (03_channel_plans.md, 04_channel_engines_and_waveforms.md) -/

/-- One channel's plan (R33) and the events handed to it and not yet taken: forward loads as (old, new) device time in the
order the Time Base made them (R49), latch settings (R47), and the channel's end (R45). -/
structure Plan where
  records   : List SlotNo
  loads     : List (Time × Time)
  settings  : Nat
  endHanded : Bool
  deriving DecidableEq, Repr

/-- The trigger polarity of a channel (R81). -/
inductive TrigPolarity where
  | rising | falling | both
  deriving DecidableEq, Repr

/-- A channel's configuration record (R55). -/
structure ChanConfig where
  enabled   : Bool
  safeLevel : Bool
  polarity  : TrigPolarity
  filter    : Byte
  deriving DecidableEq, Repr

/-- The six states of an engine (R59). -/
inductive ChanState where
  | off | idle | running | armed | firing | safed
  deriving DecidableEq, Repr

/-- What the Safe Latch hands to an engine (R137, R140). -/
inductive SafeEvent where
  | setting | release
  deriving DecidableEq, Repr

/-- The current action of an engine: its slot and its progress part. -/
structure Running where
  slot     : SlotNo
  progress : Progress
  deriving DecidableEq, Repr

/-- One channel engine (R55 to R63, R83, R84) and the events handed to it and not yet taken: trigger edges (R81) and latch
settings and releases in the order the latch made them (R137). -/
structure Engine where
  config        : ChanConfig
  state         : ChanState
  restLevel     : Bool
  outputLevel   : Bool
  out           : Bool
  changePending : Bool
  current       : Option Running
  strayCount    : Nat
  pendingEdge   : Bool
  edgesHanded   : Nat
  safeHanded    : List SafeEvent
  deriving DecidableEq, Repr

/-- One trigger input: filtered level (none until the first tick), last sample, filter timer as ticks left (R79, R80). -/
structure Trigger where
  filtered    : Option Bool
  sample      : Bool
  filterTimer : Option Nat
  deriving DecidableEq, Repr

/-! ### Groups, tags and snapshots (06_action_groups.md, 07_deferred_requests_tags_and_snapshots.md) -/

/-- The open group: id, staging list, and the ticks left of its timer, 0 once its expiry is to be taken (R101). -/
structure Group where
  id      : Nat
  staging : List SlotNo
  timer   : Nat
  deriving DecidableEq, Repr

/-- The kind of a tag and its subject (R117). -/
inductive TagSubject where
  | action (handle : Handle)
  | sync
  | idleWait (mask : Byte)
  | snapshot (mask : Byte)
  deriving DecidableEq, Repr

/-- An OPEN entry of the Tag Table (R117). -/
structure OpenTag where
  tag     : Nat
  subject : TagSubject
  deriving DecidableEq, Repr

/-- One channel of a capture (R130). -/
structure ChannelRecord where
  channel     : Channel
  state       : ChanState
  outputLevel : Bool
  restLevel   : Bool
  current     : Option Handle
  pulses      : Nat
  edges       : Nat
  planLength  : Nat
  pendingEdge : Bool
  deriving DecidableEq, Repr

/-- The part of a DONE notice that depends on the tag kind and the result (R120). -/
inductive DoneBody where
  | action (body : EndedBody)
  | sync (v : Time) (pol : SyncPolarity) (before after : Time)
  | idleWait (mask : Byte) (time : Time)
  | captured (mask : Byte) (requested time : Time) (late : Bool) (records : List ChannelRecord)
  | uncaptured (mask : Byte) (requested time : Time)
  deriving DecidableEq, Repr

/-- A DONE_WAITING entry of the Tag Table (R117, R119). -/
structure WaitingTag where
  tag    : Nat
  result : EndResult
  body   : DoneBody
  deriving DecidableEq, Repr

/-- The scheduled snapshot (R127) and the capture handed to it and not yet taken: capture device time and late flag
(R129, R131). -/
structure Scheduled where
  mask : Byte
  time : Time
  tag  : Nat
  due  : Option (Time × Bool)
  deriving DecidableEq, Repr

/-- The sync arm (R9). -/
structure SyncArm where
  value : Time
  pol   : SyncPolarity
  tag   : Nat
  deriving DecidableEq, Repr

/-! ### Safe Latch, notices and link (08_the_safe_state.md, 09_notices.md, 10_the_control_link.md) -/

/-- What set the latch last (R135). -/
inductive SafeCause where
  | noCause | line | request
  deriving DecidableEq, Repr

/-- The cause of a GROUP_EXPIRED notice (R111, R114). -/
inductive GroupCause where
  | timeout | link
  deriving DecidableEq, Repr

/-- The cause of a RESTARTED notice (R147). -/
inductive RestartCause where
  | powerOn | request
  deriving DecidableEq, Repr

/-- The kinds of notice with their bodies (R29, R111, R120, R138, R147, R150). -/
inductive NoticeBody where
  | done (tag : Nat) (result : EndResult) (body : DoneBody)
  | ended (body : EndedBody)
  | groupExpired (id count : Nat) (cause : GroupCause)
  | safeEntered (cause : SafeCause) (time : Time) (mask : Byte)
  | loss (count : Nat) (time : Time)
  | restarted (cause : RestartCause) (time : Time) (latch : Bool)
  deriving DecidableEq, Repr

/-- A queued notice (R145). -/
structure Notice where
  number : Nat
  body   : NoticeBody
  sent   : Bool
  deriving DecidableEq, Repr

/-- The status codes of replies (11_request_and_reply_reference.md, section 11.3). -/
inductive Status where
  | ok | deferred | staged
  | badKind | badLength | badParam | badChannel | channelOff
  | tooLate | tooFar | planFull | poolFull | tagsFull | groupFull
  | noSuchAction | noSuchTag | alreadyEnded | noGroup | groupOpen | busy
  | lineAsserted
  deriving DecidableEq, Repr

/-- A request in the Receive Queue: sequence, kind, and the fields after the kind byte (R162, R170). -/
structure Request where
  seq    : Byte
  kind   : Byte
  fields : List Byte
  deriving DecidableEq, Repr

/-- A reply: echoed sequence and kind, status, and the fields after it (R178); also an entry of the reply cache (R172). -/
structure Reply where
  seq    : Byte
  kind   : Byte
  status : Status
  fields : List Byte
  deriving DecidableEq, Repr

/-- The receive assembler with what it has stored (R164). -/
inductive Assembler where
  | hunt
  | length
  | body (len : Nat) (stored : List Byte)
  | check (len : Nat) (body : List Byte) (first : Option Byte)
  deriving DecidableEq, Repr

/-- The six link counters (R175). -/
structure Counters where
  crc       : Nat
  length    : Nat
  gap       : Nat
  framing   : Nat
  overflow  : Nat
  strayType : Nat
  deriving DecidableEq, Repr

/-- The whole part. -/
structure State where
  /-- The commands waiting, first in, first out (the model's own; log 2). -/
  pending       : List Instr
  /-- Held in reset (R186). -/
  inReset       : Bool
  /- Time Base -/
  prescaler     : Fin 16
  deviceTime    : Time
  syncPrev      : Option Bool
  syncSampled   : Option SyncPolarity
  syncArm       : Option SyncArm
  /- Action Pool -/
  slots         : Vector Slot 256
  freeList      : List SlotNo
  /- Plan Store -/
  plans         : Vector Plan 8
  minLead       : Nat
  horizon       : Nat
  /- Channel Engines and Trigger Inputs -/
  engines       : Vector Engine 8
  triggers      : Vector Trigger 8
  /- Group Unit -/
  group         : Option Group
  nextGroupId   : Nat
  groupDefault  : Nat
  /- Tag Table and Snapshot Unit -/
  tagsOpen      : List OpenTag
  tagsWaiting   : List WaitingTag
  nextTag       : Nat
  snapshot      : Option Scheduled
  /- Safe Latch -/
  latch         : Bool
  cause         : SafeCause
  safenSample   : Bool
  safenFall     : Bool
  /- Notice Queue -/
  notices       : List Notice
  nextNumber    : Nat
  lossCount     : Nat
  retryTimer    : Option Nat
  expiries      : Nat
  stall         : Bool
  retryTime     : Nat
  /- Control Link -/
  baud          : BitVec 2
  asm           : Assembler
  /-- RXD has been low since a byte with a bad stop bit, and this low span has given no link reset yet (R165, R167, log 15). -/
  lowSpan       : Bool
  rxQueue       : List Request
  replies       : List Reply
  cache         : List Reply
  linkOpen      : Bool
  tx            : Option (List Byte)
  counters      : Counters
  deriving DecidableEq, Repr

/-- A slot at power-on: FREE, generation 1 (R17). -/
def Slot.powerOn : Slot := { gen := 1, record := none }

/-- A plan at power-on (R54). -/
def Plan.powerOn : Plan := { records := [], loads := [], settings := 0, endHanded := false }

/-- A channel's configuration at power-on (R55). -/
def ChanConfig.powerOn : ChanConfig := { enabled := false, safeLevel := false, polarity := .rising, filter := 0 }

/-- An engine at power-on (R77); the rest level is "not in use" and stands at 0 (DESIGN CHOICE, log 13). -/
def Engine.powerOn : Engine :=
  { config := .powerOn, state := .off, restLevel := false, outputLevel := false, out := false, changePending := false,
    current := none, strayCount := 0, pendingEdge := false, edgesHanded := 0, safeHanded := [] }

/-- A trigger input at power-on (R100). -/
def Trigger.powerOn : Trigger := { filtered := none, sample := false, filterTimer := none }

/-- Every link counter at 0 (R175). -/
def Counters.zero : Counters := { crc := 0, length := 0, gap := 0, framing := 0, overflow := 0, strayType := 0 }

/-- Every block held at its power-on state while the part is in reset (R186), with the commands that wait. The spec gives the bit
rate, the last SAFEn sample and the latch with its cause only from the release on: until then the model holds the straps as 00,
the sample 1, the latch clear and the cause NONE (DESIGN CHOICE, log 30). -/
def State.held (pending : List Instr) : State :=
  { pending := pending
    inReset := true
    prescaler := 0
    deviceTime := 0
    syncPrev := none
    syncSampled := none
    syncArm := none
    slots := Vector.replicate 256 Slot.powerOn
    freeList := List.finRange 256
    plans := Vector.replicate 8 Plan.powerOn
    minLead := Config.minLeadPowerOn
    horizon := Config.horizonPowerOn
    engines := Vector.replicate 8 Engine.powerOn
    triggers := Vector.replicate 8 Trigger.powerOn
    group := none
    nextGroupId := 1
    groupDefault := Config.groupDefaultPowerOn
    tagsOpen := []
    tagsWaiting := []
    nextTag := 1
    snapshot := none
    latch := false
    cause := .noCause
    safenSample := true
    safenFall := false
    notices := []
    nextNumber := 1
    lossCount := 0
    retryTimer := none
    expiries := 0
    stall := false
    retryTime := Config.retryTimePowerOn
    baud := 0
    asm := .hunt
    lowSpan := false
    rxQueue := []
    replies := []
    cache := []
    linkOpen := false
    tx := none
    counters := .zero }

/-- The one event of the release (R186, R144, R160): the straps and SAFEn are sampled, a SAFEn of 0 sets the latch with cause
LINE, and the RESTARTED notice of the power-on takes number 1. -/
def State.released (baud : BitVec 2) (safen : Bool) (pending : List Instr) : State :=
  { State.held pending with
    inReset := false
    baud := baud
    safenSample := safen
    latch := !safen
    cause := if safen then .noCause else .line
    notices := [{ number := 1, body := .restarted .powerOn 0 (!safen), sent := false }]
    nextNumber := 2 }

/-- The part right after the release of RESETn, with the straps at 00 and SAFEn negated (DESIGN CHOICE, log 3), and no
command waiting. -/
def State.reset : State := State.released 0 true []

end Sys2Proof.Machine
end

