-- ==== Sys2Proof/Machine/Ops.lean ====
section
/-!
DEFINITION. The named operations every block uses: bytes and their order, the CRC and the frame, access to the tables of
State, and the wrapper of a command's effect while the part runs.
-/
namespace Sys2Proof.Machine

/-- What a command answers. -/
abbrev StepOutcome := Host.Outcome State Fault Refusal

/-! ### Numbers and bytes -/

/-- A 16-bit count goes up by one and holds at 65,535 (R24, R83, R148, R175). -/
def satInc (n : Nat) : Nat := if n < 65535 then n + 1 else 65535

/-- A number in `k` bytes, low byte first (00_scope.md "Byte order"). -/
def leBytes : Nat → Nat → List Byte
  | 0, _ => []
  | k + 1, n => BitVec.ofNat 8 n :: leBytes k (n / 256)

/-- The number that bytes hold, low byte first. -/
def leNat : List Byte → Nat
  | [] => 0
  | b :: bs => b.toNat + 256 * leNat bs

/-- A flag or a level as a byte, 00H or 01H (11_request_and_reply_reference.md). -/
def flagBit (b : Bool) : Byte := if b then 1 else 0

/-- A device time in six bytes. -/
def timeBytes (t : Time) : List Byte := leBytes 6 t.toNat

/-- The bit of a channel in a channel mask (00_scope.md "Channels and pins"). -/
def selects (mask : Byte) (ch : Channel) : Bool := mask.getLsbD ch.val

/-- The mask of one channel. -/
def maskOf (ch : Channel) : Byte := 1#8 <<< ch.val

/-! ### The CRC and the frame (R162, R163) -/

/-- One bit into the CRC register, step 2 of R163. -/
def crcBit (reg : BitVec 16) (bit : Bool) : BitVec 16 :=
  if reg.msb = bit then reg <<< 1 else (reg <<< 1) ^^^ 0x1021#16

/-- One byte into the CRC register, most significant bit first. -/
def crcByte (reg : BitVec 16) (b : Byte) : BitVec 16 :=
  [7, 6, 5, 4, 3, 2, 1, 0].foldl (fun r i => crcBit r (b.getLsbD i)) reg

/-- The CRC of bytes in the order sent (R163). -/
def crcOf (bytes : List Byte) : BitVec 16 := bytes.foldl crcByte 0xFFFF#16

/-- LEN and the body, which the CRC covers. -/
def covered (body : List Byte) : List Byte := BitVec.ofNat 8 body.length :: body

/-- The frame of a body: start byte, LEN, body, CRC low byte first (R162). -/
def frameOf (body : List Byte) : List Byte :=
  0xC5#8 :: covered body ++ leBytes 2 (crcOf (covered body)).toNat

/-! ### Access to the tables of State -/

/-- Engine n. -/
def State.engine (s : State) (ch : Channel) : Engine := getAt s.engines ch

/-- The state with engine n replaced. -/
def State.setEngine (s : State) (ch : Channel) (e : Engine) : State := { s with engines := setAt s.engines ch e }

/-- The state with engine n changed by `f`. -/
def State.modEngine (s : State) (ch : Channel) (f : Engine → Engine) : State := s.setEngine ch (f (s.engine ch))

/-- The plan of a channel. -/
def State.plan (s : State) (ch : Channel) : Plan := getAt s.plans ch

/-- The state with a channel's plan changed by `f`. -/
def State.modPlan (s : State) (ch : Channel) (f : Plan → Plan) : State :=
  { s with plans := setAt s.plans ch (f (s.plan ch)) }

/-- Trigger input n. -/
def State.trigger (s : State) (ch : Channel) : Trigger := getAt s.triggers ch

/-- The state with trigger input n replaced. -/
def State.setTrigger (s : State) (ch : Channel) (t : Trigger) : State := { s with triggers := setAt s.triggers ch t }

/-- A slot of the pool. -/
def State.slot (s : State) (i : SlotNo) : Slot := getAt s.slots i

/-- The record in a slot, none while the slot is FREE. -/
def State.record (s : State) (i : SlotNo) : Option Record := (s.slot i).record

/-- The state with a record put into a slot, the generation kept. -/
def State.setRecord (s : State) (i : SlotNo) (r : Record) : State :=
  { s with slots := setAt s.slots i { s.slot i with record := some r } }

/-- The progress part of the current action of a channel changed by `f`; nothing where there is none. -/
def State.modProgress (s : State) (ch : Channel) (f : Progress → Progress) : State :=
  s.modEngine ch fun e => { e with current := e.current.map fun run => { run with progress := f run.progress } }

/-- The current action of a channel with its record. -/
def State.running (s : State) (ch : Channel) : Option (Running × Record) :=
  match (s.engine ch).current with
  | none => none
  | some run => (s.record run.slot).map fun r => (run, r)

/-- The level of the ATTN pin: high exactly while a notice is queued (R157). -/
def State.attn (s : State) : Bool := !s.notices.isEmpty

/-- The bits of a character on the line: start bit 0, eight data bits least significant first, stop bit 1 (R161). -/
def charBits (b : Byte) : List Bool := false :: [0, 1, 2, 3, 4, 5, 6, 7].map b.getLsbD ++ [true]

/-- The levels that the TXD pin takes, one a bit time: the characters of the frame that is being sent, one directly after another
(R161), and 1 while no frame is sent, in reset and from the release until the first frame (R176, R187). -/
def State.txd (s : State) : List Bool :=
  match s.tx with
  | none => [true]
  | some frame => frame.flatMap charBits

/-- The gap timer runs in every state of the assembler but HUNT (R164). -/
def Assembler.gapRunning : Assembler → Bool
  | .hunt => false
  | .length | .body _ _ | .check _ _ _ => true

/-- The bit rate of the straps in bit/s (R161). -/
def bitRate (baud : BitVec 2) : Nat :=
  match baud.toNat with
  | 0 => 9600
  | 1 => 57600
  | 2 => 230400
  | _ => 921600

/-! ### The wrapper of a command -/

/-- A command acts while the part runs; held in reset, every block stays at its power-on state (R186). -/
def whileRunning (f : State → State) (s : State) : StepOutcome := .next (if s.inReset then s else f s)

end Sys2Proof.Machine
end

