-- ==== Sys2Proof/Machine/Operands.lean ====
section
/-!
DEFINITION. The operands of requests: reading fields from the bytes of a body, the codes of 11_request_and_reply_reference.md
section 11.1 in both directions, and the fields of SCHEDULE with the BAD_PARAM checks of R20 and R21.
-/
namespace Sys2Proof.Machine

/-- The number in `k` bytes of the fields from byte `off` on. -/
def field (fs : List Byte) (off k : Nat) : Nat := leNat ((fs.drop off).take k)

/-- The byte of the fields at `off`. -/
def byteField (fs : List Byte) (off : Nat) : Byte := BitVec.ofNat 8 (field fs off 1)

/-- A flag or level field: 00H or 01H, otherwise none (R177). -/
def flagField (fs : List Byte) (off : Nat) : Option Bool :=
  match field fs off 1 with
  | 0 => some false
  | 1 => some true
  | _ => none

/-- A channel number, none when it is greater than 7. -/
def toChannel (n : Nat) : Option Channel := if h : n < 8 then some ⟨n, h⟩ else none

/-! ### Codes -/

/-- The action kind code. -/
def kindCode : Params → Byte
  | .set _ => 0x00
  | .pulse _ => 0x01
  | .train _ _ _ => 0x02
  | .square _ => 0x03
  | .armed _ _ _ _ _ => 0x04
  | .count _ _ _ => 0x05

/-- The policy of a code. -/
def policyOf : Nat → Option Policy
  | 0 => some .preempt
  | 1 => some .skip
  | 2 => some .wait
  | _ => none

/-- The retrigger mode of a code. -/
def retrigOf : Nat → Option RetrigMode
  | 0 => some .noRetrigger
  | 1 => some .extend
  | 2 => some .holdOne
  | _ => none

/-- The trigger polarity of a code. -/
def trigPolarityOf : Nat → Option TrigPolarity
  | 0 => some .rising
  | 1 => some .falling
  | 2 => some .both
  | _ => none

/-- The code of a trigger polarity. -/
def trigPolarityCode : TrigPolarity → Byte
  | .rising => 0x00
  | .falling => 0x01
  | .both => 0x02

/-- The SYNC polarity of a code. -/
def syncPolarityOf : Nat → Option SyncPolarity
  | 0 => some .rising
  | 1 => some .falling
  | _ => none

/-- The code of a SYNC polarity. -/
def syncPolarityCode : SyncPolarity → Byte
  | .rising => 0x00
  | .falling => 0x01

/-- The record state code. -/
def recStateCode : RecState → Byte
  | .staged => 0x01
  | .planned => 0x02
  | .waiting => 0x03
  | .current => 0x04

/-- The channel state code. -/
def chanStateCode : ChanState → Byte
  | .off => 0x00
  | .idle => 0x01
  | .running => 0x02
  | .armed => 0x03
  | .firing => 0x04
  | .safed => 0x05

/-- The phase code. -/
def phaseCode : Phase → Byte
  | .active => 0x00
  | .rest => 0x01
  | .listen => 0x02
  | .delay => 0x03
  | .strobe => 0x04

/-- The tag kind code, from the body that the kind gives. -/
def tagKindCode : DoneBody → Byte
  | .action _ => 0x01
  | .sync _ _ _ _ => 0x02
  | .idleWait _ _ => 0x03
  | .captured _ _ _ _ _ | .uncaptured _ _ _ => 0x04

/-- The result code. -/
def resultCode : EndResult → Byte
  | .complete => 0x01
  | .short => 0x02
  | .noTrigger => 0x03
  | .cancelled => 0x04
  | .preempted => 0x05
  | .skipped => 0x06
  | .missed => 0x07
  | .safed => 0x08
  | .discarded => 0x09
  | .applied => 0x10
  | .rejected => 0x11
  | .idle => 0x12
  | .captured => 0x13

/-- The Safe Latch cause code. -/
def safeCauseCode : SafeCause → Byte
  | .noCause => 0x00
  | .line => 0x01
  | .request => 0x02

/-- The GROUP_EXPIRED cause code. -/
def groupCauseCode : GroupCause → Byte
  | .timeout => 0x01
  | .link => 0x02

/-- The RESTARTED cause code. -/
def restartCauseCode : RestartCause → Byte
  | .powerOn => 0x01
  | .request => 0x02

/-- The status code of a reply (section 11.3). -/
def statusCode : Status → Byte
  | .ok => 0x00
  | .deferred => 0x01
  | .staged => 0x02
  | .badKind => 0x10
  | .badLength => 0x11
  | .badParam => 0x12
  | .badChannel => 0x13
  | .channelOff => 0x14
  | .tooLate => 0x20
  | .tooFar => 0x21
  | .planFull => 0x22
  | .poolFull => 0x23
  | .tagsFull => 0x24
  | .groupFull => 0x25
  | .noSuchAction => 0x30
  | .noSuchTag => 0x31
  | .alreadyEnded => 0x32
  | .noGroup => 0x33
  | .groupOpen => 0x34
  | .busy => 0x35
  | .lineAsserted => 0x40

/-- The request codes of section 11.2, with the LEN the table gives each. -/
def requestLens : List (Byte × Nat) :=
  [(0x01, 3), (0x02, 4), (0x03, 3), (0x04, 16), (0x05, 8), (0x06, 3),
   (0x10, 32), (0x11, 5), (0x12, 5), (0x13, 5), (0x14, 5),
   (0x20, 5), (0x21, 3), (0x22, 3),
   (0x30, 10), (0x31, 4), (0x32, 10), (0x33, 4),
   (0x40, 5), (0x50, 3), (0x51, 3), (0x7F, 3)]

/-- The LEN of a request kind, none where the code is not defined (R177). -/
def requestLen (kind : Byte) : Option Nat := (requestLens.find? fun p => p.1 = kind).map (·.2)

/-! ### The fields of SCHEDULE -/

/-- The fields of a SCHEDULE that pass the BAD_PARAM check; the channel is not yet checked (R36). -/
structure ScheduleFields where
  channel : Nat
  params  : Params
  start   : Time
  policy  : Policy
  report  : Bool
  tagged  : Bool
  grouped : Bool
  deriving DecidableEq, Repr

/-- The parameters of the kind, none where the kind code is not defined or a parameter that the kind uses lies outside its
range (R20, R21). -/
def paramsField (fs : List Byte) : Option Params :=
  let w := field fs 13 3
  let p := field fs 16 3
  let n := field fs 19 2
  let d := field fs 21 3
  let v := field fs 24 4
  match field fs 1 1 with
  | 0 => (flagField fs 12).map Params.set
  | 1 => if 1 ≤ w then some (.pulse w) else none
  | 2 => if 1 ≤ w ∧ 2 ≤ p ∧ w < p then some (.train w p n) else none
  | 3 => if 2 ≤ p then some (.square p) else none
  | 4 => if 1 ≤ w then (retrigOf (field fs 28 1)).map (Params.armed w n d v) else none
  | 5 => if 1 ≤ w ∧ 1 ≤ n then some (.count w n v) else none
  | _ => none

/-- The fields of a SCHEDULE, none where BAD_PARAM applies (R36 step 2). -/
def scheduleFields (fs : List Byte) : Option ScheduleFields :=
  match paramsField fs, policyOf (field fs 2 1), flagField fs 3, flagField fs 4, flagField fs 5 with
  | some params, some policy, some report, some tagged, some grouped =>
    some { channel := field fs 0 1, params := params, start := BitVec.ofNat 48 (field fs 6 6), policy := policy,
           report := report, tagged := tagged, grouped := grouped }
  | _, _, _, _, _ => none

end Sys2Proof.Machine
end

