-- ==== Sys2Proof/Machine/Flags.lean ====
section
/-!
DEFINITION. The flag and presence bytes of replies and notices, and the polarity of an edge.
-/
namespace Sys2Proof.Machine

/-- A byte of flags, bit 0 first in the list. -/
def flagByte (bits : List Bool) : Byte :=
  BitVec.ofNat 8 (bits.foldr (fun b n => (if b then 1 else 0) + 2 * n) 0)

/-- READ_TIME flags: bit 0 at limit, bit 1 arm held (R7). -/
def timeFlags (s : State) : Byte := flagByte [s.deviceTime.toNat = maxTime, s.syncArm.isSome]

/-- READ_STATUS flags (R182); the SAFEn level is the last sample, 1 when SAFEn is negated (R135, R136). -/
def statusFlags (s : State) : Byte :=
  flagByte [s.stall, s.latch, s.safenSample, s.snapshot.isSome, s.syncArm.isSome]

/-- QUERY_ACTION presence: bit 0 progress, bit 1 phase remaining, bit 2 window remaining. -/
def actionPresence : Option Progress → Byte
  | none => 0
  | some p => flagByte [true, p.phaseRemaining.isSome, p.windowRemaining.isSome]

/-- ENDED flags: bit 0 actual start present, bit 1 late. -/
def endedFlags (b : EndedBody) : Byte := flagByte [b.actualStart.isSome, b.late]

/-- Flags of one channel of a capture: bit 0 current handle present, bit 1 pending edge. -/
def captureFlags (c : ChannelRecord) : Byte := flagByte [c.current.isSome, c.pendingEdge]

/-- The mask of the enabled channels (R137). -/
def enabledMask (s : State) : Byte := flagByte (allChannels.map fun ch => (s.engine ch).config.enabled)

/-- A filtered transition to `level` that matches the polarity is an edge (R81). -/
def edgeMatches (pol : TrigPolarity) (level : Bool) : Bool :=
  match pol with
  | .rising => level
  | .falling => !level
  | .both => true

end Sys2Proof.Machine
end

