-- ==== Sys2Proof/Machine/NoticeQueue.lean ====
section
/-!
DEFINITION. The Notice Queue: append and loss (R146, R148), the send window (R151), and the bytes of a notice (R162, R179).
-/
namespace Sys2Proof.Machine

/-- The notice number after `n`: from 65,535 to 1 (R146). -/
def numberAfter (n : Nat) : Nat := if n < 65535 then n + 1 else 1

/-- The queue has room (R148). -/
def State.noticeRoom (s : State) : Bool := s.notices.length < Config.noticeCap

/-- Append at the tail with the next number, unsent (R146, R148). -/
def State.appendNotice (s : State) (body : NoticeBody) : State :=
  { s with
    notices := s.notices ++ [{ number := s.nextNumber, body := body, sent := false }]
    nextNumber := numberAfter s.nextNumber }

/-- Hand an ordinary notice to the queue: appended, or lost and counted when the queue is full (R148). -/
def State.handOrdinary (s : State) (body : NoticeBody) : State :=
  if s.noticeRoom then s.appendNotice body else { s with lossCount := satInc s.lossCount }

/-- The size of the send window (R145). -/
def State.sentCount (s : State) : Nat := s.notices.countP (·.sent)

/-- Every notice marked unsent (R153, R158). -/
def State.unsendAll (s : State) : State := { s with notices := s.notices.map fun n => { n with sent := false } }

/-- The notice the queue offers to the arbiter: the oldest unsent, under the conditions of R151. -/
def State.offered (s : State) : Option Notice :=
  if s.linkOpen && !s.stall && decide (s.sentCount < Config.windowCap) then s.notices.find? (!·.sent) else none

/-- The oldest unsent notice marked sent. -/
def markOldestUnsent : List Notice → List Notice
  | [] => []
  | n :: ns => if n.sent then n :: markOldestUnsent ns else { n with sent := true } :: ns

/-- The retry timer started afresh with the retry time in force (R152). -/
def State.startRetry (s : State) : State := { s with retryTimer := some (s.retryTime * Config.ticksPerMs) }

/-! ### Bytes of a notice -/

/-- A handle that may be absent: absent is sent as 0 (R179). -/
def handleBytes (h : Option Handle) : List Byte := leBytes 2 (h.elim 0 BitVec.toNat)

/-- The 24-byte ENDED body. -/
def endedBytes (b : EndedBody) : List Byte :=
  leBytes 2 b.handle.toNat ++ [BitVec.ofNat 8 b.channel.val, kindCode b.params, resultCode b.result, endedFlags b]
    ++ timeBytes (b.actualStart.getD 0) ++ timeBytes b.endTime
    ++ leBytes 2 b.pulses ++ leBytes 2 b.edges ++ leBytes 2 b.overruns

/-- The twelve bytes of one channel of a capture. -/
def captureBytes (c : ChannelRecord) : List Byte :=
  [BitVec.ofNat 8 c.channel.val, chanStateCode c.state, flagBit c.outputLevel, flagBit c.restLevel, captureFlags c]
    ++ handleBytes c.current ++ leBytes 2 c.pulses ++ leBytes 2 c.edges ++ [BitVec.ofNat 8 c.planLength]

/-- The part of a DONE after the result byte. -/
def doneBytes : DoneBody → List Byte
  | .action b => endedBytes b
  | .sync v pol before after => timeBytes v ++ [syncPolarityCode pol] ++ timeBytes before ++ timeBytes after
  | .idleWait mask t => mask :: timeBytes t
  | .captured mask req t late recs =>
    mask :: timeBytes req ++ timeBytes t ++ [flagBit late] ++ recs.flatMap captureBytes
  | .uncaptured mask req t => mask :: timeBytes req ++ timeBytes t

/-- The notice kind byte and the fields after it (section 11.4). -/
def noticeKindBytes : NoticeBody → List Byte
  | .done tag res body => [0x01, BitVec.ofNat 8 tag, tagKindCode body, resultCode res] ++ doneBytes body
  | .ended b => 0x02 :: endedBytes b
  | .groupExpired id n cause => [0x03, BitVec.ofNat 8 id, BitVec.ofNat 8 n, groupCauseCode cause]
  | .safeEntered cause t mask => [0x04, safeCauseCode cause] ++ timeBytes t ++ [mask]
  | .loss n t => 0x05 :: leBytes 2 n ++ timeBytes t
  | .restarted cause t latch => [0x06, restartCauseCode cause] ++ timeBytes t ++ [flagBit latch]

/-- The body of a notice frame (R162, R179). -/
def noticeBytes (n : Notice) : List Byte := 0x53 :: leBytes 2 n.number ++ noticeKindBytes n.body

end Sys2Proof.Machine
end

