-- ==== Sys2Proof/Machine/TagTable.lean ====
section
/-!
DEFINITION. The Tag Table: allocation (R118), completion (R119), refill at NOTICE_ACK (R121, R149, R150), and the IDLE_WAIT
watch (R125, R126).
-/
namespace Sys2Proof.Machine

/-- Entries in use, OPEN and DONE_WAITING together (R117). -/
def State.tagsInUse (s : State) : Nat := s.tagsOpen.length + s.tagsWaiting.length

/-- The table holds 16 entries. -/
def State.tagsFull (s : State) : Bool := Config.tagCap ≤ s.tagsInUse

/-- The values that entries hold. -/
def State.tagsHeld (s : State) : List Nat := s.tagsOpen.map (·.tag) ++ s.tagsWaiting.map (·.tag)

/-- The tag value after `n`: from 255 to 1 (R118). -/
def tagAfter (n : Nat) : Nat := if n < 255 then n + 1 else 1

/-- The first value from `n` on, cyclically, that no entry holds (R118). -/
def freeTagFrom (held : List Nat) : Nat → Nat → Nat
  | 0, n => n
  | fuel + 1, n => if n ∈ held then freeTagFrom held fuel (tagAfter n) else n

/-- The tag that the next allocation gives. -/
def State.tagToGive (s : State) : Nat := freeTagFrom s.tagsHeld 255 s.nextTag

/-- Allocate a tag: the entry is created OPEN, and the next value is the one after it (R118). -/
def State.allocTag (s : State) (subject : TagSubject) : State :=
  { s with
    tagsOpen := s.tagsOpen ++ [{ tag := s.tagToGive, subject := subject }]
    nextTag := tagAfter s.tagToGive }

/-- A completion reaches the table: the DONE is appended and the entry leaves, or the entry waits (R119). -/
def State.completeTag (s : State) (tag : Nat) (result : EndResult) (body : DoneBody) : State :=
  if s.tagsOpen.any (·.tag = tag) then
    let s1 := { s with tagsOpen := s.tagsOpen.filter (·.tag ≠ tag) }
    if s.tagsWaiting.isEmpty && s.noticeRoom then s1.appendNotice (.done tag result body)
    else { s1 with tagsWaiting := s1.tagsWaiting ++ [{ tag := tag, result := result, body := body }] }
  else s

/-- Append the DONEs of waiting entries, oldest first, one to each free place (R121, R149 step 1). -/
def appendWaiting : List WaitingTag → State → State
  | [], s => s
  | w :: ws, s =>
    if s.noticeRoom then appendWaiting ws ({ s with tagsWaiting := ws }.appendNotice (.done w.tag w.result w.body)) else s

/-- Append a LOSS notice when a place is free and the loss count is not 0 (R149 step 2, R150). -/
def State.appendLoss (s : State) : State :=
  if s.noticeRoom && decide (0 < s.lossCount) then
    { s.appendNotice (.loss s.lossCount s.deviceTime) with lossCount := 0 }
  else s

/-- The refill of the places that a NOTICE_ACK frees (R149). -/
def State.refill (s : State) : State := (appendWaiting s.tagsWaiting s).appendLoss

/-! ### The IDLE_WAIT watch -/

/-- A staged record names the channel. -/
def State.stagedOn (s : State) (ch : Channel) : Bool :=
  match s.group with
  | none => false
  | some g => g.staging.any fun i => (s.record i).any fun r => r.channel = ch

/-- A channel is quiet (R125). -/
def State.quiet (s : State) (ch : Channel) : Bool :=
  match (s.engine ch).state with
  | .off => true
  | .idle | .safed => (s.plan ch).records.isEmpty && !s.stagedOn ch
  | .running | .armed | .firing => false

/-- Every channel the mask selects is quiet (R125). -/
def State.maskQuiet (s : State) (mask : Byte) : Bool := allChannels.all fun ch => !selects mask ch || s.quiet ch

/-- The watch tests the entries in turn, in the order their tags were allocated (R126). -/
def watchEntries (touched : Byte) : List OpenTag → State → State
  | [], s => s
  | e :: es, s =>
    match e.subject with
    | .idleWait mask =>
      if mask &&& touched ≠ 0 ∧ s.maskQuiet mask then
        watchEntries touched es (s.completeTag e.tag .idle (.idleWait mask s.deviceTime))
      else watchEntries touched es s
    | .action _ | .sync | .snapshot _ => watchEntries touched es s

/-- The watch after an event: entries that select a channel of `touched` are tested once the event's other changes have been
made, where the event has freed a record, that is, where the free list has grown (R125). Every end of an action that an
engine hands to the watch frees the action's record too. -/
def watch (touched : Byte) (before after : State) : State :=
  if before.freeList.length < after.freeList.length then watchEntries touched after.tagsOpen after else after

end Sys2Proof.Machine
end

