-- ==== Sys2Proof/Machine/Pool.lean ====
section
/-!
DEFINITION. The Action Pool: handles (R16), generations (R17), allocation (R18), the counts of R15, the ENDED body (R29) and
the freeing of a record (R19, R30).
-/
namespace Sys2Proof.Machine

/-- The handle of a slot and a generation (R16). -/
def handleOf (gen : Nat) (i : SlotNo) : Handle := BitVec.ofNat 16 (gen * 256 + i.val)

/-- The handle of the record in a slot. -/
def State.handle (s : State) (i : SlotNo) : Handle := handleOf (s.slot i).gen i

/-- The slot a handle names. -/
def handleSlot (h : Handle) : SlotNo := ⟨h.toNat % 256, Nat.mod_lt _ (by decide)⟩

/-- The generation a handle names. -/
def handleGen (h : Handle) : Nat := h.toNat / 256

/-- The record a handle names, none when the handle is stale (R16). -/
def State.lookup (s : State) (h : Handle) : Option (SlotNo × Record) :=
  if handleGen h ≠ 0 ∧ handleGen h = (s.slot (handleSlot h)).gen then
    (s.record (handleSlot h)).map fun r => (handleSlot h, r)
  else none

/-- The generation after `g`: from 255 to 1 (R17). -/
def genAfter (g : Nat) : Nat := if g < 255 then g + 1 else 1

/-- The number of records in a state (R15). -/
def State.countIn (s : State) (st : RecState) : Nat :=
  s.slots.toArray.toList.countP fun sl => sl.record.any fun r => r.state = st

/-! ### The report of a record (R29) -/

/-- The body of a record that was never started. -/
def endedUnstarted (s : State) (i : SlotNo) (r : Record) (res : EndResult) : EndedBody :=
  { handle := s.handle i, channel := r.channel, params := r.params, result := res, actualStart := none,
    endTime := s.deviceTime, pulses := 0, edges := 0, overruns := 0, late := false }

/-- The body of a current record, from its progress part. -/
def endedCurrent (s : State) (i : SlotNo) (r : Record) (res : EndResult) (p : Progress) : EndedBody :=
  { handle := s.handle i, channel := r.channel, params := r.params, result := res, actualStart := some p.actualStart,
    endTime := s.deviceTime, pulses := p.pulses, edges := p.edges, overruns := p.overruns, late := p.late }

/-- The body of a SET applied now (R26). -/
def endedSet (s : State) (i : SlotNo) (r : Record) : EndedBody :=
  { handle := s.handle i, channel := r.channel, params := r.params, result := .complete, actualStart := some s.deviceTime,
    endTime := s.deviceTime, pulses := 0, edges := 0, overruns := 0,
    late := decide (r.start.toNat < s.deviceTime.toNat) }

/-! ### Freeing (R19) -/

/-- The slot becomes FREE: record dropped, generation advanced, slot at the tail of the free list (R19 step 4). -/
def State.releaseSlot (s : State) (i : SlotNo) : State :=
  { s with
    slots := setAt s.slots i { gen := genAfter (s.slot i).gen, record := none }
    freeList := s.freeList ++ [i] }

/-- The four steps of R19 for a record with its report composed: ENDED if the report flag is set, the tag's completion if
there is a tag, then the slot. -/
def State.freeWith (s : State) (i : SlotNo) (r : Record) (body : EndedBody) : State :=
  let s1 := if r.report then s.handOrdinary (.ended body) else s
  let s2 := match r.tag with
    | none => s1
    | some t => s1.completeTag t body.result (.action body)
  s2.releaseSlot i

/-- Free a record that was never started, with its end result (R19, R27). -/
def State.freeUnstarted (s : State) (res : EndResult) (i : SlotNo) : State :=
  match s.record i with
  | none => s
  | some r => s.freeWith i r (endedUnstarted s i r res)

/-- Free the record of a current action, with its end result (R19, R27). -/
def State.freeCurrent (s : State) (res : EndResult) (run : Running) : State :=
  match s.record run.slot with
  | none => s
  | some r => s.freeWith run.slot r (endedCurrent s run.slot r res run.progress)

/-- Free records that were never started, in the order of the list, each before the next (R19). -/
def State.freeAll (s : State) (res : EndResult) (is : List SlotNo) : State :=
  is.foldl (fun s i => s.freeUnstarted res i) s

/-! ### Allocation (R18) -/

/-- Allocate a record from the head of the free list in the given state, with a tag of kind ACTION if one is asked for
(R18, R38, R105). The checks POOL_FULL and TAGS_FULL, in this order, come before anything changes. -/
def State.allocate (s : State) (q : ScheduleFields) (ch : Channel) (start : Time) (st : RecState) :
    Except Status (SlotNo × Option Nat × State) :=
  match s.freeList with
  | [] => .error .poolFull
  | i :: rest =>
    if q.tagged && s.tagsFull then .error .tagsFull
    else
      let tag := if q.tagged then some s.tagToGive else none
      let s1 := if q.tagged then s.allocTag (.action (s.handle i)) else s
      .ok (i, tag, { s1.setRecord i { channel := ch, params := q.params, start := start, policy := q.policy,
                                       report := q.report, tag := tag, state := st } with freeList := rest })

end Sys2Proof.Machine
end

