-- ==== Sys2Proof/Machine/EngineOps.lean ====
section
/-!
DEFINITION. What an engine does with its levels (R60 to R62), at the close of an interval (R62, R63), at a start (R64, R65)
and at the end of its current action (R70 to R72), and its safe level (R73).
-/
namespace Sys2Proof.Machine

/-! ### Levels -/

/-- An immediate change: the register is loaded at once and a waiting deferred change is dropped (R62). -/
def Engine.immediate (e : Engine) (level : Bool) : Engine :=
  { e with outputLevel := level, out := level, changePending := false }

/-- A deferred change: the register is loaded at the close of the interval (R62). -/
def Engine.deferred (e : Engine) (level : Bool) : Engine := { e with outputLevel := level, changePending := true }

/-- The output level is already the rest level, or is set to it with a deferred change (R70). -/
def Engine.toRest (e : Engine) : Engine := if e.outputLevel = e.restLevel then e else e.deferred e.restLevel

/-- The rest level as it is reported: the safe level while the channel is OFF (R76). -/
def Engine.reportedRest (e : Engine) : Bool := if e.state = .off then e.config.safeLevel else e.restLevel

/-- The channel is busy (R40, R59). -/
def ChanState.busy : ChanState → Bool
  | .running | .armed | .firing => true
  | .off | .idle | .safed => false

/-! ### The tick at an engine -/

/-- One tick counted by a phase timer; 0 once its expiry is to be taken (R5, R63). -/
def countPhase : Option Nat → Option Nat := Option.map (· - 1)

/-- The close of an interval in the progress part: an ACTIVE phase begun in it is counted when OUTn is loaded, one tick is
taken from the phase, and one from the window, whose expiry is handed on when it reaches 0 (R24, R63). -/
def Progress.closeInterval (p : Progress) (loaded : Bool) : Progress :=
  { p with
    pulses := if p.activeBegan && loaded then satInc p.pulses else p.pulses
    activeBegan := false
    phaseRemaining := countPhase p.phaseRemaining
    windowRemaining := p.windowRemaining.map (· - 1)
    windowDue := p.windowDue || decide (p.windowRemaining = some 1) }

/-- The tick that closes the interval at an engine: OUTn is loaded where a change is pending (R62, R63). A start made at a forward
load whose SYNC edge was taken ahead of this tick stands in the interval that this tick closes (DESIGN CHOICE, log 29). -/
def Engine.closeInterval (e : Engine) : Engine :=
  { e with
    out := if e.changePending then e.outputLevel else e.out
    changePending := false
    current := e.current.map fun run => { run with progress := run.progress.closeInterval e.changePending } }

/-! ### Phases -/

/-- The phase with its length, its timer started (R5). An ACTIVE or STROBE phase is marked as begun in this interval. -/
def Progress.enter (p : Progress) (ph : Phase) (len : Nat) : Progress :=
  { p with phase := ph, phaseRemaining := some len, activeBegan := p.activeBegan || decide (ph = .active ∨ ph = .strobe) }

/-- The phase LISTEN, which has no phase timer (R24, R88). -/
def Progress.listen (p : Progress) : Progress := { p with phase := .listen, phaseRemaining := none }

/-- The active level of the current action. -/
def Engine.activeLevel (e : Engine) : Bool := e.current.elim (!e.restLevel) (·.progress.activeLevel)

/-- The expiry of the phase timer of the current action is to be taken (R5). -/
def Progress.phaseDue (p : Progress) : Bool := p.phaseRemaining = some 0

/-- The window has expired: it has counted to 0 and the expiry has been taken (R88, log 14). -/
def Progress.windowExpired (p : Progress) : Bool := decide (p.windowRemaining = some 0) && !p.windowDue

/-- A new phase of the current action at the active level, deferred (R61). -/
def State.enterActive (s : State) (ch : Channel) (ph : Phase) (len : Nat) : State :=
  (s.modProgress ch fun p => p.enter ph len).modEngine ch fun e => e.deferred e.activeLevel

/-- A new phase of the current action at the rest level, deferred (R61). -/
def State.enterRest (s : State) (ch : Channel) (len : Nat) : State :=
  (s.modProgress ch fun p => p.enter .rest len).modEngine ch fun e => e.deferred e.restLevel

/-! ### Starts (R64, R65) -/

/-- The first phase of a kind and its length (R64). -/
def firstPhase : Params → Phase × Option Nat
  | .pulse w => (.active, some w)
  | .train w _ _ => (.active, some w)
  | .square p => (.active, some ((p + 1) / 2))
  | .armed _ _ _ _ _ | .count _ _ _ | .set _ => (.listen, none)

/-- The window of a kind: ARMED and COUNT with V not 0 (R24). -/
def firstWindow : Params → Option Nat
  | .armed _ _ _ v _ => if v = 0 then none else some v
  | .count _ _ v => if v = 0 then none else some v
  | .set _ | .pulse _ | .train _ _ _ | .square _ => none

/-- The progress part created at a start (R24, R60). -/
def progressAtStart (rest : Bool) (now : Time) (r : Record) : Progress :=
  { activeLevel := !rest, actualStart := now, late := decide (r.start.toNat < now.toNat),
    phase := (firstPhase r.params).1, phaseRemaining := (firstPhase r.params).2, windowRemaining := firstWindow r.params,
    windowDue := false, pulses := 0, firings := 0, edges := 0, overruns := 0,
    activeBegan := decide ((firstPhase r.params).1 = .active) }

/-- The engine of a channel with an action of a kind other than SET started on it (R64). -/
def Engine.started (e : Engine) (i : SlotNo) (p : Progress) : Engine :=
  { (if p.phase = .active then e.deferred p.activeLevel else e.deferred e.restLevel) with
    state := if p.phase = .active then .running else .armed
    current := some { slot := i, progress := p } }

/-- The start of a record of a kind other than SET: it becomes CURRENT (R41, R64). -/
def State.startAction (s : State) (ch : Channel) (i : SlotNo) (r : Record) : State :=
  let p := progressAtStart (s.engine ch).restLevel s.deviceTime r
  (s.setRecord i { r with state := .current }).modEngine ch fun e => e.started i p

/-- The application of a SET record: output and rest level at once, and the record freed as COMPLETE (R26, R65). -/
def State.applySet (s : State) (ch : Channel) (i : SlotNo) (r : Record) (level : Bool) : State :=
  (s.modEngine ch fun e => { e.deferred level with restLevel := level }).freeWith i r (endedSet s i r)

/-! ### Ends (R70 to R73) -/

/-- The engine without a current action: the pending-edge latch is clear at every end (R84). -/
def Engine.ended (e : Engine) (st : ChanState) : Engine := { e with current := none, pendingEdge := false, state := st }

/-- The channel's end is handed to the Plan Store, which takes it as an event of its own (R45, R70). -/
def State.handEnd (s : State) (ch : Channel) : State := s.modPlan ch fun p => { p with endHanded := true }

/-- A natural end or a window end of the current action (R70). -/
def State.endNaturally (s : State) (ch : Channel) (res : EndResult) : State :=
  match (s.engine ch).current with
  | none => s
  | some run => ((s.modEngine ch fun e => e.toRest.ended .idle).freeCurrent res run).handEnd ch

/-- A cancel of the current action through its engine (R71). -/
def State.cancelCurrent (s : State) (ch : Channel) : State :=
  match (s.engine ch).current with
  | none => s
  | some run => ((s.modEngine ch fun e => (e.immediate e.restLevel).ended .idle).freeCurrent .cancelled run).handEnd ch

/-- The end of the current action by a due PREEMPT head; its end is handed to nobody (R72). -/
def State.preemptCurrent (s : State) (ch : Channel) : State :=
  match (s.engine ch).current with
  | none => s
  | some run => (s.modEngine ch fun e => (e.immediate e.restLevel).ended .idle).freeCurrent .preempted run

/-- An engine at the safe level with its rest level there, the output change immediate (R73, R78). -/
def Engine.atSafeLevel (e : Engine) (st : ChanState) : Engine :=
  { (e.immediate e.config.safeLevel).ended st with restLevel := e.config.safeLevel }

end Sys2Proof.Machine
end

