-- ==== Sys2Proof/Machine/PlanStore.lean ====
section
/-!
DEFINITION. The Plan Store: the order of a plan (R34), due handling and the start policies (R39 to R46), the latch at the
plans (R47, R139), the skipped-span rule (R48) and the cancelling of planned records (R50, R51).
-/
namespace Sys2Proof.Machine

/-! ### The order of a plan -/

/-- The start of the record in a slot. -/
def State.startOf (s : State) (i : SlotNo) : Nat := (s.record i).elim 0 (·.start.toNat)

/-- Place a record after the last one whose start is less than or equal to its own (R34). -/
def State.insertInto (s : State) (i : SlotNo) : List SlotNo → List SlotNo
  | [] => [i]
  | j :: js => if s.startOf j ≤ s.startOf i then j :: s.insertInto i js else i :: j :: js

/-- A record enters its channel's plan (R34). -/
def State.enterPlan (s : State) (ch : Channel) (i : SlotNo) : State :=
  s.modPlan ch fun p => { p with records := s.insertInto i p.records }

/-- A record leaves its channel's plan; the others close up in their order. -/
def State.leavePlan (s : State) (ch : Channel) (i : SlotNo) : State :=
  s.modPlan ch fun p => { p with records := p.records.filter (· ≠ i) }

/-- The record in a slot gets a new state (R15). -/
def State.setRecState (s : State) (i : SlotNo) (st : RecState) : State :=
  match s.record i with
  | none => s
  | some r => s.setRecord i { r with state := st }

/-! ### Due handling -/

/-- The front of a plan with start at or before the new time of a load: the set S of R48. -/
def State.span (s : State) (ch : Channel) (t1 : Time) : List SlotNo :=
  (s.plan ch).records.takeWhile fun i => s.startOf i ≤ t1.toNat

/-- The forward loads that a plan has still to take. A load with an empty front leaves the plan untouched (R48), so nothing is
left to take of the oldest loads whose front is empty (log 9). -/
def State.openLoads (s : State) (ch : Channel) : List (Time × Time) :=
  (s.plan ch).loads.dropWhile fun l => (s.span ch l.2).isEmpty

/-- Device time as the plan has taken it: while a forward load is still to be taken by the plan, the value before that load
(R49, log 9); device time otherwise. -/
def State.planTime (s : State) (ch : Channel) : Time :=
  match s.openLoads ch with
  | [] => s.deviceTime
  | (t0, _) :: _ => t0

/-- A record's start has been reached (R39). -/
def State.isDue (s : State) (ch : Channel) (r : Record) : Bool := r.start.toNat ≤ (s.planTime ch).toNat

/-- What a due PLANNED head does (R40). `hold` is for an OFF channel, whose plan is empty (R57): nothing. -/
inductive Fate where
  | miss | start | preempt | skip | wait | hold
  deriving DecidableEq, Repr

/-- The fate of a due PLANNED head, in the order of R40 (R139). -/
def State.fate (s : State) (ch : Channel) (policy : Policy) : Fate :=
  if s.latch then .miss
  else match (s.engine ch).state with
    | .safed => .miss
    | .idle => .start
    | .off => .hold
    | .running | .armed | .firing =>
      match policy with
      | .preempt => .preempt
      | .skip => .skip
      | .wait => .wait

/-- Hand a head to the engine: it leaves the plan and is started or, being a SET, applied (R41). -/
def State.startHead (s : State) (ch : Channel) (i : SlotNo) (r : Record) : State :=
  match r.params with
  | .set level => (s.leavePlan ch i).applySet ch i r level
  | .pulse _ | .train _ _ _ | .square _ | .armed _ _ _ _ _ | .count _ _ _ => (s.leavePlan ch i).startAction ch i r

/-- A head leaves the plan without starting (R43, R47). -/
def State.dropHead (s : State) (ch : Channel) (i : SlotNo) (res : EndResult) : State :=
  (s.leavePlan ch i).freeUnstarted res i

/-- The due handling of heads in plan order, until the head is WAITING or is not due (R39 to R46). The list is the plan's. -/
def settleList (ch : Channel) : List SlotNo → State → State
  | [], s => s
  | i :: rest, s =>
    match s.record i with
    | none => s
    | some r =>
      if r.state = .planned ∧ s.isDue ch r then
        match s.fate ch r.policy with
        | .miss => settleList ch rest (s.dropHead ch i .missed)
        | .start => settleList ch rest (s.startHead ch i r)
        | .preempt => settleList ch rest ((s.preemptCurrent ch).startHead ch i r)
        | .skip => settleList ch rest (s.dropHead ch i .skipped)
        | .wait => s.setRecState i .waiting
        | .hold => s
      else s

/-- The check of a plan's head (R39). -/
def State.checkHead (s : State) (ch : Channel) : State := settleList ch (s.plan ch).records s

/-- The check of a plan's head at a channel's end: a WAITING head is a start decision too, started on the IDLE channel whatever the
plan has still to take (R44, R45), and missed under the latch or on a SAFED channel (R139). -/
def State.checkHeadAtEnd (s : State) (ch : Channel) : State :=
  match (s.plan ch).records with
  | [] => s
  | i :: _ =>
    match s.record i with
    | none => s
    | some r =>
      if r.state = .waiting then
        match s.fate ch r.policy with
        | .miss => (s.dropHead ch i .missed).checkHead ch
        | .start => (s.startHead ch i r).checkHead ch
        | .preempt | .skip | .wait | .hold => s
      else s.checkHead ch

/-- The head of a channel's plan is WAITING (R44). -/
def State.headWaits (s : State) (ch : Channel) : Bool :=
  (s.plan ch).records.head?.any fun i => (s.record i).any fun r => r.state = .waiting

/-- The head of a channel's plan is PLANNED and due, and its start lies before device time: its due handling is outstanding from an
earlier device time (R39). -/
def State.headPassed (s : State) (ch : Channel) : Bool :=
  (s.plan ch).records.head?.any fun i => (s.record i).any fun r =>
    decide (r.state = .planned) && s.isDue ch r && decide (r.start.toNat < s.deviceTime.toNat)

/-- A WAITING head whose current action has ended as SAFED is missed by R47, and the due heads behind it (R45, R139). Where the plan
has still to take a latch setting, that setting misses it as an event of its own (R142); otherwise it goes in the event of the
end (log 11). -/
def State.missAfterSafed (s : State) (ch : Channel) : State :=
  if s.headWaits ch ∧ (s.plan ch).settings = 0 then s.checkHeadAtEnd ch else s

/-- The latch setting at a plan: due heads, a WAITING one included, are MISSED until the head is not due (R47). -/
def missDueList (ch : Channel) : List SlotNo → State → State
  | [], s => s
  | i :: rest, s =>
    match s.record i with
    | none => s
    | some r =>
      if r.state = .waiting ∨ s.isDue ch r then missDueList ch rest (s.dropHead ch i .missed) else s

/-! ### The skipped-span rule -/

/-- The skipped-span rule at a plan: all of the front but the last are MISSED in plan order, and the kept one is handled by
R40 (R48). A WAITING head that is the one record of the front stays WAITING. With an empty front the plan is untouched.
DESIGN CHOICE, unsafe, log 31: that WAITING head stays WAITING also where its action has ended and CHANNEL_END is still to be taken.
R48 keeps it WAITING because its channel is busy, R49 starts the kept record on the IDLE channel, and neither names this case;
CHANNEL_END then starts it (R45). -/
def State.skipSpan (s : State) (ch : Channel) (t1 : Time) : State :=
  if s.span ch t1 = [] then s
  else ((s.span ch t1).dropLast.foldl (fun s i => s.dropHead ch i .missed) s).checkHead ch

/-! ### Cancelling planned records -/

/-- The cancel of a PLANNED or WAITING record: freed as CANCELLED, and a new head is checked at once (R50). -/
def State.cancelPlanned (s : State) (ch : Channel) (i : SlotNo) : State :=
  let s1 := s.dropHead ch i .cancelled
  if (s.plan ch).records.head? = some i then s1.checkHead ch else s1

/-- Every record of the plan freed as CANCELLED in plan order; no head is handled while the plan empties (R51). -/
def State.emptyPlan (s : State) (ch : Channel) : State :=
  (s.modPlan ch fun p => { p with records := [] }).freeAll .cancelled (s.plan ch).records

/-! ### Cancelling by the state of the record (R25) -/

/-- A staged record leaves the staging list (R106). -/
def State.unstage (s : State) (i : SlotNo) : State :=
  { s with group := s.group.map fun g => { g with staging := g.staging.filter (· ≠ i) } }

/-- The cancel of a record, routed by its state to the block that holds it (R25, R106, R50, R71). -/
def State.cancelRecord (s : State) (i : SlotNo) (r : Record) : State :=
  match r.state with
  | .staged => (s.unstage i).freeUnstarted .cancelled i
  | .planned | .waiting => s.cancelPlanned r.channel i
  | .current => s.cancelCurrent r.channel

end Sys2Proof.Machine
end

