-- ==== Sys2Proof/Machine/TimeBase.lean ====
section
/-!
DEFINITION. Forward loads and captures: SYNC_EDGE (R8 to R12) at the Time Base and SNAPSHOT_CAPTURE (R129 to R131) at the
Snapshot Unit.
-/
namespace Sys2Proof.Machine

/-- The new device time of a forward load reaches the Snapshot Unit: a capture time at or below it is captured late (R131). -/
def Scheduled.atLoad (sc : Scheduled) (t : Time) : Scheduled :=
  if sc.due = none ∧ sc.time.toNat ≤ t.toNat then { sc with due := some (t, true) } else sc

/-! ### SYNC edges -/

/-- The direction of a SYNC edge to a level. -/
def syncDir (level : Bool) : SyncPolarity := if level then .rising else .falling

/-- The level a SYNC edge leads to. -/
def syncLevel : SyncPolarity → Bool
  | .rising => true
  | .falling => false

/-- A forward load (R10, R11): device time becomes V, and the old and the new value are handed to every plan, after those that
the plan has still to take, and to the Snapshot Unit. -/
def State.forwardLoad (s : State) (v : Time) : State :=
  { s with
    deviceTime := v
    plans := tab8 fun ch => { s.plan ch with loads := s.openLoads ch ++ [(s.deviceTime, v)] }
    snapshot := s.snapshot.map (·.atLoad v) }

/-- A SYNC edge taken at the Time Base: of the armed polarity with an arm held, it loads device time or rejects the arm, and
the tag completes in the same event (R10); any other has no effect (R8). -/
def State.takeSyncEdge (s : State) (dir : SyncPolarity) : State :=
  match s.syncArm with
  | none => s
  | some arm =>
    if arm.pol = dir then
      let s1 := { s with syncArm := none }
      if s.deviceTime.toNat < arm.value.toNat then
        (s1.forwardLoad arm.value).completeTag arm.tag .applied (.sync arm.value arm.pol s.deviceTime arm.value)
      else s1.completeTag arm.tag .rejected (.sync arm.value arm.pol s.deviceTime s.deviceTime)
    else s

/-- SYNC_EDGE: the edge that the last tick has sampled and that is not yet taken, or an edge taken ahead of the tick that
samples it (R12, log 6; what that means for the interval of a start at the load is the model's choice, log 29). -/
def State.syncEdge (s : State) (dir : SyncPolarity) : State :=
  match s.syncSampled with
  | some d => if d = dir then { s with syncSampled := none }.takeSyncEdge dir else s
  | none =>
    if s.syncPrev = some (!syncLevel dir) then { s with syncPrev := some (syncLevel dir) }.takeSyncEdge dir else s

/-! ### Captures (R130) -/

/-- One channel as a capture records it (R130). -/
def State.channelRecord (s : State) (ch : Channel) : ChannelRecord :=
  let e := s.engine ch
  { channel := ch, state := e.state, outputLevel := e.outputLevel, restLevel := e.reportedRest,
    current := e.current.map fun run => s.handle run.slot
    pulses := e.current.elim 0 (·.progress.pulses)
    edges := e.current.elim 0 (·.progress.edges)
    planLength := (s.plan ch).records.length
    pendingEdge := e.pendingEdge }

/-- The records of the channels a mask selects, in channel order (R130). -/
def State.capture (s : State) (mask : Byte) : List ChannelRecord :=
  (allChannels.filter fun ch => selects mask ch).map s.channelRecord

/-- The capture that a device time handed on has made due (R129, R131): the tag completes CAPTURED. -/
def State.takeCapture (s : State) : State :=
  match s.snapshot with
  | none => s
  | some sc =>
    match sc.due with
    | none => s
    | some (t, late) =>
      { s with snapshot := none }.completeTag sc.tag .captured (.captured sc.mask sc.time t late (s.capture sc.mask))

/-! ### The meanings -/

/-- SYNC_EDGE (R10). -/
def execSyncEdge (dir : SyncPolarity) (s : State) : StepOutcome := whileRunning (fun s => s.syncEdge dir) s

/-- SNAPSHOT_CAPTURE (R130). -/
def execSnapshotCapture (s : State) : StepOutcome := whileRunning (fun s => s.takeCapture) s

end Sys2Proof.Machine
end

