-- ==== Sys2Proof/Machine/PlanEvents.lean ====
section
/-!
DEFINITION. The events of the Plan Store: HEAD_DUE (R39, R40), CHANNEL_END (R45), SKIPPED_SPAN_RULE (R48) and
SAFE_SETTING_AT_PLAN (R47). Each ends with the IDLE_WAIT watch (R125).
-/
namespace Sys2Proof.Machine

/-- The due handling of a plan's head, and of each new head in turn, as one event (R39, R40). -/
def State.dueAtPlan (s : State) (ch : Channel) : State := watch (maskOf ch) s (s.checkHead ch)

/-- HEAD_DUE (R39, R40). -/
def execHeadDue (ch : Channel) (s : State) : StepOutcome := whileRunning (fun s => s.dueAtPlan ch) s

/-- The Plan Store takes a channel's end that an engine has handed to it (R45). -/
def State.takeEnd (s : State) (ch : Channel) : State :=
  if (s.plan ch).endHanded then (s.modPlan ch fun p => { p with endHanded := false }).checkHeadAtEnd ch else s

/-- CHANNEL_END (R45). -/
def execChannelEnd (ch : Channel) (s : State) : StepOutcome :=
  whileRunning (fun s => watch (maskOf ch) s (s.takeEnd ch)) s

/-- The Plan Store takes the oldest forward load that a plan has still to take (R48, R49). -/
def State.takeLoad (s : State) (ch : Channel) : State :=
  match s.openLoads ch with
  | [] => s
  | (_, t1) :: rest => (s.modPlan ch fun p => { p with loads := rest }).skipSpan ch t1

/-- The plan takes device times in the order in which the Time Base produced them (R49): ahead of the oldest forward load that it
has still to take comes the due handling for the device time before that load, as HEAD_DUE takes it. -/
def State.dueBeforeLoad (s : State) (ch : Channel) : State :=
  match s.openLoads ch with
  | [] => s
  | _ :: _ => s.dueAtPlan ch

/-- The skipped-span rule at a plan: the due handling for the device time before the load, and then the load (R48, R49). -/
def State.loadAtPlan (s : State) (ch : Channel) : State :=
  let s1 := s.dueBeforeLoad ch
  watch (maskOf ch) s1 (s1.takeLoad ch)

/-- SKIPPED_SPAN_RULE (R48, R49). -/
def execSkippedSpanRule (ch : Channel) (s : State) : StepOutcome := whileRunning (fun s => s.loadAtPlan ch) s

/-- The Plan Store takes a latch setting handed to a plan (R47). -/
def State.takeSettingAtPlan (s : State) (ch : Channel) : State :=
  if 0 < (s.plan ch).settings then
    missDueList ch (s.plan ch).records (s.modPlan ch fun p => { p with settings := p.settings - 1 })
  else s

/-- The latch setting at a plan as one event (R47). -/
def State.settingAtPlan (s : State) (ch : Channel) : State := watch (maskOf ch) s (s.takeSettingAtPlan ch)

/-- SAFE_SETTING_AT_PLAN (R47). -/
def execSafeSettingAtPlan (ch : Channel) (s : State) : StepOutcome := whileRunning (fun s => s.settingAtPlan ch) s

/-! ### What the plans have outstanding at a release (R47, log 32) -/

/-- A plan takes its forward loads one after the other, each as SKIPPED_SPAN_RULE takes it. The fuel is at least their number. -/
def takeOpenLoads (ch : Channel) : Nat → State → State
  | 0, s => s
  | fuel + 1, s =>
    match s.openLoads ch with
    | [] => s
    | _ :: _ => takeOpenLoads ch fuel (s.loadAtPlan ch)

/-- A plan takes this many latch settings, each as SAFE_SETTING_AT_PLAN takes it. -/
def takeSettings (ch : Channel) : Nat → State → State
  | 0, s => s
  | n + 1, s => takeSettings ch n (s.settingAtPlan ch)

/-- The due handling of a head that is outstanding from an earlier device time, as HEAD_DUE takes it (R39). -/
def State.takePassed (s : State) (ch : Channel) : State := if s.headPassed ch then s.dueAtPlan ch else s

/-- A plan takes what it has outstanding: its forward loads, its latch settings, and a due handling from an earlier device time. -/
def State.settlePlan (s : State) (ch : Channel) : State :=
  let s1 := takeOpenLoads ch (s.plan ch).loads.length s
  (takeSettings ch (s1.plan ch).settings s1).takePassed ch

/-- Every plan takes what it has outstanding, in channel order. -/
def State.settlePlans (s : State) : State := allChannels.foldl (fun s ch => s.settlePlan ch) s

end Sys2Proof.Machine
end

