-- ==== Sys2Proof/Machine/EngineEvents.lean ====
section
/-!
DEFINITION. The events of a channel engine: the phase expiries of PULSE, TRAIN and SQUARE (R67 to R69), the firing and window
expiries of ARMED and COUNT (R87 to R89, R94, R95), and the taking of a trigger edge (R83, R86, R90 to R94).
An expiry is taken when its timer stands at 0; with no such expiry the command has no effect (R28).
-/
namespace Sys2Proof.Machine

/-! ### PULSE, TRAIN and SQUARE -/

/-- The expiry of a PULSE: its natural end (R67). -/
def State.pulseExpiry (s : State) (ch : Channel) : State :=
  match s.running ch with
  | some (run, { params := .pulse _, .. }) => if run.progress.phaseDue then s.endNaturally ch .complete else s
  | _ => s

/-- PULSE_EXPIRY (R67). -/
def execPulseExpiry (ch : Channel) (s : State) : StepOutcome :=
  whileRunning (fun s => watch (maskOf ch) s (s.pulseExpiry ch)) s

/-- The expiry of a TRAIN phase: ACTIVE to REST, REST to the natural end after N pulses, otherwise a new period (R68). -/
def State.trainExpiry (s : State) (ch : Channel) : State :=
  match s.running ch with
  | some (run, { params := .train w p n, .. }) =>
    if run.progress.phaseDue then
      match run.progress.phase with
      | .active => s.enterRest ch (p - w)
      | .rest => if n ≠ 0 ∧ run.progress.pulses = n then s.endNaturally ch .complete else s.enterActive ch .active w
      | .listen | .delay | .strobe => s
    else s
  | _ => s

/-- TRAIN_PHASE_EXPIRY (R68). -/
def execTrainPhaseExpiry (ch : Channel) (s : State) : StepOutcome :=
  whileRunning (fun s => watch (maskOf ch) s (s.trainExpiry ch)) s

/-- The expiry of a SQUARE half: the other half begins (R69). -/
def State.squareExpiry (s : State) (ch : Channel) : State :=
  match s.running ch with
  | some (run, { params := .square p, .. }) =>
    if run.progress.phaseDue then
      match run.progress.phase with
      | .active => s.enterRest ch (p / 2)
      | .rest => s.enterActive ch .active ((p + 1) / 2)
      | .listen | .delay | .strobe => s
    else s
  | _ => s

/-- SQUARE_PHASE_EXPIRY (R69). -/
def execSquarePhaseExpiry (ch : Channel) (s : State) : StepOutcome := whileRunning (fun s => s.squareExpiry ch) s

/-! ### ARMED -/

/-- The channel state of a busy engine changed. -/
def State.setChanState (s : State) (ch : Channel) (st : ChanState) : State :=
  s.modEngine ch fun e => { e with state := st }

/-- A firing begins: edges counted goes up, the state is FIRING, and DELAY or ACTIVE begins (R86). The phase DELAY leaves the
output at the rest level it has; after a pulse end that change is made by the pulse end. -/
def State.beginFiring (s : State) (ch : Channel) (w d : Nat) : State :=
  let s1 := (s.modProgress ch fun p => { p with edges := satInc p.edges }).setChanState ch .firing
  if d = 0 then s1.enterActive ch .active w else s1.modProgress ch fun p => p.enter .delay d

/-- The expiry of the DELAY of a firing: its pulse begins (R87). -/
def State.delayExpiry (s : State) (ch : Channel) : State :=
  match s.running ch with
  | some (run, { params := .armed w _ _ _ _, .. }) =>
    if run.progress.phase = .delay ∧ run.progress.phaseDue then s.enterActive ch .active w else s
  | _ => s

/-- DELAY_EXPIRY (R87). -/
def execDelayExpiry (ch : Channel) (s : State) : StepOutcome := whileRunning (fun s => s.delayExpiry ch) s

/-- A held edge is dropped at a pulse end and added to overruns (R88, R84). -/
def State.dropHeldEdge (s : State) (ch : Channel) : State :=
  if (s.engine ch).pendingEdge then
    (s.modProgress ch fun p => { p with overruns := satInc p.overruns }).modEngine ch fun e => { e with pendingEdge := false }
  else s

/-- The first half of a pulse end: the output goes to rest (deferred) and firings goes up (R88). -/
def State.completeFiring (s : State) (ch : Channel) : State :=
  (s.modProgress ch fun p => { p with firings := satInc p.firings }).modEngine ch fun e => e.deferred e.restLevel

/-- What follows a pulse end, in the order of R88, with `firings` as it stands after the firing just completed. -/
def State.afterFiring (s : State) (ch : Channel) (w n d firings : Nat) (expired : Bool) : State :=
  if n ≠ 0 ∧ firings = n then (s.dropHeldEdge ch).endNaturally ch .complete
  else if expired then (s.dropHeldEdge ch).endNaturally ch .short
  else if (s.engine ch).pendingEdge then
    (s.modEngine ch fun e => { e with pendingEdge := false }).beginFiring ch w d
  else (s.modProgress ch Progress.listen).setChanState ch .armed

/-- The pulse end of an ARMED action (R88). -/
def State.pulseEnd (s : State) (ch : Channel) : State :=
  match s.running ch with
  | some (run, { params := .armed w n d _ _, .. }) =>
    if run.progress.phase = .active ∧ run.progress.phaseDue then
      (s.completeFiring ch).afterFiring ch w n d (satInc run.progress.firings) run.progress.windowExpired
    else s
  | _ => s

/-- PULSE_END (R88). -/
def execPulseEnd (ch : Channel) (s : State) : StepOutcome :=
  whileRunning (fun s => watch (maskOf ch) s (s.pulseEnd ch)) s

/-- The window's expiry is taken: window remaining reads 0 and no expiry is left to take (R89, R95). -/
def State.takeWindow (s : State) (ch : Channel) : State :=
  s.modProgress ch fun p => { p with windowRemaining := some 0, windowDue := false }

/-- The window expiry of an ARMED action: in LISTEN the action ends, in a firing it runs on (R89). -/
def State.armedWindow (s : State) (ch : Channel) : State :=
  match s.running ch with
  | some (run, { params := .armed _ _ _ _ _, .. }) =>
    if run.progress.windowDue then
      if run.progress.phase = .listen then
        (s.takeWindow ch).endNaturally ch (if run.progress.firings = 0 then .noTrigger else .short)
      else s.takeWindow ch
    else s
  | _ => s

/-- ARMED_WINDOW_EXPIRY (R89). -/
def execArmedWindowExpiry (ch : Channel) (s : State) : StepOutcome :=
  whileRunning (fun s => watch (maskOf ch) s (s.armedWindow ch)) s

/-! ### COUNT -/

/-- The expiry of the STROBE of a COUNT: its natural end (R94). -/
def State.strobeExpiry (s : State) (ch : Channel) : State :=
  match s.running ch with
  | some (run, { params := .count _ _ _, .. }) =>
    if run.progress.phase = .strobe ∧ run.progress.phaseDue then s.endNaturally ch .complete else s
  | _ => s

/-- STROBE_EXPIRY (R94). -/
def execStrobeExpiry (ch : Channel) (s : State) : StepOutcome :=
  whileRunning (fun s => watch (maskOf ch) s (s.strobeExpiry ch)) s

/-- The window expiry of a COUNT action: in LISTEN the action ends, in STROBE it runs on (R95). -/
def State.countWindow (s : State) (ch : Channel) : State :=
  match s.running ch with
  | some (run, { params := .count _ _ _, .. }) =>
    if run.progress.windowDue then
      if run.progress.phase = .listen then
        (s.takeWindow ch).endNaturally ch (if run.progress.edges = 0 then .noTrigger else .short)
      else s.takeWindow ch
    else s
  | _ => s

/-- COUNT_WINDOW_EXPIRY (R95). -/
def execCountWindowExpiry (ch : Channel) (s : State) : StepOutcome :=
  whileRunning (fun s => watch (maskOf ch) s (s.countWindow ch)) s

/-! ### Edges -/

/-- An edge that the current action cannot use (R24, R96). -/
def State.overrun (s : State) (ch : Channel) : State :=
  s.modProgress ch fun p => { p with overruns := satInc p.overruns }

/-- A stray edge (R83). -/
def State.strayEdge (s : State) (ch : Channel) : State :=
  s.modEngine ch fun e => { e with strayCount := satInc e.strayCount }

/-- An edge in DELAY or ACTIVE of an ARMED action, by the retrigger mode (R90 to R92). -/
def State.retrigger (s : State) (ch : Channel) (w : Nat) (ph : Phase) (mode : RetrigMode) : State :=
  match mode with
  | .noRetrigger => s.overrun ch
  | .extend =>
    if ph = .active then s.modProgress ch fun p => { p with phaseRemaining := some w, edges := satInc p.edges }
    else s.overrun ch
  | .holdOne =>
    if (s.engine ch).pendingEdge then s.overrun ch
    else s.modEngine ch fun e => { e with pendingEdge := true }

/-- An edge in LISTEN of a COUNT action: counted, and the N-th starts the strobe (R93). -/
def State.countEdge (s : State) (ch : Channel) (w n edges : Nat) : State :=
  let s1 := s.modProgress ch fun p => { p with edges := satInc p.edges }
  if satInc edges = n then (s1.setChanState ch .firing).enterActive ch .strobe w else s1

/-- An edge taken while the channel is ARMED or FIRING, by its current action. -/
def State.edgeToAction (s : State) (ch : Channel) : State :=
  match s.running ch with
  | some (run, { params := .armed w _ d _ mode, .. }) =>
    if run.progress.phase = .listen then s.beginFiring ch w d else s.retrigger ch w run.progress.phase mode
  | some (run, { params := .count w n _, .. }) =>
    if run.progress.phase = .listen then s.countEdge ch w n run.progress.edges else s.overrun ch
  | _ => s

/-- Engine n takes an edge (R83, R86, R90 to R94). -/
def State.takeEdge (s : State) (ch : Channel) : State :=
  match (s.engine ch).state with
  | .off | .idle | .running | .safed => s.strayEdge ch
  | .armed | .firing => s.edgeToAction ch

/-- EDGE: an edge that the trigger input has handed to the engine is taken (R81). -/
def execEdge (ch : Channel) (s : State) : StepOutcome :=
  whileRunning (fun s =>
    if 0 < (s.engine ch).edgesHanded then
      (s.modEngine ch fun e => { e with edgesHanded := e.edgesHanded - 1 }).takeEdge ch
    else s) s

end Sys2Proof.Machine
end

