-- ==== Sys2Proof/Machine/SafeLatch.lean ====
section
/-!
DEFINITION. The Safe Latch: setting (R136, R137), release (R140), and the engines' taking of both (R73, R141).
-/
namespace Sys2Proof.Machine

/-- A setting event: with the latch clear it sets the latch, writes the cause, hands SAFE_ENTERED to the Notice Queue and the
setting to every engine and every plan; with the latch set it changes nothing (R137, R138). -/
def State.setLatch (s : State) (cause : SafeCause) : State :=
  if s.latch then s
  else
    let s1 := { s with latch := true, cause := cause }.handOrdinary (.safeEntered cause s.deviceTime (enabledMask s))
    { s1 with
      engines := tab8 fun ch => { s1.engine ch with safeHanded := (s1.engine ch).safeHanded ++ [.setting] }
      plans := tab8 fun ch => { s1.plan ch with settings := (s1.plan ch).settings + 1 } }

/-- The release of a set latch: cleared, the cause kept, and the release handed to every engine (R140).
What is outstanding at the plans from the time under the latch is taken by `State.settlePlans` before it (log 32). -/
def State.clearLatch (s : State) : State :=
  { s with
    latch := false
    engines := tab8 fun ch => { s.engine ch with safeHanded := (s.engine ch).safeHanded ++ [.release] } }

/-- The falling SAFEn edge that a tick has sampled is taken (R136, R137). -/
def State.takeSafenFall (s : State) : State := if s.safenFall then { s with safenFall := false }.setLatch .line else s

/-- SAFEN_FALLING_EDGE (R136). -/
def execSafenFallingEdge (s : State) : StepOutcome := whileRunning (fun s => s.takeSafenFall) s

/-- A latch event changes nothing at an engine in this state (R73, R141). -/
def SafeEvent.idleAt : SafeEvent → ChanState → Bool
  | .setting, st => st = .off || st = .safed
  | .release, st => st ≠ .safed

/-- The latch events handed to an engine, from the oldest that is of the given sort or changes something there: those before it
change nothing and are passed over (log 23). -/
def Engine.safeFrom (e : Engine) (ev : SafeEvent) : List SafeEvent :=
  e.safeHanded.dropWhile fun x => decide (x ≠ ev) && x.idleAt e.state

/-- The oldest latch event handed to an engine, if it is of the given sort, is taken by `f` (R137: in the order made). -/
def State.takeSafeEvent (s : State) (ch : Channel) (ev : SafeEvent) (f : State → State) : State :=
  match (s.engine ch).safeFrom ev with
  | [] => s
  | e :: rest => if e = ev then f (s.modEngine ch fun en => { en with safeHanded := rest }) else s

/-- An engine's taking of the latch setting: OFF and SAFED channels stay, an IDLE one becomes SAFED, and the current action of a
busy one ends as SAFED; its WAITING head is missed (R73, R45). -/
def State.settingAtEngine (s : State) (ch : Channel) : State :=
  match (s.engine ch).state with
  | .off | .safed => s
  | .idle | .running | .armed | .firing =>
    let s1 := s.modEngine ch fun e => e.atSafeLevel .safed
    match (s.engine ch).current with
    | none => s1
    | some run => (s1.freeCurrent .safed run).missAfterSafed ch

/-- SAFE_SETTING_AT_ENGINE (R73). -/
def execSafeSettingAtEngine (ch : Channel) (s : State) : StepOutcome :=
  whileRunning (fun s => watch (maskOf ch) s (s.takeSafeEvent ch .setting fun s => s.settingAtEngine ch)) s

/-- An engine's taking of the release: a SAFED channel becomes IDLE at its safe level, and its plan's head is checked (R73, R141).
A WAITING head is no start decision at a release (R39, R44). A head whose due handling is outstanding from an earlier device time
fell due while the channel was SAFED, and is missed first (R139, R143, log 32). -/
def State.releaseAtEngine (s : State) (ch : Channel) : State :=
  if (s.engine ch).state = .safed then
    ((s.takePassed ch).modEngine ch fun e => { e with state := .idle, restLevel := e.config.safeLevel }).dueAtPlan ch
  else s

/-- SAFE_RELEASE_AT_ENGINE (R141). -/
def execSafeReleaseAtEngine (ch : Channel) (s : State) : StepOutcome :=
  whileRunning (fun s => s.takeSafeEvent ch .release fun s => s.releaseAtEngine ch) s

end Sys2Proof.Machine
end

