-- ==== Sys2Proof/Machine/Tick.lean ====
section
/-!
DEFINITION. The tick (R1 to R5) with what it samples: SYNC (R8), SAFEn (R136) and the trigger inputs (R79, R80). TICK and
FILTER_TIMER_EXPIRY.
-/
namespace Sys2Proof.Machine

/-! ### The prescaler and device time -/

/-- A rising edge of REFCLK: the new count, and whether it makes a tick (R1). -/
def refclkEdge (p : Fin 16) : Fin 16 × Bool := (p + 1, p = 15)

/-- The REFCLK edges up to and with the one that makes a tick (R1); the fuel is the most edges it can take. -/
def toTickEdge : Nat → Fin 16 → Fin 16
  | 0, p => p
  | fuel + 1, p => if (refclkEdge p).2 then (refclkEdge p).1 else toTickEdge fuel (refclkEdge p).1

/-- Device time after a tick: one more, or unchanged at the limit (R2, R3). -/
def timeAfterTick (t : Time) : Time := if t.toNat < maxTime then BitVec.ofNat 48 (t.toNat + 1) else t

/-- The new device time of a tick reaches the Snapshot Unit: at the capture time, the capture is handed on (R129). -/
def Scheduled.atTick (sc : Scheduled) (t : Time) : Scheduled :=
  if sc.due = none ∧ sc.time = t then { sc with due := some (t, false) } else sc

/-! ### Trigger inputs (R79, R80) -/

/-- The expiry of the filter timer: the filtered level takes the last sample; the level of the counted transition is told
(R80). -/
def Trigger.takeExpiry (t : Trigger) : Trigger × Option Bool :=
  if t.filterTimer = some 0 then ({ t with filtered := some t.sample, filterTimer := none }, some t.sample) else (t, none)

/-- A new sample at a tick: the trigger input, and the level of a counted transition made at once (R79, R80). -/
def Trigger.takeSample (t : Trigger) (filter : Nat) (x : Bool) : Trigger × Option Bool :=
  match t.filtered with
  | none => ({ filtered := some x, sample := x, filterTimer := none }, none)
  | some l =>
    if x = l then ({ t with sample := x, filterTimer := none }, none)
    else if filter = 0 then ({ filtered := some x, sample := x, filterTimer := none }, some x)
    else match t.filterTimer with
      | none => ({ t with sample := x, filterTimer := some filter }, none)
      | some n => ({ t with sample := x, filterTimer := some (n - 1) }, none)

/-- The edges that a counted transition makes: one where it matches the polarity (R81). -/
def edgesOf (pol : TrigPolarity) : Option Bool → Nat
  | none => 0
  | some level => if edgeMatches pol level then 1 else 0

/-- The tick at a trigger input: an expiry that an earlier tick counted and that was not yet taken is taken first (log 8),
then the new sample. The trigger input and the number of edges handed to the engine. -/
def tickTrigger (cfg : ChanConfig) (x : Bool) (t : Trigger) : Trigger × Nat :=
  let (t1, l1) := t.takeExpiry
  let (t2, l2) := t1.takeSample cfg.filter.toNat x
  (t2, edgesOf cfg.polarity l1 + edgesOf cfg.polarity l2)

/-- The filter expiry that a tick has counted at a trigger input is taken, and an edge that it makes by the polarity in force is
handed to the engine (R80, R81); with none to take nothing changes (log 8). -/
def State.takeFilterExpiry (s : State) (ch : Channel) : State :=
  let (t, level) := (s.trigger ch).takeExpiry
  (s.setTrigger ch t).modEngine ch fun e =>
    { e with edgesHanded := e.edgesHanded + edgesOf e.config.polarity level }

/-! ### The tick -/

/-- The tick at one engine: the interval closes, and the edges of its trigger input are handed to it. -/
def tickEngine (e : Engine) (newEdges : Nat) : Engine :=
  { e.closeInterval with edgesHanded := e.edgesHanded + newEdges }

/-- The SYNC edge that a new sample makes against the previous one; the first sample makes none (R8). -/
def sampledEdge (prev : Option Bool) (x : Bool) : Option SyncPolarity :=
  match prev with
  | none => none
  | some l => if x = l then none else some (syncDir x)

/-- An edge of SYNC or of SAFEn that the last tick has sampled is an event of that tick (R8, R136): where it has not yet been
taken, it is taken before the next tick (logs 6 and 7). -/
def State.takeSamples (s : State) : State :=
  (s.syncSampled.elim s s.syncEdge).takeSafenFall

/-- The tick event (R1 to R5): the prescaler comes round, every engine's interval closes and its timers count (R62, R63),
device time goes up (R2, R3) and is handed to the Snapshot Unit (R4, R129), SYNC, SAFEn and TRGn are sampled (R8, R136, R79),
and the group timer and the retry timer count (R5). A timer at 0 has its expiry still to be taken. -/
def State.countTick (s : State) (pins : Pins) : State :=
  let now := timeAfterTick s.deviceTime
  let trig := fun ch : Channel => tickTrigger (s.engine ch).config (pins.trg.getLsbD ch.val) (s.trigger ch)
  { s with
    prescaler := toTickEdge 16 s.prescaler
    deviceTime := now
    snapshot := if s.deviceTime.toNat < maxTime then s.snapshot.map (·.atTick now) else s.snapshot
    syncPrev := some pins.sync
    syncSampled := sampledEdge s.syncPrev pins.sync
    safenSample := pins.safen
    safenFall := s.safenSample && !pins.safen
    engines := tab8 fun ch => tickEngine (s.engine ch) (trig ch).2
    triggers := tab8 fun ch => (trig ch).1
    group := s.group.map fun g => { g with timer := g.timer - 1 }
    retryTimer := s.retryTimer.map (· - 1) }

/-- TICK: the sampled edges that are still to be taken, and then the tick. -/
def State.tick (s : State) (pins : Pins) : State := s.takeSamples.countTick pins

/-! ### The meanings -/

/-- TICK (R1). -/
def execTick (pins : Pins) (s : State) : StepOutcome := whileRunning (fun s => s.tick pins) s

/-- FILTER_TIMER_EXPIRY (R80). -/
def execFilterTimerExpiry (ch : Channel) (s : State) : StepOutcome := whileRunning (fun s => s.takeFilterExpiry ch) s

end Sys2Proof.Machine
end

