-- ==== Sys2Proof/Machine/GroupUnit.lean ====
section
/-!
DEFINITION. The Group Unit: discard of an open group (R110, R111, R114), the checks and the insertion of a commit
(R107 to R109), and the group timer's expiry.
-/
namespace Sys2Proof.Machine

/-- The channels that the records of a list name, as a mask. -/
def State.maskOfRecords (s : State) (is : List SlotNo) : Byte :=
  is.foldl (fun m i => (s.record i).elim m fun r => m ||| maskOf r.channel) 0

/-- Every staged record freed as DISCARDED in staging order with its report, and the group closed (R110). -/
def State.discardGroup (s : State) (g : Group) : State :=
  { s.freeAll .discarded g.staging with group := none }

/-- A group that ends with a GROUP_EXPIRED notice, after the reports of its records (R111, R114). -/
def State.expireGroup (s : State) (g : Group) (cause : GroupCause) : State :=
  (s.discardGroup g).handOrdinary (.groupExpired g.id g.staging.length cause)

/-- GROUP_TIMER_EXPIRY (R111). -/
def execGroupTimerExpiry (s : State) : StepOutcome :=
  whileRunning (fun s =>
    match s.group with
    | none => s
    | some g => if g.timer = 0 then watch (s.maskOfRecords g.staging) s (s.expireGroup g .timeout) else s) s

/-! ### Commit -/

/-- The first check of R107 that a staged record fails, `k` being the number of records of its channel that stand earlier in
the staging list. -/
def State.commitCheck (s : State) (r : Record) (k : Nat) : Option Status :=
  let now := s.deviceTime.toNat
  let start := r.start.toNat
  if start ≠ 0 ∧ start < now + s.minLead then some .tooLate
  else if start ≠ 0 ∧ now + s.horizon < start then some .tooFar
  else if start = 0 ∧ maxTime < now + s.minLead then some .tooFar
  else if Config.planCap ≤ (s.plan r.channel).records.length + k then some .planFull
  else none

/-- The first record of the staging list to fail a check, with the status; `earlier` are the channels of the records already
examined (R107). -/
def State.commitFailure (s : State) : List SlotNo → List Channel → Option (Status × SlotNo)
  | [], _ => none
  | i :: rest, earlier =>
    match s.record i with
    | none => s.commitFailure rest earlier
    | some r =>
      match s.commitCheck r (earlier.count r.channel) with
      | some st => some (st, i)
      | none => s.commitFailure rest (r.channel :: earlier)

/-- A staged record becomes PLANNED, its ASAP start resolved, and enters its channel's plan (R109, R22, R34). -/
def State.commitRecord (s : State) (i : SlotNo) : State :=
  match s.record i with
  | none => s
  | some r =>
    let start := if r.start.toNat = 0 then BitVec.ofNat 48 (s.deviceTime.toNat + s.minLead) else r.start
    (s.setRecord i { r with start := start, state := .planned }).enterPlan r.channel i

/-- A successful commit: every staged record inserted in staging order, and the group closed (R109). -/
def State.commitGroup (s : State) (g : Group) : State :=
  { g.staging.foldl State.commitRecord s with group := none }

end Sys2Proof.Machine
end

