-- ==== Sys2Proof/Machine/Link.lean ====
section
/-!
DEFINITION. The Control Link: the receive assembler (R164, R165), a valid frame (R166), link reset (R168), the transmit
arbiter (R173), and the Notice Queue's timer (R153).
-/
namespace Sys2Proof.Machine

/-! ### Receiving -/

/-- A discarded frame: one counter up, the assembler in HUNT (R165). -/
def State.discardFrame (s : State) (count : Counters → Counters) : State :=
  { s with counters := count s.counters, asm := .hunt }

/-- The request is appended to the Receive Queue; the stall and the consecutive-expiry count are cleared and the link is OPEN
(R154, R166 step 4, R169). -/
def State.appendRequest (s : State) (rq : Request) : State :=
  { s with rxQueue := s.rxQueue ++ [rq], stall := false, expiries := 0, linkOpen := true }

/-- A valid frame, examined in the order of R166: type, duplicate, overflow, append. -/
def State.takeFrame (s : State) (body : List Byte) : State :=
  match body with
  | ty :: seq :: kind :: fields =>
    if ty ≠ 0x51#8 then { s with counters := { s.counters with strayType := satInc s.counters.strayType } }
    else if seq ≠ 0 ∧ s.rxQueue.any (·.seq = seq) then s
    else if Config.linkCap ≤ s.rxQueue.length then
      { s with counters := { s.counters with overflow := satInc s.counters.overflow } }
    else s.appendRequest { seq := seq, kind := kind, fields := fields }
  | _ => s

/-- The second CRC byte: a good CRC makes the frame valid, a mismatch discards it (R164, R165). -/
def State.checkFrame (s : State) (len : Nat) (body : List Byte) (lo hi : Byte) : State :=
  if leBytes 2 (crcOf (BitVec.ofNat 8 len :: body)).toNat = [lo, hi] then { s with asm := .hunt }.takeFrame body
  else s.discardFrame fun c => { c with crc := satInc c.crc }

/-- A byte with a good stop bit, by the state of the assembler (R164). -/
def State.takeGoodByte (s : State) (b : Byte) : State :=
  match s.asm with
  | .hunt => if b = 0xC5#8 then { s with asm := .length } else s
  | .length =>
    if 3 ≤ b.toNat ∧ b.toNat ≤ 128 then { s with asm := .body b.toNat [] }
    else s.discardFrame fun c => { c with length := satInc c.length }
  | .body len stored =>
    if len ≤ (stored ++ [b]).length then { s with asm := .check len (stored ++ [b]) none }
    else { s with asm := .body len (stored ++ [b]) }
  | .check len body none => { s with asm := .check len body (some b) }
  | .check len body (some lo) => s.checkFrame len body lo b

/-- A byte completes on RXD: with a bad stop bit it is a framing error in any state of the assembler (R164, R165), and RXD stays
low from it on until a byte with a good stop bit shows that it has returned to 1 (R165, R167). -/
def State.takeByte (s : State) (rx : RxByte) : State :=
  if rx.stop then { s with lowSpan := false }.takeGoodByte rx.value
  else { s with lowSpan := true }.discardFrame fun c => { c with framing := satInc c.framing }

/-- BYTE_RECEIVED (R164). -/
def execByteReceived (rx : RxByte) (s : State) : StepOutcome := whileRunning (fun s => s.takeByte rx) s

/-- REQUEST_FRAME_RECEIVED: the bytes of a frame up to its end, each taken as the assembler takes it; the last is the frame's
second CRC byte, at which the frame is examined (R166, log 5). -/
def execRequestFrameReceived (bytes : List RxByte) (s : State) : StepOutcome :=
  whileRunning (fun s => bytes.foldl State.takeByte s) s

/-- GAP_TIMER_EXPIRY: a frame in assembly is discarded (R165). -/
def execGapTimerExpiry (s : State) : StepOutcome :=
  whileRunning (fun s =>
    if s.asm.gapRunning then s.discardFrame fun c => { c with gap := satInc c.gap } else s) s

/-! ### Link reset -/

/-- The Notice Queue's taking of a link reset (R158). -/
def State.noticesAtLinkReset (s : State) : State := { s.unsendAll with retryTimer := none, stall := false, expiries := 0 }

/-- The five steps of R168 in the one event. A frame on TXD goes on (R168, R173), and the low span has given its one reset
(R167). -/
def State.linkReset (s : State) : State :=
  let s1 := { s with asm := .hunt, lowSpan := false, rxQueue := [], replies := [], cache := [], linkOpen := false }.noticesAtLinkReset
  match s1.group with
  | none => s1
  | some g => watch (s1.maskOfRecords g.staging) s1 (s1.expireGroup g .link)

/-- LINK_RESET (R168): a break is a low span that has given its framing error and no link reset yet; without one there is
nothing to take (R167, R176). -/
def execLinkReset (s : State) : StepOutcome := whileRunning (fun s => if s.lowSpan then s.linkReset else s) s

/-! ### Transmitting -/

/-- The body of a reply frame (R162, R178). -/
def replyBytes (r : Reply) : List Byte := [0x52, r.seq, r.kind, statusCode r.status] ++ r.fields

/-- The arbiter begins the oldest reply: it leaves the Reply Queue (R173). -/
def State.beginReply (s : State) (r : Reply) (rest : List Reply) : State :=
  { s with replies := rest, tx := some (frameOf (replyBytes r)) }

/-- The arbiter begins the offered notice: it is marked sent, and the retry timer starts when the window was empty
(R151, R152). -/
def State.beginNotice (s : State) (n : Notice) : State :=
  let s1 := if s.sentCount = 0 then s.startRetry else s
  { s1 with notices := markOldestUnsent s1.notices, tx := some (frameOf (noticeBytes n)) }

/-- The arbiter's choice while the line is free: a reply, else the offered notice, else nothing (R173). -/
def State.arbiterChoice (s : State) : State :=
  match s.replies with
  | r :: rest => s.beginReply r rest
  | [] =>
    match s.offered with
    | some n => s.beginNotice n
    | none => s

/-- REPLY_SEND: with the line free, the oldest reply is begun (R173). -/
def execReplySend (s : State) : StepOutcome :=
  whileRunning (fun s =>
    match s.tx, s.replies with
    | none, r :: rest => s.beginReply r rest
    | _, _ => s) s

/-- NOTICE_SEND: with the line free and no reply waiting, the offered notice is begun (R151, R173). -/
def execNoticeSend (s : State) : StepOutcome :=
  whileRunning (fun s =>
    match s.tx, s.replies, s.offered with
    | none, [], some n => s.beginNotice n
    | _, _, _ => s) s

/-- FRAME_TRANSMITTED: the frame on TXD ends, and the arbiter makes its next choice (R173). -/
def execFrameTransmitted (s : State) : StepOutcome :=
  whileRunning (fun s => if s.tx.isSome then { s with tx := none }.arbiterChoice else s) s

/-- The expiry of the retry timer: every notice unsent, the expiry counted, the stall at the eighth (R153, R154). -/
def State.retryExpiry (s : State) : State :=
  let n := s.expiries + 1
  { s.unsendAll with
    retryTimer := none
    expiries := min n Config.stallAfter
    stall := s.stall || decide (Config.stallAfter ≤ n) }

/-- RETRY_TIMER_EXPIRY (R153). -/
def execRetryTimerExpiry (s : State) : StepOutcome :=
  whileRunning (fun s => if s.retryTimer = some 0 then s.retryExpiry else s) s

end Sys2Proof.Machine
end

