-- ==== Sys2Proof/Machine/Dispatcher.lean ====
section
/-!
DEFINITION. The Request Dispatcher: taking the request at the head of the Receive Queue (R170, R171), the reply and the reply
cache (R171, R172), REPLY_FROM_CACHE and BAD_KIND (R177).
-/
namespace Sys2Proof.Machine

/-- What a block answers to a request: the status and the fields after it (R178). -/
abbrev Response := Status × List Byte

/-- A status without fields. -/
def bare (st : Status) : Response := (st, [])

/-- The cache entry that answers a request: same nonzero sequence and same kind (R171 step 1, R172). -/
def State.cached (s : State) (rq : Request) : Option Reply :=
  if rq.seq = 0 then none else s.cache.find? fun e => e.seq = rq.seq && e.kind = rq.kind

/-- A new entry of the cache; with 4 entries the oldest is removed to make room (R172). -/
def cachePush (cache : List Reply) (r : Reply) : List Reply :=
  (if Config.linkCap ≤ cache.length then cache.drop 1 else cache) ++ [r]

/-- The reply to a request is appended to the Reply Queue, and to the cache when the sequence is nonzero (R171, R172). -/
def State.answer (s : State) (rq : Request) (resp : Response) : State :=
  let r : Reply := { seq := rq.seq, kind := rq.kind, status := resp.1, fields := resp.2 }
  { s with
    replies := s.replies ++ [r]
    cache := if rq.seq = 0 then s.cache else cachePush s.cache r }

/-- The Dispatcher takes the head when the Receive Queue is not empty and the Reply Queue holds fewer than 4 replies (R171),
where the head is one that `p` accepts. -/
def State.takeHead (s : State) (p : Request → Bool) (f : State → Request → State) : State :=
  match s.rxQueue with
  | [] => s
  | rq :: rest =>
    if s.replies.length < Config.linkCap ∧ p rq = true then f { s with rxQueue := rest } rq else s

/-- The request is carried out by its owning block, after BAD_LENGTH, and answered (R171 steps 3 and 4, R177). -/
def carryOut (len : Nat) (h : List Byte → State → Response × State) (s : State) (rq : Request) : State :=
  if rq.fields.length + 3 = len then (h rq.fields s).2.answer rq (h rq.fields s).1
  else s.answer rq (bare .badLength)

/-- The head is a request of the given kind that the cache does not answer. -/
def State.isKind (s : State) (kind : Byte) (rq : Request) : Bool := rq.kind = kind && (s.cached rq).isNone

/-- A request of one kind is taken and carried out by `h`; where the head is no such request, nothing happens (log 4). -/
def State.takeRequest (s : State) (kind : Byte) (len : Nat) (h : List Byte → State → Response × State) : State :=
  s.takeHead (s.isKind kind) (carryOut len h)

/-- REPLY_FROM_CACHE: the cached reply is appended and the request is not carried out (R171 step 1, R172). -/
def execReplyFromCache (s : State) : StepOutcome :=
  whileRunning (fun s =>
    s.takeHead (fun rq => (s.cached rq).isSome) fun s1 rq =>
      match s1.cached rq with
      | none => s1
      | some r => { s1 with replies := s1.replies ++ [r] }) s

/-- BAD_KIND: a kind code that is not defined is answered BAD_KIND (R171 step 2, R177). -/
def execBadKind (s : State) : StepOutcome :=
  whileRunning (fun s =>
    s.takeHead (fun rq => (s.cached rq).isNone && (requestLen rq.kind).isNone) fun s1 rq =>
      s1.answer rq (bare .badKind)) s

end Sys2Proof.Machine
end

