-- ==== Sys2Proof/Machine/ConfigRequests.lean ====
section
/-!
DEFINITION. The requests that read and set the part as a whole: IDENTIFY (R180), READ_STATUS (R182), READ_TIME (R7),
SET_GLOBAL (R183), SET_CHANNEL (R56, R57, R82), READ_CONFIG (R181).
-/
namespace Sys2Proof.Machine

/-- The fields of the IDENTIFY reply (R180). -/
def identifyFields : List Byte :=
  leBytes 2 Config.vendorCode ++ leBytes 2 Config.partNumber
    ++ [BitVec.ofNat 8 Config.revision, 8] ++ leBytes 2 256
    ++ [BitVec.ofNat 8 Config.planCap, BitVec.ofNat 8 Config.stagingCap, BitVec.ofNat 8 Config.tagCap,
        BitVec.ofNat 8 Config.noticeCap]

/-- IDENTIFY (R180). -/
def execIdentify (s : State) : StepOutcome :=
  whileRunning (fun s => s.takeRequest 0x01 3 fun _ s => ((.ok, identifyFields), s)) s

/-- The fields of the READ_STATUS reply (R182). -/
def State.statusFields (s : State) : List Byte :=
  leBytes 2 s.counters.crc ++ leBytes 2 s.counters.length ++ leBytes 2 s.counters.gap ++ leBytes 2 s.counters.framing
    ++ leBytes 2 s.counters.overflow ++ leBytes 2 s.counters.strayType
    ++ leBytes 2 s.freeList.length ++ leBytes 1 (s.countIn .staged) ++ leBytes 2 (s.countIn .planned)
    ++ leBytes 1 (s.countIn .waiting) ++ leBytes 1 (s.countIn .current)
    ++ leBytes 1 s.tagsInUse ++ leBytes 1 s.notices.length ++ leBytes 1 s.sentCount ++ leBytes 2 s.lossCount
    ++ [statusFlags s, safeCauseCode s.cause] ++ leBytes 1 (s.group.elim 0 (·.id))

/-- READ_STATUS: the counters are set to 0 after they have been read when the clear flag is set (R175, R182). -/
def State.readStatus (s : State) (fs : List Byte) : Response × State :=
  match flagField fs 0 with
  | none => (bare .badParam, s)
  | some clear => ((.ok, s.statusFields), if clear then { s with counters := .zero } else s)

/-- READ_STATUS (R182). -/
def execReadStatus (s : State) : StepOutcome :=
  whileRunning (fun s => s.takeRequest 0x02 4 fun fs s => s.readStatus fs) s

/-- The fields of the READ_TIME reply (R7): V, polarity and tag are 0 while no arm is held (R178). -/
def State.timeFields (s : State) : List Byte :=
  timeBytes s.deviceTime ++ [timeFlags s]
    ++ (match s.syncArm with
        | none => timeBytes 0 ++ [0, 0]
        | some arm => timeBytes arm.value ++ [syncPolarityCode arm.pol, BitVec.ofNat 8 arm.tag])

/-- READ_TIME (R7). -/
def execReadTime (s : State) : StepOutcome :=
  whileRunning (fun s => s.takeRequest 0x03 3 fun _ s => ((.ok, s.timeFields), s)) s

/-- The four global settings as the SET_GLOBAL reply gives them. -/
def State.globalFields (s : State) : List Byte :=
  leBytes 2 s.minLead ++ leBytes 6 s.horizon ++ leBytes 2 s.groupDefault ++ leBytes 2 s.retryTime

/-- A selected setting must lie in its range; one not selected is not checked (R183). -/
def inRange (selected : Bool) (lo hi x : Nat) : Bool := !selected || (decide (lo ≤ x) && decide (x ≤ hi))

/-- SET_GLOBAL: all selected settings take their values, or none does (R183). -/
def State.setGlobal (s : State) (fs : List Byte) : Response × State :=
  let sel := byteField fs 0
  let l := field fs 1 2
  let h := field fs 3 6
  let g := field fs 9 2
  let r := field fs 11 2
  if 16 ≤ sel.toNat then (bare .badParam, s)
  else if inRange (sel.getLsbD 0) Config.minLeadMin Config.minLeadMax l
      && inRange (sel.getLsbD 1) Config.horizonMin Config.horizonMax h
      && inRange (sel.getLsbD 2) Config.groupDefaultMin Config.groupDefaultMax g
      && inRange (sel.getLsbD 3) Config.retryTimeMin Config.retryTimeMax r then
    let s1 := { s with
      minLead := if sel.getLsbD 0 then l else s.minLead
      horizon := if sel.getLsbD 1 then h else s.horizon
      groupDefault := if sel.getLsbD 2 then g else s.groupDefault
      retryTime := if sel.getLsbD 3 then r else s.retryTime }
    ((.ok, s1.globalFields), s1)
  else (bare .badParam, s)

/-- SET_GLOBAL (R183). -/
def execSetGlobal (s : State) : StepOutcome :=
  whileRunning (fun s => s.takeRequest 0x04 16 fun fs s => s.setGlobal fs) s

/-! ### SET_CHANNEL -/

/-- What an accepted SET_CHANNEL does at the engine (R57). A busy engine is never reached (R56): only the record changes. -/
def Engine.configure (e : Engine) (cfg : ChanConfig) (latch : Bool) : Engine :=
  let e1 := { e with config := cfg }
  match e.state, cfg.enabled with
  | .off, false => e1.immediate cfg.safeLevel
  | .off, true =>
    { e1.immediate cfg.safeLevel with restLevel := cfg.safeLevel, state := if latch then .safed else .idle }
  | .idle, false => { e1.immediate cfg.safeLevel with state := .off }
  | .idle, true => e1
  | .safed, false => { e1.immediate cfg.safeLevel with state := .off }
  | .safed, true => { e1.immediate cfg.safeLevel with restLevel := cfg.safeLevel }
  | .running, _ => e1
  | .armed, _ => e1
  | .firing, _ => e1

/-- What an accepted SET_CHANNEL does at the trigger input (R82): the trigger input, and the level of a counted transition
made at this event. -/
def Trigger.configure (t : Trigger) (filter : Nat) : Trigger × Option Bool :=
  match t.filtered with
  | none => ({ t with filterTimer := none }, none)
  | some l =>
    if t.sample = l then ({ t with filterTimer := none }, none)
    else if filter = 0 then ({ t with filtered := some t.sample, filterTimer := none }, some t.sample)
    else ({ t with filterTimer := some filter }, none)

/-- The channel is busy, its plan holds a record, or a staged record names it (R56 step 4). -/
def State.channelInUse (s : State) (ch : Channel) : Bool :=
  (s.engine ch).state.busy || !(s.plan ch).records.isEmpty || s.stagedOn ch

/-- The new configuration of a channel is stored and acted on (R57, R82). An expiry of the filter timer that an earlier tick has
counted is part of that tick (R80): it is taken first, by the configuration then in force (log 8). -/
def State.configure (s : State) (ch : Channel) (cfg : ChanConfig) : State :=
  let s1 := s.takeFilterExpiry ch
  let (t, level) := (s1.trigger ch).configure cfg.filter.toNat
  (s1.setTrigger ch t).modEngine ch fun e =>
    { e.configure cfg s.latch with edgesHanded := e.edgesHanded + edgesOf cfg.polarity level }

/-- SET_CHANNEL with its checks in order (R56). -/
def State.setChannel (s : State) (fs : List Byte) : Response × State :=
  match flagField fs 1, flagField fs 2, trigPolarityOf (field fs 3 1) with
  | some enabled, some safeLevel, some polarity =>
    match toChannel (field fs 0 1) with
    | none => (bare .badChannel, s)
    | some ch =>
      if s.channelInUse ch then (bare .busy, s)
      else (bare .ok, s.configure ch { enabled := enabled, safeLevel := safeLevel, polarity := polarity,
                                        filter := byteField fs 4 })
  | _, _, _ => (bare .badParam, s)

/-- SET_CHANNEL (R56). -/
def execSetChannel (s : State) : StepOutcome :=
  whileRunning (fun s => s.takeRequest 0x05 8 fun fs s => s.setChannel fs) s

/-- A configuration record in a reply. -/
def configBytes (c : ChanConfig) : List Byte :=
  [flagBit c.enabled, flagBit c.safeLevel, trigPolarityCode c.polarity, c.filter]

/-- READ_CONFIG (R181). -/
def execReadConfig (s : State) : StepOutcome :=
  whileRunning (fun s => s.takeRequest 0x06 3 fun _ s =>
    ((.ok, (allChannels.flatMap fun ch => configBytes (s.engine ch).config) ++ s.globalFields), s)) s

end Sys2Proof.Machine
end

