-- ==== Sys2Proof/Machine/PlanRequests.lean ====
section
/-!
DEFINITION. The requests about actions and plans: SCHEDULE and STAGING_SCHEDULE (R36 to R38, R104, R105), CANCEL (R25),
CANCEL_CHANNEL (R51), QUERY_ACTION (R31), QUERY_CHANNEL (R52).
-/
namespace Sys2Proof.Machine

/-! ### SCHEDULE -/

/-- The fields of a SCHEDULE reply: handle, and the tag, 0 when none was asked for (R178). -/
def scheduleReply (h : Handle) (tag : Option Nat) : List Byte := leBytes 2 h.toNat ++ [BitVec.ofNat 8 (tag.getD 0)]

/-- The start of a direct SCHEDULE after the checks TOO_LATE and TOO_FAR, an ASAP start resolved (R37). -/
def State.directStart (s : State) (start : Time) : Except Status Time :=
  let now := s.deviceTime.toNat
  if start.toNat = 0 then
    if maxTime < now + s.minLead then .error .tooFar else .ok (BitVec.ofNat 48 (now + s.minLead))
  else if start.toNat < now + s.minLead then .error .tooLate
  else if now + s.horizon < start.toNat then .error .tooFar
  else .ok start

/-- A direct SCHEDULE from the check TOO_LATE on: refused, or admitted into its plan (R36 steps 6 to 10, R38). -/
def State.admitDirect (s : State) (q : ScheduleFields) (ch : Channel) : Response × State :=
  match s.directStart q.start with
  | .error st => (bare st, s)
  | .ok start =>
    if Config.planCap ≤ (s.plan ch).records.length then (bare .planFull, s)
    else match s.allocate q ch start .planned with
      | .error st => (bare st, s)
      | .ok (i, tag, s1) =>
        ((if q.tagged then .deferred else .ok, scheduleReply (s.handle i) tag), s1.enterPlan ch i)

/-- A staging SCHEDULE from the check NO_GROUP on: refused, or staged (R104, R105). -/
def State.stage (s : State) (q : ScheduleFields) (ch : Channel) : Response × State :=
  match s.group with
  | none => (bare .noGroup, s)
  | some g =>
    if Config.stagingCap ≤ g.staging.length then (bare .groupFull, s)
    else if q.start.toNat ≠ 0 ∧ s.deviceTime.toNat + s.horizon < q.start.toNat then (bare .tooFar, s)
    else match s.allocate q ch q.start .staged with
      | .error st => (bare st, s)
      | .ok (i, tag, s1) =>
        ((.staged, scheduleReply (s.handle i) tag), { s1 with group := some { g with staging := g.staging ++ [i] } })

/-- A SCHEDULE with its first checks in order, then handed on by its group flag (R36). -/
def State.doSchedule (s : State) (fs : List Byte) : Response × State :=
  match scheduleFields fs with
  | none => (bare .badParam, s)
  | some q =>
    match toChannel q.channel with
    | none => (bare .badChannel, s)
    | some ch =>
      if (s.engine ch).state = .off then (bare .channelOff, s)
      else if q.grouped then s.stage q ch
      else s.admitDirect q ch

/-- The group flag of a SCHEDULE body of the right length is set. -/
def isStaging (rq : Request) : Bool := rq.fields.length = 29 && decide (field rq.fields 5 1 = 1)

/-- SCHEDULE: a request of that kind that is not a staging one (R36). -/
def execSchedule (s : State) : StepOutcome :=
  whileRunning (fun s =>
    s.takeHead (fun rq => s.isKind 0x10 rq && !isStaging rq) (carryOut 32 fun fs s => s.doSchedule fs)) s

/-- STAGING_SCHEDULE: a SCHEDULE with the group flag set (R104). -/
def execStagingSchedule (s : State) : StepOutcome :=
  whileRunning (fun s =>
    s.takeHead (fun rq => s.isKind 0x10 rq && isStaging rq) (carryOut 32 fun fs s => s.doSchedule fs)) s

/-! ### CANCEL and CANCEL_CHANNEL -/

/-- The handle field of a request. -/
def handleField (fs : List Byte) : Handle := BitVec.ofNat 16 (field fs 0 2)

/-- CANCEL: a stale handle is NO_SUCH_ACTION; otherwise the record is cancelled by the block that holds it (R16, R25). -/
def State.doCancel (s : State) (fs : List Byte) : Response × State :=
  match s.lookup (handleField fs) with
  | none => (bare .noSuchAction, s)
  | some (i, r) => (bare .ok, watch (maskOf r.channel) s (s.cancelRecord i r))

/-- CANCEL (R25). -/
def execCancel (s : State) : StepOutcome :=
  whileRunning (fun s => s.takeRequest 0x11 5 fun fs s => s.doCancel fs) s

/-- The records of a channel cancelled: its plan in plan order, then the current action when asked (R51). -/
def State.cancelAll (s : State) (ch : Channel) (current : Bool) : State :=
  if current then (s.emptyPlan ch).cancelCurrent ch else s.emptyPlan ch

/-- The number of records that a CANCEL_CHANNEL frees (R51). -/
def State.cancelCount (s : State) (ch : Channel) (current : Bool) : Nat :=
  (s.plan ch).records.length + if current && (s.engine ch).current.isSome then 1 else 0

/-- CANCEL_CHANNEL with its checks in order (R51). -/
def State.doCancelChannel (s : State) (fs : List Byte) : Response × State :=
  match flagField fs 1 with
  | none => (bare .badParam, s)
  | some current =>
    match toChannel (field fs 0 1) with
    | none => (bare .badChannel, s)
    | some ch =>
      ((.ok, leBytes 1 (s.cancelCount ch current)), watch (maskOf ch) s (s.cancelAll ch current))

/-- CANCEL_CHANNEL (R51). -/
def execCancelChannel (s : State) : StepOutcome :=
  whileRunning (fun s => s.takeRequest 0x12 5 fun fs s => s.doCancelChannel fs) s

/-! ### QUERY_ACTION and QUERY_CHANNEL -/

/-- The progress part of a CURRENT record, held by its channel's engine (R24). -/
def State.progressOf (s : State) (r : Record) : Option Progress :=
  if r.state = .current then (s.engine r.channel).current.map (·.progress) else none

/-- The progress fields of the QUERY_ACTION reply; absent fields are 0 (R31, R178). -/
def progressFields : Option Progress → List Byte
  | none => List.replicate 23 0
  | some p =>
    [phaseCode p.phase] ++ leBytes 3 (p.phaseRemaining.getD 0) ++ leBytes 4 (p.windowRemaining.getD 0)
      ++ leBytes 2 p.pulses ++ leBytes 2 p.firings ++ leBytes 2 p.edges ++ leBytes 2 p.overruns
      ++ [flagBit p.late] ++ timeBytes p.actualStart

/-- The fields of the QUERY_ACTION reply (R31). -/
def State.actionFields (s : State) (r : Record) : List Byte :=
  [recStateCode r.state, BitVec.ofNat 8 r.channel.val, kindCode r.params] ++ timeBytes r.start
    ++ [actionPresence (s.progressOf r)] ++ progressFields (s.progressOf r)

/-- QUERY_ACTION (R31). -/
def execQueryAction (s : State) : StepOutcome :=
  whileRunning (fun s => s.takeRequest 0x13 5 fun fs s =>
    match s.lookup (handleField fs) with
    | none => (bare .noSuchAction, s)
    | some (_, r) => ((.ok, s.actionFields r), s)) s

/-- The fields of the QUERY_CHANNEL reply (R52). -/
def State.channelFields (s : State) (ch : Channel) : List Byte :=
  let e := s.engine ch
  let plan := (s.plan ch).records
  let head := plan.head?
  [chanStateCode e.state, flagBit e.outputLevel, flagBit e.reportedRest,
   flagByte [e.current.isSome, head.isSome, e.pendingEdge]]
    ++ handleBytes (e.current.map fun run => s.handle run.slot)
    ++ leBytes 1 plan.length ++ handleBytes (head.map s.handle)
    ++ leBytes 6 (head.elim 0 s.startOf)
    ++ [head.elim 0 fun i => (s.record i).elim 0 fun r => recStateCode r.state]
    ++ leBytes 2 e.strayCount

/-- QUERY_CHANNEL with its checks in order; the clear flag sets the stray-edge count to 0 after it has been read (R52). -/
def State.queryChannel (s : State) (fs : List Byte) : Response × State :=
  match flagField fs 1 with
  | none => (bare .badParam, s)
  | some clear =>
    match toChannel (field fs 0 1) with
    | none => (bare .badChannel, s)
    | some ch =>
      ((.ok, s.channelFields ch), if clear then s.modEngine ch fun e => { e with strayCount := 0 } else s)

/-- QUERY_CHANNEL (R52). -/
def execQueryChannel (s : State) : StepOutcome :=
  whileRunning (fun s => s.takeRequest 0x14 5 fun fs s => s.queryChannel fs) s

end Sys2Proof.Machine
end

