-- ==== Sys2Proof/Machine/GroupRequests.lean ====
section
/-!
DEFINITION. The requests of the Group Unit: GROUP_BEGIN (R102), GROUP_COMMIT (R107 to R109), GROUP_ABORT (R110).
-/
namespace Sys2Proof.Machine

/-- GROUP_BEGIN with its checks in order (R102). -/
def State.groupBegin (s : State) (fs : List Byte) : Response × State :=
  let asked := field fs 0 2
  let ms := if asked = 0 then s.groupDefault else asked
  if Config.groupDefaultMax < asked then (bare .badParam, s)
  else if s.group.isSome then (bare .groupOpen, s)
  else
    ((.ok, leBytes 1 s.nextGroupId ++ leBytes 2 ms),
     { s with
       group := some { id := s.nextGroupId, staging := [], timer := ms * Config.ticksPerMs }
       nextGroupId := if s.nextGroupId < 255 then s.nextGroupId + 1 else 1 })

/-- GROUP_BEGIN (R102). -/
def execGroupBegin (s : State) : StepOutcome :=
  whileRunning (fun s => s.takeRequest 0x20 5 fun fs s => s.groupBegin fs) s

/-- GROUP_COMMIT: every staged record checked in staging order; all inserted, or the group left as it was (R107 to R109). -/
def State.groupCommit (s : State) : Response × State :=
  match s.group with
  | none => (bare .noGroup, s)
  | some g =>
    match s.commitFailure g.staging [] with
    | some (st, i) => ((st, leBytes 2 (s.handle i).toNat), s)
    | none => ((.ok, leBytes 1 g.staging.length), s.commitGroup g)

/-- GROUP_COMMIT (R107). -/
def execGroupCommit (s : State) : StepOutcome :=
  whileRunning (fun s => s.takeRequest 0x21 3 fun _ s => s.groupCommit) s

/-- GROUP_ABORT (R110). -/
def State.groupAbort (s : State) : Response × State :=
  match s.group with
  | none => (bare .noGroup, s)
  | some g => ((.ok, leBytes 1 g.staging.length), watch (s.maskOfRecords g.staging) s (s.discardGroup g))

/-- GROUP_ABORT (R110). -/
def execGroupAbort (s : State) : StepOutcome :=
  whileRunning (fun s => s.takeRequest 0x22 3 fun _ s => s.groupAbort) s

end Sys2Proof.Machine
end

