-- ==== Sys2Proof/Machine/TagRequests.lean ====
section
/-!
DEFINITION. The deferred requests: SNAPSHOT (R127, R128), WAIT_IDLE (R124), ARM_SYNC (R9), CANCEL_TAG (R122, R13, R132).
-/
namespace Sys2Proof.Machine

/-- SNAPSHOT with its checks in order; a capture time of 0 captures at once (R127, R128). -/
def State.doSnapshot (s : State) (fs : List Byte) : Response × State :=
  let mask := byteField fs 0
  let t : Time := BitVec.ofNat 48 (field fs 1 6)
  let now := s.deviceTime.toNat
  if mask = 0 then (bare .badParam, s)
  else if s.snapshot.isSome then (bare .busy, s)
  else if t.toNat ≠ 0 ∧ t.toNat < now + s.minLead then (bare .tooLate, s)
  else if t.toNat ≠ 0 ∧ now + s.horizon < t.toNat then (bare .tooFar, s)
  else if s.tagsFull then (bare .tagsFull, s)
  else
    let tag := s.tagToGive
    let s1 := s.allocTag (.snapshot mask)
    ((.deferred, leBytes 1 tag),
     if t.toNat = 0 then s1.completeTag tag .captured (.captured mask 0 s.deviceTime false (s.capture mask))
     else { s1 with snapshot := some { mask := mask, time := t, tag := tag, due := none } })

/-- SNAPSHOT (R127). -/
def execSnapshot (s : State) : StepOutcome :=
  whileRunning (fun s => s.takeRequest 0x30 10 fun fs s => s.doSnapshot fs) s

/-- WAIT_IDLE (R124). -/
def State.waitIdle (s : State) (fs : List Byte) : Response × State :=
  let mask := byteField fs 0
  if s.maskQuiet mask then ((.ok, leBytes 1 0), s)
  else if s.tagsFull then (bare .tagsFull, s)
  else ((.deferred, leBytes 1 s.tagToGive), s.allocTag (.idleWait mask))

/-- WAIT_IDLE (R124). -/
def execWaitIdle (s : State) : StepOutcome :=
  whileRunning (fun s => s.takeRequest 0x31 4 fun fs s => s.waitIdle fs) s

/-- ARM_SYNC with its checks in order (R9). -/
def State.armSync (s : State) (fs : List Byte) : Response × State :=
  match syncPolarityOf (field fs 6 1) with
  | none => (bare .badParam, s)
  | some pol =>
    if s.syncArm.isSome then (bare .busy, s)
    else if s.tagsFull then (bare .tagsFull, s)
    else
      ((.deferred, leBytes 1 s.tagToGive),
       { s.allocTag .sync with
         syncArm := some { value := BitVec.ofNat 48 (field fs 0 6), pol := pol, tag := s.tagToGive } })

/-- ARM_SYNC (R9). -/
def execArmSync (s : State) : StepOutcome :=
  whileRunning (fun s => s.takeRequest 0x32 10 fun fs s => s.armSync fs) s

/-! ### CANCEL_TAG -/

/-- The Time Base ends a sync arm as CANCELLED, device time unchanged (R13). -/
def State.cancelArm (s : State) (tag : Nat) : State :=
  match s.syncArm with
  | none => s
  | some arm =>
    { s with syncArm := none }.completeTag tag .cancelled (.sync arm.value arm.pol s.deviceTime s.deviceTime)

/-- The Snapshot Unit unschedules its snapshot as CANCELLED (R132). -/
def State.cancelSnapshot (s : State) (tag : Nat) : State :=
  match s.snapshot with
  | none => s
  | some sc =>
    { s with snapshot := none }.completeTag tag .cancelled (.uncaptured sc.mask sc.time s.deviceTime)

/-- The owner of an OPEN tag's subject ends it as CANCELLED (R122). -/
def State.cancelSubject (s : State) (e : OpenTag) : State :=
  match e.subject with
  | .action h =>
    match s.lookup h with
    | none => s
    | some (i, r) => watch (maskOf r.channel) s (s.cancelRecord i r)
  | .sync => s.cancelArm e.tag
  | .idleWait mask => s.completeTag e.tag .cancelled (.idleWait mask s.deviceTime)
  | .snapshot _ => s.cancelSnapshot e.tag

/-- CANCEL_TAG (R122). -/
def State.doCancelTag (s : State) (fs : List Byte) : Response × State :=
  let tag := field fs 0 1
  match s.tagsOpen.find? (·.tag = tag) with
  | some e => (bare .ok, s.cancelSubject e)
  | none => if s.tagsWaiting.any (·.tag = tag) then (bare .alreadyEnded, s) else (bare .noSuchTag, s)

/-- CANCEL_TAG (R122). -/
def execCancelTag (s : State) : StepOutcome :=
  whileRunning (fun s => s.takeRequest 0x33 4 fun fs s => s.doCancelTag fs) s

end Sys2Proof.Machine
end

