-- ==== Sys2Proof/Machine/NoticeRequests.lean ====
section
/-!
DEFINITION. The requests of the Notice Queue and the Safe Latch: NOTICE_ACK (R155), ENTER_SAFE (R137), RELEASE_SAFE (R140).
-/
namespace Sys2Proof.Machine

/-- The number of notices that a NOTICE_ACK of `n` removes: the one numbered `n`, if it is marked sent, and every older one
(R155). -/
def State.ackCount (s : State) (n : Nat) : Option Nat :=
  (s.notices.findIdx? fun x => decide (x.number = n) && x.sent).map (· + 1)

/-- The retry timer after an accepted NOTICE_ACK: restarted where a notice is still marked sent, stopped otherwise (R152). -/
def State.retryAfterAck (s : State) : State :=
  if s.sentCount = 0 then { s with retryTimer := none } else s.startRetry

/-- NOTICE_ACK (R155): the notices removed, the consecutive-expiry count at 0, the places refilled (R149), the timer. -/
def State.noticeAck (s : State) (fs : List Byte) : Response × State :=
  match s.ackCount (field fs 0 2) with
  | none => (bare .badParam, s)
  | some k =>
    let s1 := ({ s with notices := s.notices.drop k, expiries := 0 }.refill).retryAfterAck
    ((.ok, leBytes 1 k ++ leBytes 1 s1.notices.length), s1)

/-- NOTICE_ACK (R155). -/
def execNoticeAck (s : State) : StepOutcome :=
  whileRunning (fun s => s.takeRequest 0x40 5 fun fs s => s.noticeAck fs) s

/-- ENTER_SAFE: a setting event with cause REQUEST, answered OK whatever the latch's state (R137). -/
def execEnterSafe (s : State) : StepOutcome :=
  whileRunning (fun s => s.takeRequest 0x50 3 fun _ s => (bare .ok, s.setLatch .request)) s

/-- RELEASE_SAFE with its cases in order (R140). No record whose start passed while the latch was set runs late (R47): each plan
first takes, with the latch still set, what it has outstanding (log 32). -/
def State.releaseSafe (s : State) : Response × State :=
  if s.safenSample = false then (bare .lineAsserted, s)
  else if s.latch then (bare .ok, s.settlePlans.clearLatch)
  else (bare .ok, s)

/-- RELEASE_SAFE (R140). -/
def execReleaseSafe (s : State) : StepOutcome :=
  whileRunning (fun s => s.takeRequest 0x51 3 fun _ s => s.releaseSafe) s

end Sys2Proof.Machine
end

