-- ==== Sys2Proof/Machine/Resets.lean ====
section
/-!
DEFINITION. The resets of the whole part: RESTART (R184 and each block's reset table), POWER_ON_RESET and RESET_RELEASE (R186).
-/
namespace Sys2Proof.Machine

/-- The slots in use, in slot order (R32). -/
def State.slotsInUse (s : State) : List SlotNo := (List.finRange 256).filter fun i => (s.record i).isSome

/-- A slot taken back by the pool: the generation advances where the slot was in use (R17, R32). -/
def Slot.takenBack (sl : Slot) : Slot :=
  match sl.record with
  | none => sl
  | some _ => { gen := genAfter sl.gen, record := none }

/-- The Safe Latch at RESTART: set with cause LINE when the last SAFEn sample is 0, cleared with the cause kept otherwise
(R144). -/
def State.latchAtRestart (s : State) : State :=
  if s.safenSample then { s with latch := false } else { s with latch := true, cause := .line }

/-- An engine's taking of the RESTART, with the latch as the restart leaves it (R78, R83, R100). A latch setting or release
still handed to it is gone (log 12). -/
def Engine.atRestart (e : Engine) (latch : Bool) : Engine :=
  { (if e.state = .off then e.ended .off else e.atSafeLevel (if latch then .safed else .idle)) with
    strayCount := 0, safeHanded := [] }

/-- The restart at every block (R184): arm (R14), pool (R32), plans (R54), latch before engines (R144, R78), stray-edge counts
(R100), group (R115), tags and snapshot (R134), and last the Notice Queue, emptied and with RESTARTED appended (R159). -/
def State.restartBlocks (s : State) : State :=
  let s1 := s.latchAtRestart
  { s1 with
    syncArm := none
    slots := mapAt Slot.takenBack s.slots
    freeList := s.freeList ++ s.slotsInUse
    plans := tab8 fun _ => Plan.powerOn
    engines := tab8 fun ch => (s.engine ch).atRestart s1.latch
    group := none
    tagsOpen := []
    tagsWaiting := []
    nextTag := 1
    snapshot := none
    notices := [{ number := s.nextNumber, body := .restarted .request s.deviceTime s1.latch, sent := false }]
    nextNumber := numberAfter s.nextNumber
    lossCount := 0
    retryTimer := none
    expiries := 0
    stall := false }

/-- RESTART: a body of another length is BAD_LENGTH; otherwise the reply is queued and cached first, and then the restart
reaches every block in the same event (R171, R184). -/
def execRestart (s : State) : StepOutcome :=
  whileRunning (fun s =>
    s.takeHead (s.isKind 0x7F) fun s rq =>
      if rq.fields.length + 3 = 3 then (s.answer rq (bare .ok)).restartBlocks
      else s.answer rq (bare .badLength)) s

/-- POWER_ON_RESET: every block is held at its power-on state and everything in flight is abandoned without report (R186). -/
def execPowerOnReset (s : State) : StepOutcome := .next (State.held s.pending)

/-- RESET_RELEASE: the one event of the release, with the straps and SAFEn as sampled (R186). Out of reset it has no
effect. -/
def execResetRelease (baud : BitVec 2) (safen : Bool) (s : State) : StepOutcome :=
  .next (if s.inReset then State.released baud safen s.pending else s)

end Sys2Proof.Machine
end

