-- ==== Sys2Proof/Machine/Dispatch.lean ====
section
/-!
DEFINITION. The dispatch of a command to its meaning: one arm per row of spec/opcode_table.json.
-/
namespace Sys2Proof.Machine

/-- The effect of a command on everything but the queue. -/
def exec (i : Instr) (s : State) : Host.Outcome State Fault Refusal :=
  match i with
  | .tick pins => Sys2Proof.Machine.execTick pins s
  | .syncEdge dir => Sys2Proof.Machine.execSyncEdge dir s
  | .skippedSpanRule ch => Sys2Proof.Machine.execSkippedSpanRule ch s
  | .headDue ch => Sys2Proof.Machine.execHeadDue ch s
  | .channelEnd ch => Sys2Proof.Machine.execChannelEnd ch s
  | .pulseExpiry ch => Sys2Proof.Machine.execPulseExpiry ch s
  | .trainPhaseExpiry ch => Sys2Proof.Machine.execTrainPhaseExpiry ch s
  | .squarePhaseExpiry ch => Sys2Proof.Machine.execSquarePhaseExpiry ch s
  | .delayExpiry ch => Sys2Proof.Machine.execDelayExpiry ch s
  | .pulseEnd ch => Sys2Proof.Machine.execPulseEnd ch s
  | .strobeExpiry ch => Sys2Proof.Machine.execStrobeExpiry ch s
  | .armedWindowExpiry ch => Sys2Proof.Machine.execArmedWindowExpiry ch s
  | .countWindowExpiry ch => Sys2Proof.Machine.execCountWindowExpiry ch s
  | .filterTimerExpiry ch => Sys2Proof.Machine.execFilterTimerExpiry ch s
  | .edge ch => Sys2Proof.Machine.execEdge ch s
  | .snapshotCapture => Sys2Proof.Machine.execSnapshotCapture s
  | .safenFallingEdge => Sys2Proof.Machine.execSafenFallingEdge s
  | .safeSettingAtEngine ch => Sys2Proof.Machine.execSafeSettingAtEngine ch s
  | .safeSettingAtPlan ch => Sys2Proof.Machine.execSafeSettingAtPlan ch s
  | .safeReleaseAtEngine ch => Sys2Proof.Machine.execSafeReleaseAtEngine ch s
  | .groupTimerExpiry => Sys2Proof.Machine.execGroupTimerExpiry s
  | .retryTimerExpiry => Sys2Proof.Machine.execRetryTimerExpiry s
  | .gapTimerExpiry => Sys2Proof.Machine.execGapTimerExpiry s
  | .requestFrameReceived bytes => Sys2Proof.Machine.execRequestFrameReceived bytes s
  | .linkReset => Sys2Proof.Machine.execLinkReset s
  | .replyFromCache => Sys2Proof.Machine.execReplyFromCache s
  | .badKind => Sys2Proof.Machine.execBadKind s
  | .replySend => Sys2Proof.Machine.execReplySend s
  | .noticeSend => Sys2Proof.Machine.execNoticeSend s
  | .identify => Sys2Proof.Machine.execIdentify s
  | .readStatus => Sys2Proof.Machine.execReadStatus s
  | .readTime => Sys2Proof.Machine.execReadTime s
  | .setGlobal => Sys2Proof.Machine.execSetGlobal s
  | .setChannel => Sys2Proof.Machine.execSetChannel s
  | .readConfig => Sys2Proof.Machine.execReadConfig s
  | .schedule => Sys2Proof.Machine.execSchedule s
  | .stagingSchedule => Sys2Proof.Machine.execStagingSchedule s
  | .cancel => Sys2Proof.Machine.execCancel s
  | .cancelChannel => Sys2Proof.Machine.execCancelChannel s
  | .queryAction => Sys2Proof.Machine.execQueryAction s
  | .queryChannel => Sys2Proof.Machine.execQueryChannel s
  | .groupBegin => Sys2Proof.Machine.execGroupBegin s
  | .groupCommit => Sys2Proof.Machine.execGroupCommit s
  | .groupAbort => Sys2Proof.Machine.execGroupAbort s
  | .snapshot => Sys2Proof.Machine.execSnapshot s
  | .waitIdle => Sys2Proof.Machine.execWaitIdle s
  | .armSync => Sys2Proof.Machine.execArmSync s
  | .cancelTag => Sys2Proof.Machine.execCancelTag s
  | .noticeAck => Sys2Proof.Machine.execNoticeAck s
  | .enterSafe => Sys2Proof.Machine.execEnterSafe s
  | .releaseSafe => Sys2Proof.Machine.execReleaseSafe s
  | .restart => Sys2Proof.Machine.execRestart s
  | .powerOnReset => Sys2Proof.Machine.execPowerOnReset s
  | .resetRelease baud safen => Sys2Proof.Machine.execResetRelease baud safen s
  | .byteReceived rx => Sys2Proof.Machine.execByteReceived rx s
  | .frameTransmitted => Sys2Proof.Machine.execFrameTransmitted s

end Sys2Proof.Machine
end

