-- ==== Sys2Proof/Safety.lean ====
section
/-!
DEFINITION. The words in which the statements about the machine speak: when a request is carried out and what its reply adds,
what the reports of an ended record add, how an engine stands after an end, and the invariants of the pool, the queues and the
notices.
-/
namespace Sys2Proof.Machine

/-! ### Requests and replies -/

/-- The request `rq`, with `rest` behind it, is at the head of the Receive Queue and is carried out when it is taken: the part
runs, the Reply Queue has room, and the reply cache holds no entry with its nonzero sequence and its kind (R171). -/
structure State.Carries (s : State) (rq : Request) (rest : List Request) : Prop where
  running : s.inReset = false
  head    : s.rxQueue = rq :: rest
  room    : s.replies.length < 4
  fresh   : rq.seq = 0 ∨ ∀ e ∈ s.cache, ¬ (e.seq = rq.seq ∧ e.kind = rq.kind)

/-- The state with a request's reply appended to the Reply Queue and, for a nonzero sequence, entered in the cache, the oldest
of four entries making room (R171, R172). -/
def State.withReply (s : State) (rq : Request) (status : Status) (fields : List Byte) : State :=
  let r : Reply := { seq := rq.seq, kind := rq.kind, status := status, fields := fields }
  { s with
    replies := s.replies ++ [r]
    cache := if rq.seq = 0 then s.cache else (if s.cache.length < 4 then s.cache else s.cache.tail) ++ [r] }

/-- The fields of a SCHEDULE request after the kind byte, in the order of section 11.2. -/
def scheduleBody (channel kind policy report tagged grouped : Byte) (start : Time) (level : Byte) (w p n d v : Nat)
    (mode : Byte) : List Byte :=
  [channel, kind, policy, report, tagged, grouped] ++ leBytes 6 start.toNat ++ [level] ++ leBytes 3 w ++ leBytes 3 p
    ++ leBytes 2 n ++ leBytes 3 d ++ leBytes 4 v ++ [mode]

/-- The fields of the kind are within the ranges of R21 and give these parameters; the fields that the kind does not use may
hold anything (R20). -/
def fieldsGive (kind level : Byte) (w p n d v : Nat) (mode : Byte) : Params → Prop
  | .set l => kind = 0 ∧ level = (if l then 1 else 0)
  | .pulse w' => kind = 1 ∧ w' = w ∧ 1 ≤ w
  | .train w' p' n' => kind = 2 ∧ w' = w ∧ p' = p ∧ n' = n ∧ 1 ≤ w ∧ w < p
  | .square p' => kind = 3 ∧ p' = p ∧ 2 ≤ p
  | .armed w' n' d' v' m =>
    kind = 4 ∧ w' = w ∧ n' = n ∧ d' = d ∧ v' = v ∧ 1 ≤ w ∧
    mode = (match m with | .noRetrigger => 0 | .extend => 1 | .holdOne => 2)
  | .count w' n' v' => kind = 5 ∧ w' = w ∧ n' = n ∧ v' = v ∧ 1 ≤ w ∧ 1 ≤ n

/-- The code of a policy (section 11.1). -/
def policyCode : Policy → Byte
  | .preempt => 0
  | .skip => 1
  | .wait => 2

/-! ### Reports -/

/-- The body of a record that the end of its current action frees (R29). -/
def endBody (s : State) (run : Running) (r : Record) (res : EndResult) : EndedBody :=
  { handle := s.handle run.slot, channel := r.channel, params := r.params, result := res,
    actualStart := some run.progress.actualStart, endTime := s.deviceTime, pulses := run.progress.pulses,
    edges := run.progress.edges, overruns := run.progress.overruns, late := run.progress.late }

/-- The body of a record that was never started (R29). -/
def unstartedBody (s : State) (i : SlotNo) (r : Record) (res : EndResult) : EndedBody :=
  { handle := s.handle i, channel := r.channel, params := r.params, result := res, actualStart := none,
    endTime := s.deviceTime, pulses := 0, edges := 0, overruns := 0, late := false }

/-- The state with an ordinary notice handed to the Notice Queue: appended with the next number, unsent, or lost and counted where
32 are queued (R146, R148). -/
def State.noticed (s : State) (body : NoticeBody) : State :=
  if s.notices.length < 32 then
    { s with notices := s.notices ++ [{ number := s.nextNumber, body := body, sent := false }]
             nextNumber := if s.nextNumber < 65535 then s.nextNumber + 1 else 1 }
  else { s with lossCount := satInc s.lossCount }

/-- An OPEN entry of the Tag Table holds the tag (R117). -/
abbrev State.TagOpen (s : State) (tag : Nat) : Prop := ∃ e ∈ s.tagsOpen, e.tag = tag

/-- The state with a completion of an OPEN tag taken: the entry leaves the OPEN ones, and its DONE is appended to the Notice Queue
with the next number, or, where another entry waits or the queue holds 32, waits last in the completion order (R119, R146). Where
no OPEN entry holds the tag there is nothing to complete. -/
def State.withDone (s : State) (tag : Nat) (result : EndResult) (body : DoneBody) : State :=
  let rest := s.tagsOpen.filter fun e => e.tag ≠ tag
  if ¬ s.TagOpen tag then s
  else if s.tagsWaiting = [] ∧ s.notices.length < 32 then
    { s with tagsOpen := rest
             notices := s.notices ++ [{ number := s.nextNumber, body := .done tag result body, sent := false }]
             nextNumber := if s.nextNumber < 65535 then s.nextNumber + 1 else 1 }
  else { s with tagsOpen := rest, tagsWaiting := s.tagsWaiting ++ [{ tag := tag, result := result, body := body }] }

/-- The state with the record of a slot freed (R19): its ENDED is handed on first where the report flag is set, then its tag
completes with the same body, and then the slot is FREE at the tail of the free list with its generation advanced (R17, R30). -/
def State.freed (s : State) (i : SlotNo) (r : Record) (b : EndedBody) : State :=
  let s1 := if r.report then s.noticed (.ended b) else s
  let s2 := match r.tag with
    | none => s1
    | some tag => s1.withDone tag b.result (.action b)
  { s2 with
    slots := setAt s2.slots i { gen := if (s2.slot i).gen < 255 then (s2.slot i).gen + 1 else 1, record := none }
    freeList := s2.freeList ++ [i] }

/-- The state with records that were never started freed with one result, in the order of the list, each with its reports before the
next (R19, R110). -/
def State.freedAll (s : State) (res : EndResult) (is : List SlotNo) : State :=
  is.foldl (fun u i => match u.record i with
    | none => u
    | some r => u.freed i r (unstartedBody u i r res)) s

/-- A channel is quiet (R125): OFF, or IDLE or SAFED with an empty plan and no staged record that names it. -/
abbrev State.Quiet (s : State) (ch : Channel) : Prop :=
  (s.engine ch).state = .off ∨
  ((s.engine ch).state = .idle ∨ (s.engine ch).state = .safed) ∧ (s.plan ch).records = [] ∧
    ∀ g ∈ s.group, ∀ i ∈ g.staging, ∀ r ∈ s.record i, r.channel ≠ ch

/-- The OPEN entries tested in turn by the IDLE_WAIT watch, for a freeing of records of the channels `chs`: one of kind IDLE_WAIT
that selects such a channel, and whose channels are all quiet, completes with result IDLE (R125, R126). -/
def waitsEnded (chs : List Channel) : List OpenTag → State → State
  | [], s => s
  | e :: es, s =>
    match e.subject with
    | .idleWait mask =>
      if (∃ ch ∈ chs, mask.getLsbD ch.val = true) ∧ (∀ ch : Channel, mask.getLsbD ch.val = true → s.Quiet ch) then
        waitsEnded chs es (s.withDone e.tag .idle (.idleWait mask s.deviceTime))
      else waitsEnded chs es s
    | .action _ | .sync | .snapshot _ => waitsEnded chs es s

/-- The state after the IDLE_WAIT watch has tested the waits for a freeing of records of the channels `chs`, in the order in which
their tags were allocated, once the event's other changes and reports have been made (R125, R126). -/
def State.watched (s : State) (chs : List Channel) : State := waitsEnded chs s.tagsOpen s

/-- The channels that the records of these slots name. -/
def State.channelsOf (s : State) (is : List SlotNo) : List Channel := is.filterMap fun i => (s.record i).map (·.channel)

/-- `t` is `s` with the record of a slot freed and reported (R19), and the waits of its channel tested after it (R125). -/
def State.Frees (s t : State) (i : SlotNo) (r : Record) (b : EndedBody) : Prop := t = (s.freed i r b).watched [r.channel]

/-- `t` is `s` with the records of these slots, none of them ever started, freed and reported in the order of the list with one
result (R19), and the waits of their channels tested after them (R125). -/
def State.FreesAll (s t : State) (is : List SlotNo) (res : EndResult) : Prop :=
  t = (s.freedAll res is).watched (s.channelsOf is)

/-- `t` is `s` with the latch set by a setting event taken while it was clear (R137, R138): the cause written, SAFE_ENTERED with
the mask of the enabled channels queued with the next number (R146) or lost and counted (R148), and the setting handed to every
engine and every plan. -/
structure State.SetsLatch (s t : State) (cause : SafeCause) : Prop where
  same    : t = { s with latch := true, cause := cause, engines := t.engines, plans := t.plans, notices := t.notices,
                         nextNumber := t.nextNumber, lossCount := t.lossCount }
  engines : ∀ ch, t.engine ch = { s.engine ch with safeHanded := (s.engine ch).safeHanded ++ [.setting] }
  plans   : ∀ ch, t.plan ch = { s.plan ch with settings := (s.plan ch).settings + 1 }
  queued  : s.notices.length < 32 → t.lossCount = s.lossCount ∧
              t.nextNumber = (if s.nextNumber < 65535 then s.nextNumber + 1 else 1) ∧ ∃ mask : Byte,
              (∀ ch : Channel, mask.getLsbD ch.val = (s.engine ch).config.enabled) ∧
              t.notices = s.notices ++ [{ number := s.nextNumber, body := .safeEntered cause s.deviceTime mask, sent := false }]
  lost    : 32 ≤ s.notices.length → t.notices = s.notices ∧ t.nextNumber = s.nextNumber ∧ t.lossCount = satInc s.lossCount

/-! ### Engines and plans -/

/-- The engine after a natural or window end: at the rest level by a deferred change if it was not there, no current action,
latch clear, IDLE (R70). -/
def Engine.rested (e : Engine) : Engine :=
  { e with outputLevel := e.restLevel, changePending := e.changePending || decide (e.outputLevel ≠ e.restLevel),
           current := none, pendingEdge := false, state := .idle }

/-- The engine cut to a level at once: register loaded, pending change dropped, no current action, latch clear (R62). -/
def Engine.cut (e : Engine) (level : Bool) (st : ChanState) : Engine :=
  { e with outputLevel := level, out := level, changePending := false, current := none, pendingEdge := false, state := st }

/-- The engine with an action of a kind other than SET just started at device time `now` (R24, R60, R61, R64). -/
def Engine.begun (e : Engine) (i : SlotNo) (r : Record) (now : Time) : Engine :=
  let listens : Bool := match r.params with
    | .armed _ _ _ _ _ | .count _ _ _ => true
    | .set _ | .pulse _ | .train _ _ _ | .square _ => false
  { e with
    state := if listens then .armed else .running
    outputLevel := if listens then e.restLevel else !e.restLevel
    changePending := true
    current := some { slot := i, progress := {
      activeLevel := !e.restLevel, actualStart := now, late := decide (r.start.toNat < now.toNat)
      phase := if listens then .listen else .active
      phaseRemaining := match r.params with
        | .pulse w => some w
        | .train w _ _ => some w
        | .square p => some ((p + 1) / 2)
        | .armed _ _ _ _ _ | .count _ _ _ | .set _ => none
      windowRemaining := match r.params with
        | .armed _ _ _ v _ => if v = 0 then none else some v
        | .count _ _ v => if v = 0 then none else some v
        | .set _ | .pulse _ | .train _ _ _ | .square _ => none
      windowDue := false, pulses := 0, firings := 0, edges := 0, overruns := 0
      activeBegan := !listens } } }

/-- The slots with the record of one slot in a new state. -/
def State.slotsWith (s : State) (i : SlotNo) (r : Record) (st : RecState) : Vector Slot 256 :=
  setAt s.slots i { s.slot i with record := some { r with state := st } }

/-- The channel runs this action with this record, which names it. -/
def State.Runs (s : State) (ch : Channel) (run : Running) (r : Record) : Prop :=
  (s.engine ch).current = some run ∧ s.record run.slot = some r ∧ r.channel = ch

/-- The head of a channel's plan is PLANNED and due at the device time, and no forward load is still to be taken (R39). -/
def State.DueHead (s : State) (ch : Channel) (i : SlotNo) (rest : List SlotNo) (r : Record) : Prop :=
  (s.plan ch).records = i :: rest ∧ s.record i = some r ∧ r.state = .planned ∧
  r.start.toNat ≤ s.deviceTime.toNat ∧ (s.plan ch).loads = []

/-- None of these records is due: the first of them, if any, starts later than device time (R39). -/
def State.NextNotDue (s : State) (rest : List SlotNo) : Prop :=
  ∀ j ∈ rest.head?, ∀ r, s.record j = some r → s.deviceTime.toNat < r.start.toNat

/-- The command makes the change from `s` to `u`, which frees a record of the channel, and goes on in the same event as HEAD_DUE
does with the head that the plan then has (R39): the next state is that of HEAD_DUE at `u`, with the waits of the channel tested
after all of it (R125). -/
def State.GoesOn (s : State) (c : Instr) (u : State) (ch : Channel) : Prop :=
  ∃ v, exec (.headDue ch) u = .next v ∧ exec c s = .next (v.watched [ch])

/-- The plan of a channel without the record that left it. -/
def State.planWithout (s : State) (ch : Channel) (rest : List SlotNo) : Vector Plan 8 :=
  setAt s.plans ch { s.plan ch with records := rest }

/-! ### Invariants -/

/-- Every record's state says which block holds it, and every slot that holds none is on the free list once (R15, R18, R33,
R59, R101). -/
structure State.Held (s : State) : Prop where
  freeOnce   : s.freeList.Nodup
  free       : ∀ i, i ∈ s.freeList ↔ s.record i = none
  generation : ∀ i, 1 ≤ (s.slot i).gen ∧ (s.slot i).gen ≤ 255
  planOnce   : ∀ ch, (s.plan ch).records.Nodup
  planned    : ∀ ch i, i ∈ (s.plan ch).records ↔
                 ∃ r, s.record i = some r ∧ r.channel = ch ∧ (r.state = .planned ∨ r.state = .waiting)
  stagedOnce : ∀ g, s.group = some g → g.staging.Nodup
  staged     : ∀ i, (∃ g, s.group = some g ∧ i ∈ g.staging) ↔ ∃ r, s.record i = some r ∧ r.state = .staged
  current    : ∀ ch i, (∃ run, (s.engine ch).current = some run ∧ run.slot = i) ↔
                 ∃ r, s.record i = some r ∧ r.channel = ch ∧ r.state = .current
  busy       : ∀ ch, (s.engine ch).current.isSome = (s.engine ch).state.busy
  off        : ∀ ch, (s.engine ch).state = .off → ∀ i r, s.record i = some r → r.channel ≠ ch

/-- The plans as R33 and R34 describe them: in non-decreasing order of start, a WAITING record only at the head and only once its
start has been reached (R44), the forward loads still to be taken from device times that have been (R49), and a latch setting still
to be taken only while the latch is set (R47; the model's choice, log 32). -/
structure State.PlansKept (s : State) : Prop where
  order    : ∀ ch, ((s.plan ch).records.map s.startOf).Pairwise (· ≤ ·)
  waiting  : ∀ ch, ∀ i ∈ (s.plan ch).records.tail, ∀ r, s.record i = some r → r.state = .planned
  reached  : ∀ i r, s.record i = some r → r.state = .waiting → r.start.toNat ≤ s.deviceTime.toNat
  loads    : ∀ ch, ∀ l ∈ (s.plan ch).loads, l.1.toNat ≤ s.deviceTime.toNat
  settings : s.latch = false → ∀ ch, (s.plan ch).settings = 0

/-- The latch is set whenever the last SAFEn sample is 0 (R136), from the taking of the falling edge on. -/
def State.LineKept (s : State) : Prop := s.safenSample = false → s.latch = true ∨ s.safenFall = true

/-- The Tag Table as R117 describes it: tags of 1 to 255, no two alike, and each OPEN entry the one entry of its subject, which holds
its tag: a record in use, the sync arm, the scheduled snapshot. -/
structure State.TagsKept (s : State) : Prop where
  distinct  : (s.tagsOpen.map (·.tag) ++ s.tagsWaiting.map (·.tag)).Nodup
  range     : ∀ g ∈ s.tagsOpen.map (·.tag) ++ s.tagsWaiting.map (·.tag), 1 ≤ g ∧ g ≤ 255
  next      : 1 ≤ s.nextTag ∧ s.nextTag ≤ 255
  actions   : ∀ e ∈ s.tagsOpen, ∀ h, e.subject = .action h → ∃ i r, s.record i = some r ∧ s.handle i = h ∧ r.tag = some e.tag
  records   : ∀ i r g, s.record i = some r → r.tag = some g → ∃ e ∈ s.tagsOpen, e.tag = g ∧ e.subject = .action (s.handle i)
  arm       : ∀ e ∈ s.tagsOpen, e.subject = .sync → ∃ arm, s.syncArm = some arm ∧ arm.tag = e.tag
  armed     : ∀ arm, s.syncArm = some arm → ∃ e ∈ s.tagsOpen, e.tag = arm.tag ∧ e.subject = .sync
  snapshot  : ∀ e ∈ s.tagsOpen, ∀ m, e.subject = .snapshot m → ∃ sc, s.snapshot = some sc ∧ sc.tag = e.tag ∧ sc.mask = m
  scheduled : ∀ sc, s.snapshot = some sc → ∃ e ∈ s.tagsOpen, e.tag = sc.tag ∧ e.subject = .snapshot sc.mask

/-- Every queue, table and list is within its capacity (00_scope.md, "Capacities"). -/
structure State.Bounded (s : State) : Prop where
  receive : s.rxQueue.length ≤ 4
  reply   : s.replies.length ≤ 4
  cache   : s.cache.length ≤ 4
  tags    : s.tagsOpen.length + s.tagsWaiting.length ≤ 16
  plans   : ∀ ch, (s.plan ch).records.length ≤ 64
  staging : ∀ g, s.group = some g → g.staging.length ≤ 32

/-- Notice numbers run consecutively in the cycle 1 to 65,535 up to the next number (R145, R146). -/
def numbered : List Notice → Nat → Prop
  | [], _ => True
  | [n], next => 1 ≤ n.number ∧ n.number ≤ 65535 ∧ next = (if n.number < 65535 then n.number + 1 else 1)
  | n :: m :: ns, next =>
    1 ≤ n.number ∧ n.number ≤ 65535 ∧ m.number = (if n.number < 65535 then n.number + 1 else 1) ∧ numbered (m :: ns) next

/-- The Notice Queue as R145 describes it: at most 32 notices with consecutive numbers, the sent ones a front of at most 4, and
full while a DONE waits or a loss is to be reported; the retry timer runs exactly while a notice is marked sent (R152), and
delivery is stalled exactly from the eighth consecutive expiry, with nothing marked sent (R153, R154). -/
structure State.NoticesKept (s : State) : Prop where
  bound    : s.notices.length ≤ 32
  numbers  : numbered s.notices s.nextNumber
  next     : 1 ≤ s.nextNumber ∧ s.nextNumber ≤ 65535
  window   : ∃ k, k ≤ 4 ∧ s.notices.map (·.sent) = List.replicate k true ++ List.replicate (s.notices.length - k) false
  waiting  : s.tagsWaiting ≠ [] → s.notices.length = 32
  loss     : 0 < s.lossCount → s.notices.length = 32
  timer    : s.retryTimer.isSome = s.notices.any (·.sent)
  expiries : s.expiries ≤ 8
  stall    : s.stall = decide (s.expiries = 8)
  stalled  : s.stall = true → ∀ n ∈ s.notices, n.sent = false

end Sys2Proof.Machine
end

