-- ==== Sys2Proof/Certificates/Slice0/Obligations.lean ====
section
/-!
DEFINITION. The statements for the provers, from the numbered rules of spec/. A statement on every state takes as a premise the
invariants of Safety.lean where it could fail only in states that no run reaches; those invariants are statements themselves.
-/
open Sys2Proof Sys2Proof.Machine

/-! ### The machine -/

/-- One step runs the command at the front of the queue on the queue's rest.
On an empty queue the block idles (the model's choice, log 2). -/
def Obligations.StepTakesTheFrontCommand : Prop :=
  (∀ (c : Instr) (s : State), step { s with pending := c :: s.pending } = exec c s) ∧
  (∀ s : State, s.pending = [] → step s = .next s)

/-- Every command answers a next state, never a fault or a refusal (the model's choice, log 25), and leaves the queue of commands to
the step.
While the part is in reset, every block is held as it is (R186): only the release changes anything (log 21). -/
def Obligations.EveryCommandAnswersAndKeepsTheQueue : Prop :=
  (∀ (c : Instr) (s : State), ∃ t, exec c s = .next t ∧ t.pending = s.pending) ∧
  (∀ (c : Instr) (s : State), s.inReset = true → c ≠ .powerOnReset → (∀ b x, c ≠ .resetRelease b x) → exec c s = .next s)

/-- The state the machine starts in is the part right after a release with the straps at 00 and SAFEn at 1 (log 3): every block at
its power-on value, TXD at 1 and ATTN high, and the RESTARTED notice of the power-on queued with number 1 (R14, R32, R54, R77,
R100, R116, R134, R144, R160, R161, R176, R187). What the spec gives no value is left out (log 13). -/
def Obligations.ResetLeavesThePowerOnValues : Prop :=
  let s := State.reset
  s.inReset = false ∧ s.baud = 0 ∧ s.prescaler = 0 ∧ s.deviceTime = 0 ∧ s.syncPrev = none ∧ s.syncArm = none ∧
  s.freeList = List.finRange 256 ∧ (∀ i, s.slot i = { gen := 1, record := none }) ∧
  (∀ ch, (s.plan ch).records = []) ∧ s.minLead = 100 ∧ s.horizon = 2 ^ 32 ∧
  (∀ ch, (s.engine ch).state = .off ∧ (s.engine ch).out = false ∧ (s.engine ch).outputLevel = false ∧
    (s.engine ch).changePending = false ∧ (s.engine ch).current = none ∧ (s.engine ch).strayCount = 0 ∧
    (s.engine ch).pendingEdge = false ∧
    (s.engine ch).config = { enabled := false, safeLevel := false, polarity := .rising, filter := 0 }) ∧
  (∀ ch, (s.trigger ch).filtered = none ∧ (s.trigger ch).filterTimer = none) ∧
  s.group = none ∧ s.nextGroupId = 1 ∧ s.groupDefault = 1000 ∧
  s.tagsOpen = [] ∧ s.tagsWaiting = [] ∧ s.nextTag = 1 ∧ s.snapshot = none ∧
  s.latch = false ∧ s.cause = .noCause ∧ s.safenSample = true ∧
  s.notices = [{ number := 1, body := .restarted .powerOn 0 false, sent := false }] ∧ s.nextNumber = 2 ∧
  s.lossCount = 0 ∧ s.retryTimer = none ∧ s.expiries = 0 ∧ s.stall = false ∧ s.retryTime = 50 ∧
  s.asm = .hunt ∧ s.lowSpan = false ∧ s.rxQueue = [] ∧ s.replies = [] ∧ s.cache = [] ∧ s.linkOpen = false ∧
  s.tx = none ∧ s.txd = [true] ∧ s.counters = { crc := 0, length := 0, gap := 0, framing := 0, overflow := 0, strayType := 0 } ∧
  s.attn = true ∧ s.pending = []

/-- POWER_ON_RESET abandons everything in flight: the part is in reset with every block at its power-on value, nothing is queued
anywhere, ATTN is low, TXD is at 1 and every output register holds 0 (R14, R17, R32, R35, R54, R55, R77, R100, R103, R116, R134,
R152, R160, R175, R176, R186, R187). Where the spec gives no value in reset, the value is the model's choice
(logs 13 and 30).
RESET_RELEASE on a part in reset leaves that state but for what it samples and makes: the straps, SAFEn as the last sample, the
latch with cause LINE when SAFEn is 0, and RESTARTED with number 1, which raises ATTN (R186, R144, R160). Out of reset it has no
effect (the model's choice, log 21). -/
def Obligations.PowerOnResetHoldsAndReleaseStarts : Prop :=
  let held (pending : List Instr) : State := {
    pending := pending, inReset := true
    prescaler := 0, deviceTime := 0, syncPrev := none, syncSampled := none, syncArm := none
    slots := Vector.replicate 256 { gen := 1, record := none }, freeList := List.finRange 256
    plans := Vector.replicate 8 { records := [], loads := [], settings := 0, endHanded := false }
    minLead := 100, horizon := 2 ^ 32
    engines := Vector.replicate 8 {
      config := { enabled := false, safeLevel := false, polarity := .rising, filter := 0 }
      state := .off, restLevel := false, outputLevel := false, out := false, changePending := false, current := none
      strayCount := 0, pendingEdge := false, edgesHanded := 0, safeHanded := [] }
    triggers := Vector.replicate 8 { filtered := none, sample := false, filterTimer := none }
    group := none, nextGroupId := 1, groupDefault := 1000
    tagsOpen := [], tagsWaiting := [], nextTag := 1, snapshot := none
    latch := false, cause := .noCause, safenSample := true, safenFall := false
    notices := [], nextNumber := 1, lossCount := 0, retryTimer := none, expiries := 0, stall := false, retryTime := 50
    baud := 0, asm := .hunt, lowSpan := false, rxQueue := [], replies := [], cache := [], linkOpen := false, tx := none
    counters := { crc := 0, length := 0, gap := 0, framing := 0, overflow := 0, strayType := 0 } }
  (∀ s : State, exec .powerOnReset s = .next (held s.pending)) ∧
  (∀ pending, (held pending).attn = false ∧ (held pending).txd = [true]) ∧
  (∀ (b : BitVec 2) (x : Bool) (s : State),
     let released : State := { held s.pending with
       inReset := false, baud := b, safenSample := x, latch := !x, cause := if x then .noCause else .line
       notices := [{ number := 1, body := .restarted .powerOn 0 (!x), sent := false }], nextNumber := 2 }
     (s.inReset = true → exec (.resetRelease b x) s = .next released) ∧
     (s.inReset = false → exec (.resetRelease b x) s = .next s) ∧ released.attn = true ∧ released.txd = [true])

/-! ### The tick (01_device_time.md) -/

/-- A tick adds one to device time, which holds at 2^48 - 1 (R2, R3); it samples SYNC and SAFEn, a change of either being an
edge, the first SYNC sample making none (R8, R136); and nothing changes but what counts or samples. The state has no edge of an
earlier tick left to take; where it has, `TickTakesOutstandingEventsFirst` says what happens.
A tick counts the group timer and the retry timer down by one (R5), and hands its new device time to the Snapshot Unit: at
the capture time the capture becomes due, not late, with that time as capture device time (R4, R129). A tick at the limit hands
on no new device time (R3). The plans are as they were. -/
def Obligations.TickAdvancesTimeSamplesAndCounts : Prop :=
  (∀ (pins : Pins) (s : State), s.inReset = false → s.syncSampled = none → s.safenFall = false →
     ∃ t, exec (.tick pins) s = .next t ∧
       t.deviceTime.toNat = min (s.deviceTime.toNat + 1) (2 ^ 48 - 1) ∧ t.prescaler = 0 ∧
       t.syncPrev = some pins.sync ∧
       (t.syncSampled = some .rising ↔ s.syncPrev = some false ∧ pins.sync = true) ∧
       (t.syncSampled = some .falling ↔ s.syncPrev = some true ∧ pins.sync = false) ∧
       t.safenSample = pins.safen ∧ (t.safenFall = true ↔ s.safenSample = true ∧ pins.safen = false) ∧
       t = { s with prescaler := t.prescaler, deviceTime := t.deviceTime, snapshot := t.snapshot, syncPrev := t.syncPrev,
                    syncSampled := t.syncSampled, safenSample := t.safenSample, safenFall := t.safenFall,
                    engines := t.engines, triggers := t.triggers, group := t.group, retryTimer := t.retryTimer }) ∧
  (∀ (pins : Pins) (s : State), s.inReset = false → s.syncSampled = none → s.safenFall = false →
     ∃ t, exec (.tick pins) s = .next t ∧
       t.group = s.group.map (fun g => { g with timer := g.timer - 1 }) ∧
       t.retryTimer = s.retryTimer.map (· - 1) ∧
       (s.snapshot = none → t.snapshot = none) ∧
       (∀ sc, s.snapshot = some sc → sc.due ≠ none → t.snapshot = some sc) ∧
       (∀ sc, s.snapshot = some sc → sc.due = none →
         t.snapshot = some { sc with due :=
           if s.deviceTime.toNat < 2 ^ 48 - 1 ∧ sc.time.toNat = s.deviceTime.toNat + 1 then some (t.deviceTime, false)
           else none }) ∧
       t.plans = s.plans)

/-- A tick closes the interval at every engine: OUTn is loaded where a change is pending, an ACTIVE or STROBE phase begun in the
interval is then counted, and the phase and window timers of the current action count down by one (R5, R24, R62, R63). Nothing
else changes at the engine but the edges handed to it. -/
def Obligations.TickClosesTheIntervalAtTheEngines : Prop :=
  ∀ (pins : Pins) (s : State) (ch : Channel), s.inReset = false → s.syncSampled = none → s.safenFall = false →
    ∃ t, exec (.tick pins) s = .next t ∧
      t.engine ch = { s.engine ch with
        out := if (s.engine ch).changePending then (s.engine ch).outputLevel else (s.engine ch).out
        changePending := false
        edgesHanded := (t.engine ch).edgesHanded
        current := (s.engine ch).current.map fun run => { run with progress := { run.progress with
          pulses := if run.progress.activeBegan = true ∧ (s.engine ch).changePending = true then satInc run.progress.pulses
                    else run.progress.pulses
          activeBegan := false
          phaseRemaining := run.progress.phaseRemaining.map (· - 1)
          windowRemaining := run.progress.windowRemaining.map (· - 1)
          windowDue := run.progress.windowDue || decide (run.progress.windowRemaining = some 1) } } }

/-- A tick samples TRGn (R79, R80). The first sample becomes the filtered level without a transition. A sample equal to the
filtered level stops the filter timer; another one is a counted transition at once with filter 0, starts the timer with the
filter's length, or lets it run on. A counted transition that matches the polarity hands an edge to the engine (R81). The timer's
expiry is an event of its own (log 8). -/
def Obligations.TickFiltersATriggerInput : Prop :=
  ∀ (pins : Pins) (s : State) (ch : Channel), s.inReset = false → s.syncSampled = none → s.safenFall = false →
    (s.trigger ch).filterTimer ≠ some 0 →
    ∃ t, exec (.tick pins) s = .next t ∧
      let x := pins.trg.getLsbD ch.val
      let g := s.trigger ch
      let cfg := (s.engine ch).config
      let before := (s.engine ch).edgesHanded
      let after := (t.engine ch).edgesHanded
      (g.filtered = none → t.trigger ch = { filtered := some x, sample := x, filterTimer := none } ∧ after = before) ∧
      (g.filtered = some x → t.trigger ch = { filtered := some x, sample := x, filterTimer := none } ∧ after = before) ∧
      (g.filtered = some (!x) → cfg.filter = 0 →
        t.trigger ch = { filtered := some x, sample := x, filterTimer := none } ∧
        after = before +
          (if cfg.polarity = .both ∨ (cfg.polarity = .rising ∧ x = true) ∨ (cfg.polarity = .falling ∧ x = false) then 1
           else 0)) ∧
      (g.filtered = some (!x) → cfg.filter ≠ 0 → g.filterTimer = none →
        t.trigger ch = { filtered := some (!x), sample := x, filterTimer := some cfg.filter.toNat } ∧ after = before) ∧
      (∀ n, g.filtered = some (!x) → cfg.filter ≠ 0 → g.filterTimer = some n →
        t.trigger ch = { filtered := some (!x), sample := x, filterTimer := some (n - 1) } ∧ after = before)

/-- What the last tick has sampled or counted to its end and no command has yet taken is taken first by the next tick (the
model's choice, logs 6 to 8): the SYNC edge, then the falling SAFEn edge, then the expiry of a filter timer. -/
def Obligations.TickTakesOutstandingEventsFirst : Prop :=
  ∀ (pins : Pins) (s : State), s.inReset = false →
    (∀ d, s.syncSampled = some d →
      ∃ u, exec (.syncEdge d) s = .next u ∧ u.syncSampled = none ∧ exec (.tick pins) s = exec (.tick pins) u) ∧
    (s.syncSampled = none → s.safenFall = true →
      ∃ u, exec .safenFallingEdge s = .next u ∧ u.safenFall = false ∧ exec (.tick pins) s = exec (.tick pins) u) ∧
    (∀ ch, s.syncSampled = none → s.safenFall = false → (s.trigger ch).filterTimer = some 0 →
      ∃ u, exec (.filterTimerExpiry ch) s = .next u ∧ (u.trigger ch).filterTimer = none ∧
        exec (.tick pins) s = exec (.tick pins) u)

/-- FILTER_TIMER_EXPIRY is a counted transition: the filtered level takes the last sample, and an edge is handed to the engine
where it matches the polarity (R80, R81). With no expiry to take it has no effect (R28, log 1). -/
def Obligations.FilterTimerExpiryMakesTheTransition : Prop :=
  ∀ (s : State) (ch : Channel), s.inReset = false →
    let x := (s.trigger ch).sample
    let pol := (s.engine ch).config.polarity
    ((s.trigger ch).filterTimer = some 0 →
      exec (.filterTimerExpiry ch) s = .next { s with
        triggers := setAt s.triggers ch { filtered := some x, sample := x, filterTimer := none }
        engines := setAt s.engines ch { s.engine ch with edgesHanded := (s.engine ch).edgesHanded +
          (if pol = .both ∨ (pol = .rising ∧ x = true) ∨ (pol = .falling ∧ x = false) then 1 else 0) } }) ∧
    ((s.trigger ch).filterTimer ≠ some 0 → exec (.filterTimerExpiry ch) s = .next s)

/-- While the part runs, device time never goes back, and no command but TICK and SYNC_EDGE moves it (R2, R10). -/
def Obligations.DeviceTimeMovesOnlyAtTicksAndLoads : Prop :=
  ∀ (c : Instr) (s t : State), s.inReset = false → c ≠ .powerOnReset → exec c s = .next t →
    s.deviceTime.toNat ≤ t.deviceTime.toNat ∧
    ((∀ p, c ≠ .tick p) → (∀ d, c ≠ .syncEdge d) → t.deviceTime = s.deviceTime)

/-! ### SYNC edges and captures (01_device_time.md, 07_deferred_requests_tags_and_snapshots.md) -/

/-- A SYNC edge of the armed polarity loads V when V is greater than device time and hands the old and the new value to every plan
and the new one to the Snapshot Unit, where a capture time at or below it becomes due late; otherwise it rejects the arm and
device time stays (R10, R11, R131). Either way the arm is cleared and its tag completes in the same event.
The load joins those that each plan has still to take, of which the oldest whose front is empty are void (the model's choice, log
9). A SYNC edge with no arm held, or of the other polarity, has no effect (R8). An edge may be taken ahead of the tick that
samples it, with the effect it has after that tick (R12, log 6); where SYNC makes no such edge, the command has no effect. -/
def Obligations.SyncEdgeLoadsOrRejectsTheArm : Prop :=
  (∀ (s : State) (arm : SyncArm), s.inReset = false → s.syncSampled = some arm.pol → s.syncArm = some arm →
     s.TagOpen arm.tag →
     let s1 := { s with syncSampled := none, syncArm := none }
     (s.deviceTime.toNat < arm.value.toNat →
       exec (.syncEdge arm.pol) s = .next (State.withDone { s1 with
         deviceTime := arm.value
         plans := tab8 fun ch => { s.plan ch with loads := s.openLoads ch ++ [(s.deviceTime, arm.value)] }
         snapshot := s.snapshot.map fun sc =>
           { sc with due := if sc.due = none ∧ sc.time.toNat ≤ arm.value.toNat then some (arm.value, true) else sc.due } }
         arm.tag .applied (.sync arm.value arm.pol s.deviceTime arm.value))) ∧
     (arm.value.toNat ≤ s.deviceTime.toNat →
       exec (.syncEdge arm.pol) s = .next (s1.withDone arm.tag .rejected
         (.sync arm.value arm.pol s.deviceTime s.deviceTime)))) ∧
  (∀ (s : State) (d : SyncPolarity), s.inReset = false →
     (s.syncSampled = some d → (∀ arm, s.syncArm = some arm → arm.pol ≠ d) →
       exec (.syncEdge d) s = .next { s with syncSampled := none }) ∧
     (s.syncSampled = none → s.syncPrev = some (decide (d = .falling)) →
       exec (.syncEdge d) s
         = exec (.syncEdge d) { s with syncSampled := some d, syncPrev := some (decide (d = .rising)) }) ∧
     (s.syncSampled ≠ some d → (s.syncSampled ≠ none ∨ s.syncPrev ≠ some (decide (d = .falling))) →
       exec (.syncEdge d) s = .next s))

/-- A due capture records every selected channel as it stands, in channel order, and completes its tag as CAPTURED with the
capture device time and late flag handed on (R129 to R131). With none due, SNAPSHOT_CAPTURE has no effect (R28, log 1). -/
def Obligations.SnapshotCaptureCompletesTheTag : Prop :=
  ∀ (s : State), s.inReset = false →
    (∀ sc time late, s.snapshot = some sc → sc.due = some (time, late) → s.TagOpen sc.tag →
      ∃ records, exec .snapshotCapture s = .next (State.withDone { s with snapshot := none } sc.tag .captured
          (.captured sc.mask sc.time time late records)) ∧
        records.map (·.channel) = ([0, 1, 2, 3, 4, 5, 6, 7] : List Channel).filter (fun ch => sc.mask.getLsbD ch.val) ∧
        ∀ rec ∈ records,
          let e := s.engine rec.channel
          rec.state = e.state ∧ rec.outputLevel = e.outputLevel ∧
          rec.restLevel = (if e.state = .off then e.config.safeLevel else e.restLevel) ∧
          rec.planLength = (s.plan rec.channel).records.length ∧ rec.pendingEdge = e.pendingEdge ∧
          (e.current = none → rec.current = none ∧ rec.pulses = 0 ∧ rec.edges = 0) ∧
          (∀ run, e.current = some run →
            rec.current = some (s.handle run.slot) ∧ rec.pulses = run.progress.pulses ∧ rec.edges = run.progress.edges)) ∧
    ((∀ sc, s.snapshot = some sc → sc.due = none) → exec .snapshotCapture s = .next s)

/-! ### The plans (03_channel_plans.md) -/

/-- A due head of a kind other than SET on an IDLE channel leaves the plan and is started: it becomes CURRENT with its progress
part, the active level is the inverse of the rest level, and the output change is deferred (R24, R40, R41, R60, R64).
A due SET on an IDLE channel is applied: the output level (deferred) and the rest level become its level, and it is freed as
COMPLETE with the application as actual start and end, late where the start has passed (R26, R65).
In the same event the new head is handled as HEAD_DUE handles it, against the channel as the first left it (R41, R46). -/
def Obligations.HeadDueStartsOnAnIdleChannel : Prop :=
  (∀ (s : State) (ch : Channel) (i : SlotNo) (rest : List SlotNo) (r : Record), s.inReset = false → s.Held →
     s.DueHead ch i rest r → s.latch = false → (s.engine ch).state = .idle → (∀ l, r.params ≠ .set l) →
       let started := { s with
         slots := s.slotsWith i r .current
         plans := s.planWithout ch rest
         engines := setAt s.engines ch ((s.engine ch).begun i r s.deviceTime) }
       (s.NextNotDue rest → exec (.headDue ch) s = .next started) ∧
       exec (.headDue ch) s = exec (.headDue ch) started) ∧
  (∀ (s : State) (ch : Channel) (i : SlotNo) (rest : List SlotNo) (r : Record) (level : Bool), s.inReset = false → s.Held →
     s.DueHead ch i rest r → s.latch = false → (s.engine ch).state = .idle → r.params = .set level →
       let applied := { s with
         plans := s.planWithout ch rest
         engines := setAt s.engines ch { s.engine ch with outputLevel := level, restLevel := level, changePending := true } }
       let body : EndedBody := {
         handle := s.handle i, channel := r.channel, params := r.params, result := .complete,
         actualStart := some s.deviceTime, endTime := s.deviceTime, pulses := 0, edges := 0, overruns := 0,
         late := decide (r.start.toNat < s.deviceTime.toNat) }
       (s.NextNotDue rest → ∃ t, exec (.headDue ch) s = .next t ∧ State.Frees applied t i r body) ∧
       s.GoesOn (.headDue ch) (State.freed applied i r body) ch)

/-- A due head that does not start: with the latch set or the channel SAFED it is freed as MISSED (R40, R139), whatever its
policy; on a busy channel a SKIP head is freed as SKIPPED (R43), and a WAIT head stays at the head as WAITING, whatever stands
behind it (R44, R45). After a head that is freed the new head is handled in the same event as HEAD_DUE handles it (R43, R46, R47). -/
def Obligations.HeadDueLeavesOrWaits : Prop :=
  ∀ (s : State) (ch : Channel) (i : SlotNo) (rest : List SlotNo) (r : Record), s.inReset = false → s.Held →
    s.DueHead ch i rest r →
    let busy := (s.engine ch).state = .running ∨ (s.engine ch).state = .armed ∨ (s.engine ch).state = .firing
    let left := { s with plans := s.planWithout ch rest }
    let leaves (res : EndResult) : Prop :=
      (s.NextNotDue rest → ∃ t, exec (.headDue ch) s = .next t ∧ State.Frees left t i r (unstartedBody s i r res)) ∧
      s.GoesOn (.headDue ch) (State.freed left i r (unstartedBody s i r res)) ch
    (s.latch = true ∨ (s.engine ch).state = .safed → leaves .missed) ∧
    (s.latch = false → busy → r.policy = .skip → leaves .skipped) ∧
    (s.latch = false → busy → r.policy = .wait →
      exec (.headDue ch) s = .next { s with slots := s.slotsWith i r .waiting })

/-- A due PREEMPT head on a busy channel ends the current action as PREEMPTED, the output cut to the rest level at once, and is
started or applied in the same event (R42, R72). Then, still in that event, the new head is handled as HEAD_DUE handles it, against
the channel as the PREEMPT head left it (R41, R46). -/
def Obligations.HeadDuePreemptsTheCurrentAction : Prop :=
  ∀ (s : State) (ch : Channel) (i : SlotNo) (rest : List SlotNo) (r rc : Record) (run : Running), s.inReset = false →
    s.Held → s.DueHead ch i rest r → s.latch = false → s.Runs ch run rc → r.policy = .preempt →
    let cut := (s.engine ch).cut (s.engine ch).restLevel .idle
    ((∀ l, r.params ≠ .set l) →
      let started := { s with
        slots := s.slotsWith i r .current
        plans := s.planWithout ch rest
        engines := setAt s.engines ch (cut.begun i r s.deviceTime) }
      (s.NextNotDue rest →
        ∃ t, exec (.headDue ch) s = .next t ∧ State.Frees started t run.slot rc (endBody s run rc .preempted)) ∧
      s.GoesOn (.headDue ch) (State.freed started run.slot rc (endBody s run rc .preempted)) ch) ∧
    (∀ level, r.params = .set level →
      let u := State.freed { s with
        plans := s.planWithout ch rest
        engines := setAt s.engines ch { cut with outputLevel := level, restLevel := level, changePending := true } }
        run.slot rc (endBody s run rc .preempted)
      let body : EndedBody := {
        handle := s.handle i, channel := r.channel, params := r.params, result := .complete,
        actualStart := some s.deviceTime, endTime := s.deviceTime, pulses := 0, edges := 0, overruns := 0,
        late := decide (r.start.toNat < s.deviceTime.toNat) }
      (s.NextNotDue rest → ∃ t, exec (.headDue ch) s = .next t ∧ u.Frees t i r body) ∧
      s.GoesOn (.headDue ch) (u.freed i r body) ch)

/-- HEAD_DUE handles head after head: afterwards the plan is empty or its head is WAITING or not due (R39, R40). -/
def Obligations.NoPlannedHeadIsDueAfterHeadDue : Prop :=
  ∀ (s t : State) (ch : Channel), s.inReset = false → s.Held → (s.plan ch).loads = [] → exec (.headDue ch) s = .next t →
    ∀ i rest r, (t.plan ch).records = i :: rest → t.record i = some r → r.state = .planned →
      t.deviceTime.toNat < r.start.toNat

/-- The Plan Store takes a channel's end that was handed to it (R45): a WAITING head is started on the IDLE channel, a SET applied
(R26, R41), or freed as MISSED under the latch and on a SAFED channel (R139), and in the same event the new head is handled as
HEAD_DUE handles it, so that the due records held behind it come to the head one at a time; a PLANNED head is handled as HEAD_DUE
handles it; a WAITING head stays while the channel is busy again. With no end handed, CHANNEL_END has no effect (R28, log 1). -/
def Obligations.ChannelEndChecksTheHead : Prop :=
  ∀ (s : State) (ch : Channel), s.inReset = false → s.Held →
    let taken := setAt s.plans ch { s.plan ch with endHanded := false }
    ((s.plan ch).endHanded = false → exec (.channelEnd ch) s = .next s) ∧
    ((s.plan ch).endHanded = true → (s.plan ch).records = [] → exec (.channelEnd ch) s = .next { s with plans := taken }) ∧
    (∀ i rest r, (s.plan ch).endHanded = true → (s.plan ch).records = i :: rest → s.record i = some r →
      let left := { s with plans := setAt s.plans ch { s.plan ch with records := rest, endHanded := false } }
      let noneDue := s.NextNotDue rest ∧ (s.plan ch).loads = []
      (r.state = .planned → exec (.channelEnd ch) s = exec (.headDue ch) { s with plans := taken }) ∧
      (r.state = .waiting → s.latch = false →
        ((s.engine ch).state = .running ∨ (s.engine ch).state = .armed ∨ (s.engine ch).state = .firing) →
        exec (.channelEnd ch) s = .next { s with plans := taken }) ∧
      (r.state = .waiting → s.latch = false → (s.engine ch).state = .idle → (∀ l, r.params ≠ .set l) →
        let started := { left with
          slots := s.slotsWith i r .current
          engines := setAt s.engines ch ((s.engine ch).begun i r s.deviceTime) }
        (noneDue → exec (.channelEnd ch) s = .next started) ∧
        exec (.channelEnd ch) s = exec (.headDue ch) started) ∧
      (∀ level, r.state = .waiting → s.latch = false → (s.engine ch).state = .idle → r.params = .set level →
        let applied := { left with
          engines := setAt s.engines ch { s.engine ch with outputLevel := level, restLevel := level, changePending := true } }
        let body : EndedBody := {
          handle := s.handle i, channel := r.channel, params := r.params, result := .complete,
          actualStart := some s.deviceTime, endTime := s.deviceTime, pulses := 0, edges := 0, overruns := 0,
          late := decide (r.start.toNat < s.deviceTime.toNat) }
        (noneDue → ∃ t, exec (.channelEnd ch) s = .next t ∧ State.Frees applied t i r body) ∧
        s.GoesOn (.channelEnd ch) (State.freed applied i r body) ch) ∧
      (r.state = .waiting → s.latch = true ∨ (s.engine ch).state = .safed →
        (noneDue → ∃ t, exec (.channelEnd ch) s = .next t ∧ State.Frees left t i r (unstartedBody s i r .missed)) ∧
        s.GoesOn (.channelEnd ch) (State.freed left i r (unstartedBody s i r .missed)) ch))

/-- The skipped-span rule at a forward load (R48): of the front of the plan up to the new device time, all but the last are freed
as MISSED in plan order, and the kept one is handled as a due head (it starts on an IDLE channel, waits on a busy one, and by its
policy, its kind and the latch does whatever HEAD_DUE does with it). A front of one record leaves only that handling, and an empty
front leaves the plan untouched: such a load is void and is not handed (the model's choice, logs 1 and 9). A front of one WAITING
record leaves it WAITING, also where its action has ended and the end is still to be taken (that case is the model's choice, log 31).
A plan takes device times in the order in which they were produced (R49): a head that was due at the device time before the load is
handled first, as HEAD_DUE handles it. -/
def Obligations.SkippedSpanRuleKeepsTheLast : Prop :=
  ∀ (s : State) (ch : Channel), s.inReset = false → s.Held →
    (s.openLoads ch = [] → exec (.skippedSpanRule ch) s = .next s) ∧
    (s.openLoads ch ≠ [] →
      ∃ u, exec (.headDue ch) s = .next u ∧ exec (.skippedSpanRule ch) s = exec (.skippedSpanRule ch) u) ∧
    (∀ t0 t1 front kept rest r, (s.plan ch).loads = [(t0, t1)] → t1.toNat ≤ s.deviceTime.toNat →
      (s.plan ch).records = front ++ kept :: rest → s.record kept = some r →
      (∀ j ∈ front ++ [kept], ∀ q, s.record j = some q → q.start.toNat ≤ t1.toNat) → s.NextNotDue rest →
      (∀ j ∈ (front ++ [kept]).head?, ∀ q, s.record j = some q → q.state = .waiting ∨ t0.toNat < q.start.toNat) →
      let taken := setAt s.plans ch { s.plan ch with loads := [] }
      (front = [] → exec (.skippedSpanRule ch) s = exec (.headDue ch) { s with plans := taken }) ∧
      (front ≠ [] → r.state = .planned →
        let missed := State.freedAll { s with
          plans := setAt s.plans ch { s.plan ch with records := kept :: rest, loads := [] } } .missed front
        ∃ v, exec (.headDue ch) missed = .next v ∧ exec (.skippedSpanRule ch) s = .next (v.watched [ch])) ∧
      (front ≠ [] → r.state = .planned → s.latch = false →
        ((s.engine ch).state = .idle → (∀ l, r.params ≠ .set l) →
          ∃ t, exec (.skippedSpanRule ch) s = .next t ∧
            State.FreesAll { s with
              slots := s.slotsWith kept r .current
              plans := setAt s.plans ch { s.plan ch with records := rest, loads := [] }
              engines := setAt s.engines ch ((s.engine ch).begun kept r s.deviceTime) } t front .missed) ∧
        ((s.engine ch).state.busy = true → r.policy = .wait →
          ∃ t, exec (.skippedSpanRule ch) s = .next t ∧
            State.FreesAll { s with
              slots := s.slotsWith kept r .waiting
              plans := setAt s.plans ch { s.plan ch with records := kept :: rest, loads := [] } } t front .missed)))

/-- The latch setting at a plan frees as MISSED every due record at the front, a WAITING head among them, and leaves the rest
(R47), in a state with the latch clear too (the model's choice, log 27). With no setting handed
to the plan, the command has no effect (R28, log 1). -/
def Obligations.SafeSettingAtPlanMissesDueHeads : Prop :=
  ∀ (s : State) (ch : Channel), s.inReset = false → s.Held →
    ((s.plan ch).settings = 0 → exec (.safeSettingAtPlan ch) s = .next s) ∧
    (∀ k front rest, (s.plan ch).settings = k + 1 → (s.plan ch).loads = [] → (s.plan ch).records = front ++ rest →
      (∀ j ∈ front, ∀ r, s.record j = some r → r.state = .waiting ∨ r.start.toNat ≤ s.deviceTime.toNat) →
      (∀ j ∈ rest.head?, ∀ r, s.record j = some r → r.state = .planned ∧ s.deviceTime.toNat < r.start.toNat) →
      let s1 := { s with plans := setAt s.plans ch { s.plan ch with records := rest, settings := k } }
      (front = [] → exec (.safeSettingAtPlan ch) s = .next s1) ∧
      ∃ t, exec (.safeSettingAtPlan ch) s = .next t ∧ s1.FreesAll t front .missed)

/-! ### The engines (04_channel_engines_and_waveforms.md, 05_trigger_inputs_and_triggered_actions.md) -/

/-- The expiry of a PULSE and of a COUNT's STROBE is the natural end of the action (R67, R94, R70): the output goes to the rest
level, deferred, the channel is IDLE, the record is freed as COMPLETE with its counters, and the end is handed to the plan.
A command for an expiry that the phase timer has not reached, or of another phase, has no effect (R28, log 1). -/
def Obligations.PulseAndStrobeEndNaturally : Prop :=
  ∀ (s : State) (ch : Channel) (run : Running) (r : Record), s.inReset = false → s.Runs ch run r →
    let ends (c : Instr) : Prop := ∃ t, exec c s = .next t ∧
      State.Frees { s with
        engines := setAt s.engines ch (s.engine ch).rested
        plans := setAt s.plans ch { s.plan ch with endHanded := true } } t run.slot r (endBody s run r .complete)
    ((∃ w, r.params = .pulse w) → run.progress.phaseRemaining = some 0 → ends (.pulseExpiry ch)) ∧
    ((∃ w n v, r.params = .count w n v) → run.progress.phase = .strobe → run.progress.phaseRemaining = some 0 →
      ends (.strobeExpiry ch)) ∧
    (run.progress.phaseRemaining ≠ some 0 →
      exec (.pulseExpiry ch) s = .next s ∧ exec (.strobeExpiry ch) s = .next s ∧ exec (.delayExpiry ch) s = .next s ∧
      exec (.pulseEnd ch) s = .next s) ∧
    (run.progress.phase ≠ .delay → exec (.delayExpiry ch) s = .next s) ∧
    (run.progress.phase ≠ .active → exec (.pulseEnd ch) s = .next s)

/-- The phase expiries of a TRAIN (R68): ACTIVE gives REST for P - W ticks; REST gives a new ACTIVE phase of W ticks, or, once N
pulses have been emitted with N not 0, the natural end. Both output changes are deferred.
The phase expiries of a SQUARE (R69): the active half lasts the larger half of P, the rest half the smaller, and both output
changes are deferred. A SQUARE has no natural end. A phase timer that has not reached its expiry gives none (R28, log 1). -/
def Obligations.TrainAndSquarePhasesAlternate : Prop :=
  (∀ (s : State) (ch : Channel) (run : Running) (r : Record) (w p n : Nat), s.inReset = false → s.Runs ch run r →
     r.params = .train w p n →
     let g := run.progress
     (g.phaseRemaining = some 0 → g.phase = .active →
       exec (.trainPhaseExpiry ch) s = .next { s with engines := setAt s.engines ch { s.engine ch with
         outputLevel := (s.engine ch).restLevel, changePending := true
         current := some { run with progress := { g with phase := .rest, phaseRemaining := some (p - w) } } } }) ∧
     (g.phaseRemaining = some 0 → g.phase = .rest → (n = 0 ∨ g.pulses ≠ n) →
       exec (.trainPhaseExpiry ch) s = .next { s with engines := setAt s.engines ch { s.engine ch with
         outputLevel := g.activeLevel, changePending := true
         current := some { run with progress :=
           { g with phase := .active, phaseRemaining := some w, activeBegan := true } } } }) ∧
     (g.phaseRemaining = some 0 → g.phase = .rest → n ≠ 0 → g.pulses = n →
       ∃ t, exec (.trainPhaseExpiry ch) s = .next t ∧
         State.Frees { s with
           engines := setAt s.engines ch (s.engine ch).rested
           plans := setAt s.plans ch { s.plan ch with endHanded := true } } t run.slot r (endBody s run r .complete)) ∧
     (g.phaseRemaining ≠ some 0 → exec (.trainPhaseExpiry ch) s = .next s)) ∧
  (∀ (s : State) (ch : Channel) (run : Running) (r : Record) (p : Nat), s.inReset = false → s.Runs ch run r →
     r.params = .square p →
     let g := run.progress
     (g.phaseRemaining = some 0 → g.phase = .active →
       exec (.squarePhaseExpiry ch) s = .next { s with engines := setAt s.engines ch { s.engine ch with
         outputLevel := (s.engine ch).restLevel, changePending := true
         current := some { run with progress := { g with phase := .rest, phaseRemaining := some (p / 2) } } } }) ∧
     (g.phaseRemaining = some 0 → g.phase = .rest →
       exec (.squarePhaseExpiry ch) s = .next { s with engines := setAt s.engines ch { s.engine ch with
         outputLevel := g.activeLevel, changePending := true
         current := some { run with progress :=
           { g with phase := .active, phaseRemaining := some ((p + 1) / 2), activeBegan := true } } } }) ∧
     (g.phaseRemaining ≠ some 0 → exec (.squarePhaseExpiry ch) s = .next s))

/-- The expiry of the DELAY of an ARMED action begins the pulse (R87): ACTIVE for W ticks, the active level deferred, the state
as it is, whether or not the window has expired. -/
def Obligations.DelayExpiryBeginsThePulse : Prop :=
  ∀ (s : State) (ch : Channel) (run : Running) (r : Record) (w n d v : Nat) (m : RetrigMode), s.inReset = false →
    s.Runs ch run r → r.params = .armed w n d v m →
    run.progress.phase = .delay → run.progress.phaseRemaining = some 0 →
      exec (.delayExpiry ch) s = .next { s with engines := setAt s.engines ch { s.engine ch with
        outputLevel := run.progress.activeLevel, changePending := true
        current := some { run with progress :=
          { run.progress with phase := .active, phaseRemaining := some w, activeBegan := true } } } }

/-- The pulse end of an ARMED action (R88): the output goes to rest, deferred, firings goes up, and then, in this order: with N
reached the action ends COMPLETE, with the window expired it ends SHORT, a held edge being dropped as an overrun; a held edge
starts the next firing; otherwise the action listens again and the channel is ARMED. A window has expired here once the engine has
taken its expiry (the model's choice, log 14). -/
def Obligations.PulseEndDecidesWhatFollows : Prop :=
  ∀ (s : State) (ch : Channel) (run : Running) (r : Record) (w n d v : Nat) (m : RetrigMode), s.inReset = false →
    s.Runs ch run r → r.params = .armed w n d v m → run.progress.phase = .active →
    run.progress.phaseRemaining = some 0 →
    let g := run.progress
    let e := s.engine ch
    let firings := satInc g.firings
    let reached := n ≠ 0 ∧ firings = n
    let expired := g.windowRemaining = some 0 ∧ g.windowDue = false
    let ended := { run with progress := { g with
      firings := firings, overruns := if e.pendingEdge then satInc g.overruns else g.overruns } }
    (reached ∨ expired →
      ∃ t, exec (.pulseEnd ch) s = .next t ∧
        State.Frees { s with
          engines := setAt s.engines ch { e with
            outputLevel := e.restLevel, changePending := true, current := none, pendingEdge := false, state := .idle }
          plans := setAt s.plans ch { s.plan ch with endHanded := true } } t run.slot r
          (endBody s ended r (if reached then .complete else .short))) ∧
    (¬ reached → ¬ expired → e.pendingEdge = true → d = 0 →
      exec (.pulseEnd ch) s = .next { s with engines := setAt s.engines ch { e with
        outputLevel := g.activeLevel, changePending := true, pendingEdge := false, state := .firing
        current := some { run with progress := { g with
          firings := firings, edges := satInc g.edges, phase := .active, phaseRemaining := some w, activeBegan := true } } } }) ∧
    (¬ reached → ¬ expired → e.pendingEdge = true → d ≠ 0 →
      exec (.pulseEnd ch) s = .next { s with engines := setAt s.engines ch { e with
        outputLevel := e.restLevel, changePending := true, pendingEdge := false, state := .firing
        current := some { run with progress := { g with
          firings := firings, edges := satInc g.edges, phase := .delay, phaseRemaining := some d } } } }) ∧
    (¬ reached → ¬ expired → e.pendingEdge = false →
      exec (.pulseEnd ch) s = .next { s with engines := setAt s.engines ch { e with
        outputLevel := e.restLevel, changePending := true, state := .armed
        current := some { run with progress := { g with
          firings := firings, phase := .listen, phaseRemaining := none } } } })

/-- The window expiry of an ARMED or a COUNT action (R89, R95): window remaining is 0; in LISTEN the action ends, NO_TRIGGER
where it has had no firing (ARMED) or no edge (COUNT), else SHORT; in any other phase nothing else changes. With no expiry to
take the command has no effect (R28, log 1). -/
def Obligations.WindowExpiryEndsAListeningAction : Prop :=
  ∀ (s : State) (ch : Channel) (run : Running) (r : Record) (c : Instr) (used : Nat), s.inReset = false → s.Runs ch run r →
    (c = .armedWindowExpiry ch ∧ used = run.progress.firings ∧ (∃ w n d v m, r.params = .armed w n d v m) ∨
     c = .countWindowExpiry ch ∧ used = run.progress.edges ∧ (∃ w n v, r.params = .count w n v)) →
    (run.progress.windowDue = true → run.progress.phase = .listen →
      ∃ t, exec c s = .next t ∧
        State.Frees { s with
          engines := setAt s.engines ch (s.engine ch).rested
          plans := setAt s.plans ch { s.plan ch with endHanded := true } } t run.slot r
          (endBody s run r (if used = 0 then .noTrigger else .short))) ∧
    (run.progress.windowDue = true → run.progress.phase ≠ .listen →
      exec c s = .next { s with engines := setAt s.engines ch { s.engine ch with
        current := some { run with progress := { run.progress with windowRemaining := some 0, windowDue := false } } } }) ∧
    (run.progress.windowDue = false → exec c s = .next s)

/-- A stray edge (R83): taken while the channel is OFF, IDLE, RUNNING or SAFED, it counts on the channel's stray-edge count and
changes nothing else. With no edge handed to the engine, EDGE has no effect (R28, log 1).
An edge taken by a COUNT action (R93, R94): in LISTEN edges counted goes up, and the N-th begins the STROBE of W ticks at the
active level, deferred, with the channel FIRING; in STROBE the edge is an overrun. -/
def Obligations.StrayEdgesAndEdgesOfACountAreCounted : Prop :=
  (∀ (s : State) (ch : Channel), s.inReset = false →
     (∀ k, (s.engine ch).edgesHanded = k + 1 → (s.engine ch).state ≠ .armed → (s.engine ch).state ≠ .firing →
       exec (.edge ch) s = .next { s with engines := setAt s.engines ch { s.engine ch with
         edgesHanded := k, strayCount := satInc (s.engine ch).strayCount } }) ∧
     ((s.engine ch).edgesHanded = 0 → exec (.edge ch) s = .next s)) ∧
  (∀ (s : State) (ch : Channel) (run : Running) (r : Record) (w n v k : Nat), s.inReset = false → s.Runs ch run r →
     r.params = .count w n v → (s.engine ch).edgesHanded = k + 1 →
     ((s.engine ch).state = .armed ∨ (s.engine ch).state = .firing) →
     let g := run.progress
     (g.phase = .listen → satInc g.edges ≠ n →
       exec (.edge ch) s = .next { s with engines := setAt s.engines ch { s.engine ch with
         edgesHanded := k, current := some { run with progress := { g with edges := satInc g.edges } } } }) ∧
     (g.phase = .listen → satInc g.edges = n →
       exec (.edge ch) s = .next { s with engines := setAt s.engines ch { s.engine ch with
         edgesHanded := k, state := .firing, outputLevel := g.activeLevel, changePending := true
         current := some { run with progress := { g with
           edges := satInc g.edges, phase := .strobe, phaseRemaining := some w, activeBegan := true } } } }) ∧
     (g.phase = .strobe →
       exec (.edge ch) s = .next { s with engines := setAt s.engines ch { s.engine ch with
         edgesHanded := k, current := some { run with progress := { g with overruns := satInc g.overruns } } } }))

/-- An edge taken in LISTEN of an ARMED action starts a firing (R86): edges counted goes up, the channel is FIRING, and the DELAY
of D ticks begins, or with D = 0 the pulse of W ticks at the active level, deferred. -/
def Obligations.EdgeInListenStartsAFiring : Prop :=
  ∀ (s : State) (ch : Channel) (run : Running) (r : Record) (w n d v k : Nat) (m : RetrigMode), s.inReset = false →
    s.Runs ch run r → r.params = .armed w n d v m → (s.engine ch).edgesHanded = k + 1 →
    ((s.engine ch).state = .armed ∨ (s.engine ch).state = .firing) → run.progress.phase = .listen →
    let g := run.progress
    (d ≠ 0 → exec (.edge ch) s = .next { s with engines := setAt s.engines ch { s.engine ch with
      edgesHanded := k, state := .firing
      current := some { run with progress := { g with
        edges := satInc g.edges, phase := .delay, phaseRemaining := some d } } } }) ∧
    (d = 0 → exec (.edge ch) s = .next { s with engines := setAt s.engines ch { s.engine ch with
      edgesHanded := k, state := .firing, outputLevel := g.activeLevel, changePending := true
      current := some { run with progress := { g with
        edges := satInc g.edges, phase := .active, phaseRemaining := some w, activeBegan := true } } } })

/-- An edge taken in DELAY or ACTIVE of an ARMED action, by its retrigger mode (R90 to R92): NONE makes it an overrun; EXTEND
restarts an ACTIVE phase with length W and counts the edge, and makes it an overrun in DELAY; HOLD_ONE holds it in the
pending-edge latch, or makes it an overrun where the latch is set. -/
def Obligations.EdgeInAFiringFollowsTheRetriggerMode : Prop :=
  ∀ (s : State) (ch : Channel) (run : Running) (r : Record) (w n d v k : Nat) (m : RetrigMode), s.inReset = false →
    s.Runs ch run r → r.params = .armed w n d v m → (s.engine ch).edgesHanded = k + 1 →
    ((s.engine ch).state = .armed ∨ (s.engine ch).state = .firing) →
    (run.progress.phase = .delay ∨ run.progress.phase = .active) →
    let g := run.progress
    let overrun := exec (.edge ch) s = .next { s with engines := setAt s.engines ch { s.engine ch with
      edgesHanded := k, current := some { run with progress := { g with overruns := satInc g.overruns } } } }
    (m = .noRetrigger → overrun) ∧
    (m = .extend → g.phase = .delay → overrun) ∧
    (m = .extend → g.phase = .active →
      exec (.edge ch) s = .next { s with engines := setAt s.engines ch { s.engine ch with
        edgesHanded := k
        current := some { run with progress := { g with phaseRemaining := some w, edges := satInc g.edges } } } }) ∧
    (m = .holdOne → (s.engine ch).pendingEdge = true → overrun) ∧
    (m = .holdOne → (s.engine ch).pendingEdge = false →
      exec (.edge ch) s = .next { s with engines := setAt s.engines ch { s.engine ch with
        edgesHanded := k, pendingEdge := true } })

/-! ### The safe state (08_the_safe_state.md) -/

/-- The falling SAFEn edge and ENTER_SAFE are setting events (R136, R137): with the latch clear each sets it with its cause, hands
SAFE_ENTERED to the Notice Queue and the setting to every engine and every plan; with the latch set each changes nothing but what
it is taken from, and ENTER_SAFE is answered OK either way. With no falling edge sampled and still to be taken, SAFEN_FALLING_EDGE
has no effect (the model's choice, logs 1 and 7). -/
def Obligations.SettingEventsSetTheLatch : Prop :=
  ∀ (s : State), s.inReset = false →
    (s.safenFall = true → s.latch = false →
      ∃ t, exec .safenFallingEdge s = .next t ∧ State.SetsLatch { s with safenFall := false } t .line) ∧
    (s.safenFall = true → s.latch = true → exec .safenFallingEdge s = .next { s with safenFall := false }) ∧
    (s.safenFall = false → exec .safenFallingEdge s = .next s) ∧
    (∀ rq rest, s.Carries rq rest → rq.kind = 0x50 → rq.fields = [] →
      (s.latch = false →
        ∃ u, exec .enterSafe s = .next (u.withReply rq .ok []) ∧ State.SetsLatch { s with rxQueue := rest } u .request) ∧
      (s.latch = true → exec .enterSafe s = .next (State.withReply { s with rxQueue := rest } rq .ok [])))

/-- An engine takes the setting (R73): OFF and SAFED channels stay as they are; an IDLE one becomes SAFED with output and rest
level at the safe level at once; a busy one does so too and its record is freed as SAFED. A WAITING head of that channel is missed by
R47 (R45): by its plan's own taking of the setting where that is still to come (R142), and otherwise in this event, with the due heads
behind it, after the SAFED record (that it is this event is the model's choice, log 11). With no setting handed to the engine the
command has no effect (R28, log 1).
An engine takes the release (R141): a SAFED channel becomes IDLE with its safe level as rest level, and its plan's head is checked
as HEAD_DUE checks it, so that a WAITING head is not started (R39, R44); a PLANNED head whose start was passed at an earlier device
time is handled first, on the channel still SAFED (R139, R143; the model's choice, log 32); a channel in another state is as it was.
With no release handed to the engine the command has no effect (R28, log 1).
An engine takes its latch events in the order made (R137): with an older one of the other sort in front that would change
something, the command of the later one has no effect (R28, log 1), and an older one that changes nothing in the engine's state is
passed over (the model's choice, log 23). -/
def Obligations.EnginesTakeTheSettingAndTheRelease : Prop :=
  (∀ (s : State) (ch : Channel), s.inReset = false →
     (.setting ∉ (s.engine ch).safeHanded → exec (.safeSettingAtEngine ch) s = .next s) ∧
     (∀ more, (s.engine ch).safeHanded = .release :: more →
       ((s.engine ch).state = .safed → exec (.safeSettingAtEngine ch) s = .next s) ∧
       ((s.engine ch).state ≠ .safed → .setting ∈ more → exec (.safeSettingAtEngine ch) s
         = exec (.safeSettingAtEngine ch) { s with engines := setAt s.engines ch { s.engine ch with safeHanded := more } })) ∧
     (∀ more, (s.engine ch).safeHanded = .setting :: more →
       let e := { s.engine ch with safeHanded := more }
       let safed := { e.cut e.config.safeLevel .safed with restLevel := e.config.safeLevel }
       let waits := ∃ i ∈ (s.plan ch).records.head?, ∃ q, s.record i = some q ∧ q.state = .waiting
       (e.state = .off ∨ e.state = .safed →
         exec (.safeSettingAtEngine ch) s = .next { s with engines := setAt s.engines ch e }) ∧
       (e.state = .idle → e.current = none →
         exec (.safeSettingAtEngine ch) s = .next { s with engines := setAt s.engines ch safed }) ∧
       (∀ run r, s.Runs ch run r → e.state = .running ∨ e.state = .armed ∨ e.state = .firing →
         (¬ waits ∨ 0 < (s.plan ch).settings →
           ∃ t, exec (.safeSettingAtEngine ch) s = .next t ∧
             State.Frees { s with engines := setAt s.engines ch safed } t run.slot r (endBody s run r .safed)) ∧
         (∀ front rest, s.Held → waits → (s.plan ch).settings = 0 → (s.plan ch).loads = [] →
           (s.plan ch).records = front ++ rest → front ≠ [] →
           (∀ j ∈ front.tail, ∀ q, s.record j = some q → q.state = .planned ∧ q.start.toNat ≤ s.deviceTime.toNat) →
           s.NextNotDue rest →
           let ended := State.freed { s with
             engines := setAt s.engines ch safed, plans := s.planWithout ch rest } run.slot r (endBody s run r .safed)
           exec (.safeSettingAtEngine ch) s = .next ((ended.freedAll .missed front).watched [ch]))))) ∧
  (∀ (s : State) (ch : Channel), s.inReset = false →
     (.release ∉ (s.engine ch).safeHanded → exec (.safeReleaseAtEngine ch) s = .next s) ∧
     (∀ more, (s.engine ch).safeHanded = .setting :: more →
       ((s.engine ch).state ≠ .off → (s.engine ch).state ≠ .safed → exec (.safeReleaseAtEngine ch) s = .next s) ∧
       ((s.engine ch).state = .off ∨ (s.engine ch).state = .safed → .release ∈ more → exec (.safeReleaseAtEngine ch) s
         = exec (.safeReleaseAtEngine ch) { s with engines := setAt s.engines ch { s.engine ch with safeHanded := more } })) ∧
     (∀ more, (s.engine ch).safeHanded = .release :: more →
       let e := { s.engine ch with safeHanded := more }
       let taken := { s with engines := setAt s.engines ch e }
       let idled (u : State) : State :=
         { u with engines := setAt u.engines ch { e with state := .idle, restLevel := e.config.safeLevel } }
       let passed := ∃ i ∈ (s.plan ch).records.head?, ∃ q, s.record i = some q ∧ q.state = .planned ∧
         q.start.toNat ≤ (s.planTime ch).toNat ∧ q.start.toNat < s.deviceTime.toNat
       (e.state ≠ .safed → exec (.safeReleaseAtEngine ch) s = .next taken) ∧
       (e.state = .safed → (s.plan ch).records = [] → exec (.safeReleaseAtEngine ch) s = .next (idled s)) ∧
       (e.state = .safed → ¬ passed → exec (.safeReleaseAtEngine ch) s = exec (.headDue ch) (idled s)) ∧
       (e.state = .safed → s.Held → passed →
         ∃ u, exec (.headDue ch) taken = .next u ∧ exec (.safeReleaseAtEngine ch) s = exec (.headDue ch) (idled u))))

/-- RELEASE_SAFE (R140): with SAFEn at 0 it is answered LINE_ASSERTED; with the latch clear OK, and neither changes anything;
otherwise the latch is cleared with its cause kept, and the release is handed to every engine. The level is the last sample,
from the tick that takes it on (R136), with the latch clear too.
No record whose start passed while the latch was set survives to run late (R47). So each plan, in channel order, first takes with the
latch still set what it has outstanding: its forward loads, its latch settings, and a head whose start was passed at an earlier
device time, each as the command of that event takes it (the model's choice, log 32). -/
def Obligations.ReleaseSafeAnswersInOrder : Prop :=
  ∀ (s : State) (rq : Request) (rest : List Request), s.Carries rq rest → rq.kind = 0x51 → rq.fields = [] →
    let s1 := { s with rxQueue := rest }
    let asserted := s.safenSample = false
    let passed (ch : Channel) : Prop := ∃ i ∈ (s.plan ch).records.head?, ∃ q, s.record i = some q ∧ q.state = .planned ∧
      q.start.toNat < s.deviceTime.toNat
    let settled (ch : Channel) : Prop := s.openLoads ch = [] ∧ (s.plan ch).settings = 0 ∧ ¬ passed ch
    (asserted → exec .releaseSafe s = .next (s1.withReply rq .lineAsserted [])) ∧
    (¬ asserted → s.latch = false → exec .releaseSafe s = .next (s1.withReply rq .ok [])) ∧
    (¬ asserted → s.latch = true → (∀ ch, settled ch) →
      exec .releaseSafe s = .next (State.withReply { s1 with
        latch := false
        engines := tab8 fun ch => { s.engine ch with safeHanded := (s.engine ch).safeHanded ++ [.release] } } rq .ok [])) ∧
    (∀ ch, s.Held → s.PlansKept → ¬ asserted → s.latch = true → (∀ ch' < ch, settled ch') →
      let first (c : Instr) : Prop :=
        ∃ u, exec c s1 = .next u ∧ exec .releaseSafe s = exec .releaseSafe { u with rxQueue := rq :: rest }
      (s.openLoads ch ≠ [] → first (.skippedSpanRule ch)) ∧
      (s.openLoads ch = [] → 0 < (s.plan ch).settings → first (.safeSettingAtPlan ch)) ∧
      (s.openLoads ch = [] → (s.plan ch).settings = 0 → passed ch → first (.headDue ch)))

/-! ### Timers and the link (06_action_groups.md, 09_notices.md, 10_the_control_link.md) -/

/-- The expiry of the group timer (R111): every staged record is freed as DISCARDED in staging order with its reports, the group
is closed, and then GROUP_EXPIRED with the id, the count and the cause TIMEOUT is handed to the Notice Queue, queued where there
is room and otherwise lost and counted (R148); then the waits of the records' channels are tested (R125). A group timer that has
not reached its expiry gives none (R28, log 1).
GROUP_ABORT and GROUP_COMMIT with no group open are NO_GROUP. GROUP_ABORT frees every staged record as DISCARDED in staging order
with its reports, closes the group without a GROUP_EXPIRED, and answers OK with the count (R110). -/
def Obligations.GroupExpiryAndAbortDiscardTheGroup : Prop :=
  (∀ (s : State), s.inReset = false → s.Held →
     (∀ g, s.group = some g → g.timer = 0 →
       let discarded := State.freedAll { s with group := none } .discarded g.staging
       exec .groupTimerExpiry s
         = .next ((discarded.noticed (.groupExpired g.id g.staging.length .timeout)).watched (s.channelsOf g.staging))) ∧
     ((∀ g, s.group = some g → g.timer ≠ 0) → exec .groupTimerExpiry s = .next s)) ∧
  (∀ (s : State) (rq : Request) (rest : List Request), s.Carries rq rest → rq.fields = [] →
     let s1 := { s with rxQueue := rest }
     (s.group = none →
       (rq.kind = 0x22 → exec .groupAbort s = .next (s1.withReply rq .noGroup [])) ∧
       (rq.kind = 0x21 → exec .groupCommit s = .next (s1.withReply rq .noGroup []))) ∧
     (∀ g, s.group = some g → s.Held → rq.kind = 0x22 →
       ∃ u : State, exec .groupAbort s = .next (u.withReply rq .ok [BitVec.ofNat 8 g.staging.length]) ∧
         State.FreesAll { s1 with group := none } u g.staging .discarded))

/-- The expiry of the retry timer (R153): every notice is unsent, the timer stops, the expiry is counted up to 8, and at the
eighth the stall flag is set. A timer that has not reached 0 gives no expiry (R28, log 1). -/
def Obligations.RetryExpiryResendsOrStalls : Prop :=
  ∀ (s : State), s.inReset = false →
    (s.retryTimer = some 0 →
      exec .retryTimerExpiry s = .next { s with
        notices := s.notices.map fun n => { n with sent := false }
        retryTimer := none
        expiries := min (s.expiries + 1) 8
        stall := s.stall || decide (8 ≤ s.expiries + 1) }) ∧
    (s.retryTimer ≠ some 0 → exec .retryTimerExpiry s = .next s)

/-- A byte on RXD by the state of the assembler (R164), and the events that discard a frame in assembly, each with its counter
(R165). The second CRC byte is `RequestFrameIsExaminedInOrder`. A byte with a bad stop bit begins the low span that a break needs,
and one with a good stop bit shows that the line has returned to 1 (R165, R167, log 15).
REQUEST_FRAME_RECEIVED takes its bytes one after the other as BYTE_RECEIVED takes each (log 5). -/
def Obligations.TheAssemblerTakesBytes : Prop :=
  (∀ (s : State) (b : Byte), s.inReset = false →
     let takes (asm : Assembler) : Prop := exec (.byteReceived { value := b, stop := true }) s = .next { s with
       asm := asm, lowSpan := false }
     (s.asm = .hunt → b = 0xC5 → takes .length) ∧
     (s.asm = .hunt → b ≠ 0xC5 → takes .hunt) ∧
     (s.asm = .length → 3 ≤ b.toNat → b.toNat ≤ 128 → takes (.body b.toNat [])) ∧
     (s.asm = .length → b.toNat < 3 ∨ 128 < b.toNat →
       exec (.byteReceived { value := b, stop := true }) s = .next { s with
         asm := .hunt, lowSpan := false, counters := { s.counters with length := satInc s.counters.length } }) ∧
     (∀ len stored, s.asm = .body len stored → stored.length + 1 < len → takes (.body len (stored ++ [b]))) ∧
     (∀ len stored, s.asm = .body len stored → len ≤ stored.length + 1 → takes (.check len (stored ++ [b]) none)) ∧
     (∀ len body, s.asm = .check len body none → takes (.check len body (some b))) ∧
     exec (.byteReceived { value := b, stop := false }) s = .next { s with
       asm := .hunt, lowSpan := true, counters := { s.counters with framing := satInc s.counters.framing } } ∧
     (s.asm ≠ .hunt → exec .gapTimerExpiry s = .next { s with
       asm := .hunt, counters := { s.counters with gap := satInc s.counters.gap } }) ∧
     (s.asm = .hunt → exec .gapTimerExpiry s = .next s)) ∧
  (∀ (s : State) (b : RxByte) (bs : List RxByte),
     ∃ u, exec (.byteReceived b) s = .next u ∧
       exec (.requestFrameReceived (b :: bs)) s = exec (.requestFrameReceived bs) u ∧
       exec (.requestFrameReceived []) s = .next s)

/-- A frame received from HUNT, with good stop bits (R162 to R166): a wrong CRC discards it with a count; a valid one is examined
in order: a type other than 51H is a stray, a sequence that a queued request has is dropped without a count, a full Receive Queue
is an overflow, and otherwise the request joins the tail, the stall and the expiry count are cleared (R154), and the link is
OPEN (R169). -/
def Obligations.RequestFrameIsExaminedInOrder : Prop :=
  ∀ (s : State) (body : List Byte), s.inReset = false → s.asm = .hunt → 3 ≤ body.length → body.length ≤ 128 →
    let frame (lo hi : Byte) : Instr := .requestFrameReceived
      ((0xC5 :: BitVec.ofNat 8 body.length :: body ++ [lo, hi]).map fun b => { value := b, stop := true })
    let crc := crcOf (BitVec.ofNat 8 body.length :: body)
    let s1 := { s with lowSpan := false }
    (∀ lo hi, ¬ (lo = crc.setWidth 8 ∧ hi = (crc >>> 8).setWidth 8) →
      exec (frame lo hi) s = .next { s1 with counters := { s.counters with crc := satInc s.counters.crc } }) ∧
    (∀ ty seq kind fields, body = ty :: seq :: kind :: fields →
      let good := exec (frame (crc.setWidth 8) ((crc >>> 8).setWidth 8)) s
      (ty ≠ 0x51 → good = .next { s1 with counters := { s.counters with strayType := satInc s.counters.strayType } }) ∧
      (ty = 0x51 → seq ≠ 0 → (∃ q ∈ s.rxQueue, q.seq = seq) → good = .next s1) ∧
      (ty = 0x51 → (seq = 0 ∨ ∀ q ∈ s.rxQueue, q.seq ≠ seq) → 4 ≤ s.rxQueue.length →
        good = .next { s1 with counters := { s.counters with overflow := satInc s.counters.overflow } }) ∧
      (ty = 0x51 → (seq = 0 ∨ ∀ q ∈ s.rxQueue, q.seq ≠ seq) → s.rxQueue.length < 4 →
        good = .next { s1 with
          rxQueue := s.rxQueue ++ [{ seq := seq, kind := kind, fields := fields }]
          stall := false, expiries := 0, linkOpen := true }))

/-- The CRC of the nine bytes 31H to 39H is 29B1H (R163). -/
def Obligations.CrcOfTheCheckBytes : Prop :=
  crcOf [0x31, 0x32, 0x33, 0x34, 0x35, 0x36, 0x37, 0x38, 0x39] = 0x29B1#16

/-- A link reset (R168), taken in a low span that has given its framing error and no link reset yet (R167): the assembler is in
HUNT, the Receive Queue, the Reply Queue and the reply cache are empty, the link is CLOSED, every notice is unsent with the retry
timer stopped and the stall cleared (R158). An open group is discarded with the reports of its records, and then GROUP_EXPIRED
with the cause LINK is handed on (R114). The frame on TXD, the counters and every plan and engine are kept. Outside such a span,
and for a second time in it, there is no break to take and the command has no effect (R167, R176; the model's choice, logs 1 and
15). -/
def Obligations.LinkResetClearsTheLink : Prop :=
  ∀ (s : State), s.inReset = false →
    let s1 := { s with
      asm := .hunt, lowSpan := false, rxQueue := [], replies := [], cache := [], linkOpen := false
      notices := s.notices.map fun n => { n with sent := false }
      retryTimer := none, stall := false, expiries := 0 }
    (s.lowSpan = false → exec .linkReset s = .next s) ∧
    (s.lowSpan = true → s.group = none → exec .linkReset s = .next s1) ∧
    (∀ g, s.lowSpan = true → s.group = some g → s.Held →
      let discarded := State.freedAll { s1 with group := none } .discarded g.staging
      exec .linkReset s
        = .next ((discarded.noticed (.groupExpired g.id g.staging.length .link)).watched (s.channelsOf g.staging)))

/-- The transmit arbiter (R173): while the line is free the oldest reply is begun and leaves the Reply Queue; with none waiting,
the oldest unsent notice, where the link is OPEN, there is no stall and the window has room (R151), is begun and marked sent, the
retry timer starting where the window was empty (R152); at a frame's end the line is free and the arbiter chooses again.
A frame is the start byte, LEN, the body and the CRC of LEN and the body, low byte first (R162, R163). The codes of a status
(section 11.3), of the results, tag kinds and causes (section 11.1), and the bytes of each notice after its number (section 11.4,
R179) are those written out here; those of kinds, states and phases stand in `QueriesReportRecordAndChannel`.
ATTN is high exactly while a notice is queued (R157). TXD is at 1 while no frame is sent, and a frame's bytes go out as characters
of a start bit 0, eight data bits, least significant first, and a stop bit 1, one directly after another (R161). -/
def Obligations.TheArbiterSendsRepliesThenNotices : Prop :=
  let frame (body : List Byte) : List Byte :=
    let crc := crcOf (BitVec.ofNat 8 body.length :: body)
    0xC5 :: BitVec.ofNat 8 body.length :: body ++ [crc.setWidth 8, (crc >>> 8).setWidth 8]
  (∀ (s : State), s.inReset = false →
    (∀ r rest, s.tx = none → s.replies = r :: rest →
      exec .replySend s = .next { s with
        replies := rest, tx := some (frame ([0x52, r.seq, r.kind, statusCode r.status] ++ r.fields)) }) ∧
    (s.tx ≠ none ∨ s.replies = [] → exec .replySend s = .next s) ∧
    (∀ sent n later, s.tx = none → s.replies = [] → s.linkOpen = true → s.stall = false →
      s.notices = sent ++ n :: later → (∀ x ∈ sent, x.sent = true) → n.sent = false →
      (s.notices.filter (·.sent)).length < 4 →
      exec .noticeSend s = .next { s with
        notices := sent ++ { n with sent := true } :: later
        tx := some (frame (0x53 :: leBytes 2 n.number ++ noticeKindBytes n.body))
        retryTimer := if ∀ x ∈ s.notices, x.sent = false then some (s.retryTime * 1000) else s.retryTimer }) ∧
    (s.tx ≠ none ∨ s.replies ≠ [] ∨ s.linkOpen = false ∨ s.stall = true ∨ 4 ≤ (s.notices.filter (·.sent)).length ∨
      (∀ n ∈ s.notices, n.sent = true) → exec .noticeSend s = .next s) ∧
    (s.tx ≠ none → exec .frameTransmitted s
      = exec (if s.replies = [] then .noticeSend else .replySend) { s with tx := none }) ∧
    (s.tx = none → exec .frameTransmitted s = .next s)) ∧
  (∀ (s : State),
    (s.attn = true ↔ s.notices ≠ []) ∧
    (s.tx = none → s.txd = [true]) ∧
    (∀ bytes, s.tx = some bytes → s.txd = bytes.flatMap fun b =>
      [false, b.getLsbD 0, b.getLsbD 1, b.getLsbD 2, b.getLsbD 3, b.getLsbD 4, b.getLsbD 5, b.getLsbD 6, b.getLsbD 7, true])) ∧
  (∀ p ∈ ([(.ok, 0x00), (.deferred, 0x01), (.staged, 0x02), (.badKind, 0x10), (.badLength, 0x11), (.badParam, 0x12),
      (.badChannel, 0x13), (.channelOff, 0x14), (.tooLate, 0x20), (.tooFar, 0x21), (.planFull, 0x22), (.poolFull, 0x23),
      (.tagsFull, 0x24), (.groupFull, 0x25), (.noSuchAction, 0x30), (.noSuchTag, 0x31), (.alreadyEnded, 0x32), (.noGroup, 0x33),
      (.groupOpen, 0x34), (.busy, 0x35), (.lineAsserted, 0x40)] : List (Status × Byte)), statusCode p.1 = p.2) ∧
  (∀ p ∈ ([(.complete, 0x01), (.short, 0x02), (.noTrigger, 0x03), (.cancelled, 0x04), (.preempted, 0x05), (.skipped, 0x06),
      (.missed, 0x07), (.safed, 0x08), (.discarded, 0x09), (.applied, 0x10), (.rejected, 0x11), (.idle, 0x12),
      (.captured, 0x13)] : List (EndResult × Byte)), resultCode p.1 = p.2) ∧
  (∀ n : Nat, n < 2 ^ 16 → leBytes 2 n = [BitVec.ofNat 8 n, BitVec.ofNat 8 (n / 256)]) ∧
  (∀ x : Time, leBytes 6 x.toNat = [x.setWidth 8, (x >>> 8).setWidth 8, (x >>> 16).setWidth 8, (x >>> 24).setWidth 8,
    (x >>> 32).setWidth 8, (x >>> 40).setWidth 8]) ∧
  (let bit (b : Bool) : Byte := if b then 1 else 0
   let ended (b : EndedBody) : List Byte :=
     leBytes 2 b.handle.toNat ++ [BitVec.ofNat 8 b.channel.val, kindCode b.params, resultCode b.result,
       bit b.actualStart.isSome + 2 * bit b.late]
     ++ leBytes 6 (b.actualStart.getD 0).toNat ++ leBytes 6 b.endTime.toNat
     ++ leBytes 2 b.pulses ++ leBytes 2 b.edges ++ leBytes 2 b.overruns
   let channel (c : ChannelRecord) : List Byte :=
     [BitVec.ofNat 8 c.channel.val, chanStateCode c.state, bit c.outputLevel, bit c.restLevel,
       bit c.current.isSome + 2 * bit c.pendingEdge]
     ++ leBytes 2 (c.current.getD 0).toNat ++ leBytes 2 c.pulses ++ leBytes 2 c.edges ++ [BitVec.ofNat 8 c.planLength]
   let done (tag : Nat) (kind : Byte) (res : EndResult) : List Byte := [0x01, BitVec.ofNat 8 tag, kind, resultCode res]
   (∀ b, noticeKindBytes (.ended b) = 0x02 :: ended b) ∧
   (∀ tag res b, noticeKindBytes (.done tag res (.action b)) = done tag 0x01 res ++ ended b) ∧
   (∀ tag res v pol before after, noticeKindBytes (.done tag res (.sync v pol before after)) = done tag 0x02 res
     ++ leBytes 6 v.toNat ++ [if pol = .rising then 0x00 else 0x01] ++ leBytes 6 before.toNat ++ leBytes 6 after.toNat) ∧
   (∀ tag res mask now, noticeKindBytes (.done tag res (.idleWait mask now)) = done tag 0x03 res ++ mask :: leBytes 6 now.toNat) ∧
   (∀ tag res mask asked now late records, noticeKindBytes (.done tag res (.captured mask asked now late records))
     = done tag 0x04 res ++ mask :: leBytes 6 asked.toNat ++ leBytes 6 now.toNat ++ [bit late] ++ records.flatMap channel) ∧
   (∀ tag res mask asked now, noticeKindBytes (.done tag res (.uncaptured mask asked now))
     = done tag 0x04 res ++ mask :: leBytes 6 asked.toNat ++ leBytes 6 now.toNat) ∧
   (∀ id count cause, noticeKindBytes (.groupExpired id count cause)
     = [0x03, BitVec.ofNat 8 id, BitVec.ofNat 8 count, match cause with | .timeout => 0x01 | .link => 0x02]) ∧
   (∀ cause now mask, noticeKindBytes (.safeEntered cause now mask)
     = [(0x04 : Byte), match cause with | .noCause => 0x00 | .line => 0x01 | .request => 0x02] ++ leBytes 6 now.toNat ++ [mask]) ∧
   (∀ count now, noticeKindBytes (.loss count now) = 0x05 :: leBytes 2 count ++ leBytes 6 now.toNat) ∧
   (∀ cause now latch, noticeKindBytes (.restarted cause now latch)
     = [(0x06 : Byte), match cause with | .powerOn => 0x01 | .request => 0x02] ++ leBytes 6 now.toNat ++ [bit latch]))

/-! ### Requests (10_the_control_link.md, 11_request_and_reply_reference.md) -/

/-- A request command acts only on a request of its kind at the head of the Receive Queue with room in the Reply Queue: otherwise
nothing happens (R171, log 4).
A request whose length is not that of its kind is answered BAD_LENGTH and reaches no block (R171 step 3, R177). -/
def Obligations.RequestsAreTakenByKindAndLength : Prop :=
  (∀ (s : State) (c : Instr) (kind : Byte),
     (c, kind) ∈ ([(.identify, 0x01), (.readStatus, 0x02), (.readTime, 0x03), (.setGlobal, 0x04), (.setChannel, 0x05),
       (.readConfig, 0x06), (.schedule, 0x10), (.stagingSchedule, 0x10), (.cancel, 0x11), (.cancelChannel, 0x12),
       (.queryAction, 0x13), (.queryChannel, 0x14), (.groupBegin, 0x20), (.groupCommit, 0x21), (.groupAbort, 0x22),
       (.snapshot, 0x30), (.waitIdle, 0x31), (.armSync, 0x32), (.cancelTag, 0x33), (.noticeAck, 0x40), (.enterSafe, 0x50),
       (.releaseSafe, 0x51), (.restart, 0x7F)] : List (Instr × Byte)) →
     s.rxQueue = [] ∨ 4 ≤ s.replies.length ∨ (∀ rq ∈ s.rxQueue.head?, rq.kind ≠ kind) → exec c s = .next s) ∧
  (∀ (s : State) (rq : Request) (rest : List Request) (c : Instr) (kind : Byte) (len : Nat), s.Carries rq rest →
     (c, kind, len) ∈ ([(.identify, 0x01, 3), (.readStatus, 0x02, 4), (.readTime, 0x03, 3), (.setGlobal, 0x04, 16),
       (.setChannel, 0x05, 8), (.readConfig, 0x06, 3), (.schedule, 0x10, 32), (.cancel, 0x11, 5), (.cancelChannel, 0x12, 5),
       (.queryAction, 0x13, 5), (.queryChannel, 0x14, 5), (.groupBegin, 0x20, 5), (.groupCommit, 0x21, 3),
       (.groupAbort, 0x22, 3), (.snapshot, 0x30, 10), (.waitIdle, 0x31, 4), (.armSync, 0x32, 10), (.cancelTag, 0x33, 4),
       (.noticeAck, 0x40, 5), (.enterSafe, 0x50, 3), (.releaseSafe, 0x51, 3), (.restart, 0x7F, 3)] :
       List (Instr × Byte × Nat)) →
     rq.kind = kind → rq.fields.length + 3 ≠ len →
       exec c s = .next (State.withReply { s with rxQueue := rest } rq .badLength []))

/-- A request that the reply cache answers is not carried out: the cached reply is appended as it is (R171 step 1, R172), and no
request command, nor BAD_KIND, takes it from the queue (log 4). A kind code that section 11.2 does not list is answered BAD_KIND,
whatever the length (R177); a listed one is not (log 4). -/
def Obligations.CachedAndUnknownRequests : Prop :=
  ∀ (s : State) (rq : Request) (rest : List Request),
    let listed : List Byte := [0x01, 0x02, 0x03, 0x04, 0x05, 0x06, 0x10, 0x11, 0x12, 0x13, 0x14, 0x20, 0x21, 0x22, 0x30, 0x31, 0x32,
      0x33, 0x40, 0x50, 0x51, 0x7F]
    (∀ before e after, s.inReset = false → s.rxQueue = rq :: rest → s.replies.length < 4 → rq.seq ≠ 0 →
      s.cache = before ++ e :: after → e.seq = rq.seq → e.kind = rq.kind →
      (∀ x ∈ before, ¬ (x.seq = rq.seq ∧ x.kind = rq.kind)) →
      exec .replyFromCache s = .next { s with rxQueue := rest, replies := s.replies ++ [e] } ∧
      ∀ c ∈ ([.badKind, .identify, .readStatus, .readTime, .setGlobal, .setChannel, .readConfig, .schedule, .stagingSchedule,
        .cancel, .cancelChannel, .queryAction, .queryChannel, .groupBegin, .groupCommit, .groupAbort, .snapshot, .waitIdle,
        .armSync, .cancelTag, .noticeAck, .enterSafe, .releaseSafe, .restart] : List Instr), exec c s = .next s) ∧
    (s.Carries rq rest → exec .replyFromCache s = .next s) ∧
    (s.Carries rq rest → rq.kind ∉ listed →
      exec .badKind s = .next (State.withReply { s with rxQueue := rest } rq .badKind [])) ∧
    (s.Carries rq rest → rq.kind ∈ listed → exec .badKind s = .next s)

/-- IDENTIFY, READ_TIME and READ_CONFIG change nothing but the queues of the link, and carry the part's identity (R180), the time
with the arm (R7), and the eight configuration records with the four settings (R181).
READ_STATUS carries the six counters, the counts of the pool, the tags, the notices and the window, the loss count, the flags,
the cause and the open group's id; the clear flag sets the six counters to 0 after they have been read; a flag above 1 is
BAD_PARAM (R175, R182). The SAFEn level is the last sample (R135, R136). -/
def Obligations.ReadsCarryTheState : Prop :=
  (∀ (s : State) (rq : Request) (rest : List Request), s.Carries rq rest → rq.fields = [] →
     let s1 := { s with rxQueue := rest }
     (rq.kind = 0x01 → exec .identify s = .next (s1.withReply rq .ok
       [0xA7, 0x00, 0xE8, 0x08, 0x01, 0x08, 0x00, 0x01, 64, 32, 16, 32])) ∧
     (rq.kind = 0x03 → exec .readTime s = .next (s1.withReply rq .ok
       (leBytes 6 s.deviceTime.toNat
         ++ [BitVec.ofNat 8 ((if s.deviceTime.toNat = 2 ^ 48 - 1 then 1 else 0) + (if s.syncArm = none then 0 else 2))]
         ++ (match s.syncArm with
             | none => [0, 0, 0, 0, 0, 0, 0, 0]
             | some arm => leBytes 6 arm.value.toNat ++
                 [(match arm.pol with | .rising => 0 | .falling => 1), BitVec.ofNat 8 arm.tag])))) ∧
     (rq.kind = 0x06 → exec .readConfig s = .next (s1.withReply rq .ok
       (([0, 1, 2, 3, 4, 5, 6, 7] : List Channel).flatMap (fun ch =>
           let c := (s.engine ch).config
           [if c.enabled then 1 else 0, if c.safeLevel then 1 else 0,
             (match c.polarity with | .rising => 0 | .falling => 1 | .both => 2), c.filter])
         ++ leBytes 2 s.minLead ++ leBytes 6 s.horizon ++ leBytes 2 s.groupDefault ++ leBytes 2 s.retryTime)))) ∧
  (∀ (s : State) (rq : Request) (rest : List Request) (flag : Byte), s.Carries rq rest → rq.kind = 0x02 →
     rq.fields = [flag] →
     let s1 := { s with rxQueue := rest }
     let inState (st : RecState) : Nat := (List.finRange 256).countP fun i => (s.record i).any fun r => r.state = st
     let fields : List Byte :=
       leBytes 2 s.counters.crc ++ leBytes 2 s.counters.length ++ leBytes 2 s.counters.gap ++ leBytes 2 s.counters.framing
         ++ leBytes 2 s.counters.overflow ++ leBytes 2 s.counters.strayType ++ leBytes 2 s.freeList.length
         ++ leBytes 1 (inState .staged) ++ leBytes 2 (inState .planned) ++ leBytes 1 (inState .waiting)
         ++ leBytes 1 (inState .current) ++ leBytes 1 (s.tagsOpen.length + s.tagsWaiting.length)
         ++ leBytes 1 s.notices.length ++ leBytes 1 (s.notices.filter (·.sent)).length ++ leBytes 2 s.lossCount
         ++ [BitVec.ofNat 8 ((if s.stall then 1 else 0) + (if s.latch then 2 else 0)
               + (if s.safenSample then 4 else 0) + (if s.snapshot = none then 0 else 8)
               + (if s.syncArm = none then 0 else 16)),
             (match s.cause with | .noCause => 0 | .line => 1 | .request => 2)]
         ++ leBytes 1 (match s.group with | none => 0 | some g => g.id)
     (flag = 0 → exec .readStatus s = .next (s1.withReply rq .ok fields)) ∧
     (flag = 1 → exec .readStatus s = .next (State.withReply { s1 with
       counters := { crc := 0, length := 0, gap := 0, framing := 0, overflow := 0, strayType := 0 } } rq .ok fields)) ∧
     (1 < flag.toNat → exec .readStatus s = .next (s1.withReply rq .badParam [])))

/-- SET_GLOBAL sets all the selected settings or none: a selection bit above 3 or a selected value outside its range is BAD_PARAM;
the reply carries the four settings as they then stand (R35, R103, R152, R183). -/
def Obligations.SetGlobalSetsAllOrNone : Prop :=
  ∀ (s : State) (rq : Request) (rest : List Request) (sel : Byte) (l h g r : Nat), s.Carries rq rest → rq.kind = 0x04 →
    l < 2 ^ 16 → h < 2 ^ 48 → g < 2 ^ 16 → r < 2 ^ 16 →
    rq.fields = [sel] ++ leBytes 2 l ++ leBytes 6 h ++ leBytes 2 g ++ leBytes 2 r →
    let s1 := { s with rxQueue := rest }
    let allowed := sel.toNat < 16 ∧ (sel.getLsbD 0 = true → 10 ≤ l ∧ l ≤ 10000) ∧
      (sel.getLsbD 1 = true → 65536 ≤ h ∧ h ≤ 2 ^ 40) ∧ (sel.getLsbD 2 = true → 1 ≤ g ∧ g ≤ 60000) ∧
      (sel.getLsbD 3 = true → 5 ≤ r ∧ r ≤ 1000)
    let l' := if sel.getLsbD 0 then l else s.minLead
    let h' := if sel.getLsbD 1 then h else s.horizon
    let g' := if sel.getLsbD 2 then g else s.groupDefault
    let r' := if sel.getLsbD 3 then r else s.retryTime
    (allowed → exec .setGlobal s = .next (State.withReply
      { s1 with minLead := l', horizon := h', groupDefault := g', retryTime := r' } rq .ok
      (leBytes 2 l' ++ leBytes 6 h' ++ leBytes 2 g' ++ leBytes 2 r'))) ∧
    (¬ allowed → exec .setGlobal s = .next (s1.withReply rq .badParam []))

/-- SET_CHANNEL's refusals, in order (R56): a flag or level above 1 or an undefined polarity is BAD_PARAM, a channel above 7
BAD_CHANNEL, and a channel that is busy, has a plan, or is named by a staged record BUSY. None of them changes anything.
An accepted SET_CHANNEL (R57, R82): the record is stored; a channel that is OFF or is disabled, and a SAFED one, goes to its
safe level at once, while an IDLE one that stays enabled keeps its levels; disabling makes it OFF, and enabling an OFF one makes
it IDLE, or SAFED under the latch, at rest at its safe level. The trigger input keeps its filtered level where the last sample
agrees with it; where it does not, filter 0 makes the transition at once and another filter starts the timer afresh. An expiry of
the filter timer that an earlier tick has counted is taken first, by the configuration then in force (R80; the model's choice,
log 8). A disabled channel keeps the rest level that it had, which is not in use (the model's choice, log 13). -/
def Obligations.SetChannelRefusesOrActs : Prop :=
  (∀ (s : State) (rq : Request) (rest : List Request) (n en level pol filter : Byte), s.Carries rq rest → rq.kind = 0x05 →
     rq.fields = [n, en, level, pol, filter] →
     let refused (st : Status) := exec .setChannel s = .next (State.withReply { s with rxQueue := rest } rq st [])
     let badParam := 1 < en.toNat ∨ 1 < level.toNat ∨ 2 < pol.toNat
     (badParam → refused .badParam) ∧
     (¬ badParam → 7 < n.toNat → refused .badChannel) ∧
     (∀ ch : Channel, ¬ badParam → n = BitVec.ofNat 8 ch.val →
       (s.engine ch).state = .running ∨ (s.engine ch).state = .armed ∨ (s.engine ch).state = .firing ∨
         (s.plan ch).records ≠ [] ∨
         (∃ g, s.group = some g ∧ ∃ i ∈ g.staging, ∃ r, s.record i = some r ∧ r.channel = ch) →
       refused .busy)) ∧
  (∀ (s : State) (rq : Request) (rest : List Request) (ch : Channel) (enabled safeLevel : Bool) (pol : TrigPolarity)
     (filter : Byte), s.Carries rq rest → rq.kind = 0x05 →
     rq.fields = [BitVec.ofNat 8 ch.val, if enabled then 1 else 0, if safeLevel then 1 else 0,
       (match pol with | .rising => 0 | .falling => 1 | .both => 2), filter] →
     (s.engine ch).state = .off ∨ (s.engine ch).state = .idle ∨ (s.engine ch).state = .safed →
     (s.plan ch).records = [] →
     (∀ g, s.group = some g → ∀ i ∈ g.staging, ∀ r, s.record i = some r → r.channel ≠ ch) →
     ((s.trigger ch).filterTimer = some 0 →
       ∃ u, exec (.filterTimerExpiry ch) s = .next u ∧ (u.trigger ch).filterTimer = none ∧
         exec .setChannel s = exec .setChannel u) ∧
     ((s.trigger ch).filterTimer ≠ some 0 → ∃ t : State, exec .setChannel s = .next (t.withReply rq .ok []) ∧
       t = { s with rxQueue := rest, engines := setAt s.engines ch (t.engine ch),
                    triggers := setAt s.triggers ch (t.trigger ch) } ∧
       let e := s.engine ch
       let cfg : ChanConfig := { enabled := enabled, safeLevel := safeLevel, polarity := pol, filter := filter }
       let moved (st : ChanState) (restLevel : Bool) : Engine := { e with
         config := cfg, state := st, outputLevel := safeLevel, out := safeLevel, changePending := false
         restLevel := restLevel, edgesHanded := (t.engine ch).edgesHanded }
       (e.state = .off → enabled = true → t.engine ch = moved (if s.latch then .safed else .idle) safeLevel) ∧
       (enabled = false → t.engine ch = moved .off e.restLevel) ∧
       (e.state = .idle → enabled = true →
         t.engine ch = { e with config := cfg, edgesHanded := (t.engine ch).edgesHanded }) ∧
       (e.state = .safed → enabled = true → t.engine ch = moved .safed safeLevel) ∧
       let g := s.trigger ch
       (g.filtered = none ∨ g.filtered = some g.sample →
         t.trigger ch = { g with filterTimer := none } ∧ (t.engine ch).edgesHanded = e.edgesHanded) ∧
       (g.filtered = some (!g.sample) → filter = 0 →
         t.trigger ch = { g with filtered := some g.sample, filterTimer := none } ∧
         (t.engine ch).edgesHanded = e.edgesHanded +
           (if pol = .both ∨ (pol = .rising ∧ g.sample = true) ∨ (pol = .falling ∧ g.sample = false) then 1 else 0)) ∧
       (g.filtered = some (!g.sample) → filter ≠ 0 →
         t.trigger ch = { g with filterTimer := some filter.toNat } ∧ (t.engine ch).edgesHanded = e.edgesHanded)))

/-- A tag is allocated as the first value from the next value on, cyclically from 255 to 1, that no entry holds (R118). -/
def Obligations.TagsAreGivenInTheirCycle : Prop :=
  ∀ (s : State), 1 ≤ s.nextTag → s.nextTag ≤ 255 → s.tagsOpen.length + s.tagsWaiting.length < 16 →
    let held (v : Nat) : Prop := (∃ e ∈ s.tagsOpen, e.tag = v) ∨ (∃ e ∈ s.tagsWaiting, e.tag = v)
    ¬ held s.tagToGive ∧
    ∃ k, s.tagToGive = (s.nextTag - 1 + k) % 255 + 1 ∧ ∀ j < k, held ((s.nextTag - 1 + j) % 255 + 1)

/-- The refusals of a SCHEDULE with defined fields, in order (R36, R37, R104): the first check that fails gives the status, and
nothing changes. A staging one is checked against the group in place of the plan, and is never TOO_LATE.
A SCHEDULE with a field that its kind uses out of range, or an undefined kind, policy or flag, is BAD_PARAM before any other
check of its fields, and changes nothing (R20, R21, R36 step 2). -/
def Obligations.ScheduleRefusesInOrder : Prop :=
  (∀ (s : State) (rq : Request) (rest : List Request) (channel level mode kind : Byte) (w p n d v : Nat) (start : Time)
     (pol : Policy) (report tagged grouped : Bool) (params : Params) (st : Status), s.Carries rq rest → rq.kind = 0x10 →
     w < 2 ^ 24 → p < 2 ^ 24 → n < 2 ^ 16 → d < 2 ^ 24 → v < 2 ^ 32 →
     rq.fields = scheduleBody channel kind (policyCode pol) (if report then 1 else 0) (if tagged then 1 else 0)
       (if grouped then 1 else 0) start level w p n d v mode →
     fieldsGive kind level w p n d v mode params →
     let now := s.deviceTime.toNat
     let pool : Option Status :=
       if s.freeList = [] then some .poolFull
       else if tagged = true ∧ 16 ≤ s.tagsOpen.length + s.tagsWaiting.length then some .tagsFull
       else none
     let direct (ch : Channel) : Option Status :=
       if start.toNat = 0 ∧ 2 ^ 48 - 1 < now + s.minLead then some .tooFar
       else if start.toNat ≠ 0 ∧ start.toNat < now + s.minLead then some .tooLate
       else if start.toNat ≠ 0 ∧ now + s.horizon < start.toNat then some .tooFar
       else if 64 ≤ (s.plan ch).records.length then some .planFull
       else pool
     let staging : Option Status := match s.group with
       | none => some .noGroup
       | some g =>
         if 32 ≤ g.staging.length then some .groupFull
         else if start.toNat ≠ 0 ∧ now + s.horizon < start.toNat then some .tooFar
         else pool
     let verdict : Option Status :=
       if h : channel.toNat < 8 then
         if (s.engine ⟨channel.toNat, h⟩).state = .off then some .channelOff
         else if grouped then staging
         else direct ⟨channel.toNat, h⟩
       else some .badChannel
     verdict = some st →
       exec (if grouped then .stagingSchedule else .schedule) s
         = .next (State.withReply { s with rxQueue := rest } rq st [])) ∧
  (∀ (s : State) (rq : Request) (rest : List Request) (channel policy report tagged grouped level mode kind : Byte)
     (w p n d v : Nat) (start : Time), s.Carries rq rest → rq.kind = 0x10 →
     w < 2 ^ 24 → p < 2 ^ 24 → n < 2 ^ 16 → d < 2 ^ 24 → v < 2 ^ 32 →
     rq.fields = scheduleBody channel kind policy report tagged grouped start level w p n d v mode →
     (∀ params, ¬ fieldsGive kind level w p n d v mode params) ∨ 2 < policy.toNat ∨ 1 < report.toNat ∨ 1 < tagged.toNat ∨
       1 < grouped.toNat →
       exec (if grouped = 1 then .stagingSchedule else .schedule) s
         = .next (State.withReply { s with rxQueue := rest } rq .badParam []))

/-- A direct SCHEDULE that passes its checks (R37, R38): the slot at the head of the free list is filled from the request, an ASAP
start resolved to device time plus L, a tag allocated where asked for, and the record enters its plan as PLANNED after the last
record whose start is no later (R18, R22, R34). The reply is OK, or DEFERRED with the tag, and carries the handle.
A staging SCHEDULE that passes its checks (R104, R105): the record is allocated and filled as STAGED with its start as given,
an ASAP start held as 0 (R22), and joins the tail of the staging list. The reply is STAGED with handle and tag. -/
def Obligations.ScheduleAdmitsOrStages : Prop :=
  (∀ (s : State) (rq : Request) (rest : List Request) (ch : Channel) (level mode kind : Byte) (w p n d v : Nat)
     (start at_ : Time) (pol : Policy) (report tagged : Bool) (params : Params) (i : SlotNo) (free : List SlotNo),
     s.Carries rq rest → s.Held → rq.kind = 0x10 → w < 2 ^ 24 → p < 2 ^ 24 → n < 2 ^ 16 → d < 2 ^ 24 → v < 2 ^ 32 →
     rq.fields = scheduleBody (BitVec.ofNat 8 ch.val) kind (policyCode pol) (if report then 1 else 0)
       (if tagged then 1 else 0) 0 start level w p n d v mode →
     fieldsGive kind level w p n d v mode params → (s.engine ch).state ≠ .off →
     (start.toNat = 0 ∧ at_.toNat = s.deviceTime.toNat + s.minLead ∨
       start.toNat ≠ 0 ∧ at_ = start ∧ s.deviceTime.toNat + s.minLead ≤ start.toNat ∧
         start.toNat ≤ s.deviceTime.toNat + s.horizon) →
     (s.plan ch).records.length < 64 → s.freeList = i :: free →
     (tagged = true → s.tagsOpen.length + s.tagsWaiting.length < 16) →
     ∃ before after,
       (s.plan ch).records = before ++ after ∧
       (∀ j ∈ before, ∀ r, s.record j = some r → r.start.toNat ≤ at_.toNat) ∧
       (∀ j ∈ after.head?, ∀ r, s.record j = some r → at_.toNat < r.start.toNat) ∧
       exec .schedule s = .next (State.withReply { s with
         rxQueue := rest
         freeList := free
         slots := setAt s.slots i { s.slot i with record := some {
           channel := ch, params := params, start := at_, policy := pol, report := report,
           tag := if tagged then some s.tagToGive else none, state := .planned } }
         plans := setAt s.plans ch { s.plan ch with records := before ++ i :: after }
         tagsOpen := if tagged then s.tagsOpen ++ [{ tag := s.tagToGive, subject := .action (s.handle i) }] else s.tagsOpen
         nextTag := if tagged then (if s.tagToGive < 255 then s.tagToGive + 1 else 1) else s.nextTag } rq
         (if tagged then .deferred else .ok)
         [BitVec.ofNat 8 i.val, BitVec.ofNat 8 (s.slot i).gen, BitVec.ofNat 8 (if tagged then s.tagToGive else 0)])) ∧
  (∀ (s : State) (rq : Request) (rest : List Request) (ch : Channel) (level mode kind : Byte) (w p n d v : Nat)
     (start : Time) (pol : Policy) (report tagged : Bool) (params : Params) (i : SlotNo) (free : List SlotNo) (g : Group),
     s.Carries rq rest → rq.kind = 0x10 → w < 2 ^ 24 → p < 2 ^ 24 → n < 2 ^ 16 → d < 2 ^ 24 → v < 2 ^ 32 →
     rq.fields = scheduleBody (BitVec.ofNat 8 ch.val) kind (policyCode pol) (if report then 1 else 0)
       (if tagged then 1 else 0) 1 start level w p n d v mode →
     fieldsGive kind level w p n d v mode params → (s.engine ch).state ≠ .off → s.group = some g → g.staging.length < 32 →
     start.toNat = 0 ∨ start.toNat ≤ s.deviceTime.toNat + s.horizon → s.freeList = i :: free →
     (tagged = true → s.tagsOpen.length + s.tagsWaiting.length < 16) →
       exec .stagingSchedule s = .next (State.withReply { s with
         rxQueue := rest
         freeList := free
         slots := setAt s.slots i { s.slot i with record := some {
           channel := ch, params := params, start := start, policy := pol, report := report,
           tag := if tagged then some s.tagToGive else none, state := .staged } }
         group := some { g with staging := g.staging ++ [i] }
         tagsOpen := if tagged then s.tagsOpen ++ [{ tag := s.tagToGive, subject := .action (s.handle i) }] else s.tagsOpen
         nextTag := if tagged then (if s.tagToGive < 255 then s.tagToGive + 1 else 1) else s.nextTag } rq .staged
         [BitVec.ofNat 8 i.val, BitVec.ofNat 8 (s.slot i).gen, BitVec.ofNat 8 (if tagged then s.tagToGive else 0)]))

/-- CANCEL of a live handle frees the record as CANCELLED at the block that holds it (R25): a STAGED one leaves the staging list
(R106), a PLANNED or WAITING one its plan (R50), a CURRENT one is cut to the rest level at once and its end handed to the plan
(R71). Where the cancelled record was the head of its plan, a WAITING one included, the new head is then handled as HEAD_DUE handles
it, in the same event (R50). A stale handle is NO_SUCH_ACTION (R16). -/
def Obligations.CancelFreesTheRecord : Prop :=
  ∀ (s : State) (rq : Request) (rest : List Request) (i : SlotNo) (gen : Byte), s.Carries rq rest → s.Held →
    rq.kind = 0x11 → rq.fields = [BitVec.ofNat 8 i.val, gen] →
    let s1 := { s with rxQueue := rest }
    let frees (s2 : State) (r : Record) (b : EndedBody) : Prop :=
      ∃ u : State, exec .cancel s = .next (u.withReply rq .ok []) ∧ s2.Frees u i r b
    (gen = 0 ∨ gen.toNat ≠ (s.slot i).gen ∨ s.record i = none →
      exec .cancel s = .next (s1.withReply rq .noSuchAction [])) ∧
    (∀ r, gen.toNat = (s.slot i).gen → s.record i = some r →
      (∀ g, r.state = .staged → s.group = some g →
        frees { s1 with group := some { g with staging := g.staging.filter fun j => j ≠ i } } r
          (unstartedBody s i r .cancelled)) ∧
      (∀ before after, (r.state = .planned ∨ r.state = .waiting) → (s.plan r.channel).records = before ++ i :: after →
        (before = [] → s.NextNotDue after ∧ (s.plan r.channel).loads = []) →
        frees { s1 with plans := s.planWithout r.channel (before ++ after) } r (unstartedBody s i r .cancelled)) ∧
      (∀ after, (r.state = .planned ∨ r.state = .waiting) → (s.plan r.channel).records = i :: after →
        let freed := State.freed { s1 with plans := s.planWithout r.channel after } i r (unstartedBody s i r .cancelled)
        ∃ v : State, exec (.headDue r.channel) freed = .next v ∧
          exec .cancel s = .next ((v.watched [r.channel]).withReply rq .ok [])) ∧
      (∀ run, r.state = .current → (s.engine r.channel).current = some run →
        frees { s1 with
          engines := setAt s.engines r.channel ((s.engine r.channel).cut (s.engine r.channel).restLevel .idle)
          plans := setAt s.plans r.channel { s.plan r.channel with endHanded := true } } r (endBody s run r .cancelled)))

/-- CANCEL_CHANNEL (R51): a flag above 1 is BAD_PARAM, a channel above 7 BAD_CHANNEL; otherwise the plan is emptied, its records
freed as CANCELLED in plan order, and with the flag set the current action is cancelled after them; the reply counts them all. -/
def Obligations.CancelChannelEmptiesThePlan : Prop :=
  ∀ (s : State) (rq : Request) (rest : List Request) (n flag : Byte), s.Carries rq rest → s.Held → rq.kind = 0x12 →
    rq.fields = [n, flag] →
    let s1 := { s with rxQueue := rest }
    (1 < flag.toNat → exec .cancelChannel s = .next (s1.withReply rq .badParam [])) ∧
    (flag.toNat ≤ 1 → 7 < n.toNat → exec .cancelChannel s = .next (s1.withReply rq .badChannel [])) ∧
    (∀ ch : Channel, n = BitVec.ofNat 8 ch.val →
      let emptied := { s1 with plans := s.planWithout ch [] }
      let records := (s.plan ch).records
      (flag = 0 ∨ flag = 1 ∧ (s.engine ch).current = none →
        ∃ u : State, exec .cancelChannel s = .next (u.withReply rq .ok [BitVec.ofNat 8 records.length]) ∧
          emptied.FreesAll u records .cancelled ∧ (records = [] → u = emptied)) ∧
      (∀ run r, flag = 1 → s.Runs ch run r →
        ∃ t : State, exec .cancelChannel s = .next (t.withReply rq .ok [BitVec.ofNat 8 (records.length + 1)]) ∧
          let u := emptied.freedAll .cancelled records
          State.Frees { u with
            engines := setAt s.engines ch ((s.engine ch).cut (s.engine ch).restLevel .idle)
            plans := setAt s.plans ch { s.plan ch with records := [], endHanded := true } } t run.slot r
            (endBody s run r .cancelled)))

/-- QUERY_ACTION of a live handle carries the record, and its progress while it is CURRENT (R31); absent fields are 0 (R178). A
stale handle is NO_SUCH_ACTION (R16). Nothing but the queues of the link changes.
QUERY_CHANNEL carries the engine and the plan of a channel, an OFF channel's rest level as its safe level; the clear flag sets
the stray-edge count to 0 after it has been read (R52, R76). A flag above 1 is BAD_PARAM, a channel above 7 BAD_CHANNEL.
The codes of kinds, record states, channel states and phases are those of section 11.1, written out here. -/
def Obligations.QueriesReportRecordAndChannel : Prop :=
  (∀ (s : State) (rq : Request) (rest : List Request) (i : SlotNo) (gen : Byte), s.Carries rq rest → rq.kind = 0x13 →
     rq.fields = [BitVec.ofNat 8 i.val, gen] →
     let s1 := { s with rxQueue := rest }
     (gen = 0 ∨ gen.toNat ≠ (s.slot i).gen ∨ s.record i = none →
       exec .queryAction s = .next (s1.withReply rq .noSuchAction [])) ∧
     (∀ r, gen ≠ 0 → gen.toNat = (s.slot i).gen → s.record i = some r →
       let head := [recStateCode r.state, BitVec.ofNat 8 r.channel.val, kindCode r.params] ++ leBytes 6 r.start.toNat
       (r.state ≠ .current →
         exec .queryAction s = .next (s1.withReply rq .ok (head ++ [0] ++ List.replicate 23 0))) ∧
       (∀ run, r.state = .current → (s.engine r.channel).current = some run →
         let g := run.progress
         exec .queryAction s = .next (s1.withReply rq .ok (head
           ++ [BitVec.ofNat 8 (1 + (if g.phaseRemaining = none then 0 else 2) + (if g.windowRemaining = none then 0 else 4)),
               phaseCode g.phase]
           ++ leBytes 3 (g.phaseRemaining.getD 0) ++ leBytes 4 (g.windowRemaining.getD 0) ++ leBytes 2 g.pulses
           ++ leBytes 2 g.firings ++ leBytes 2 g.edges ++ leBytes 2 g.overruns ++ [if g.late then 1 else 0]
           ++ leBytes 6 g.actualStart.toNat))))) ∧
  (∀ (s : State) (rq : Request) (rest : List Request) (n flag : Byte), s.Carries rq rest → rq.kind = 0x14 →
     rq.fields = [n, flag] →
     let s1 := { s with rxQueue := rest }
     (1 < flag.toNat → exec .queryChannel s = .next (s1.withReply rq .badParam [])) ∧
     (flag.toNat ≤ 1 → 7 < n.toNat → exec .queryChannel s = .next (s1.withReply rq .badChannel [])) ∧
     (∀ ch : Channel, n = BitVec.ofNat 8 ch.val →
       let e := s.engine ch
       let records := (s.plan ch).records
       let head : Option (SlotNo × Record) := records.head?.bind fun i => (s.record i).map fun r => (i, r)
       (∀ i ∈ records.head?, s.record i ≠ none) →
       let fields : List Byte :=
         [chanStateCode e.state, if e.outputLevel then 1 else 0,
          if e.state = .off then (if e.config.safeLevel then 1 else 0) else (if e.restLevel then 1 else 0),
          BitVec.ofNat 8 ((if e.current = none then 0 else 1) + (if records = [] then 0 else 2)
            + (if e.pendingEdge then 4 else 0))]
         ++ (match e.current with | none => [0, 0] | some run => leBytes 2 (s.handle run.slot).toNat)
         ++ [BitVec.ofNat 8 records.length]
         ++ (match head with
             | none => [0, 0, 0, 0, 0, 0, 0, 0, 0]
             | some (i, r) => leBytes 2 (s.handle i).toNat ++ leBytes 6 r.start.toNat ++ [recStateCode r.state])
         ++ leBytes 2 e.strayCount
       (flag = 0 → exec .queryChannel s = .next (s1.withReply rq .ok fields)) ∧
       (flag = 1 → exec .queryChannel s = .next (State.withReply
         { s1 with engines := setAt s.engines ch { e with strayCount := 0 } } rq .ok fields)))) ∧
  ((∀ l, kindCode (.set l) = 0x00) ∧ (∀ w, kindCode (.pulse w) = 0x01) ∧ (∀ w p n, kindCode (.train w p n) = 0x02) ∧
   (∀ p, kindCode (.square p) = 0x03) ∧ (∀ w n d v m, kindCode (.armed w n d v m) = 0x04) ∧
   (∀ w n v, kindCode (.count w n v) = 0x05)) ∧
  (recStateCode .staged = 0x01 ∧ recStateCode .planned = 0x02 ∧ recStateCode .waiting = 0x03 ∧ recStateCode .current = 0x04) ∧
  (chanStateCode .off = 0x00 ∧ chanStateCode .idle = 0x01 ∧ chanStateCode .running = 0x02 ∧ chanStateCode .armed = 0x03 ∧
   chanStateCode .firing = 0x04 ∧ chanStateCode .safed = 0x05) ∧
  (phaseCode .active = 0x00 ∧ phaseCode .rest = 0x01 ∧ phaseCode .listen = 0x02 ∧ phaseCode .delay = 0x03 ∧
   phaseCode .strobe = 0x04)

/-- GROUP_BEGIN (R102): a timeout above 60,000 is BAD_PARAM, an open group GROUP_OPEN; otherwise a group is opened with the next id
and its timer at the timeout asked for, or at the default for 0, in ticks of a millisecond; the next id runs from 255 to 1. -/
def Obligations.GroupBeginOpensAGroup : Prop :=
  ∀ (s : State) (rq : Request) (rest : List Request) (ms : Nat), s.Carries rq rest → rq.kind = 0x20 → ms < 2 ^ 16 →
    rq.fields = leBytes 2 ms →
    let s1 := { s with rxQueue := rest }
    let inForce := if ms = 0 then s.groupDefault else ms
    (60000 < ms → exec .groupBegin s = .next (s1.withReply rq .badParam [])) ∧
    (ms ≤ 60000 → s.group ≠ none → exec .groupBegin s = .next (s1.withReply rq .groupOpen [])) ∧
    (ms ≤ 60000 → s.group = none →
      exec .groupBegin s = .next (State.withReply { s1 with
        group := some { id := s.nextGroupId, staging := [], timer := inForce * 1000 }
        nextGroupId := if s.nextGroupId < 255 then s.nextGroupId + 1 else 1 } rq .ok
        (BitVec.ofNat 8 s.nextGroupId :: leBytes 2 inForce)))

/-- GROUP_COMMIT examines the staged records in staging order, each against the start limits and against its plan with the earlier
records of its channel counted in (R107). The first that fails gives the status and its handle, and nothing changes (R108).
A GROUP_COMMIT whose every record passes makes each PLANNED in its channel's plan, an ASAP start resolved to device time plus L,
closes the group, and answers OK with the count (R109). The records that stood in a plan keep their order; in a plan ordered by
start, which stays so, a committed record follows every earlier one of no later start, and committed ones of equal start keep their
staging order (R34, R109). Nothing else changes. -/
def Obligations.GroupCommitPlansAllOrNone : Prop :=
  (∀ (s : State) (rq : Request) (rest : List Request) (g : Group) (before after : List SlotNo) (i : SlotNo) (r : Record)
     (st : Status), s.Carries rq rest → s.Held → rq.kind = 0x21 → rq.fields = [] → s.group = some g →
     g.staging = before ++ i :: after → s.record i = some r →
     let now := s.deviceTime.toNat
     let verdict (earlier : List SlotNo) (q : Record) : Option Status :=
       if q.start.toNat ≠ 0 ∧ q.start.toNat < now + s.minLead then some .tooLate
       else if q.start.toNat ≠ 0 ∧ now + s.horizon < q.start.toNat then some .tooFar
       else if q.start.toNat = 0 ∧ 2 ^ 48 - 1 < now + s.minLead then some .tooFar
       else if 64 ≤ (s.plan q.channel).records.length
           + earlier.countP (fun j => (s.record j).any fun x => x.channel = q.channel) then some .planFull
       else none
     (∀ pre j post q, before = pre ++ j :: post → s.record j = some q → verdict pre q = none) → verdict before r = some st →
       exec .groupCommit s = .next (State.withReply { s with rxQueue := rest } rq st
         [BitVec.ofNat 8 i.val, BitVec.ofNat 8 (s.slot i).gen])) ∧
  (∀ (s : State) (rq : Request) (rest : List Request) (g : Group), s.Carries rq rest → s.Held → rq.kind = 0x21 →
     rq.fields = [] → s.group = some g →
     (∀ before j after q, g.staging = before ++ j :: after → s.record j = some q →
       (q.start.toNat ≠ 0 → s.deviceTime.toNat + s.minLead ≤ q.start.toNat ∧
         q.start.toNat ≤ s.deviceTime.toNat + s.horizon) ∧
       (q.start.toNat = 0 → s.deviceTime.toNat + s.minLead < 2 ^ 48) ∧
       (s.plan q.channel).records.length + before.countP (fun x => (s.record x).any fun y => y.channel = q.channel) < 64) →
     ∃ t : State, exec .groupCommit s = .next (t.withReply rq .ok [BitVec.ofNat 8 g.staging.length]) ∧
       t = { s with rxQueue := rest, group := none, slots := t.slots, plans := t.plans } ∧
       (∀ i, (t.slot i).gen = (s.slot i).gen ∧ (i ∉ g.staging → t.record i = s.record i)) ∧
       (∀ i ∈ g.staging, ∀ r, s.record i = some r →
         t.record i = some { r with
           state := .planned
           start := if r.start = 0 then s.deviceTime + BitVec.ofNat 48 s.minLead else r.start }) ∧
       (∀ ch, t.plan ch = { s.plan ch with records := (t.plan ch).records } ∧
         ((t.plan ch).records).Perm ((s.plan ch).records
           ++ g.staging.filter fun i => (s.record i).any fun r => r.channel = ch) ∧
         (s.plan ch).records.Sublist (t.plan ch).records ∧
         (((s.plan ch).records.map s.startOf).Pairwise (· ≤ ·) →
           ((t.plan ch).records.map t.startOf).Pairwise (· ≤ ·) ∧
           (∀ j ∈ (s.plan ch).records, ∀ i ∈ g.staging, i ∈ (t.plan ch).records → t.startOf j ≤ t.startOf i →
             [j, i].Sublist (t.plan ch).records) ∧
           (∀ before i middle k after, g.staging = before ++ i :: middle ++ k :: after → i ∈ (t.plan ch).records →
             k ∈ (t.plan ch).records → t.startOf i ≤ t.startOf k → [i, k].Sublist (t.plan ch).records))))

/-- SNAPSHOT (R127, R128): a mask of 0 is BAD_PARAM, a scheduled snapshot BUSY, a capture time before device time plus L TOO_LATE or
beyond the horizon TOO_FAR, and a full Tag Table TAGS_FULL. Otherwise a tag of kind SNAPSHOT is given and the snapshot scheduled;
with time 0 the capture is made at once, on time, and its tag completes. -/
def Obligations.SnapshotSchedulesOrCaptures : Prop :=
  ∀ (s : State) (rq : Request) (rest : List Request) (mask : Byte) (time : Time), s.Carries rq rest → rq.kind = 0x30 →
    rq.fields = mask :: leBytes 6 time.toNat →
    let s1 := { s with rxQueue := rest }
    let now := s.deviceTime.toNat
    let tag := s.tagToGive
    let verdict : Option Status :=
      if mask = 0 then some .badParam
      else if s.snapshot ≠ none then some .busy
      else if time.toNat ≠ 0 ∧ time.toNat < now + s.minLead then some .tooLate
      else if time.toNat ≠ 0 ∧ now + s.horizon < time.toNat then some .tooFar
      else if 16 ≤ s.tagsOpen.length + s.tagsWaiting.length then some .tagsFull
      else none
    let given : State := { s1 with
      tagsOpen := s.tagsOpen ++ [{ tag := tag, subject := .snapshot mask }]
      nextTag := if tag < 255 then tag + 1 else 1 }
    (∀ st, verdict = some st → exec .snapshot s = .next (s1.withReply rq st [])) ∧
    (verdict = none → time.toNat ≠ 0 →
      exec .snapshot s = .next (State.withReply
        { given with snapshot := some { mask := mask, time := time, tag := tag, due := none } } rq .deferred
        [BitVec.ofNat 8 tag])) ∧
    (verdict = none → time.toNat = 0 →
      exec .snapshot s = .next (State.withReply
        (given.withDone tag .captured (.captured mask 0 s.deviceTime false (s.capture mask))) rq .deferred
        [BitVec.ofNat 8 tag]))

/-- WAIT_IDLE (R124, R125): with every selected channel quiet, that is OFF, or IDLE or SAFED with an empty plan and no staged
record naming it, the reply is OK without a tag; otherwise a tag of kind IDLE_WAIT is given, or TAGS_FULL where there is none.
ARM_SYNC (R9): an undefined polarity is BAD_PARAM, an arm already held BUSY, a full Tag Table TAGS_FULL; otherwise the arm is
held with its value, its polarity and a tag of kind SYNC, and the reply is DEFERRED with the tag. -/
def Obligations.WaitIdleAndArmSyncGiveATag : Prop :=
  (∀ (s : State) (rq : Request) (rest : List Request) (mask : Byte), s.Carries rq rest → rq.kind = 0x31 →
     rq.fields = [mask] →
     let s1 := { s with rxQueue := rest }
     let tag := s.tagToGive
     let quiet (ch : Channel) : Prop := (s.engine ch).state = .off ∨
       ((s.engine ch).state = .idle ∨ (s.engine ch).state = .safed) ∧ (s.plan ch).records = [] ∧
         ∀ g, s.group = some g → ∀ i ∈ g.staging, ∀ r, s.record i = some r → r.channel ≠ ch
     let allQuiet := ∀ ch : Channel, mask.getLsbD ch.val = true → quiet ch
     (allQuiet → exec .waitIdle s = .next (s1.withReply rq .ok [0])) ∧
     (¬ allQuiet → 16 ≤ s.tagsOpen.length + s.tagsWaiting.length →
       exec .waitIdle s = .next (s1.withReply rq .tagsFull [])) ∧
     (¬ allQuiet → s.tagsOpen.length + s.tagsWaiting.length < 16 →
       exec .waitIdle s = .next (State.withReply { s1 with
         tagsOpen := s.tagsOpen ++ [{ tag := tag, subject := .idleWait mask }]
         nextTag := if tag < 255 then tag + 1 else 1 } rq .deferred [BitVec.ofNat 8 tag]))) ∧
  (∀ (s : State) (rq : Request) (rest : List Request) (value : Time) (code : Byte), s.Carries rq rest → rq.kind = 0x32 →
     rq.fields = leBytes 6 value.toNat ++ [code] →
     let s1 := { s with rxQueue := rest }
     let tag := s.tagToGive
     (1 < code.toNat → exec .armSync s = .next (s1.withReply rq .badParam [])) ∧
     (code.toNat ≤ 1 → s.syncArm ≠ none → exec .armSync s = .next (s1.withReply rq .busy [])) ∧
     (code.toNat ≤ 1 → s.syncArm = none → 16 ≤ s.tagsOpen.length + s.tagsWaiting.length →
       exec .armSync s = .next (s1.withReply rq .tagsFull [])) ∧
     (code.toNat ≤ 1 → s.syncArm = none → s.tagsOpen.length + s.tagsWaiting.length < 16 →
       exec .armSync s = .next (State.withReply { s1 with
         syncArm := some { value := value, pol := if code = 0 then .rising else .falling, tag := tag }
         tagsOpen := s.tagsOpen ++ [{ tag := tag, subject := .sync }]
         nextTag := if tag < 255 then tag + 1 else 1 } rq .deferred [BitVec.ofNat 8 tag])))

/-- CANCEL_TAG (R122): a tag that no entry holds is NO_SUCH_TAG, a waiting one ALREADY_ENDED; an OPEN one's subject is ended as
CANCELLED by its owner, and the reply is OK: a sync arm is cleared with device time unchanged (R13), a wait is ended (R126), a
snapshot is unscheduled (R132), and an action's record is freed by the block that holds it (R25): a STAGED one leaves the staging
list (R106), a PLANNED or WAITING one its plan (R50), and a CURRENT one is cut to the rest level at once (R71). Where the record was
the head of its plan, a WAITING one included, the new head is then handled as HEAD_DUE handles it, in the same event (R50). -/
def Obligations.CancelTagEndsTheSubject : Prop :=
  ∀ (s : State) (rq : Request) (rest : List Request) (tag : Byte), s.Carries rq rest → rq.kind = 0x33 →
    rq.fields = [tag] →
    let s1 := { s with rxQueue := rest }
    let ended (u : State) : Prop := exec .cancelTag s = .next (u.withReply rq .ok [])
    (¬ s.TagOpen tag.toNat →
      ((∃ w ∈ s.tagsWaiting, w.tag = tag.toNat) → exec .cancelTag s = .next (s1.withReply rq .alreadyEnded [])) ∧
      ((∀ w ∈ s.tagsWaiting, w.tag ≠ tag.toNat) → exec .cancelTag s = .next (s1.withReply rq .noSuchTag []))) ∧
    (∀ before after e, s.tagsOpen = before ++ e :: after → e.tag = tag.toNat → (∀ x ∈ before, x.tag ≠ tag.toNat) →
      (∀ arm, e.subject = .sync → s.syncArm = some arm →
        ended (State.withDone { s1 with syncArm := none } e.tag .cancelled
          (.sync arm.value arm.pol s.deviceTime s.deviceTime))) ∧
      (∀ mask, e.subject = .idleWait mask →
        ended (s1.withDone e.tag .cancelled (.idleWait mask s.deviceTime))) ∧
      (∀ mask sc, e.subject = .snapshot mask → s.snapshot = some sc →
        ended (State.withDone { s1 with snapshot := none } e.tag .cancelled
          (.uncaptured sc.mask sc.time s.deviceTime))) ∧
      (∀ i r, s.Held → e.subject = .action (s.handle i) → s.record i = some r →
        (∀ g, r.state = .staged → s.group = some g →
          ∃ u : State, ended u ∧ State.Frees { s1 with group := some { g with staging := g.staging.filter fun j => j ≠ i } } u i r
            (unstartedBody s i r .cancelled)) ∧
        (∀ front rear, (r.state = .planned ∨ r.state = .waiting) → (s.plan r.channel).records = front ++ i :: rear →
          (front = [] → s.NextNotDue rear ∧ (s.plan r.channel).loads = []) →
          ∃ u : State, ended u ∧
            State.Frees { s1 with plans := s.planWithout r.channel (front ++ rear) } u i r (unstartedBody s i r .cancelled)) ∧
        (∀ rear, (r.state = .planned ∨ r.state = .waiting) → (s.plan r.channel).records = i :: rear →
          let freed := State.freed { s1 with plans := s.planWithout r.channel rear } i r (unstartedBody s i r .cancelled)
          ∃ v : State, exec (.headDue r.channel) freed = .next v ∧ ended (v.watched [r.channel])) ∧
        (∀ run, r.state = .current → (s.engine r.channel).current = some run →
          ∃ u : State, ended u ∧ State.Frees { s1 with
            engines := setAt s.engines r.channel ((s.engine r.channel).cut (s.engine r.channel).restLevel .idle)
            plans := setAt s.plans r.channel { s.plan r.channel with endHanded := true } } u i r (endBody s run r .cancelled))))

/-- NOTICE_ACK (R155): a number that no sent notice has is BAD_PARAM. Otherwise that notice and every older one leave the queue,
the expiry count is 0, waiting DONEs take the free places, oldest first, and a LOSS with the loss count the next one (R121, R149,
R150); the retry timer restarts where a notice is still sent, and stops where none is (R152). The reply counts the removed and
the queued ones. -/
def Obligations.NoticeAckRemovesAndRefills : Prop :=
  ∀ (s : State) (rq : Request) (rest : List Request) (n : Nat), s.Carries rq rest → rq.kind = 0x40 → n < 2 ^ 16 →
    rq.fields = leBytes 2 n →
    let s1 := { s with rxQueue := rest }
    ((∀ x ∈ s.notices, x.number = n → x.sent = false) →
      exec .noticeAck s = .next (s1.withReply rq .badParam [])) ∧
    (∀ old x later, s.notices = old ++ x :: later → x.number = n → x.sent = true → (∀ y ∈ old, y.number ≠ n) →
      let moved := s.tagsWaiting.take (32 - later.length)
      let loss := 0 < s.lossCount ∧ later.length + moved.length < 32
      ∃ t : State, exec .noticeAck s = .next (t.withReply rq .ok
          [BitVec.ofNat 8 (old.length + 1), BitVec.ofNat 8 t.notices.length]) ∧
        t = { s1 with notices := t.notices, nextNumber := t.nextNumber, expiries := 0
                      tagsWaiting := s.tagsWaiting.drop moved.length
                      lossCount := if loss then 0 else s.lossCount
                      retryTimer := if ∀ y ∈ later, y.sent = false then none else some (s.retryTime * 1000) } ∧
        ∃ added, t.notices = later ++ added ∧ (∀ y ∈ added, y.sent = false) ∧
          added.map (·.body) = moved.map (fun w => .done w.tag w.result w.body)
            ++ (if loss then [.loss s.lossCount s.deviceTime] else []) ∧
          (added = [] → t.nextNumber = s.nextNumber) ∧
          (∀ y ∈ added.head?, y.number = s.nextNumber) ∧
          (1 ≤ s.nextNumber → s.nextNumber ≤ 65535 → numbered added t.nextNumber))

/-- RESTART (R184): the reply is queued and cached first; then every block takes the restart in the same event. The arm, the tags,
the snapshot, the plans and the group are gone and every record is back in the pool in slot order without a report (R14, R32, R54,
R115, R134); the latch is set with cause LINE by a last SAFEn sample of 0 and cleared by a 1, its cause kept (R144); enabled
channels go to their safe level, SAFED under the latch (R78); the notices give way to one RESTARTED (R159). Time, settings,
configurations, trigger inputs, link state and counters are kept.
One thing here is the model's choice and no rule of the spec: of the events handed on and still to be taken, the latch settings and
releases, the forward loads and the channel's ends are dropped, and the trigger edges, the SYNC sample and the sampled falling edge
are kept (log 12). -/
def Obligations.RestartClearsTheWork : Prop :=
  ∀ (s : State) (rq : Request) (rest : List Request), s.Carries rq rest → rq.kind = 0x7F → rq.fields = [] →
    let latch := !s.safenSample
    exec .restart s = .next { State.withReply { s with rxQueue := rest } rq .ok [] with
      syncArm := none
      slots := mapAt (fun (sl : Slot) => if sl.record = none then sl
        else { gen := if sl.gen < 255 then sl.gen + 1 else 1, record := none }) s.slots
      freeList := s.freeList ++ (List.finRange 256).filter fun i => (s.record i).isSome
      plans := tab8 fun _ => { records := [], loads := [], settings := 0, endHanded := false }
      latch := latch
      cause := if latch then .line else s.cause
      engines := tab8 fun ch =>
        let e := s.engine ch
        if e.state = .off then { e with current := none, pendingEdge := false, strayCount := 0, safeHanded := [] }
        else { e.cut e.config.safeLevel (if latch then .safed else .idle) with
               restLevel := e.config.safeLevel, strayCount := 0, safeHanded := [] }
      group := none
      tagsOpen := [], tagsWaiting := [], nextTag := 1, snapshot := none
      notices := [{ number := s.nextNumber, body := .restarted .request s.deviceTime latch, sent := false }]
      nextNumber := if s.nextNumber < 65535 then s.nextNumber + 1 else 1
      lossCount := 0, retryTimer := none, expiries := 0, stall := false }

/-! ### Invariants -/

/-- Right after reset every record is FREE and in the pool, every queue is within its capacity, the plans are in order, the latch
is as R136 has it for the last sample, the Tag Table is as R117 describes it, and the notices are as R145 describes them. -/
def Obligations.TheInvariantsHoldAtReset : Prop :=
  State.reset.Held ∧ State.reset.PlansKept ∧ State.reset.LineKept ∧ State.reset.Bounded ∧ State.reset.TagsKept ∧ State.reset.NoticesKept

/-- Every step keeps every record in exactly the place that its state names: the free list holds the FREE slots once, a plan its
PLANNED and WAITING records once, the staging list the STAGED ones, an engine its CURRENT one, and an engine is busy exactly while
it has one (R15, R18, R33, R59, R101).
Every step then also keeps the plans in non-decreasing order of start, with a WAITING record only at the head (R33, R34), and with
the latch clear no plan has a latch setting still to take (R47; the model's choice, log 32).
Every step keeps the latch set while the last SAFEn sample is 0, but for the falling edge that is still to be taken (R136). -/
def Obligations.StepsKeepEveryRecordHeld : Prop :=
  (∀ (s t : State), s.Held → step s = .next t → t.Held) ∧
  (∀ (s t : State), s.Held → s.PlansKept → step s = .next t → t.PlansKept) ∧
  (∀ (s t : State), s.LineKept → step s = .next t → t.LineKept)

/-- Every step keeps the queues, the cache, the Tag Table, the plans and the staging list within their capacities (R33, R101, R117,
R170, R172, R173).
Every step keeps the tags of the Tag Table distinct and each OPEN entry the one entry of its subject, an ACTION entry that of a
record in use that holds its tag (R117). -/
def Obligations.StepsKeepTheCapacities : Prop :=
  (∀ (s t : State), s.Bounded → step s = .next t → t.Bounded) ∧
  (∀ (s t : State), s.Held → s.TagsKept → step s = .next t → t.TagsKept)

/-- Every step keeps the Notice Queue as R145 describes it: at most 32 notices numbered in turn, the sent ones a front of at most
4, full while a DONE waits or a loss is to be reported, the retry timer running exactly while a notice is sent, and delivery
stalled exactly from the eighth expiry with nothing sent (R119, R145, R146, R148, R152 to R154). -/
def Obligations.StepsKeepTheNoticesInOrder : Prop :=
  ∀ (s t : State), s.NoticesKept → step s = .next t → t.NoticesKept

/-! ### The watch -/

/-- The IDLE_WAIT watch (R125, R126): whatever the command, an OPEN entry of kind IDLE_WAIT stays OPEN unless the command frees a
record of a channel that the entry selects and leaves all the selected channels quiet. Then, and only then, the entry completes in
that event with result IDLE, and its DONE, with device time, is queued or waits. Left out are a CANCEL_TAG of that very tag, which
ends the wait as CANCELLED (R122), and RESTART and POWER_ON_RESET, which empty the table (R134). The place of these DONEs behind
the other reports of the event, in the order in which the tags were allocated, is said by `State.watched` in each statement on a
freeing. -/
def Obligations.TheWatchEndsQuietWaits : Prop :=
  ∀ (c : Instr) (s t : State) (e : OpenTag) (mask : Byte), s.inReset = false → s.Held → s.TagsKept → exec c s = .next t →
    e ∈ s.tagsOpen → e.subject = .idleWait mask → c ≠ .restart → c ≠ .powerOnReset →
    (c = .cancelTag → ∀ rq ∈ s.rxQueue.head?, rq.fields ≠ [BitVec.ofNat 8 e.tag]) →
    let selected (ch : Channel) : Prop := mask.getLsbD ch.val = true
    let ended := (∃ i r, s.record i = some r ∧ selected r.channel ∧ i ∈ t.freeList) ∧ ∀ ch, selected ch → t.Quiet ch
    let body : DoneBody := .idleWait mask s.deviceTime
    (ended → e ∉ t.tagsOpen ∧
      ((∃ n ∈ t.notices, n.body = .done e.tag .idle body) ∨ { tag := e.tag, result := .idle, body := body } ∈ t.tagsWaiting)) ∧
    (¬ ended → e ∈ t.tagsOpen)
end

