-- ==== Sys2Proof/Laws/Tables.lean ====
section
/-!
SUPPORT. Reading a table of fixed size after each way of building or changing one.
-/
namespace Sys2Proof

theorem getAt_setAt_self {α : Type} {n : Nat} (v : Vector α n) (i : Fin n) (x : α) : getAt (setAt v i x) i = x := by
  simp [getAt, setAt]

theorem getAt_setAt_of_ne {α : Type} {n : Nat} (v : Vector α n) {i j : Fin n} (x : α) (h : j ≠ i) :
    getAt (setAt v i x) j = getAt v j := by
  have : i.val ≠ j.val := fun e => h (Fin.ext e.symm)
  simp [getAt, setAt, Vector.getElem_set_ne, this]

/-- Reading one entry after replacing one. -/
theorem getAt_setAt {α : Type} {n : Nat} (v : Vector α n) (i j : Fin n) (x : α) :
    getAt (setAt v i x) j = if j = i then x else getAt v j := by
  by_cases h : j = i
  · subst h; simp [getAt_setAt_self]
  · simp [getAt_setAt_of_ne v x h, h]

/-- Reading an entry of a table given by a function of the channel. -/
@[simp] theorem getAt_tab8 {α : Type} (f : Channel → α) (ch : Channel) : getAt (tab8 f) ch = f ch := by
  fin_cases ch <;> rfl

@[simp] theorem getAt_mapAt {α β : Type} {n : Nat} (f : α → β) (v : Vector α n) (i : Fin n) :
    getAt (mapAt f v) i = f (getAt v i) := by
  simp [getAt, mapAt]

@[simp] theorem getAt_replicate {α : Type} {n : Nat} (x : α) (i : Fin n) : getAt (Vector.replicate n x) i = x := by
  simp [getAt]

/-- Two tables with equal entries are equal. -/
theorem table_ext {α : Type} {n : Nat} {v w : Vector α n} (h : ∀ i, getAt v i = getAt w i) : v = w := by
  apply Vector.ext
  intro i hi
  exact h ⟨i, hi⟩

@[simp] theorem setAt_getAt {α : Type} {n : Nat} (v : Vector α n) (i : Fin n) : setAt v i (getAt v i) = v := by
  apply table_ext
  intro j
  rw [getAt_setAt]
  split
  · next h => rw [h]
  · rfl

@[simp] theorem setAt_setAt {α : Type} {n : Nat} (v : Vector α n) (i : Fin n) (x y : α) :
    setAt (setAt v i x) i y = setAt v i y := by
  apply table_ext
  intro j
  simp only [getAt_setAt]
  split <;> rfl

/-- Every channel stands in the list of the eight channels. -/
theorem mem_allChannels (ch : Channel) : ch ∈ allChannels := by
  fin_cases ch <;> decide

end Sys2Proof
end

