-- ==== Sys2Proof/Laws/State.lean ====
section
/-!
SUPPORT. What each update of State leaves as it was, one lemma a field, and what each reader reads after the update that
changes its table.
-/
namespace Sys2Proof.Machine

/-! ### Readers of a table after its update -/

@[simp] theorem setEngine_engine_self (s : State) (ch : Channel) (e : Engine) : (s.setEngine ch e).engine ch = e :=
  getAt_setAt_self _ _ _

theorem setEngine_engine (s : State) (ch c : Channel) (e : Engine) :
    (s.setEngine ch e).engine c = if c = ch then e else s.engine c := getAt_setAt _ _ _ _

@[simp] theorem modEngine_engine_self (s : State) (ch : Channel) (f : Engine → Engine) :
    (s.modEngine ch f).engine ch = f (s.engine ch) := getAt_setAt_self _ _ _

theorem modEngine_engine (s : State) (ch c : Channel) (f : Engine → Engine) :
    (s.modEngine ch f).engine c = if c = ch then f (s.engine ch) else s.engine c := getAt_setAt _ _ _ _

@[simp] theorem modEngine_modEngine (s : State) (ch : Channel) (f g : Engine → Engine) :
    (s.modEngine ch f).modEngine ch g = s.modEngine ch fun e => g (f e) := by
  simp [State.modEngine, State.setEngine, State.engine, getAt_setAt_self]

@[simp] theorem modPlan_plan_self (s : State) (ch : Channel) (f : Plan → Plan) :
    (s.modPlan ch f).plan ch = f (s.plan ch) := getAt_setAt_self _ _ _

theorem modPlan_plan (s : State) (ch c : Channel) (f : Plan → Plan) :
    (s.modPlan ch f).plan c = if c = ch then f (s.plan ch) else s.plan c := getAt_setAt _ _ _ _

@[simp] theorem setTrigger_trigger_self (s : State) (ch : Channel) (t : Trigger) : (s.setTrigger ch t).trigger ch = t :=
  getAt_setAt_self _ _ _

theorem setTrigger_trigger (s : State) (ch c : Channel) (t : Trigger) :
    (s.setTrigger ch t).trigger c = if c = ch then t else s.trigger c := getAt_setAt _ _ _ _

/-- The generation of a slot is kept when a record is put into it. -/
theorem setRecord_slot (s : State) (i j : SlotNo) (r : Record) :
    (s.setRecord i r).slot j = if j = i then { gen := (s.slot i).gen, record := some r } else s.slot j :=
  getAt_setAt _ _ _ _

theorem setRecord_record (s : State) (i j : SlotNo) (r : Record) :
    (s.setRecord i r).record j = if j = i then some r else s.record j := by
  simp only [State.record, setRecord_slot]; split <;> rfl

@[simp] theorem setRecord_record_self (s : State) (i : SlotNo) (r : Record) : (s.setRecord i r).record i = some r := by
  simp [setRecord_record]

/-- The handle of a record does not change while it is in use (R16). -/
@[simp] theorem setRecord_handle (s : State) (i j : SlotNo) (r : Record) : (s.setRecord i r).handle j = s.handle j := by
  simp only [State.handle, setRecord_slot]; split
  · next h => rw [h]
  · rfl

theorem releaseSlot_slot (s : State) (i j : SlotNo) :
    (s.releaseSlot i).slot j = if j = i then { gen := genAfter (s.slot i).gen, record := none } else s.slot j :=
  getAt_setAt _ _ _ _

theorem releaseSlot_record (s : State) (i j : SlotNo) :
    (s.releaseSlot i).record j = if j = i then none else s.record j := by
  simp only [State.record, releaseSlot_slot]; split <;> rfl

@[simp] theorem releaseSlot_freeList (s : State) (i : SlotNo) : (s.releaseSlot i).freeList = s.freeList ++ [i] := rfl

@[simp] theorem appendNotice_notices (s : State) (b : NoticeBody) :
    (s.appendNotice b).notices = s.notices ++ [{ number := s.nextNumber, body := b, sent := false }] := rfl

@[simp] theorem appendNotice_nextNumber (s : State) (b : NoticeBody) :
    (s.appendNotice b).nextNumber = numberAfter s.nextNumber := rfl

/-! ### setEngine -/

@[simp] theorem setEngine_pending (s : State) (ch : Channel) (e : Engine) : (s.setEngine ch e).pending = s.pending := rfl
@[simp] theorem setEngine_inReset (s : State) (ch : Channel) (e : Engine) : (s.setEngine ch e).inReset = s.inReset := rfl
@[simp] theorem setEngine_prescaler (s : State) (ch : Channel) (e : Engine) : (s.setEngine ch e).prescaler = s.prescaler := rfl
@[simp] theorem setEngine_deviceTime (s : State) (ch : Channel) (e : Engine) : (s.setEngine ch e).deviceTime = s.deviceTime := rfl
@[simp] theorem setEngine_syncPrev (s : State) (ch : Channel) (e : Engine) : (s.setEngine ch e).syncPrev = s.syncPrev := rfl
@[simp] theorem setEngine_syncSampled (s : State) (ch : Channel) (e : Engine) : (s.setEngine ch e).syncSampled = s.syncSampled := rfl
@[simp] theorem setEngine_syncArm (s : State) (ch : Channel) (e : Engine) : (s.setEngine ch e).syncArm = s.syncArm := rfl
@[simp] theorem setEngine_slots (s : State) (ch : Channel) (e : Engine) : (s.setEngine ch e).slots = s.slots := rfl
@[simp] theorem setEngine_freeList (s : State) (ch : Channel) (e : Engine) : (s.setEngine ch e).freeList = s.freeList := rfl
@[simp] theorem setEngine_plans (s : State) (ch : Channel) (e : Engine) : (s.setEngine ch e).plans = s.plans := rfl
@[simp] theorem setEngine_minLead (s : State) (ch : Channel) (e : Engine) : (s.setEngine ch e).minLead = s.minLead := rfl
@[simp] theorem setEngine_horizon (s : State) (ch : Channel) (e : Engine) : (s.setEngine ch e).horizon = s.horizon := rfl
@[simp] theorem setEngine_triggers (s : State) (ch : Channel) (e : Engine) : (s.setEngine ch e).triggers = s.triggers := rfl
@[simp] theorem setEngine_group (s : State) (ch : Channel) (e : Engine) : (s.setEngine ch e).group = s.group := rfl
@[simp] theorem setEngine_nextGroupId (s : State) (ch : Channel) (e : Engine) : (s.setEngine ch e).nextGroupId = s.nextGroupId := rfl
@[simp] theorem setEngine_groupDefault (s : State) (ch : Channel) (e : Engine) : (s.setEngine ch e).groupDefault = s.groupDefault := rfl
@[simp] theorem setEngine_tagsOpen (s : State) (ch : Channel) (e : Engine) : (s.setEngine ch e).tagsOpen = s.tagsOpen := rfl
@[simp] theorem setEngine_tagsWaiting (s : State) (ch : Channel) (e : Engine) : (s.setEngine ch e).tagsWaiting = s.tagsWaiting := rfl
@[simp] theorem setEngine_nextTag (s : State) (ch : Channel) (e : Engine) : (s.setEngine ch e).nextTag = s.nextTag := rfl
@[simp] theorem setEngine_snapshot (s : State) (ch : Channel) (e : Engine) : (s.setEngine ch e).snapshot = s.snapshot := rfl
@[simp] theorem setEngine_latch (s : State) (ch : Channel) (e : Engine) : (s.setEngine ch e).latch = s.latch := rfl
@[simp] theorem setEngine_cause (s : State) (ch : Channel) (e : Engine) : (s.setEngine ch e).cause = s.cause := rfl
@[simp] theorem setEngine_safenSample (s : State) (ch : Channel) (e : Engine) : (s.setEngine ch e).safenSample = s.safenSample := rfl
@[simp] theorem setEngine_safenFall (s : State) (ch : Channel) (e : Engine) : (s.setEngine ch e).safenFall = s.safenFall := rfl
@[simp] theorem setEngine_notices (s : State) (ch : Channel) (e : Engine) : (s.setEngine ch e).notices = s.notices := rfl
@[simp] theorem setEngine_nextNumber (s : State) (ch : Channel) (e : Engine) : (s.setEngine ch e).nextNumber = s.nextNumber := rfl
@[simp] theorem setEngine_lossCount (s : State) (ch : Channel) (e : Engine) : (s.setEngine ch e).lossCount = s.lossCount := rfl
@[simp] theorem setEngine_retryTimer (s : State) (ch : Channel) (e : Engine) : (s.setEngine ch e).retryTimer = s.retryTimer := rfl
@[simp] theorem setEngine_expiries (s : State) (ch : Channel) (e : Engine) : (s.setEngine ch e).expiries = s.expiries := rfl
@[simp] theorem setEngine_stall (s : State) (ch : Channel) (e : Engine) : (s.setEngine ch e).stall = s.stall := rfl
@[simp] theorem setEngine_retryTime (s : State) (ch : Channel) (e : Engine) : (s.setEngine ch e).retryTime = s.retryTime := rfl
@[simp] theorem setEngine_baud (s : State) (ch : Channel) (e : Engine) : (s.setEngine ch e).baud = s.baud := rfl
@[simp] theorem setEngine_asm (s : State) (ch : Channel) (e : Engine) : (s.setEngine ch e).asm = s.asm := rfl
@[simp] theorem setEngine_lowSpan (s : State) (ch : Channel) (e : Engine) : (s.setEngine ch e).lowSpan = s.lowSpan := rfl
@[simp] theorem setEngine_rxQueue (s : State) (ch : Channel) (e : Engine) : (s.setEngine ch e).rxQueue = s.rxQueue := rfl
@[simp] theorem setEngine_replies (s : State) (ch : Channel) (e : Engine) : (s.setEngine ch e).replies = s.replies := rfl
@[simp] theorem setEngine_cache (s : State) (ch : Channel) (e : Engine) : (s.setEngine ch e).cache = s.cache := rfl
@[simp] theorem setEngine_linkOpen (s : State) (ch : Channel) (e : Engine) : (s.setEngine ch e).linkOpen = s.linkOpen := rfl
@[simp] theorem setEngine_tx (s : State) (ch : Channel) (e : Engine) : (s.setEngine ch e).tx = s.tx := rfl
@[simp] theorem setEngine_counters (s : State) (ch : Channel) (e : Engine) : (s.setEngine ch e).counters = s.counters := rfl
@[simp] theorem setEngine_plan (s : State) (ch : Channel) (e : Engine) (c : Channel) :
    (s.setEngine ch e).plan c = s.plan c := rfl
@[simp] theorem setEngine_trigger (s : State) (ch : Channel) (e : Engine) (c : Channel) :
    (s.setEngine ch e).trigger c = s.trigger c := rfl
@[simp] theorem setEngine_slot (s : State) (ch : Channel) (e : Engine) (j : SlotNo) :
    (s.setEngine ch e).slot j = s.slot j := rfl
@[simp] theorem setEngine_record (s : State) (ch : Channel) (e : Engine) (j : SlotNo) :
    (s.setEngine ch e).record j = s.record j := rfl
@[simp] theorem setEngine_handle (s : State) (ch : Channel) (e : Engine) (j : SlotNo) :
    (s.setEngine ch e).handle j = s.handle j := rfl
@[simp] theorem setEngine_startOf (s : State) (ch : Channel) (e : Engine) (j : SlotNo) :
    (s.setEngine ch e).startOf j = s.startOf j := rfl

/-! ### modEngine -/

@[simp] theorem modEngine_pending (s : State) (ch : Channel) (f : Engine → Engine) : (s.modEngine ch f).pending = s.pending := rfl
@[simp] theorem modEngine_inReset (s : State) (ch : Channel) (f : Engine → Engine) : (s.modEngine ch f).inReset = s.inReset := rfl
@[simp] theorem modEngine_prescaler (s : State) (ch : Channel) (f : Engine → Engine) : (s.modEngine ch f).prescaler = s.prescaler := rfl
@[simp] theorem modEngine_deviceTime (s : State) (ch : Channel) (f : Engine → Engine) : (s.modEngine ch f).deviceTime = s.deviceTime := rfl
@[simp] theorem modEngine_syncPrev (s : State) (ch : Channel) (f : Engine → Engine) : (s.modEngine ch f).syncPrev = s.syncPrev := rfl
@[simp] theorem modEngine_syncSampled (s : State) (ch : Channel) (f : Engine → Engine) : (s.modEngine ch f).syncSampled = s.syncSampled := rfl
@[simp] theorem modEngine_syncArm (s : State) (ch : Channel) (f : Engine → Engine) : (s.modEngine ch f).syncArm = s.syncArm := rfl
@[simp] theorem modEngine_slots (s : State) (ch : Channel) (f : Engine → Engine) : (s.modEngine ch f).slots = s.slots := rfl
@[simp] theorem modEngine_freeList (s : State) (ch : Channel) (f : Engine → Engine) : (s.modEngine ch f).freeList = s.freeList := rfl
@[simp] theorem modEngine_plans (s : State) (ch : Channel) (f : Engine → Engine) : (s.modEngine ch f).plans = s.plans := rfl
@[simp] theorem modEngine_minLead (s : State) (ch : Channel) (f : Engine → Engine) : (s.modEngine ch f).minLead = s.minLead := rfl
@[simp] theorem modEngine_horizon (s : State) (ch : Channel) (f : Engine → Engine) : (s.modEngine ch f).horizon = s.horizon := rfl
@[simp] theorem modEngine_triggers (s : State) (ch : Channel) (f : Engine → Engine) : (s.modEngine ch f).triggers = s.triggers := rfl
@[simp] theorem modEngine_group (s : State) (ch : Channel) (f : Engine → Engine) : (s.modEngine ch f).group = s.group := rfl
@[simp] theorem modEngine_nextGroupId (s : State) (ch : Channel) (f : Engine → Engine) : (s.modEngine ch f).nextGroupId = s.nextGroupId := rfl
@[simp] theorem modEngine_groupDefault (s : State) (ch : Channel) (f : Engine → Engine) : (s.modEngine ch f).groupDefault = s.groupDefault := rfl
@[simp] theorem modEngine_tagsOpen (s : State) (ch : Channel) (f : Engine → Engine) : (s.modEngine ch f).tagsOpen = s.tagsOpen := rfl
@[simp] theorem modEngine_tagsWaiting (s : State) (ch : Channel) (f : Engine → Engine) : (s.modEngine ch f).tagsWaiting = s.tagsWaiting := rfl
@[simp] theorem modEngine_nextTag (s : State) (ch : Channel) (f : Engine → Engine) : (s.modEngine ch f).nextTag = s.nextTag := rfl
@[simp] theorem modEngine_snapshot (s : State) (ch : Channel) (f : Engine → Engine) : (s.modEngine ch f).snapshot = s.snapshot := rfl
@[simp] theorem modEngine_latch (s : State) (ch : Channel) (f : Engine → Engine) : (s.modEngine ch f).latch = s.latch := rfl
@[simp] theorem modEngine_cause (s : State) (ch : Channel) (f : Engine → Engine) : (s.modEngine ch f).cause = s.cause := rfl
@[simp] theorem modEngine_safenSample (s : State) (ch : Channel) (f : Engine → Engine) : (s.modEngine ch f).safenSample = s.safenSample := rfl
@[simp] theorem modEngine_safenFall (s : State) (ch : Channel) (f : Engine → Engine) : (s.modEngine ch f).safenFall = s.safenFall := rfl
@[simp] theorem modEngine_notices (s : State) (ch : Channel) (f : Engine → Engine) : (s.modEngine ch f).notices = s.notices := rfl
@[simp] theorem modEngine_nextNumber (s : State) (ch : Channel) (f : Engine → Engine) : (s.modEngine ch f).nextNumber = s.nextNumber := rfl
@[simp] theorem modEngine_lossCount (s : State) (ch : Channel) (f : Engine → Engine) : (s.modEngine ch f).lossCount = s.lossCount := rfl
@[simp] theorem modEngine_retryTimer (s : State) (ch : Channel) (f : Engine → Engine) : (s.modEngine ch f).retryTimer = s.retryTimer := rfl
@[simp] theorem modEngine_expiries (s : State) (ch : Channel) (f : Engine → Engine) : (s.modEngine ch f).expiries = s.expiries := rfl
@[simp] theorem modEngine_stall (s : State) (ch : Channel) (f : Engine → Engine) : (s.modEngine ch f).stall = s.stall := rfl
@[simp] theorem modEngine_retryTime (s : State) (ch : Channel) (f : Engine → Engine) : (s.modEngine ch f).retryTime = s.retryTime := rfl
@[simp] theorem modEngine_baud (s : State) (ch : Channel) (f : Engine → Engine) : (s.modEngine ch f).baud = s.baud := rfl
@[simp] theorem modEngine_asm (s : State) (ch : Channel) (f : Engine → Engine) : (s.modEngine ch f).asm = s.asm := rfl
@[simp] theorem modEngine_lowSpan (s : State) (ch : Channel) (f : Engine → Engine) : (s.modEngine ch f).lowSpan = s.lowSpan := rfl
@[simp] theorem modEngine_rxQueue (s : State) (ch : Channel) (f : Engine → Engine) : (s.modEngine ch f).rxQueue = s.rxQueue := rfl
@[simp] theorem modEngine_replies (s : State) (ch : Channel) (f : Engine → Engine) : (s.modEngine ch f).replies = s.replies := rfl
@[simp] theorem modEngine_cache (s : State) (ch : Channel) (f : Engine → Engine) : (s.modEngine ch f).cache = s.cache := rfl
@[simp] theorem modEngine_linkOpen (s : State) (ch : Channel) (f : Engine → Engine) : (s.modEngine ch f).linkOpen = s.linkOpen := rfl
@[simp] theorem modEngine_tx (s : State) (ch : Channel) (f : Engine → Engine) : (s.modEngine ch f).tx = s.tx := rfl
@[simp] theorem modEngine_counters (s : State) (ch : Channel) (f : Engine → Engine) : (s.modEngine ch f).counters = s.counters := rfl
@[simp] theorem modEngine_plan (s : State) (ch : Channel) (f : Engine → Engine) (c : Channel) :
    (s.modEngine ch f).plan c = s.plan c := rfl
@[simp] theorem modEngine_trigger (s : State) (ch : Channel) (f : Engine → Engine) (c : Channel) :
    (s.modEngine ch f).trigger c = s.trigger c := rfl
@[simp] theorem modEngine_slot (s : State) (ch : Channel) (f : Engine → Engine) (j : SlotNo) :
    (s.modEngine ch f).slot j = s.slot j := rfl
@[simp] theorem modEngine_record (s : State) (ch : Channel) (f : Engine → Engine) (j : SlotNo) :
    (s.modEngine ch f).record j = s.record j := rfl
@[simp] theorem modEngine_handle (s : State) (ch : Channel) (f : Engine → Engine) (j : SlotNo) :
    (s.modEngine ch f).handle j = s.handle j := rfl
@[simp] theorem modEngine_startOf (s : State) (ch : Channel) (f : Engine → Engine) (j : SlotNo) :
    (s.modEngine ch f).startOf j = s.startOf j := rfl

/-! ### modProgress -/

@[simp] theorem modProgress_pending (s : State) (ch : Channel) (f : Progress → Progress) : (s.modProgress ch f).pending = s.pending := rfl
@[simp] theorem modProgress_inReset (s : State) (ch : Channel) (f : Progress → Progress) : (s.modProgress ch f).inReset = s.inReset := rfl
@[simp] theorem modProgress_prescaler (s : State) (ch : Channel) (f : Progress → Progress) : (s.modProgress ch f).prescaler = s.prescaler := rfl
@[simp] theorem modProgress_deviceTime (s : State) (ch : Channel) (f : Progress → Progress) : (s.modProgress ch f).deviceTime = s.deviceTime := rfl
@[simp] theorem modProgress_syncPrev (s : State) (ch : Channel) (f : Progress → Progress) : (s.modProgress ch f).syncPrev = s.syncPrev := rfl
@[simp] theorem modProgress_syncSampled (s : State) (ch : Channel) (f : Progress → Progress) : (s.modProgress ch f).syncSampled = s.syncSampled := rfl
@[simp] theorem modProgress_syncArm (s : State) (ch : Channel) (f : Progress → Progress) : (s.modProgress ch f).syncArm = s.syncArm := rfl
@[simp] theorem modProgress_slots (s : State) (ch : Channel) (f : Progress → Progress) : (s.modProgress ch f).slots = s.slots := rfl
@[simp] theorem modProgress_freeList (s : State) (ch : Channel) (f : Progress → Progress) : (s.modProgress ch f).freeList = s.freeList := rfl
@[simp] theorem modProgress_plans (s : State) (ch : Channel) (f : Progress → Progress) : (s.modProgress ch f).plans = s.plans := rfl
@[simp] theorem modProgress_minLead (s : State) (ch : Channel) (f : Progress → Progress) : (s.modProgress ch f).minLead = s.minLead := rfl
@[simp] theorem modProgress_horizon (s : State) (ch : Channel) (f : Progress → Progress) : (s.modProgress ch f).horizon = s.horizon := rfl
@[simp] theorem modProgress_triggers (s : State) (ch : Channel) (f : Progress → Progress) : (s.modProgress ch f).triggers = s.triggers := rfl
@[simp] theorem modProgress_group (s : State) (ch : Channel) (f : Progress → Progress) : (s.modProgress ch f).group = s.group := rfl
@[simp] theorem modProgress_nextGroupId (s : State) (ch : Channel) (f : Progress → Progress) : (s.modProgress ch f).nextGroupId = s.nextGroupId := rfl
@[simp] theorem modProgress_groupDefault (s : State) (ch : Channel) (f : Progress → Progress) : (s.modProgress ch f).groupDefault = s.groupDefault := rfl
@[simp] theorem modProgress_tagsOpen (s : State) (ch : Channel) (f : Progress → Progress) : (s.modProgress ch f).tagsOpen = s.tagsOpen := rfl
@[simp] theorem modProgress_tagsWaiting (s : State) (ch : Channel) (f : Progress → Progress) : (s.modProgress ch f).tagsWaiting = s.tagsWaiting := rfl
@[simp] theorem modProgress_nextTag (s : State) (ch : Channel) (f : Progress → Progress) : (s.modProgress ch f).nextTag = s.nextTag := rfl
@[simp] theorem modProgress_snapshot (s : State) (ch : Channel) (f : Progress → Progress) : (s.modProgress ch f).snapshot = s.snapshot := rfl
@[simp] theorem modProgress_latch (s : State) (ch : Channel) (f : Progress → Progress) : (s.modProgress ch f).latch = s.latch := rfl
@[simp] theorem modProgress_cause (s : State) (ch : Channel) (f : Progress → Progress) : (s.modProgress ch f).cause = s.cause := rfl
@[simp] theorem modProgress_safenSample (s : State) (ch : Channel) (f : Progress → Progress) : (s.modProgress ch f).safenSample = s.safenSample := rfl
@[simp] theorem modProgress_safenFall (s : State) (ch : Channel) (f : Progress → Progress) : (s.modProgress ch f).safenFall = s.safenFall := rfl
@[simp] theorem modProgress_notices (s : State) (ch : Channel) (f : Progress → Progress) : (s.modProgress ch f).notices = s.notices := rfl
@[simp] theorem modProgress_nextNumber (s : State) (ch : Channel) (f : Progress → Progress) : (s.modProgress ch f).nextNumber = s.nextNumber := rfl
@[simp] theorem modProgress_lossCount (s : State) (ch : Channel) (f : Progress → Progress) : (s.modProgress ch f).lossCount = s.lossCount := rfl
@[simp] theorem modProgress_retryTimer (s : State) (ch : Channel) (f : Progress → Progress) : (s.modProgress ch f).retryTimer = s.retryTimer := rfl
@[simp] theorem modProgress_expiries (s : State) (ch : Channel) (f : Progress → Progress) : (s.modProgress ch f).expiries = s.expiries := rfl
@[simp] theorem modProgress_stall (s : State) (ch : Channel) (f : Progress → Progress) : (s.modProgress ch f).stall = s.stall := rfl
@[simp] theorem modProgress_retryTime (s : State) (ch : Channel) (f : Progress → Progress) : (s.modProgress ch f).retryTime = s.retryTime := rfl
@[simp] theorem modProgress_baud (s : State) (ch : Channel) (f : Progress → Progress) : (s.modProgress ch f).baud = s.baud := rfl
@[simp] theorem modProgress_asm (s : State) (ch : Channel) (f : Progress → Progress) : (s.modProgress ch f).asm = s.asm := rfl
@[simp] theorem modProgress_lowSpan (s : State) (ch : Channel) (f : Progress → Progress) : (s.modProgress ch f).lowSpan = s.lowSpan := rfl
@[simp] theorem modProgress_rxQueue (s : State) (ch : Channel) (f : Progress → Progress) : (s.modProgress ch f).rxQueue = s.rxQueue := rfl
@[simp] theorem modProgress_replies (s : State) (ch : Channel) (f : Progress → Progress) : (s.modProgress ch f).replies = s.replies := rfl
@[simp] theorem modProgress_cache (s : State) (ch : Channel) (f : Progress → Progress) : (s.modProgress ch f).cache = s.cache := rfl
@[simp] theorem modProgress_linkOpen (s : State) (ch : Channel) (f : Progress → Progress) : (s.modProgress ch f).linkOpen = s.linkOpen := rfl
@[simp] theorem modProgress_tx (s : State) (ch : Channel) (f : Progress → Progress) : (s.modProgress ch f).tx = s.tx := rfl
@[simp] theorem modProgress_counters (s : State) (ch : Channel) (f : Progress → Progress) : (s.modProgress ch f).counters = s.counters := rfl
@[simp] theorem modProgress_plan (s : State) (ch : Channel) (f : Progress → Progress) (c : Channel) :
    (s.modProgress ch f).plan c = s.plan c := rfl
@[simp] theorem modProgress_trigger (s : State) (ch : Channel) (f : Progress → Progress) (c : Channel) :
    (s.modProgress ch f).trigger c = s.trigger c := rfl
@[simp] theorem modProgress_slot (s : State) (ch : Channel) (f : Progress → Progress) (j : SlotNo) :
    (s.modProgress ch f).slot j = s.slot j := rfl
@[simp] theorem modProgress_record (s : State) (ch : Channel) (f : Progress → Progress) (j : SlotNo) :
    (s.modProgress ch f).record j = s.record j := rfl
@[simp] theorem modProgress_handle (s : State) (ch : Channel) (f : Progress → Progress) (j : SlotNo) :
    (s.modProgress ch f).handle j = s.handle j := rfl
@[simp] theorem modProgress_startOf (s : State) (ch : Channel) (f : Progress → Progress) (j : SlotNo) :
    (s.modProgress ch f).startOf j = s.startOf j := rfl

/-! ### setChanState -/

@[simp] theorem setChanState_pending (s : State) (ch : Channel) (st : ChanState) : (s.setChanState ch st).pending = s.pending := rfl
@[simp] theorem setChanState_inReset (s : State) (ch : Channel) (st : ChanState) : (s.setChanState ch st).inReset = s.inReset := rfl
@[simp] theorem setChanState_prescaler (s : State) (ch : Channel) (st : ChanState) : (s.setChanState ch st).prescaler = s.prescaler := rfl
@[simp] theorem setChanState_deviceTime (s : State) (ch : Channel) (st : ChanState) : (s.setChanState ch st).deviceTime = s.deviceTime := rfl
@[simp] theorem setChanState_syncPrev (s : State) (ch : Channel) (st : ChanState) : (s.setChanState ch st).syncPrev = s.syncPrev := rfl
@[simp] theorem setChanState_syncSampled (s : State) (ch : Channel) (st : ChanState) : (s.setChanState ch st).syncSampled = s.syncSampled := rfl
@[simp] theorem setChanState_syncArm (s : State) (ch : Channel) (st : ChanState) : (s.setChanState ch st).syncArm = s.syncArm := rfl
@[simp] theorem setChanState_slots (s : State) (ch : Channel) (st : ChanState) : (s.setChanState ch st).slots = s.slots := rfl
@[simp] theorem setChanState_freeList (s : State) (ch : Channel) (st : ChanState) : (s.setChanState ch st).freeList = s.freeList := rfl
@[simp] theorem setChanState_plans (s : State) (ch : Channel) (st : ChanState) : (s.setChanState ch st).plans = s.plans := rfl
@[simp] theorem setChanState_minLead (s : State) (ch : Channel) (st : ChanState) : (s.setChanState ch st).minLead = s.minLead := rfl
@[simp] theorem setChanState_horizon (s : State) (ch : Channel) (st : ChanState) : (s.setChanState ch st).horizon = s.horizon := rfl
@[simp] theorem setChanState_triggers (s : State) (ch : Channel) (st : ChanState) : (s.setChanState ch st).triggers = s.triggers := rfl
@[simp] theorem setChanState_group (s : State) (ch : Channel) (st : ChanState) : (s.setChanState ch st).group = s.group := rfl
@[simp] theorem setChanState_nextGroupId (s : State) (ch : Channel) (st : ChanState) : (s.setChanState ch st).nextGroupId = s.nextGroupId := rfl
@[simp] theorem setChanState_groupDefault (s : State) (ch : Channel) (st : ChanState) : (s.setChanState ch st).groupDefault = s.groupDefault := rfl
@[simp] theorem setChanState_tagsOpen (s : State) (ch : Channel) (st : ChanState) : (s.setChanState ch st).tagsOpen = s.tagsOpen := rfl
@[simp] theorem setChanState_tagsWaiting (s : State) (ch : Channel) (st : ChanState) : (s.setChanState ch st).tagsWaiting = s.tagsWaiting := rfl
@[simp] theorem setChanState_nextTag (s : State) (ch : Channel) (st : ChanState) : (s.setChanState ch st).nextTag = s.nextTag := rfl
@[simp] theorem setChanState_snapshot (s : State) (ch : Channel) (st : ChanState) : (s.setChanState ch st).snapshot = s.snapshot := rfl
@[simp] theorem setChanState_latch (s : State) (ch : Channel) (st : ChanState) : (s.setChanState ch st).latch = s.latch := rfl
@[simp] theorem setChanState_cause (s : State) (ch : Channel) (st : ChanState) : (s.setChanState ch st).cause = s.cause := rfl
@[simp] theorem setChanState_safenSample (s : State) (ch : Channel) (st : ChanState) : (s.setChanState ch st).safenSample = s.safenSample := rfl
@[simp] theorem setChanState_safenFall (s : State) (ch : Channel) (st : ChanState) : (s.setChanState ch st).safenFall = s.safenFall := rfl
@[simp] theorem setChanState_notices (s : State) (ch : Channel) (st : ChanState) : (s.setChanState ch st).notices = s.notices := rfl
@[simp] theorem setChanState_nextNumber (s : State) (ch : Channel) (st : ChanState) : (s.setChanState ch st).nextNumber = s.nextNumber := rfl
@[simp] theorem setChanState_lossCount (s : State) (ch : Channel) (st : ChanState) : (s.setChanState ch st).lossCount = s.lossCount := rfl
@[simp] theorem setChanState_retryTimer (s : State) (ch : Channel) (st : ChanState) : (s.setChanState ch st).retryTimer = s.retryTimer := rfl
@[simp] theorem setChanState_expiries (s : State) (ch : Channel) (st : ChanState) : (s.setChanState ch st).expiries = s.expiries := rfl
@[simp] theorem setChanState_stall (s : State) (ch : Channel) (st : ChanState) : (s.setChanState ch st).stall = s.stall := rfl
@[simp] theorem setChanState_retryTime (s : State) (ch : Channel) (st : ChanState) : (s.setChanState ch st).retryTime = s.retryTime := rfl
@[simp] theorem setChanState_baud (s : State) (ch : Channel) (st : ChanState) : (s.setChanState ch st).baud = s.baud := rfl
@[simp] theorem setChanState_asm (s : State) (ch : Channel) (st : ChanState) : (s.setChanState ch st).asm = s.asm := rfl
@[simp] theorem setChanState_lowSpan (s : State) (ch : Channel) (st : ChanState) : (s.setChanState ch st).lowSpan = s.lowSpan := rfl
@[simp] theorem setChanState_rxQueue (s : State) (ch : Channel) (st : ChanState) : (s.setChanState ch st).rxQueue = s.rxQueue := rfl
@[simp] theorem setChanState_replies (s : State) (ch : Channel) (st : ChanState) : (s.setChanState ch st).replies = s.replies := rfl
@[simp] theorem setChanState_cache (s : State) (ch : Channel) (st : ChanState) : (s.setChanState ch st).cache = s.cache := rfl
@[simp] theorem setChanState_linkOpen (s : State) (ch : Channel) (st : ChanState) : (s.setChanState ch st).linkOpen = s.linkOpen := rfl
@[simp] theorem setChanState_tx (s : State) (ch : Channel) (st : ChanState) : (s.setChanState ch st).tx = s.tx := rfl
@[simp] theorem setChanState_counters (s : State) (ch : Channel) (st : ChanState) : (s.setChanState ch st).counters = s.counters := rfl
@[simp] theorem setChanState_plan (s : State) (ch : Channel) (st : ChanState) (c : Channel) :
    (s.setChanState ch st).plan c = s.plan c := rfl
@[simp] theorem setChanState_trigger (s : State) (ch : Channel) (st : ChanState) (c : Channel) :
    (s.setChanState ch st).trigger c = s.trigger c := rfl
@[simp] theorem setChanState_slot (s : State) (ch : Channel) (st : ChanState) (j : SlotNo) :
    (s.setChanState ch st).slot j = s.slot j := rfl
@[simp] theorem setChanState_record (s : State) (ch : Channel) (st : ChanState) (j : SlotNo) :
    (s.setChanState ch st).record j = s.record j := rfl
@[simp] theorem setChanState_handle (s : State) (ch : Channel) (st : ChanState) (j : SlotNo) :
    (s.setChanState ch st).handle j = s.handle j := rfl
@[simp] theorem setChanState_startOf (s : State) (ch : Channel) (st : ChanState) (j : SlotNo) :
    (s.setChanState ch st).startOf j = s.startOf j := rfl

/-! ### modPlan -/

@[simp] theorem modPlan_pending (s : State) (ch : Channel) (f : Plan → Plan) : (s.modPlan ch f).pending = s.pending := rfl
@[simp] theorem modPlan_inReset (s : State) (ch : Channel) (f : Plan → Plan) : (s.modPlan ch f).inReset = s.inReset := rfl
@[simp] theorem modPlan_prescaler (s : State) (ch : Channel) (f : Plan → Plan) : (s.modPlan ch f).prescaler = s.prescaler := rfl
@[simp] theorem modPlan_deviceTime (s : State) (ch : Channel) (f : Plan → Plan) : (s.modPlan ch f).deviceTime = s.deviceTime := rfl
@[simp] theorem modPlan_syncPrev (s : State) (ch : Channel) (f : Plan → Plan) : (s.modPlan ch f).syncPrev = s.syncPrev := rfl
@[simp] theorem modPlan_syncSampled (s : State) (ch : Channel) (f : Plan → Plan) : (s.modPlan ch f).syncSampled = s.syncSampled := rfl
@[simp] theorem modPlan_syncArm (s : State) (ch : Channel) (f : Plan → Plan) : (s.modPlan ch f).syncArm = s.syncArm := rfl
@[simp] theorem modPlan_slots (s : State) (ch : Channel) (f : Plan → Plan) : (s.modPlan ch f).slots = s.slots := rfl
@[simp] theorem modPlan_freeList (s : State) (ch : Channel) (f : Plan → Plan) : (s.modPlan ch f).freeList = s.freeList := rfl
@[simp] theorem modPlan_minLead (s : State) (ch : Channel) (f : Plan → Plan) : (s.modPlan ch f).minLead = s.minLead := rfl
@[simp] theorem modPlan_horizon (s : State) (ch : Channel) (f : Plan → Plan) : (s.modPlan ch f).horizon = s.horizon := rfl
@[simp] theorem modPlan_engines (s : State) (ch : Channel) (f : Plan → Plan) : (s.modPlan ch f).engines = s.engines := rfl
@[simp] theorem modPlan_triggers (s : State) (ch : Channel) (f : Plan → Plan) : (s.modPlan ch f).triggers = s.triggers := rfl
@[simp] theorem modPlan_group (s : State) (ch : Channel) (f : Plan → Plan) : (s.modPlan ch f).group = s.group := rfl
@[simp] theorem modPlan_nextGroupId (s : State) (ch : Channel) (f : Plan → Plan) : (s.modPlan ch f).nextGroupId = s.nextGroupId := rfl
@[simp] theorem modPlan_groupDefault (s : State) (ch : Channel) (f : Plan → Plan) : (s.modPlan ch f).groupDefault = s.groupDefault := rfl
@[simp] theorem modPlan_tagsOpen (s : State) (ch : Channel) (f : Plan → Plan) : (s.modPlan ch f).tagsOpen = s.tagsOpen := rfl
@[simp] theorem modPlan_tagsWaiting (s : State) (ch : Channel) (f : Plan → Plan) : (s.modPlan ch f).tagsWaiting = s.tagsWaiting := rfl
@[simp] theorem modPlan_nextTag (s : State) (ch : Channel) (f : Plan → Plan) : (s.modPlan ch f).nextTag = s.nextTag := rfl
@[simp] theorem modPlan_snapshot (s : State) (ch : Channel) (f : Plan → Plan) : (s.modPlan ch f).snapshot = s.snapshot := rfl
@[simp] theorem modPlan_latch (s : State) (ch : Channel) (f : Plan → Plan) : (s.modPlan ch f).latch = s.latch := rfl
@[simp] theorem modPlan_cause (s : State) (ch : Channel) (f : Plan → Plan) : (s.modPlan ch f).cause = s.cause := rfl
@[simp] theorem modPlan_safenSample (s : State) (ch : Channel) (f : Plan → Plan) : (s.modPlan ch f).safenSample = s.safenSample := rfl
@[simp] theorem modPlan_safenFall (s : State) (ch : Channel) (f : Plan → Plan) : (s.modPlan ch f).safenFall = s.safenFall := rfl
@[simp] theorem modPlan_notices (s : State) (ch : Channel) (f : Plan → Plan) : (s.modPlan ch f).notices = s.notices := rfl
@[simp] theorem modPlan_nextNumber (s : State) (ch : Channel) (f : Plan → Plan) : (s.modPlan ch f).nextNumber = s.nextNumber := rfl
@[simp] theorem modPlan_lossCount (s : State) (ch : Channel) (f : Plan → Plan) : (s.modPlan ch f).lossCount = s.lossCount := rfl
@[simp] theorem modPlan_retryTimer (s : State) (ch : Channel) (f : Plan → Plan) : (s.modPlan ch f).retryTimer = s.retryTimer := rfl
@[simp] theorem modPlan_expiries (s : State) (ch : Channel) (f : Plan → Plan) : (s.modPlan ch f).expiries = s.expiries := rfl
@[simp] theorem modPlan_stall (s : State) (ch : Channel) (f : Plan → Plan) : (s.modPlan ch f).stall = s.stall := rfl
@[simp] theorem modPlan_retryTime (s : State) (ch : Channel) (f : Plan → Plan) : (s.modPlan ch f).retryTime = s.retryTime := rfl
@[simp] theorem modPlan_baud (s : State) (ch : Channel) (f : Plan → Plan) : (s.modPlan ch f).baud = s.baud := rfl
@[simp] theorem modPlan_asm (s : State) (ch : Channel) (f : Plan → Plan) : (s.modPlan ch f).asm = s.asm := rfl
@[simp] theorem modPlan_lowSpan (s : State) (ch : Channel) (f : Plan → Plan) : (s.modPlan ch f).lowSpan = s.lowSpan := rfl
@[simp] theorem modPlan_rxQueue (s : State) (ch : Channel) (f : Plan → Plan) : (s.modPlan ch f).rxQueue = s.rxQueue := rfl
@[simp] theorem modPlan_replies (s : State) (ch : Channel) (f : Plan → Plan) : (s.modPlan ch f).replies = s.replies := rfl
@[simp] theorem modPlan_cache (s : State) (ch : Channel) (f : Plan → Plan) : (s.modPlan ch f).cache = s.cache := rfl
@[simp] theorem modPlan_linkOpen (s : State) (ch : Channel) (f : Plan → Plan) : (s.modPlan ch f).linkOpen = s.linkOpen := rfl
@[simp] theorem modPlan_tx (s : State) (ch : Channel) (f : Plan → Plan) : (s.modPlan ch f).tx = s.tx := rfl
@[simp] theorem modPlan_counters (s : State) (ch : Channel) (f : Plan → Plan) : (s.modPlan ch f).counters = s.counters := rfl
@[simp] theorem modPlan_engine (s : State) (ch : Channel) (f : Plan → Plan) (c : Channel) :
    (s.modPlan ch f).engine c = s.engine c := rfl
@[simp] theorem modPlan_trigger (s : State) (ch : Channel) (f : Plan → Plan) (c : Channel) :
    (s.modPlan ch f).trigger c = s.trigger c := rfl
@[simp] theorem modPlan_slot (s : State) (ch : Channel) (f : Plan → Plan) (j : SlotNo) :
    (s.modPlan ch f).slot j = s.slot j := rfl
@[simp] theorem modPlan_record (s : State) (ch : Channel) (f : Plan → Plan) (j : SlotNo) :
    (s.modPlan ch f).record j = s.record j := rfl
@[simp] theorem modPlan_handle (s : State) (ch : Channel) (f : Plan → Plan) (j : SlotNo) :
    (s.modPlan ch f).handle j = s.handle j := rfl
@[simp] theorem modPlan_startOf (s : State) (ch : Channel) (f : Plan → Plan) (j : SlotNo) :
    (s.modPlan ch f).startOf j = s.startOf j := rfl

/-! ### leavePlan -/

@[simp] theorem leavePlan_pending (s : State) (ch : Channel) (i : SlotNo) : (s.leavePlan ch i).pending = s.pending := rfl
@[simp] theorem leavePlan_inReset (s : State) (ch : Channel) (i : SlotNo) : (s.leavePlan ch i).inReset = s.inReset := rfl
@[simp] theorem leavePlan_prescaler (s : State) (ch : Channel) (i : SlotNo) : (s.leavePlan ch i).prescaler = s.prescaler := rfl
@[simp] theorem leavePlan_deviceTime (s : State) (ch : Channel) (i : SlotNo) : (s.leavePlan ch i).deviceTime = s.deviceTime := rfl
@[simp] theorem leavePlan_syncPrev (s : State) (ch : Channel) (i : SlotNo) : (s.leavePlan ch i).syncPrev = s.syncPrev := rfl
@[simp] theorem leavePlan_syncSampled (s : State) (ch : Channel) (i : SlotNo) : (s.leavePlan ch i).syncSampled = s.syncSampled := rfl
@[simp] theorem leavePlan_syncArm (s : State) (ch : Channel) (i : SlotNo) : (s.leavePlan ch i).syncArm = s.syncArm := rfl
@[simp] theorem leavePlan_slots (s : State) (ch : Channel) (i : SlotNo) : (s.leavePlan ch i).slots = s.slots := rfl
@[simp] theorem leavePlan_freeList (s : State) (ch : Channel) (i : SlotNo) : (s.leavePlan ch i).freeList = s.freeList := rfl
@[simp] theorem leavePlan_minLead (s : State) (ch : Channel) (i : SlotNo) : (s.leavePlan ch i).minLead = s.minLead := rfl
@[simp] theorem leavePlan_horizon (s : State) (ch : Channel) (i : SlotNo) : (s.leavePlan ch i).horizon = s.horizon := rfl
@[simp] theorem leavePlan_engines (s : State) (ch : Channel) (i : SlotNo) : (s.leavePlan ch i).engines = s.engines := rfl
@[simp] theorem leavePlan_triggers (s : State) (ch : Channel) (i : SlotNo) : (s.leavePlan ch i).triggers = s.triggers := rfl
@[simp] theorem leavePlan_group (s : State) (ch : Channel) (i : SlotNo) : (s.leavePlan ch i).group = s.group := rfl
@[simp] theorem leavePlan_nextGroupId (s : State) (ch : Channel) (i : SlotNo) : (s.leavePlan ch i).nextGroupId = s.nextGroupId := rfl
@[simp] theorem leavePlan_groupDefault (s : State) (ch : Channel) (i : SlotNo) : (s.leavePlan ch i).groupDefault = s.groupDefault := rfl
@[simp] theorem leavePlan_tagsOpen (s : State) (ch : Channel) (i : SlotNo) : (s.leavePlan ch i).tagsOpen = s.tagsOpen := rfl
@[simp] theorem leavePlan_tagsWaiting (s : State) (ch : Channel) (i : SlotNo) : (s.leavePlan ch i).tagsWaiting = s.tagsWaiting := rfl
@[simp] theorem leavePlan_nextTag (s : State) (ch : Channel) (i : SlotNo) : (s.leavePlan ch i).nextTag = s.nextTag := rfl
@[simp] theorem leavePlan_snapshot (s : State) (ch : Channel) (i : SlotNo) : (s.leavePlan ch i).snapshot = s.snapshot := rfl
@[simp] theorem leavePlan_latch (s : State) (ch : Channel) (i : SlotNo) : (s.leavePlan ch i).latch = s.latch := rfl
@[simp] theorem leavePlan_cause (s : State) (ch : Channel) (i : SlotNo) : (s.leavePlan ch i).cause = s.cause := rfl
@[simp] theorem leavePlan_safenSample (s : State) (ch : Channel) (i : SlotNo) : (s.leavePlan ch i).safenSample = s.safenSample := rfl
@[simp] theorem leavePlan_safenFall (s : State) (ch : Channel) (i : SlotNo) : (s.leavePlan ch i).safenFall = s.safenFall := rfl
@[simp] theorem leavePlan_notices (s : State) (ch : Channel) (i : SlotNo) : (s.leavePlan ch i).notices = s.notices := rfl
@[simp] theorem leavePlan_nextNumber (s : State) (ch : Channel) (i : SlotNo) : (s.leavePlan ch i).nextNumber = s.nextNumber := rfl
@[simp] theorem leavePlan_lossCount (s : State) (ch : Channel) (i : SlotNo) : (s.leavePlan ch i).lossCount = s.lossCount := rfl
@[simp] theorem leavePlan_retryTimer (s : State) (ch : Channel) (i : SlotNo) : (s.leavePlan ch i).retryTimer = s.retryTimer := rfl
@[simp] theorem leavePlan_expiries (s : State) (ch : Channel) (i : SlotNo) : (s.leavePlan ch i).expiries = s.expiries := rfl
@[simp] theorem leavePlan_stall (s : State) (ch : Channel) (i : SlotNo) : (s.leavePlan ch i).stall = s.stall := rfl
@[simp] theorem leavePlan_retryTime (s : State) (ch : Channel) (i : SlotNo) : (s.leavePlan ch i).retryTime = s.retryTime := rfl
@[simp] theorem leavePlan_baud (s : State) (ch : Channel) (i : SlotNo) : (s.leavePlan ch i).baud = s.baud := rfl
@[simp] theorem leavePlan_asm (s : State) (ch : Channel) (i : SlotNo) : (s.leavePlan ch i).asm = s.asm := rfl
@[simp] theorem leavePlan_lowSpan (s : State) (ch : Channel) (i : SlotNo) : (s.leavePlan ch i).lowSpan = s.lowSpan := rfl
@[simp] theorem leavePlan_rxQueue (s : State) (ch : Channel) (i : SlotNo) : (s.leavePlan ch i).rxQueue = s.rxQueue := rfl
@[simp] theorem leavePlan_replies (s : State) (ch : Channel) (i : SlotNo) : (s.leavePlan ch i).replies = s.replies := rfl
@[simp] theorem leavePlan_cache (s : State) (ch : Channel) (i : SlotNo) : (s.leavePlan ch i).cache = s.cache := rfl
@[simp] theorem leavePlan_linkOpen (s : State) (ch : Channel) (i : SlotNo) : (s.leavePlan ch i).linkOpen = s.linkOpen := rfl
@[simp] theorem leavePlan_tx (s : State) (ch : Channel) (i : SlotNo) : (s.leavePlan ch i).tx = s.tx := rfl
@[simp] theorem leavePlan_counters (s : State) (ch : Channel) (i : SlotNo) : (s.leavePlan ch i).counters = s.counters := rfl
@[simp] theorem leavePlan_engine (s : State) (ch : Channel) (i : SlotNo) (c : Channel) :
    (s.leavePlan ch i).engine c = s.engine c := rfl
@[simp] theorem leavePlan_trigger (s : State) (ch : Channel) (i : SlotNo) (c : Channel) :
    (s.leavePlan ch i).trigger c = s.trigger c := rfl
@[simp] theorem leavePlan_slot (s : State) (ch : Channel) (i : SlotNo) (j : SlotNo) :
    (s.leavePlan ch i).slot j = s.slot j := rfl
@[simp] theorem leavePlan_record (s : State) (ch : Channel) (i : SlotNo) (j : SlotNo) :
    (s.leavePlan ch i).record j = s.record j := rfl
@[simp] theorem leavePlan_handle (s : State) (ch : Channel) (i : SlotNo) (j : SlotNo) :
    (s.leavePlan ch i).handle j = s.handle j := rfl
@[simp] theorem leavePlan_startOf (s : State) (ch : Channel) (i : SlotNo) (j : SlotNo) :
    (s.leavePlan ch i).startOf j = s.startOf j := rfl

/-! ### enterPlan -/

@[simp] theorem enterPlan_pending (s : State) (ch : Channel) (i : SlotNo) : (s.enterPlan ch i).pending = s.pending := rfl
@[simp] theorem enterPlan_inReset (s : State) (ch : Channel) (i : SlotNo) : (s.enterPlan ch i).inReset = s.inReset := rfl
@[simp] theorem enterPlan_prescaler (s : State) (ch : Channel) (i : SlotNo) : (s.enterPlan ch i).prescaler = s.prescaler := rfl
@[simp] theorem enterPlan_deviceTime (s : State) (ch : Channel) (i : SlotNo) : (s.enterPlan ch i).deviceTime = s.deviceTime := rfl
@[simp] theorem enterPlan_syncPrev (s : State) (ch : Channel) (i : SlotNo) : (s.enterPlan ch i).syncPrev = s.syncPrev := rfl
@[simp] theorem enterPlan_syncSampled (s : State) (ch : Channel) (i : SlotNo) : (s.enterPlan ch i).syncSampled = s.syncSampled := rfl
@[simp] theorem enterPlan_syncArm (s : State) (ch : Channel) (i : SlotNo) : (s.enterPlan ch i).syncArm = s.syncArm := rfl
@[simp] theorem enterPlan_slots (s : State) (ch : Channel) (i : SlotNo) : (s.enterPlan ch i).slots = s.slots := rfl
@[simp] theorem enterPlan_freeList (s : State) (ch : Channel) (i : SlotNo) : (s.enterPlan ch i).freeList = s.freeList := rfl
@[simp] theorem enterPlan_minLead (s : State) (ch : Channel) (i : SlotNo) : (s.enterPlan ch i).minLead = s.minLead := rfl
@[simp] theorem enterPlan_horizon (s : State) (ch : Channel) (i : SlotNo) : (s.enterPlan ch i).horizon = s.horizon := rfl
@[simp] theorem enterPlan_engines (s : State) (ch : Channel) (i : SlotNo) : (s.enterPlan ch i).engines = s.engines := rfl
@[simp] theorem enterPlan_triggers (s : State) (ch : Channel) (i : SlotNo) : (s.enterPlan ch i).triggers = s.triggers := rfl
@[simp] theorem enterPlan_group (s : State) (ch : Channel) (i : SlotNo) : (s.enterPlan ch i).group = s.group := rfl
@[simp] theorem enterPlan_nextGroupId (s : State) (ch : Channel) (i : SlotNo) : (s.enterPlan ch i).nextGroupId = s.nextGroupId := rfl
@[simp] theorem enterPlan_groupDefault (s : State) (ch : Channel) (i : SlotNo) : (s.enterPlan ch i).groupDefault = s.groupDefault := rfl
@[simp] theorem enterPlan_tagsOpen (s : State) (ch : Channel) (i : SlotNo) : (s.enterPlan ch i).tagsOpen = s.tagsOpen := rfl
@[simp] theorem enterPlan_tagsWaiting (s : State) (ch : Channel) (i : SlotNo) : (s.enterPlan ch i).tagsWaiting = s.tagsWaiting := rfl
@[simp] theorem enterPlan_nextTag (s : State) (ch : Channel) (i : SlotNo) : (s.enterPlan ch i).nextTag = s.nextTag := rfl
@[simp] theorem enterPlan_snapshot (s : State) (ch : Channel) (i : SlotNo) : (s.enterPlan ch i).snapshot = s.snapshot := rfl
@[simp] theorem enterPlan_latch (s : State) (ch : Channel) (i : SlotNo) : (s.enterPlan ch i).latch = s.latch := rfl
@[simp] theorem enterPlan_cause (s : State) (ch : Channel) (i : SlotNo) : (s.enterPlan ch i).cause = s.cause := rfl
@[simp] theorem enterPlan_safenSample (s : State) (ch : Channel) (i : SlotNo) : (s.enterPlan ch i).safenSample = s.safenSample := rfl
@[simp] theorem enterPlan_safenFall (s : State) (ch : Channel) (i : SlotNo) : (s.enterPlan ch i).safenFall = s.safenFall := rfl
@[simp] theorem enterPlan_notices (s : State) (ch : Channel) (i : SlotNo) : (s.enterPlan ch i).notices = s.notices := rfl
@[simp] theorem enterPlan_nextNumber (s : State) (ch : Channel) (i : SlotNo) : (s.enterPlan ch i).nextNumber = s.nextNumber := rfl
@[simp] theorem enterPlan_lossCount (s : State) (ch : Channel) (i : SlotNo) : (s.enterPlan ch i).lossCount = s.lossCount := rfl
@[simp] theorem enterPlan_retryTimer (s : State) (ch : Channel) (i : SlotNo) : (s.enterPlan ch i).retryTimer = s.retryTimer := rfl
@[simp] theorem enterPlan_expiries (s : State) (ch : Channel) (i : SlotNo) : (s.enterPlan ch i).expiries = s.expiries := rfl
@[simp] theorem enterPlan_stall (s : State) (ch : Channel) (i : SlotNo) : (s.enterPlan ch i).stall = s.stall := rfl
@[simp] theorem enterPlan_retryTime (s : State) (ch : Channel) (i : SlotNo) : (s.enterPlan ch i).retryTime = s.retryTime := rfl
@[simp] theorem enterPlan_baud (s : State) (ch : Channel) (i : SlotNo) : (s.enterPlan ch i).baud = s.baud := rfl
@[simp] theorem enterPlan_asm (s : State) (ch : Channel) (i : SlotNo) : (s.enterPlan ch i).asm = s.asm := rfl
@[simp] theorem enterPlan_lowSpan (s : State) (ch : Channel) (i : SlotNo) : (s.enterPlan ch i).lowSpan = s.lowSpan := rfl
@[simp] theorem enterPlan_rxQueue (s : State) (ch : Channel) (i : SlotNo) : (s.enterPlan ch i).rxQueue = s.rxQueue := rfl
@[simp] theorem enterPlan_replies (s : State) (ch : Channel) (i : SlotNo) : (s.enterPlan ch i).replies = s.replies := rfl
@[simp] theorem enterPlan_cache (s : State) (ch : Channel) (i : SlotNo) : (s.enterPlan ch i).cache = s.cache := rfl
@[simp] theorem enterPlan_linkOpen (s : State) (ch : Channel) (i : SlotNo) : (s.enterPlan ch i).linkOpen = s.linkOpen := rfl
@[simp] theorem enterPlan_tx (s : State) (ch : Channel) (i : SlotNo) : (s.enterPlan ch i).tx = s.tx := rfl
@[simp] theorem enterPlan_counters (s : State) (ch : Channel) (i : SlotNo) : (s.enterPlan ch i).counters = s.counters := rfl
@[simp] theorem enterPlan_engine (s : State) (ch : Channel) (i : SlotNo) (c : Channel) :
    (s.enterPlan ch i).engine c = s.engine c := rfl
@[simp] theorem enterPlan_trigger (s : State) (ch : Channel) (i : SlotNo) (c : Channel) :
    (s.enterPlan ch i).trigger c = s.trigger c := rfl
@[simp] theorem enterPlan_slot (s : State) (ch : Channel) (i : SlotNo) (j : SlotNo) :
    (s.enterPlan ch i).slot j = s.slot j := rfl
@[simp] theorem enterPlan_record (s : State) (ch : Channel) (i : SlotNo) (j : SlotNo) :
    (s.enterPlan ch i).record j = s.record j := rfl
@[simp] theorem enterPlan_handle (s : State) (ch : Channel) (i : SlotNo) (j : SlotNo) :
    (s.enterPlan ch i).handle j = s.handle j := rfl
@[simp] theorem enterPlan_startOf (s : State) (ch : Channel) (i : SlotNo) (j : SlotNo) :
    (s.enterPlan ch i).startOf j = s.startOf j := rfl

/-! ### handEnd -/

@[simp] theorem handEnd_pending (s : State) (ch : Channel) : (s.handEnd ch).pending = s.pending := rfl
@[simp] theorem handEnd_inReset (s : State) (ch : Channel) : (s.handEnd ch).inReset = s.inReset := rfl
@[simp] theorem handEnd_prescaler (s : State) (ch : Channel) : (s.handEnd ch).prescaler = s.prescaler := rfl
@[simp] theorem handEnd_deviceTime (s : State) (ch : Channel) : (s.handEnd ch).deviceTime = s.deviceTime := rfl
@[simp] theorem handEnd_syncPrev (s : State) (ch : Channel) : (s.handEnd ch).syncPrev = s.syncPrev := rfl
@[simp] theorem handEnd_syncSampled (s : State) (ch : Channel) : (s.handEnd ch).syncSampled = s.syncSampled := rfl
@[simp] theorem handEnd_syncArm (s : State) (ch : Channel) : (s.handEnd ch).syncArm = s.syncArm := rfl
@[simp] theorem handEnd_slots (s : State) (ch : Channel) : (s.handEnd ch).slots = s.slots := rfl
@[simp] theorem handEnd_freeList (s : State) (ch : Channel) : (s.handEnd ch).freeList = s.freeList := rfl
@[simp] theorem handEnd_minLead (s : State) (ch : Channel) : (s.handEnd ch).minLead = s.minLead := rfl
@[simp] theorem handEnd_horizon (s : State) (ch : Channel) : (s.handEnd ch).horizon = s.horizon := rfl
@[simp] theorem handEnd_engines (s : State) (ch : Channel) : (s.handEnd ch).engines = s.engines := rfl
@[simp] theorem handEnd_triggers (s : State) (ch : Channel) : (s.handEnd ch).triggers = s.triggers := rfl
@[simp] theorem handEnd_group (s : State) (ch : Channel) : (s.handEnd ch).group = s.group := rfl
@[simp] theorem handEnd_nextGroupId (s : State) (ch : Channel) : (s.handEnd ch).nextGroupId = s.nextGroupId := rfl
@[simp] theorem handEnd_groupDefault (s : State) (ch : Channel) : (s.handEnd ch).groupDefault = s.groupDefault := rfl
@[simp] theorem handEnd_tagsOpen (s : State) (ch : Channel) : (s.handEnd ch).tagsOpen = s.tagsOpen := rfl
@[simp] theorem handEnd_tagsWaiting (s : State) (ch : Channel) : (s.handEnd ch).tagsWaiting = s.tagsWaiting := rfl
@[simp] theorem handEnd_nextTag (s : State) (ch : Channel) : (s.handEnd ch).nextTag = s.nextTag := rfl
@[simp] theorem handEnd_snapshot (s : State) (ch : Channel) : (s.handEnd ch).snapshot = s.snapshot := rfl
@[simp] theorem handEnd_latch (s : State) (ch : Channel) : (s.handEnd ch).latch = s.latch := rfl
@[simp] theorem handEnd_cause (s : State) (ch : Channel) : (s.handEnd ch).cause = s.cause := rfl
@[simp] theorem handEnd_safenSample (s : State) (ch : Channel) : (s.handEnd ch).safenSample = s.safenSample := rfl
@[simp] theorem handEnd_safenFall (s : State) (ch : Channel) : (s.handEnd ch).safenFall = s.safenFall := rfl
@[simp] theorem handEnd_notices (s : State) (ch : Channel) : (s.handEnd ch).notices = s.notices := rfl
@[simp] theorem handEnd_nextNumber (s : State) (ch : Channel) : (s.handEnd ch).nextNumber = s.nextNumber := rfl
@[simp] theorem handEnd_lossCount (s : State) (ch : Channel) : (s.handEnd ch).lossCount = s.lossCount := rfl
@[simp] theorem handEnd_retryTimer (s : State) (ch : Channel) : (s.handEnd ch).retryTimer = s.retryTimer := rfl
@[simp] theorem handEnd_expiries (s : State) (ch : Channel) : (s.handEnd ch).expiries = s.expiries := rfl
@[simp] theorem handEnd_stall (s : State) (ch : Channel) : (s.handEnd ch).stall = s.stall := rfl
@[simp] theorem handEnd_retryTime (s : State) (ch : Channel) : (s.handEnd ch).retryTime = s.retryTime := rfl
@[simp] theorem handEnd_baud (s : State) (ch : Channel) : (s.handEnd ch).baud = s.baud := rfl
@[simp] theorem handEnd_asm (s : State) (ch : Channel) : (s.handEnd ch).asm = s.asm := rfl
@[simp] theorem handEnd_lowSpan (s : State) (ch : Channel) : (s.handEnd ch).lowSpan = s.lowSpan := rfl
@[simp] theorem handEnd_rxQueue (s : State) (ch : Channel) : (s.handEnd ch).rxQueue = s.rxQueue := rfl
@[simp] theorem handEnd_replies (s : State) (ch : Channel) : (s.handEnd ch).replies = s.replies := rfl
@[simp] theorem handEnd_cache (s : State) (ch : Channel) : (s.handEnd ch).cache = s.cache := rfl
@[simp] theorem handEnd_linkOpen (s : State) (ch : Channel) : (s.handEnd ch).linkOpen = s.linkOpen := rfl
@[simp] theorem handEnd_tx (s : State) (ch : Channel) : (s.handEnd ch).tx = s.tx := rfl
@[simp] theorem handEnd_counters (s : State) (ch : Channel) : (s.handEnd ch).counters = s.counters := rfl
@[simp] theorem handEnd_engine (s : State) (ch : Channel) (c : Channel) :
    (s.handEnd ch).engine c = s.engine c := rfl
@[simp] theorem handEnd_trigger (s : State) (ch : Channel) (c : Channel) :
    (s.handEnd ch).trigger c = s.trigger c := rfl
@[simp] theorem handEnd_slot (s : State) (ch : Channel) (j : SlotNo) :
    (s.handEnd ch).slot j = s.slot j := rfl
@[simp] theorem handEnd_record (s : State) (ch : Channel) (j : SlotNo) :
    (s.handEnd ch).record j = s.record j := rfl
@[simp] theorem handEnd_handle (s : State) (ch : Channel) (j : SlotNo) :
    (s.handEnd ch).handle j = s.handle j := rfl
@[simp] theorem handEnd_startOf (s : State) (ch : Channel) (j : SlotNo) :
    (s.handEnd ch).startOf j = s.startOf j := rfl

/-! ### setTrigger -/

@[simp] theorem setTrigger_pending (s : State) (ch : Channel) (t : Trigger) : (s.setTrigger ch t).pending = s.pending := rfl
@[simp] theorem setTrigger_inReset (s : State) (ch : Channel) (t : Trigger) : (s.setTrigger ch t).inReset = s.inReset := rfl
@[simp] theorem setTrigger_prescaler (s : State) (ch : Channel) (t : Trigger) : (s.setTrigger ch t).prescaler = s.prescaler := rfl
@[simp] theorem setTrigger_deviceTime (s : State) (ch : Channel) (t : Trigger) : (s.setTrigger ch t).deviceTime = s.deviceTime := rfl
@[simp] theorem setTrigger_syncPrev (s : State) (ch : Channel) (t : Trigger) : (s.setTrigger ch t).syncPrev = s.syncPrev := rfl
@[simp] theorem setTrigger_syncSampled (s : State) (ch : Channel) (t : Trigger) : (s.setTrigger ch t).syncSampled = s.syncSampled := rfl
@[simp] theorem setTrigger_syncArm (s : State) (ch : Channel) (t : Trigger) : (s.setTrigger ch t).syncArm = s.syncArm := rfl
@[simp] theorem setTrigger_slots (s : State) (ch : Channel) (t : Trigger) : (s.setTrigger ch t).slots = s.slots := rfl
@[simp] theorem setTrigger_freeList (s : State) (ch : Channel) (t : Trigger) : (s.setTrigger ch t).freeList = s.freeList := rfl
@[simp] theorem setTrigger_plans (s : State) (ch : Channel) (t : Trigger) : (s.setTrigger ch t).plans = s.plans := rfl
@[simp] theorem setTrigger_minLead (s : State) (ch : Channel) (t : Trigger) : (s.setTrigger ch t).minLead = s.minLead := rfl
@[simp] theorem setTrigger_horizon (s : State) (ch : Channel) (t : Trigger) : (s.setTrigger ch t).horizon = s.horizon := rfl
@[simp] theorem setTrigger_engines (s : State) (ch : Channel) (t : Trigger) : (s.setTrigger ch t).engines = s.engines := rfl
@[simp] theorem setTrigger_group (s : State) (ch : Channel) (t : Trigger) : (s.setTrigger ch t).group = s.group := rfl
@[simp] theorem setTrigger_nextGroupId (s : State) (ch : Channel) (t : Trigger) : (s.setTrigger ch t).nextGroupId = s.nextGroupId := rfl
@[simp] theorem setTrigger_groupDefault (s : State) (ch : Channel) (t : Trigger) : (s.setTrigger ch t).groupDefault = s.groupDefault := rfl
@[simp] theorem setTrigger_tagsOpen (s : State) (ch : Channel) (t : Trigger) : (s.setTrigger ch t).tagsOpen = s.tagsOpen := rfl
@[simp] theorem setTrigger_tagsWaiting (s : State) (ch : Channel) (t : Trigger) : (s.setTrigger ch t).tagsWaiting = s.tagsWaiting := rfl
@[simp] theorem setTrigger_nextTag (s : State) (ch : Channel) (t : Trigger) : (s.setTrigger ch t).nextTag = s.nextTag := rfl
@[simp] theorem setTrigger_snapshot (s : State) (ch : Channel) (t : Trigger) : (s.setTrigger ch t).snapshot = s.snapshot := rfl
@[simp] theorem setTrigger_latch (s : State) (ch : Channel) (t : Trigger) : (s.setTrigger ch t).latch = s.latch := rfl
@[simp] theorem setTrigger_cause (s : State) (ch : Channel) (t : Trigger) : (s.setTrigger ch t).cause = s.cause := rfl
@[simp] theorem setTrigger_safenSample (s : State) (ch : Channel) (t : Trigger) : (s.setTrigger ch t).safenSample = s.safenSample := rfl
@[simp] theorem setTrigger_safenFall (s : State) (ch : Channel) (t : Trigger) : (s.setTrigger ch t).safenFall = s.safenFall := rfl
@[simp] theorem setTrigger_notices (s : State) (ch : Channel) (t : Trigger) : (s.setTrigger ch t).notices = s.notices := rfl
@[simp] theorem setTrigger_nextNumber (s : State) (ch : Channel) (t : Trigger) : (s.setTrigger ch t).nextNumber = s.nextNumber := rfl
@[simp] theorem setTrigger_lossCount (s : State) (ch : Channel) (t : Trigger) : (s.setTrigger ch t).lossCount = s.lossCount := rfl
@[simp] theorem setTrigger_retryTimer (s : State) (ch : Channel) (t : Trigger) : (s.setTrigger ch t).retryTimer = s.retryTimer := rfl
@[simp] theorem setTrigger_expiries (s : State) (ch : Channel) (t : Trigger) : (s.setTrigger ch t).expiries = s.expiries := rfl
@[simp] theorem setTrigger_stall (s : State) (ch : Channel) (t : Trigger) : (s.setTrigger ch t).stall = s.stall := rfl
@[simp] theorem setTrigger_retryTime (s : State) (ch : Channel) (t : Trigger) : (s.setTrigger ch t).retryTime = s.retryTime := rfl
@[simp] theorem setTrigger_baud (s : State) (ch : Channel) (t : Trigger) : (s.setTrigger ch t).baud = s.baud := rfl
@[simp] theorem setTrigger_asm (s : State) (ch : Channel) (t : Trigger) : (s.setTrigger ch t).asm = s.asm := rfl
@[simp] theorem setTrigger_lowSpan (s : State) (ch : Channel) (t : Trigger) : (s.setTrigger ch t).lowSpan = s.lowSpan := rfl
@[simp] theorem setTrigger_rxQueue (s : State) (ch : Channel) (t : Trigger) : (s.setTrigger ch t).rxQueue = s.rxQueue := rfl
@[simp] theorem setTrigger_replies (s : State) (ch : Channel) (t : Trigger) : (s.setTrigger ch t).replies = s.replies := rfl
@[simp] theorem setTrigger_cache (s : State) (ch : Channel) (t : Trigger) : (s.setTrigger ch t).cache = s.cache := rfl
@[simp] theorem setTrigger_linkOpen (s : State) (ch : Channel) (t : Trigger) : (s.setTrigger ch t).linkOpen = s.linkOpen := rfl
@[simp] theorem setTrigger_tx (s : State) (ch : Channel) (t : Trigger) : (s.setTrigger ch t).tx = s.tx := rfl
@[simp] theorem setTrigger_counters (s : State) (ch : Channel) (t : Trigger) : (s.setTrigger ch t).counters = s.counters := rfl
@[simp] theorem setTrigger_engine (s : State) (ch : Channel) (t : Trigger) (c : Channel) :
    (s.setTrigger ch t).engine c = s.engine c := rfl
@[simp] theorem setTrigger_plan (s : State) (ch : Channel) (t : Trigger) (c : Channel) :
    (s.setTrigger ch t).plan c = s.plan c := rfl
@[simp] theorem setTrigger_slot (s : State) (ch : Channel) (t : Trigger) (j : SlotNo) :
    (s.setTrigger ch t).slot j = s.slot j := rfl
@[simp] theorem setTrigger_record (s : State) (ch : Channel) (t : Trigger) (j : SlotNo) :
    (s.setTrigger ch t).record j = s.record j := rfl
@[simp] theorem setTrigger_handle (s : State) (ch : Channel) (t : Trigger) (j : SlotNo) :
    (s.setTrigger ch t).handle j = s.handle j := rfl
@[simp] theorem setTrigger_startOf (s : State) (ch : Channel) (t : Trigger) (j : SlotNo) :
    (s.setTrigger ch t).startOf j = s.startOf j := rfl

/-! ### setRecord -/

@[simp] theorem setRecord_pending (s : State) (i : SlotNo) (r : Record) : (s.setRecord i r).pending = s.pending := rfl
@[simp] theorem setRecord_inReset (s : State) (i : SlotNo) (r : Record) : (s.setRecord i r).inReset = s.inReset := rfl
@[simp] theorem setRecord_prescaler (s : State) (i : SlotNo) (r : Record) : (s.setRecord i r).prescaler = s.prescaler := rfl
@[simp] theorem setRecord_deviceTime (s : State) (i : SlotNo) (r : Record) : (s.setRecord i r).deviceTime = s.deviceTime := rfl
@[simp] theorem setRecord_syncPrev (s : State) (i : SlotNo) (r : Record) : (s.setRecord i r).syncPrev = s.syncPrev := rfl
@[simp] theorem setRecord_syncSampled (s : State) (i : SlotNo) (r : Record) : (s.setRecord i r).syncSampled = s.syncSampled := rfl
@[simp] theorem setRecord_syncArm (s : State) (i : SlotNo) (r : Record) : (s.setRecord i r).syncArm = s.syncArm := rfl
@[simp] theorem setRecord_freeList (s : State) (i : SlotNo) (r : Record) : (s.setRecord i r).freeList = s.freeList := rfl
@[simp] theorem setRecord_plans (s : State) (i : SlotNo) (r : Record) : (s.setRecord i r).plans = s.plans := rfl
@[simp] theorem setRecord_minLead (s : State) (i : SlotNo) (r : Record) : (s.setRecord i r).minLead = s.minLead := rfl
@[simp] theorem setRecord_horizon (s : State) (i : SlotNo) (r : Record) : (s.setRecord i r).horizon = s.horizon := rfl
@[simp] theorem setRecord_engines (s : State) (i : SlotNo) (r : Record) : (s.setRecord i r).engines = s.engines := rfl
@[simp] theorem setRecord_triggers (s : State) (i : SlotNo) (r : Record) : (s.setRecord i r).triggers = s.triggers := rfl
@[simp] theorem setRecord_group (s : State) (i : SlotNo) (r : Record) : (s.setRecord i r).group = s.group := rfl
@[simp] theorem setRecord_nextGroupId (s : State) (i : SlotNo) (r : Record) : (s.setRecord i r).nextGroupId = s.nextGroupId := rfl
@[simp] theorem setRecord_groupDefault (s : State) (i : SlotNo) (r : Record) : (s.setRecord i r).groupDefault = s.groupDefault := rfl
@[simp] theorem setRecord_tagsOpen (s : State) (i : SlotNo) (r : Record) : (s.setRecord i r).tagsOpen = s.tagsOpen := rfl
@[simp] theorem setRecord_tagsWaiting (s : State) (i : SlotNo) (r : Record) : (s.setRecord i r).tagsWaiting = s.tagsWaiting := rfl
@[simp] theorem setRecord_nextTag (s : State) (i : SlotNo) (r : Record) : (s.setRecord i r).nextTag = s.nextTag := rfl
@[simp] theorem setRecord_snapshot (s : State) (i : SlotNo) (r : Record) : (s.setRecord i r).snapshot = s.snapshot := rfl
@[simp] theorem setRecord_latch (s : State) (i : SlotNo) (r : Record) : (s.setRecord i r).latch = s.latch := rfl
@[simp] theorem setRecord_cause (s : State) (i : SlotNo) (r : Record) : (s.setRecord i r).cause = s.cause := rfl
@[simp] theorem setRecord_safenSample (s : State) (i : SlotNo) (r : Record) : (s.setRecord i r).safenSample = s.safenSample := rfl
@[simp] theorem setRecord_safenFall (s : State) (i : SlotNo) (r : Record) : (s.setRecord i r).safenFall = s.safenFall := rfl
@[simp] theorem setRecord_notices (s : State) (i : SlotNo) (r : Record) : (s.setRecord i r).notices = s.notices := rfl
@[simp] theorem setRecord_nextNumber (s : State) (i : SlotNo) (r : Record) : (s.setRecord i r).nextNumber = s.nextNumber := rfl
@[simp] theorem setRecord_lossCount (s : State) (i : SlotNo) (r : Record) : (s.setRecord i r).lossCount = s.lossCount := rfl
@[simp] theorem setRecord_retryTimer (s : State) (i : SlotNo) (r : Record) : (s.setRecord i r).retryTimer = s.retryTimer := rfl
@[simp] theorem setRecord_expiries (s : State) (i : SlotNo) (r : Record) : (s.setRecord i r).expiries = s.expiries := rfl
@[simp] theorem setRecord_stall (s : State) (i : SlotNo) (r : Record) : (s.setRecord i r).stall = s.stall := rfl
@[simp] theorem setRecord_retryTime (s : State) (i : SlotNo) (r : Record) : (s.setRecord i r).retryTime = s.retryTime := rfl
@[simp] theorem setRecord_baud (s : State) (i : SlotNo) (r : Record) : (s.setRecord i r).baud = s.baud := rfl
@[simp] theorem setRecord_asm (s : State) (i : SlotNo) (r : Record) : (s.setRecord i r).asm = s.asm := rfl
@[simp] theorem setRecord_lowSpan (s : State) (i : SlotNo) (r : Record) : (s.setRecord i r).lowSpan = s.lowSpan := rfl
@[simp] theorem setRecord_rxQueue (s : State) (i : SlotNo) (r : Record) : (s.setRecord i r).rxQueue = s.rxQueue := rfl
@[simp] theorem setRecord_replies (s : State) (i : SlotNo) (r : Record) : (s.setRecord i r).replies = s.replies := rfl
@[simp] theorem setRecord_cache (s : State) (i : SlotNo) (r : Record) : (s.setRecord i r).cache = s.cache := rfl
@[simp] theorem setRecord_linkOpen (s : State) (i : SlotNo) (r : Record) : (s.setRecord i r).linkOpen = s.linkOpen := rfl
@[simp] theorem setRecord_tx (s : State) (i : SlotNo) (r : Record) : (s.setRecord i r).tx = s.tx := rfl
@[simp] theorem setRecord_counters (s : State) (i : SlotNo) (r : Record) : (s.setRecord i r).counters = s.counters := rfl
@[simp] theorem setRecord_engine (s : State) (i : SlotNo) (r : Record) (c : Channel) :
    (s.setRecord i r).engine c = s.engine c := rfl
@[simp] theorem setRecord_plan (s : State) (i : SlotNo) (r : Record) (c : Channel) :
    (s.setRecord i r).plan c = s.plan c := rfl
@[simp] theorem setRecord_trigger (s : State) (i : SlotNo) (r : Record) (c : Channel) :
    (s.setRecord i r).trigger c = s.trigger c := rfl

/-! ### releaseSlot -/

@[simp] theorem releaseSlot_pending (s : State) (i : SlotNo) : (s.releaseSlot i).pending = s.pending := rfl
@[simp] theorem releaseSlot_inReset (s : State) (i : SlotNo) : (s.releaseSlot i).inReset = s.inReset := rfl
@[simp] theorem releaseSlot_prescaler (s : State) (i : SlotNo) : (s.releaseSlot i).prescaler = s.prescaler := rfl
@[simp] theorem releaseSlot_deviceTime (s : State) (i : SlotNo) : (s.releaseSlot i).deviceTime = s.deviceTime := rfl
@[simp] theorem releaseSlot_syncPrev (s : State) (i : SlotNo) : (s.releaseSlot i).syncPrev = s.syncPrev := rfl
@[simp] theorem releaseSlot_syncSampled (s : State) (i : SlotNo) : (s.releaseSlot i).syncSampled = s.syncSampled := rfl
@[simp] theorem releaseSlot_syncArm (s : State) (i : SlotNo) : (s.releaseSlot i).syncArm = s.syncArm := rfl
@[simp] theorem releaseSlot_plans (s : State) (i : SlotNo) : (s.releaseSlot i).plans = s.plans := rfl
@[simp] theorem releaseSlot_minLead (s : State) (i : SlotNo) : (s.releaseSlot i).minLead = s.minLead := rfl
@[simp] theorem releaseSlot_horizon (s : State) (i : SlotNo) : (s.releaseSlot i).horizon = s.horizon := rfl
@[simp] theorem releaseSlot_engines (s : State) (i : SlotNo) : (s.releaseSlot i).engines = s.engines := rfl
@[simp] theorem releaseSlot_triggers (s : State) (i : SlotNo) : (s.releaseSlot i).triggers = s.triggers := rfl
@[simp] theorem releaseSlot_group (s : State) (i : SlotNo) : (s.releaseSlot i).group = s.group := rfl
@[simp] theorem releaseSlot_nextGroupId (s : State) (i : SlotNo) : (s.releaseSlot i).nextGroupId = s.nextGroupId := rfl
@[simp] theorem releaseSlot_groupDefault (s : State) (i : SlotNo) : (s.releaseSlot i).groupDefault = s.groupDefault := rfl
@[simp] theorem releaseSlot_tagsOpen (s : State) (i : SlotNo) : (s.releaseSlot i).tagsOpen = s.tagsOpen := rfl
@[simp] theorem releaseSlot_tagsWaiting (s : State) (i : SlotNo) : (s.releaseSlot i).tagsWaiting = s.tagsWaiting := rfl
@[simp] theorem releaseSlot_nextTag (s : State) (i : SlotNo) : (s.releaseSlot i).nextTag = s.nextTag := rfl
@[simp] theorem releaseSlot_snapshot (s : State) (i : SlotNo) : (s.releaseSlot i).snapshot = s.snapshot := rfl
@[simp] theorem releaseSlot_latch (s : State) (i : SlotNo) : (s.releaseSlot i).latch = s.latch := rfl
@[simp] theorem releaseSlot_cause (s : State) (i : SlotNo) : (s.releaseSlot i).cause = s.cause := rfl
@[simp] theorem releaseSlot_safenSample (s : State) (i : SlotNo) : (s.releaseSlot i).safenSample = s.safenSample := rfl
@[simp] theorem releaseSlot_safenFall (s : State) (i : SlotNo) : (s.releaseSlot i).safenFall = s.safenFall := rfl
@[simp] theorem releaseSlot_notices (s : State) (i : SlotNo) : (s.releaseSlot i).notices = s.notices := rfl
@[simp] theorem releaseSlot_nextNumber (s : State) (i : SlotNo) : (s.releaseSlot i).nextNumber = s.nextNumber := rfl
@[simp] theorem releaseSlot_lossCount (s : State) (i : SlotNo) : (s.releaseSlot i).lossCount = s.lossCount := rfl
@[simp] theorem releaseSlot_retryTimer (s : State) (i : SlotNo) : (s.releaseSlot i).retryTimer = s.retryTimer := rfl
@[simp] theorem releaseSlot_expiries (s : State) (i : SlotNo) : (s.releaseSlot i).expiries = s.expiries := rfl
@[simp] theorem releaseSlot_stall (s : State) (i : SlotNo) : (s.releaseSlot i).stall = s.stall := rfl
@[simp] theorem releaseSlot_retryTime (s : State) (i : SlotNo) : (s.releaseSlot i).retryTime = s.retryTime := rfl
@[simp] theorem releaseSlot_baud (s : State) (i : SlotNo) : (s.releaseSlot i).baud = s.baud := rfl
@[simp] theorem releaseSlot_asm (s : State) (i : SlotNo) : (s.releaseSlot i).asm = s.asm := rfl
@[simp] theorem releaseSlot_lowSpan (s : State) (i : SlotNo) : (s.releaseSlot i).lowSpan = s.lowSpan := rfl
@[simp] theorem releaseSlot_rxQueue (s : State) (i : SlotNo) : (s.releaseSlot i).rxQueue = s.rxQueue := rfl
@[simp] theorem releaseSlot_replies (s : State) (i : SlotNo) : (s.releaseSlot i).replies = s.replies := rfl
@[simp] theorem releaseSlot_cache (s : State) (i : SlotNo) : (s.releaseSlot i).cache = s.cache := rfl
@[simp] theorem releaseSlot_linkOpen (s : State) (i : SlotNo) : (s.releaseSlot i).linkOpen = s.linkOpen := rfl
@[simp] theorem releaseSlot_tx (s : State) (i : SlotNo) : (s.releaseSlot i).tx = s.tx := rfl
@[simp] theorem releaseSlot_counters (s : State) (i : SlotNo) : (s.releaseSlot i).counters = s.counters := rfl
@[simp] theorem releaseSlot_engine (s : State) (i : SlotNo) (c : Channel) :
    (s.releaseSlot i).engine c = s.engine c := rfl
@[simp] theorem releaseSlot_plan (s : State) (i : SlotNo) (c : Channel) :
    (s.releaseSlot i).plan c = s.plan c := rfl
@[simp] theorem releaseSlot_trigger (s : State) (i : SlotNo) (c : Channel) :
    (s.releaseSlot i).trigger c = s.trigger c := rfl

/-! ### appendNotice -/

@[simp] theorem appendNotice_pending (s : State) (b : NoticeBody) : (s.appendNotice b).pending = s.pending := rfl
@[simp] theorem appendNotice_inReset (s : State) (b : NoticeBody) : (s.appendNotice b).inReset = s.inReset := rfl
@[simp] theorem appendNotice_prescaler (s : State) (b : NoticeBody) : (s.appendNotice b).prescaler = s.prescaler := rfl
@[simp] theorem appendNotice_deviceTime (s : State) (b : NoticeBody) : (s.appendNotice b).deviceTime = s.deviceTime := rfl
@[simp] theorem appendNotice_syncPrev (s : State) (b : NoticeBody) : (s.appendNotice b).syncPrev = s.syncPrev := rfl
@[simp] theorem appendNotice_syncSampled (s : State) (b : NoticeBody) : (s.appendNotice b).syncSampled = s.syncSampled := rfl
@[simp] theorem appendNotice_syncArm (s : State) (b : NoticeBody) : (s.appendNotice b).syncArm = s.syncArm := rfl
@[simp] theorem appendNotice_slots (s : State) (b : NoticeBody) : (s.appendNotice b).slots = s.slots := rfl
@[simp] theorem appendNotice_freeList (s : State) (b : NoticeBody) : (s.appendNotice b).freeList = s.freeList := rfl
@[simp] theorem appendNotice_plans (s : State) (b : NoticeBody) : (s.appendNotice b).plans = s.plans := rfl
@[simp] theorem appendNotice_minLead (s : State) (b : NoticeBody) : (s.appendNotice b).minLead = s.minLead := rfl
@[simp] theorem appendNotice_horizon (s : State) (b : NoticeBody) : (s.appendNotice b).horizon = s.horizon := rfl
@[simp] theorem appendNotice_engines (s : State) (b : NoticeBody) : (s.appendNotice b).engines = s.engines := rfl
@[simp] theorem appendNotice_triggers (s : State) (b : NoticeBody) : (s.appendNotice b).triggers = s.triggers := rfl
@[simp] theorem appendNotice_group (s : State) (b : NoticeBody) : (s.appendNotice b).group = s.group := rfl
@[simp] theorem appendNotice_nextGroupId (s : State) (b : NoticeBody) : (s.appendNotice b).nextGroupId = s.nextGroupId := rfl
@[simp] theorem appendNotice_groupDefault (s : State) (b : NoticeBody) : (s.appendNotice b).groupDefault = s.groupDefault := rfl
@[simp] theorem appendNotice_tagsOpen (s : State) (b : NoticeBody) : (s.appendNotice b).tagsOpen = s.tagsOpen := rfl
@[simp] theorem appendNotice_tagsWaiting (s : State) (b : NoticeBody) : (s.appendNotice b).tagsWaiting = s.tagsWaiting := rfl
@[simp] theorem appendNotice_nextTag (s : State) (b : NoticeBody) : (s.appendNotice b).nextTag = s.nextTag := rfl
@[simp] theorem appendNotice_snapshot (s : State) (b : NoticeBody) : (s.appendNotice b).snapshot = s.snapshot := rfl
@[simp] theorem appendNotice_latch (s : State) (b : NoticeBody) : (s.appendNotice b).latch = s.latch := rfl
@[simp] theorem appendNotice_cause (s : State) (b : NoticeBody) : (s.appendNotice b).cause = s.cause := rfl
@[simp] theorem appendNotice_safenSample (s : State) (b : NoticeBody) : (s.appendNotice b).safenSample = s.safenSample := rfl
@[simp] theorem appendNotice_safenFall (s : State) (b : NoticeBody) : (s.appendNotice b).safenFall = s.safenFall := rfl
@[simp] theorem appendNotice_lossCount (s : State) (b : NoticeBody) : (s.appendNotice b).lossCount = s.lossCount := rfl
@[simp] theorem appendNotice_retryTimer (s : State) (b : NoticeBody) : (s.appendNotice b).retryTimer = s.retryTimer := rfl
@[simp] theorem appendNotice_expiries (s : State) (b : NoticeBody) : (s.appendNotice b).expiries = s.expiries := rfl
@[simp] theorem appendNotice_stall (s : State) (b : NoticeBody) : (s.appendNotice b).stall = s.stall := rfl
@[simp] theorem appendNotice_retryTime (s : State) (b : NoticeBody) : (s.appendNotice b).retryTime = s.retryTime := rfl
@[simp] theorem appendNotice_baud (s : State) (b : NoticeBody) : (s.appendNotice b).baud = s.baud := rfl
@[simp] theorem appendNotice_asm (s : State) (b : NoticeBody) : (s.appendNotice b).asm = s.asm := rfl
@[simp] theorem appendNotice_lowSpan (s : State) (b : NoticeBody) : (s.appendNotice b).lowSpan = s.lowSpan := rfl
@[simp] theorem appendNotice_rxQueue (s : State) (b : NoticeBody) : (s.appendNotice b).rxQueue = s.rxQueue := rfl
@[simp] theorem appendNotice_replies (s : State) (b : NoticeBody) : (s.appendNotice b).replies = s.replies := rfl
@[simp] theorem appendNotice_cache (s : State) (b : NoticeBody) : (s.appendNotice b).cache = s.cache := rfl
@[simp] theorem appendNotice_linkOpen (s : State) (b : NoticeBody) : (s.appendNotice b).linkOpen = s.linkOpen := rfl
@[simp] theorem appendNotice_tx (s : State) (b : NoticeBody) : (s.appendNotice b).tx = s.tx := rfl
@[simp] theorem appendNotice_counters (s : State) (b : NoticeBody) : (s.appendNotice b).counters = s.counters := rfl
@[simp] theorem appendNotice_engine (s : State) (b : NoticeBody) (c : Channel) :
    (s.appendNotice b).engine c = s.engine c := rfl
@[simp] theorem appendNotice_plan (s : State) (b : NoticeBody) (c : Channel) :
    (s.appendNotice b).plan c = s.plan c := rfl
@[simp] theorem appendNotice_trigger (s : State) (b : NoticeBody) (c : Channel) :
    (s.appendNotice b).trigger c = s.trigger c := rfl
@[simp] theorem appendNotice_slot (s : State) (b : NoticeBody) (j : SlotNo) :
    (s.appendNotice b).slot j = s.slot j := rfl
@[simp] theorem appendNotice_record (s : State) (b : NoticeBody) (j : SlotNo) :
    (s.appendNotice b).record j = s.record j := rfl
@[simp] theorem appendNotice_handle (s : State) (b : NoticeBody) (j : SlotNo) :
    (s.appendNotice b).handle j = s.handle j := rfl
@[simp] theorem appendNotice_startOf (s : State) (b : NoticeBody) (j : SlotNo) :
    (s.appendNotice b).startOf j = s.startOf j := rfl

/-! ### unsendAll -/

@[simp] theorem unsendAll_pending (s : State) : (s.unsendAll).pending = s.pending := rfl
@[simp] theorem unsendAll_inReset (s : State) : (s.unsendAll).inReset = s.inReset := rfl
@[simp] theorem unsendAll_prescaler (s : State) : (s.unsendAll).prescaler = s.prescaler := rfl
@[simp] theorem unsendAll_deviceTime (s : State) : (s.unsendAll).deviceTime = s.deviceTime := rfl
@[simp] theorem unsendAll_syncPrev (s : State) : (s.unsendAll).syncPrev = s.syncPrev := rfl
@[simp] theorem unsendAll_syncSampled (s : State) : (s.unsendAll).syncSampled = s.syncSampled := rfl
@[simp] theorem unsendAll_syncArm (s : State) : (s.unsendAll).syncArm = s.syncArm := rfl
@[simp] theorem unsendAll_slots (s : State) : (s.unsendAll).slots = s.slots := rfl
@[simp] theorem unsendAll_freeList (s : State) : (s.unsendAll).freeList = s.freeList := rfl
@[simp] theorem unsendAll_plans (s : State) : (s.unsendAll).plans = s.plans := rfl
@[simp] theorem unsendAll_minLead (s : State) : (s.unsendAll).minLead = s.minLead := rfl
@[simp] theorem unsendAll_horizon (s : State) : (s.unsendAll).horizon = s.horizon := rfl
@[simp] theorem unsendAll_engines (s : State) : (s.unsendAll).engines = s.engines := rfl
@[simp] theorem unsendAll_triggers (s : State) : (s.unsendAll).triggers = s.triggers := rfl
@[simp] theorem unsendAll_group (s : State) : (s.unsendAll).group = s.group := rfl
@[simp] theorem unsendAll_nextGroupId (s : State) : (s.unsendAll).nextGroupId = s.nextGroupId := rfl
@[simp] theorem unsendAll_groupDefault (s : State) : (s.unsendAll).groupDefault = s.groupDefault := rfl
@[simp] theorem unsendAll_tagsOpen (s : State) : (s.unsendAll).tagsOpen = s.tagsOpen := rfl
@[simp] theorem unsendAll_tagsWaiting (s : State) : (s.unsendAll).tagsWaiting = s.tagsWaiting := rfl
@[simp] theorem unsendAll_nextTag (s : State) : (s.unsendAll).nextTag = s.nextTag := rfl
@[simp] theorem unsendAll_snapshot (s : State) : (s.unsendAll).snapshot = s.snapshot := rfl
@[simp] theorem unsendAll_latch (s : State) : (s.unsendAll).latch = s.latch := rfl
@[simp] theorem unsendAll_cause (s : State) : (s.unsendAll).cause = s.cause := rfl
@[simp] theorem unsendAll_safenSample (s : State) : (s.unsendAll).safenSample = s.safenSample := rfl
@[simp] theorem unsendAll_safenFall (s : State) : (s.unsendAll).safenFall = s.safenFall := rfl
@[simp] theorem unsendAll_nextNumber (s : State) : (s.unsendAll).nextNumber = s.nextNumber := rfl
@[simp] theorem unsendAll_lossCount (s : State) : (s.unsendAll).lossCount = s.lossCount := rfl
@[simp] theorem unsendAll_retryTimer (s : State) : (s.unsendAll).retryTimer = s.retryTimer := rfl
@[simp] theorem unsendAll_expiries (s : State) : (s.unsendAll).expiries = s.expiries := rfl
@[simp] theorem unsendAll_stall (s : State) : (s.unsendAll).stall = s.stall := rfl
@[simp] theorem unsendAll_retryTime (s : State) : (s.unsendAll).retryTime = s.retryTime := rfl
@[simp] theorem unsendAll_baud (s : State) : (s.unsendAll).baud = s.baud := rfl
@[simp] theorem unsendAll_asm (s : State) : (s.unsendAll).asm = s.asm := rfl
@[simp] theorem unsendAll_lowSpan (s : State) : (s.unsendAll).lowSpan = s.lowSpan := rfl
@[simp] theorem unsendAll_rxQueue (s : State) : (s.unsendAll).rxQueue = s.rxQueue := rfl
@[simp] theorem unsendAll_replies (s : State) : (s.unsendAll).replies = s.replies := rfl
@[simp] theorem unsendAll_cache (s : State) : (s.unsendAll).cache = s.cache := rfl
@[simp] theorem unsendAll_linkOpen (s : State) : (s.unsendAll).linkOpen = s.linkOpen := rfl
@[simp] theorem unsendAll_tx (s : State) : (s.unsendAll).tx = s.tx := rfl
@[simp] theorem unsendAll_counters (s : State) : (s.unsendAll).counters = s.counters := rfl
@[simp] theorem unsendAll_engine (s : State) (c : Channel) :
    (s.unsendAll).engine c = s.engine c := rfl
@[simp] theorem unsendAll_plan (s : State) (c : Channel) :
    (s.unsendAll).plan c = s.plan c := rfl
@[simp] theorem unsendAll_trigger (s : State) (c : Channel) :
    (s.unsendAll).trigger c = s.trigger c := rfl
@[simp] theorem unsendAll_slot (s : State) (j : SlotNo) :
    (s.unsendAll).slot j = s.slot j := rfl
@[simp] theorem unsendAll_record (s : State) (j : SlotNo) :
    (s.unsendAll).record j = s.record j := rfl
@[simp] theorem unsendAll_handle (s : State) (j : SlotNo) :
    (s.unsendAll).handle j = s.handle j := rfl
@[simp] theorem unsendAll_startOf (s : State) (j : SlotNo) :
    (s.unsendAll).startOf j = s.startOf j := rfl

/-! ### startRetry -/

@[simp] theorem startRetry_pending (s : State) : (s.startRetry).pending = s.pending := rfl
@[simp] theorem startRetry_inReset (s : State) : (s.startRetry).inReset = s.inReset := rfl
@[simp] theorem startRetry_prescaler (s : State) : (s.startRetry).prescaler = s.prescaler := rfl
@[simp] theorem startRetry_deviceTime (s : State) : (s.startRetry).deviceTime = s.deviceTime := rfl
@[simp] theorem startRetry_syncPrev (s : State) : (s.startRetry).syncPrev = s.syncPrev := rfl
@[simp] theorem startRetry_syncSampled (s : State) : (s.startRetry).syncSampled = s.syncSampled := rfl
@[simp] theorem startRetry_syncArm (s : State) : (s.startRetry).syncArm = s.syncArm := rfl
@[simp] theorem startRetry_slots (s : State) : (s.startRetry).slots = s.slots := rfl
@[simp] theorem startRetry_freeList (s : State) : (s.startRetry).freeList = s.freeList := rfl
@[simp] theorem startRetry_plans (s : State) : (s.startRetry).plans = s.plans := rfl
@[simp] theorem startRetry_minLead (s : State) : (s.startRetry).minLead = s.minLead := rfl
@[simp] theorem startRetry_horizon (s : State) : (s.startRetry).horizon = s.horizon := rfl
@[simp] theorem startRetry_engines (s : State) : (s.startRetry).engines = s.engines := rfl
@[simp] theorem startRetry_triggers (s : State) : (s.startRetry).triggers = s.triggers := rfl
@[simp] theorem startRetry_group (s : State) : (s.startRetry).group = s.group := rfl
@[simp] theorem startRetry_nextGroupId (s : State) : (s.startRetry).nextGroupId = s.nextGroupId := rfl
@[simp] theorem startRetry_groupDefault (s : State) : (s.startRetry).groupDefault = s.groupDefault := rfl
@[simp] theorem startRetry_tagsOpen (s : State) : (s.startRetry).tagsOpen = s.tagsOpen := rfl
@[simp] theorem startRetry_tagsWaiting (s : State) : (s.startRetry).tagsWaiting = s.tagsWaiting := rfl
@[simp] theorem startRetry_nextTag (s : State) : (s.startRetry).nextTag = s.nextTag := rfl
@[simp] theorem startRetry_snapshot (s : State) : (s.startRetry).snapshot = s.snapshot := rfl
@[simp] theorem startRetry_latch (s : State) : (s.startRetry).latch = s.latch := rfl
@[simp] theorem startRetry_cause (s : State) : (s.startRetry).cause = s.cause := rfl
@[simp] theorem startRetry_safenSample (s : State) : (s.startRetry).safenSample = s.safenSample := rfl
@[simp] theorem startRetry_safenFall (s : State) : (s.startRetry).safenFall = s.safenFall := rfl
@[simp] theorem startRetry_notices (s : State) : (s.startRetry).notices = s.notices := rfl
@[simp] theorem startRetry_nextNumber (s : State) : (s.startRetry).nextNumber = s.nextNumber := rfl
@[simp] theorem startRetry_lossCount (s : State) : (s.startRetry).lossCount = s.lossCount := rfl
@[simp] theorem startRetry_expiries (s : State) : (s.startRetry).expiries = s.expiries := rfl
@[simp] theorem startRetry_stall (s : State) : (s.startRetry).stall = s.stall := rfl
@[simp] theorem startRetry_retryTime (s : State) : (s.startRetry).retryTime = s.retryTime := rfl
@[simp] theorem startRetry_baud (s : State) : (s.startRetry).baud = s.baud := rfl
@[simp] theorem startRetry_asm (s : State) : (s.startRetry).asm = s.asm := rfl
@[simp] theorem startRetry_lowSpan (s : State) : (s.startRetry).lowSpan = s.lowSpan := rfl
@[simp] theorem startRetry_rxQueue (s : State) : (s.startRetry).rxQueue = s.rxQueue := rfl
@[simp] theorem startRetry_replies (s : State) : (s.startRetry).replies = s.replies := rfl
@[simp] theorem startRetry_cache (s : State) : (s.startRetry).cache = s.cache := rfl
@[simp] theorem startRetry_linkOpen (s : State) : (s.startRetry).linkOpen = s.linkOpen := rfl
@[simp] theorem startRetry_tx (s : State) : (s.startRetry).tx = s.tx := rfl
@[simp] theorem startRetry_counters (s : State) : (s.startRetry).counters = s.counters := rfl
@[simp] theorem startRetry_engine (s : State) (c : Channel) :
    (s.startRetry).engine c = s.engine c := rfl
@[simp] theorem startRetry_plan (s : State) (c : Channel) :
    (s.startRetry).plan c = s.plan c := rfl
@[simp] theorem startRetry_trigger (s : State) (c : Channel) :
    (s.startRetry).trigger c = s.trigger c := rfl
@[simp] theorem startRetry_slot (s : State) (j : SlotNo) :
    (s.startRetry).slot j = s.slot j := rfl
@[simp] theorem startRetry_record (s : State) (j : SlotNo) :
    (s.startRetry).record j = s.record j := rfl
@[simp] theorem startRetry_handle (s : State) (j : SlotNo) :
    (s.startRetry).handle j = s.handle j := rfl
@[simp] theorem startRetry_startOf (s : State) (j : SlotNo) :
    (s.startRetry).startOf j = s.startOf j := rfl

/-! ### allocTag -/

@[simp] theorem allocTag_pending (s : State) (sub : TagSubject) : (s.allocTag sub).pending = s.pending := rfl
@[simp] theorem allocTag_inReset (s : State) (sub : TagSubject) : (s.allocTag sub).inReset = s.inReset := rfl
@[simp] theorem allocTag_prescaler (s : State) (sub : TagSubject) : (s.allocTag sub).prescaler = s.prescaler := rfl
@[simp] theorem allocTag_deviceTime (s : State) (sub : TagSubject) : (s.allocTag sub).deviceTime = s.deviceTime := rfl
@[simp] theorem allocTag_syncPrev (s : State) (sub : TagSubject) : (s.allocTag sub).syncPrev = s.syncPrev := rfl
@[simp] theorem allocTag_syncSampled (s : State) (sub : TagSubject) : (s.allocTag sub).syncSampled = s.syncSampled := rfl
@[simp] theorem allocTag_syncArm (s : State) (sub : TagSubject) : (s.allocTag sub).syncArm = s.syncArm := rfl
@[simp] theorem allocTag_slots (s : State) (sub : TagSubject) : (s.allocTag sub).slots = s.slots := rfl
@[simp] theorem allocTag_freeList (s : State) (sub : TagSubject) : (s.allocTag sub).freeList = s.freeList := rfl
@[simp] theorem allocTag_plans (s : State) (sub : TagSubject) : (s.allocTag sub).plans = s.plans := rfl
@[simp] theorem allocTag_minLead (s : State) (sub : TagSubject) : (s.allocTag sub).minLead = s.minLead := rfl
@[simp] theorem allocTag_horizon (s : State) (sub : TagSubject) : (s.allocTag sub).horizon = s.horizon := rfl
@[simp] theorem allocTag_engines (s : State) (sub : TagSubject) : (s.allocTag sub).engines = s.engines := rfl
@[simp] theorem allocTag_triggers (s : State) (sub : TagSubject) : (s.allocTag sub).triggers = s.triggers := rfl
@[simp] theorem allocTag_group (s : State) (sub : TagSubject) : (s.allocTag sub).group = s.group := rfl
@[simp] theorem allocTag_nextGroupId (s : State) (sub : TagSubject) : (s.allocTag sub).nextGroupId = s.nextGroupId := rfl
@[simp] theorem allocTag_groupDefault (s : State) (sub : TagSubject) : (s.allocTag sub).groupDefault = s.groupDefault := rfl
@[simp] theorem allocTag_tagsWaiting (s : State) (sub : TagSubject) : (s.allocTag sub).tagsWaiting = s.tagsWaiting := rfl
@[simp] theorem allocTag_snapshot (s : State) (sub : TagSubject) : (s.allocTag sub).snapshot = s.snapshot := rfl
@[simp] theorem allocTag_latch (s : State) (sub : TagSubject) : (s.allocTag sub).latch = s.latch := rfl
@[simp] theorem allocTag_cause (s : State) (sub : TagSubject) : (s.allocTag sub).cause = s.cause := rfl
@[simp] theorem allocTag_safenSample (s : State) (sub : TagSubject) : (s.allocTag sub).safenSample = s.safenSample := rfl
@[simp] theorem allocTag_safenFall (s : State) (sub : TagSubject) : (s.allocTag sub).safenFall = s.safenFall := rfl
@[simp] theorem allocTag_notices (s : State) (sub : TagSubject) : (s.allocTag sub).notices = s.notices := rfl
@[simp] theorem allocTag_nextNumber (s : State) (sub : TagSubject) : (s.allocTag sub).nextNumber = s.nextNumber := rfl
@[simp] theorem allocTag_lossCount (s : State) (sub : TagSubject) : (s.allocTag sub).lossCount = s.lossCount := rfl
@[simp] theorem allocTag_retryTimer (s : State) (sub : TagSubject) : (s.allocTag sub).retryTimer = s.retryTimer := rfl
@[simp] theorem allocTag_expiries (s : State) (sub : TagSubject) : (s.allocTag sub).expiries = s.expiries := rfl
@[simp] theorem allocTag_stall (s : State) (sub : TagSubject) : (s.allocTag sub).stall = s.stall := rfl
@[simp] theorem allocTag_retryTime (s : State) (sub : TagSubject) : (s.allocTag sub).retryTime = s.retryTime := rfl
@[simp] theorem allocTag_baud (s : State) (sub : TagSubject) : (s.allocTag sub).baud = s.baud := rfl
@[simp] theorem allocTag_asm (s : State) (sub : TagSubject) : (s.allocTag sub).asm = s.asm := rfl
@[simp] theorem allocTag_lowSpan (s : State) (sub : TagSubject) : (s.allocTag sub).lowSpan = s.lowSpan := rfl
@[simp] theorem allocTag_rxQueue (s : State) (sub : TagSubject) : (s.allocTag sub).rxQueue = s.rxQueue := rfl
@[simp] theorem allocTag_replies (s : State) (sub : TagSubject) : (s.allocTag sub).replies = s.replies := rfl
@[simp] theorem allocTag_cache (s : State) (sub : TagSubject) : (s.allocTag sub).cache = s.cache := rfl
@[simp] theorem allocTag_linkOpen (s : State) (sub : TagSubject) : (s.allocTag sub).linkOpen = s.linkOpen := rfl
@[simp] theorem allocTag_tx (s : State) (sub : TagSubject) : (s.allocTag sub).tx = s.tx := rfl
@[simp] theorem allocTag_counters (s : State) (sub : TagSubject) : (s.allocTag sub).counters = s.counters := rfl
@[simp] theorem allocTag_engine (s : State) (sub : TagSubject) (c : Channel) :
    (s.allocTag sub).engine c = s.engine c := rfl
@[simp] theorem allocTag_plan (s : State) (sub : TagSubject) (c : Channel) :
    (s.allocTag sub).plan c = s.plan c := rfl
@[simp] theorem allocTag_trigger (s : State) (sub : TagSubject) (c : Channel) :
    (s.allocTag sub).trigger c = s.trigger c := rfl
@[simp] theorem allocTag_slot (s : State) (sub : TagSubject) (j : SlotNo) :
    (s.allocTag sub).slot j = s.slot j := rfl
@[simp] theorem allocTag_record (s : State) (sub : TagSubject) (j : SlotNo) :
    (s.allocTag sub).record j = s.record j := rfl
@[simp] theorem allocTag_handle (s : State) (sub : TagSubject) (j : SlotNo) :
    (s.allocTag sub).handle j = s.handle j := rfl
@[simp] theorem allocTag_startOf (s : State) (sub : TagSubject) (j : SlotNo) :
    (s.allocTag sub).startOf j = s.startOf j := rfl

/-! ### unstage -/

@[simp] theorem unstage_pending (s : State) (i : SlotNo) : (s.unstage i).pending = s.pending := rfl
@[simp] theorem unstage_inReset (s : State) (i : SlotNo) : (s.unstage i).inReset = s.inReset := rfl
@[simp] theorem unstage_prescaler (s : State) (i : SlotNo) : (s.unstage i).prescaler = s.prescaler := rfl
@[simp] theorem unstage_deviceTime (s : State) (i : SlotNo) : (s.unstage i).deviceTime = s.deviceTime := rfl
@[simp] theorem unstage_syncPrev (s : State) (i : SlotNo) : (s.unstage i).syncPrev = s.syncPrev := rfl
@[simp] theorem unstage_syncSampled (s : State) (i : SlotNo) : (s.unstage i).syncSampled = s.syncSampled := rfl
@[simp] theorem unstage_syncArm (s : State) (i : SlotNo) : (s.unstage i).syncArm = s.syncArm := rfl
@[simp] theorem unstage_slots (s : State) (i : SlotNo) : (s.unstage i).slots = s.slots := rfl
@[simp] theorem unstage_freeList (s : State) (i : SlotNo) : (s.unstage i).freeList = s.freeList := rfl
@[simp] theorem unstage_plans (s : State) (i : SlotNo) : (s.unstage i).plans = s.plans := rfl
@[simp] theorem unstage_minLead (s : State) (i : SlotNo) : (s.unstage i).minLead = s.minLead := rfl
@[simp] theorem unstage_horizon (s : State) (i : SlotNo) : (s.unstage i).horizon = s.horizon := rfl
@[simp] theorem unstage_engines (s : State) (i : SlotNo) : (s.unstage i).engines = s.engines := rfl
@[simp] theorem unstage_triggers (s : State) (i : SlotNo) : (s.unstage i).triggers = s.triggers := rfl
@[simp] theorem unstage_nextGroupId (s : State) (i : SlotNo) : (s.unstage i).nextGroupId = s.nextGroupId := rfl
@[simp] theorem unstage_groupDefault (s : State) (i : SlotNo) : (s.unstage i).groupDefault = s.groupDefault := rfl
@[simp] theorem unstage_tagsOpen (s : State) (i : SlotNo) : (s.unstage i).tagsOpen = s.tagsOpen := rfl
@[simp] theorem unstage_tagsWaiting (s : State) (i : SlotNo) : (s.unstage i).tagsWaiting = s.tagsWaiting := rfl
@[simp] theorem unstage_nextTag (s : State) (i : SlotNo) : (s.unstage i).nextTag = s.nextTag := rfl
@[simp] theorem unstage_snapshot (s : State) (i : SlotNo) : (s.unstage i).snapshot = s.snapshot := rfl
@[simp] theorem unstage_latch (s : State) (i : SlotNo) : (s.unstage i).latch = s.latch := rfl
@[simp] theorem unstage_cause (s : State) (i : SlotNo) : (s.unstage i).cause = s.cause := rfl
@[simp] theorem unstage_safenSample (s : State) (i : SlotNo) : (s.unstage i).safenSample = s.safenSample := rfl
@[simp] theorem unstage_safenFall (s : State) (i : SlotNo) : (s.unstage i).safenFall = s.safenFall := rfl
@[simp] theorem unstage_notices (s : State) (i : SlotNo) : (s.unstage i).notices = s.notices := rfl
@[simp] theorem unstage_nextNumber (s : State) (i : SlotNo) : (s.unstage i).nextNumber = s.nextNumber := rfl
@[simp] theorem unstage_lossCount (s : State) (i : SlotNo) : (s.unstage i).lossCount = s.lossCount := rfl
@[simp] theorem unstage_retryTimer (s : State) (i : SlotNo) : (s.unstage i).retryTimer = s.retryTimer := rfl
@[simp] theorem unstage_expiries (s : State) (i : SlotNo) : (s.unstage i).expiries = s.expiries := rfl
@[simp] theorem unstage_stall (s : State) (i : SlotNo) : (s.unstage i).stall = s.stall := rfl
@[simp] theorem unstage_retryTime (s : State) (i : SlotNo) : (s.unstage i).retryTime = s.retryTime := rfl
@[simp] theorem unstage_baud (s : State) (i : SlotNo) : (s.unstage i).baud = s.baud := rfl
@[simp] theorem unstage_asm (s : State) (i : SlotNo) : (s.unstage i).asm = s.asm := rfl
@[simp] theorem unstage_lowSpan (s : State) (i : SlotNo) : (s.unstage i).lowSpan = s.lowSpan := rfl
@[simp] theorem unstage_rxQueue (s : State) (i : SlotNo) : (s.unstage i).rxQueue = s.rxQueue := rfl
@[simp] theorem unstage_replies (s : State) (i : SlotNo) : (s.unstage i).replies = s.replies := rfl
@[simp] theorem unstage_cache (s : State) (i : SlotNo) : (s.unstage i).cache = s.cache := rfl
@[simp] theorem unstage_linkOpen (s : State) (i : SlotNo) : (s.unstage i).linkOpen = s.linkOpen := rfl
@[simp] theorem unstage_tx (s : State) (i : SlotNo) : (s.unstage i).tx = s.tx := rfl
@[simp] theorem unstage_counters (s : State) (i : SlotNo) : (s.unstage i).counters = s.counters := rfl
@[simp] theorem unstage_engine (s : State) (i : SlotNo) (c : Channel) :
    (s.unstage i).engine c = s.engine c := rfl
@[simp] theorem unstage_plan (s : State) (i : SlotNo) (c : Channel) :
    (s.unstage i).plan c = s.plan c := rfl
@[simp] theorem unstage_trigger (s : State) (i : SlotNo) (c : Channel) :
    (s.unstage i).trigger c = s.trigger c := rfl
@[simp] theorem unstage_slot (s : State) (i : SlotNo) (j : SlotNo) :
    (s.unstage i).slot j = s.slot j := rfl
@[simp] theorem unstage_record (s : State) (i : SlotNo) (j : SlotNo) :
    (s.unstage i).record j = s.record j := rfl
@[simp] theorem unstage_handle (s : State) (i : SlotNo) (j : SlotNo) :
    (s.unstage i).handle j = s.handle j := rfl
@[simp] theorem unstage_startOf (s : State) (i : SlotNo) (j : SlotNo) :
    (s.unstage i).startOf j = s.startOf j := rfl

end Sys2Proof.Machine
end

