-- ==== Sys2Proof/Laws/Reports.lean ====
section
/-!
SUPPORT. What handing on a notice, completing a tag, freeing a record and the watch do, each as one equation with the words of
Safety.lean, and what they leave as it was.
-/
namespace Sys2Proof.Machine

/-! ### Adding reports -/

/-- `t` is `s` with reports added: notices at the tail, waiting completions at the end, OPEN entries completed and gone, losses
counted; nothing else differs. -/
structure State.AddsReports (s t : State) : Prop where
  same    : t = { s with tagsOpen := t.tagsOpen, tagsWaiting := t.tagsWaiting, notices := t.notices,
                         nextNumber := t.nextNumber, lossCount := t.lossCount }
  notices : s.notices <+: t.notices
  waiting : s.tagsWaiting <+: t.tagsWaiting
  opened  : t.tagsOpen.Sublist s.tagsOpen

theorem State.AddsReports.refl (s : State) : s.AddsReports s := ⟨rfl, List.prefix_rfl, List.prefix_rfl, List.Sublist.refl _⟩

theorem State.AddsReports.trans {s t u : State} (h : s.AddsReports t) (k : t.AddsReports u) : s.AddsReports u := by
  obtain ⟨h1, h2, h3, h4⟩ := h
  obtain ⟨k1, k2, k3, k4⟩ := k
  refine ⟨?_, h2.trans k2, h3.trans k3, k4.trans h4⟩
  rw [k1, h1]

/-- Handing an ordinary notice to the queue (R146, R148). -/
theorem handOrdinary_eq_noticed (s : State) (b : NoticeBody) : s.handOrdinary b = s.noticed b := by
  unfold State.handOrdinary State.noticed State.noticeRoom
  by_cases h : s.notices.length < 32
  · simp [h, Config.noticeCap, State.appendNotice, numberAfter]
  · simp [h, Config.noticeCap]

/-- A completion that reaches the Tag Table (R119). -/
theorem completeTag_eq_withDone (s : State) (g : Nat) (res : EndResult) (b : DoneBody) :
    s.completeTag g res b = s.withDone g res b := by
  unfold State.completeTag State.withDone
  by_cases h : s.TagOpen g
  · have h' : s.tagsOpen.any (·.tag = g) = true := by
      obtain ⟨e, he, hg⟩ := h
      simp only [List.any_eq_true, decide_eq_true_eq]
      exact ⟨e, he, hg⟩
    rw [if_pos h', if_neg (not_not_intro h)]
    simp only [State.noticeRoom, Config.noticeCap, State.appendNotice, numberAfter]
    by_cases hw : s.tagsWaiting = [] <;> by_cases hn : s.notices.length < 32 <;> simp [hw, hn]
  · have h' : ¬ s.tagsOpen.any (·.tag = g) = true := by
      simp only [List.any_eq_true, decide_eq_true_eq]
      exact h
    rw [if_neg h', if_pos h]

theorem noticed_addsReports (s : State) (b : NoticeBody) : s.AddsReports (s.noticed b) := by
  unfold State.noticed
  split
  · exact ⟨rfl, List.prefix_append _ _, List.prefix_rfl, List.Sublist.refl _⟩
  · exact ⟨rfl, List.prefix_rfl, List.prefix_rfl, List.Sublist.refl _⟩

/-- A completion adds a DONE or a waiting entry and removes no other entry (R119). -/
theorem withDone_addsReports (s : State) (g : Nat) (res : EndResult) (b : DoneBody) : s.AddsReports (s.withDone g res b) := by
  unfold State.withDone
  dsimp only
  split
  · exact State.AddsReports.refl s
  · split
    · exact ⟨rfl, List.prefix_append _ _, List.prefix_rfl, List.filter_sublist⟩
    · exact ⟨rfl, List.prefix_rfl, List.prefix_append _ _, List.filter_sublist⟩

theorem handOrdinary_addsReports (s : State) (b : NoticeBody) : s.AddsReports (s.handOrdinary b) := by
  rw [handOrdinary_eq_noticed]; exact noticed_addsReports s b

theorem completeTag_addsReports (s : State) (g : Nat) (res : EndResult) (b : DoneBody) :
    s.AddsReports (s.completeTag g res b) := by
  rw [completeTag_eq_withDone]; exact withDone_addsReports s g res b

/-- Completions count no loss. -/
theorem withDone_lossCount (s : State) (g : Nat) (res : EndResult) (b : DoneBody) :
    (s.withDone g res b).lossCount = s.lossCount := by
  unfold State.withDone
  dsimp only
  split
  · rfl
  · split <;> rfl

/-- An OPEN tag completes: its entry is gone, and its DONE is queued or waits (R119). -/
theorem withDone_done (s : State) (g : Nat) (res : EndResult) (b : DoneBody) (h : s.TagOpen g) :
    (∀ e ∈ (s.withDone g res b).tagsOpen, e.tag ≠ g) ∧
    ((∃ n ∈ (s.withDone g res b).notices, n.body = .done g res b) ∨
      { tag := g, result := res, body := b } ∈ (s.withDone g res b).tagsWaiting) := by
  unfold State.withDone
  dsimp only
  rw [if_neg (not_not_intro h)]
  split
  · refine ⟨?_, Or.inl ⟨_, List.mem_append_right _ (List.mem_singleton_self _), rfl⟩⟩
    intro e he; simpa using (List.mem_filter.mp he).2
  · refine ⟨?_, Or.inr (List.mem_append_right _ (List.mem_singleton_self _))⟩
    intro e he; simpa using (List.mem_filter.mp he).2

/-- The OPEN entry of another tag stays OPEN (R119). -/
theorem withDone_other {s : State} {g : Nat} {e : OpenTag} (he : e ∈ s.tagsOpen) (hg : e.tag ≠ g) (res : EndResult)
    (b : DoneBody) : e ∈ (s.withDone g res b).tagsOpen := by
  unfold State.withDone
  dsimp only
  split
  · exact he
  · split <;> exact List.mem_filter.mpr ⟨he, by simpa using hg⟩

/-! ### Freeing a record (R19) -/

theorem endedUnstarted_eq (s : State) (i : SlotNo) (r : Record) (res : EndResult) :
    endedUnstarted s i r res = unstartedBody s i r res := rfl

theorem endedCurrent_eq (s : State) (run : Running) (r : Record) (res : EndResult) :
    endedCurrent s run.slot r res run.progress = endBody s run r res := rfl

/-- The reports of a freed record, before its slot is released. -/
def State.reportEnd (s : State) (r : Record) (b : EndedBody) : State :=
  match r.tag with
  | none => if r.report then s.noticed (.ended b) else s
  | some t => (if r.report then s.noticed (.ended b) else s).withDone t b.result (.action b)

theorem freed_eq_release (s : State) (i : SlotNo) (r : Record) (b : EndedBody) :
    s.freed i r b = (s.reportEnd r b).releaseSlot i := by
  unfold State.freed State.reportEnd
  cases r.tag <;> rfl

/-- The freeing of a record with its report composed (R19). -/
theorem freeWith_eq_freed (s : State) (i : SlotNo) (r : Record) (b : EndedBody) : s.freeWith i r b = s.freed i r b := by
  unfold State.freeWith State.freed
  simp only [handOrdinary_eq_noticed]
  cases r.tag with
  | none => rfl
  | some t => simp only [completeTag_eq_withDone]; rfl

theorem freeUnstarted_eq_freed {s : State} {i : SlotNo} {r : Record} (h : s.record i = some r) (res : EndResult) :
    s.freeUnstarted res i = s.freed i r (unstartedBody s i r res) := by
  unfold State.freeUnstarted
  rw [h, ← freeWith_eq_freed]
  rfl

theorem freeCurrent_eq_freed {s : State} {run : Running} {r : Record} (h : s.record run.slot = some r) (res : EndResult) :
    s.freeCurrent res run = s.freed run.slot r (endBody s run r res) := by
  unfold State.freeCurrent
  rw [h, ← freeWith_eq_freed]
  rfl

theorem reportEnd_addsReports (s : State) (r : Record) (b : EndedBody) : s.AddsReports (s.reportEnd r b) := by
  have h0 : s.AddsReports (if r.report then s.noticed (.ended b) else s) := by
    split
    · exact noticed_addsReports _ _
    · exact State.AddsReports.refl _
  unfold State.reportEnd
  split
  · exact h0
  · exact h0.trans (withDone_addsReports _ _ _ _)

/-- The state with the slot FREE at the tail of the free list and its generation advanced, no report made (R17, R19 step 4). -/
def State.slotFreed (s : State) (i : SlotNo) : State :=
  { s with slots := setAt s.slots i { gen := if (s.slot i).gen < 255 then (s.slot i).gen + 1 else 1, record := none }
           freeList := s.freeList ++ [i] }

/-- A freeing changes the slot, the free list and the reports, and nothing else (R19). -/
theorem freed_addsReports (s : State) (i : SlotNo) (r : Record) (b : EndedBody) :
    (s.slotFreed i).AddsReports (s.freed i r b) := by
  obtain ⟨a1, a2, a3, a4⟩ := reportEnd_addsReports s r b
  rw [freed_eq_release]
  generalize s.reportEnd r b = u at *
  refine ⟨?_, a2, a3, a4⟩
  rw [a1]
  rfl

section Frame

variable (s : State) (i : SlotNo) (r : Record) (b : EndedBody)

@[simp] theorem freed_plans : (s.freed i r b).plans = s.plans := by rw [(freed_addsReports s i r b).same]; rfl
@[simp] theorem freed_engines : (s.freed i r b).engines = s.engines := by rw [(freed_addsReports s i r b).same]; rfl
@[simp] theorem freed_group : (s.freed i r b).group = s.group := by rw [(freed_addsReports s i r b).same]; rfl
@[simp] theorem freed_deviceTime : (s.freed i r b).deviceTime = s.deviceTime := by
  rw [(freed_addsReports s i r b).same]; rfl
@[simp] theorem freed_inReset : (s.freed i r b).inReset = s.inReset := by rw [(freed_addsReports s i r b).same]; rfl
@[simp] theorem freed_latch : (s.freed i r b).latch = s.latch := by rw [(freed_addsReports s i r b).same]; rfl
@[simp] theorem freed_freeList : (s.freed i r b).freeList = s.freeList ++ [i] := by
  rw [(freed_addsReports s i r b).same]; rfl
@[simp] theorem freed_plan (ch : Channel) : (s.freed i r b).plan ch = s.plan ch := by simp [State.plan]
@[simp] theorem freed_engine (ch : Channel) : (s.freed i r b).engine ch = s.engine ch := by simp [State.engine]

theorem freed_slot (j : SlotNo) : (s.freed i r b).slot j =
    if j = i then { gen := if (s.slot i).gen < 255 then (s.slot i).gen + 1 else 1, record := none } else s.slot j := by
  rw [(freed_addsReports s i r b).same]
  exact getAt_setAt _ _ _ _

@[simp] theorem freed_record_self : (s.freed i r b).record i = none := by simp [State.record, freed_slot]

variable {i}

theorem freed_record_ne {j : SlotNo} (h : j ≠ i) : (s.freed i r b).record j = s.record j := by
  simp [State.record, freed_slot, h]

theorem freed_handle_ne {j : SlotNo} (h : j ≠ i) : (s.freed i r b).handle j = s.handle j := by
  simp [State.handle, freed_slot, h]

end Frame

/-! ### Freeing past other changes -/

/-- The pool and the reports of `s` in the rest of `o`. -/
def State.within (s o : State) : State :=
  { o with slots := s.slots, freeList := s.freeList, tagsOpen := s.tagsOpen, tagsWaiting := s.tagsWaiting,
           notices := s.notices, nextNumber := s.nextNumber, lossCount := s.lossCount }

theorem noticed_within (s o : State) (b : NoticeBody) : (s.within o).noticed b = (s.noticed b).within o := by
  unfold State.noticed
  have e : (s.within o).notices = s.notices := rfl
  rw [e]
  split <;> rfl

theorem withDone_within (s o : State) (g : Nat) (res : EndResult) (b : DoneBody) :
    (s.within o).withDone g res b = (s.withDone g res b).within o := by
  unfold State.withDone
  have e1 : (s.within o).TagOpen g = s.TagOpen g := rfl
  have e2 : (s.within o).notices = s.notices := rfl
  have e3 : (s.within o).tagsWaiting = s.tagsWaiting := rfl
  have e4 : (s.within o).tagsOpen = s.tagsOpen := rfl
  dsimp only
  simp only [e1, e2, e3, e4]
  split
  · rfl
  · split <;> rfl

theorem freed_within (s o : State) (i : SlotNo) (r : Record) (b : EndedBody) :
    (s.within o).freed i r b = (s.freed i r b).within o := by
  unfold State.freed
  have e : (if r.report then (s.within o).noticed (.ended b) else s.within o)
      = (if r.report then s.noticed (.ended b) else s).within o := by
    split
    · exact noticed_within s o _
    · rfl
  cases r.tag with
  | none => simp only [e]; rfl
  | some t => simp only [e, withDone_within]; rfl

/-- A freeing in the state with other plans. -/
theorem freed_withPlans (s : State) (P : Vector Plan 8) (i : SlotNo) (r : Record) (b : EndedBody) :
    State.freed { s with plans := P } i r b = { s.freed i r b with plans := P } := by
  have h := freed_within s { s with plans := P } i r b
  have hs := (freed_addsReports s i r b).same
  rw [show State.freed { s with plans := P } i r b = (s.freed i r b).within { s with plans := P } from h, hs]
  rfl

/-- A freeing in the state with other engines. -/
theorem freed_withEngines (s : State) (E : Vector Engine 8) (i : SlotNo) (r : Record) (b : EndedBody) :
    State.freed { s with engines := E } i r b = { s.freed i r b with engines := E } := by
  have h := freed_within s { s with engines := E } i r b
  have hs := (freed_addsReports s i r b).same
  rw [show State.freed { s with engines := E } i r b = (s.freed i r b).within { s with engines := E } from h, hs]
  rfl

/-- A freeing in the state with another group. -/
theorem freed_withGroup (s : State) (g : Option Group) (i : SlotNo) (r : Record) (b : EndedBody) :
    State.freed { s with group := g } i r b = { s.freed i r b with group := g } := by
  have h := freed_within s { s with group := g } i r b
  have hs := (freed_addsReports s i r b).same
  rw [show State.freed { s with group := g } i r b = (s.freed i r b).within { s with group := g } from h, hs]
  rfl

theorem setAt_comm {α : Type} {n : Nat} (v : Vector α n) {i j : Fin n} (h : i ≠ j) (x y : α) :
    setAt (setAt v i x) j y = setAt (setAt v j y) i x := by
  apply table_ext; intro k; simp only [getAt_setAt]
  by_cases h1 : k = i <;> by_cases h2 : k = j <;> simp_all

theorem noticed_setRecord (s : State) (j : SlotNo) (q : Record) (b : NoticeBody) :
    (s.setRecord j q).noticed b = (s.noticed b).setRecord j q := by
  unfold State.noticed
  by_cases h : s.notices.length < 32
  · have h' : (s.setRecord j q).notices.length < 32 := h
    rw [if_pos h, if_pos h']; rfl
  · have h' : ¬ (s.setRecord j q).notices.length < 32 := h
    rw [if_neg h, if_neg h']; rfl

theorem withDone_setRecord (s : State) (j : SlotNo) (q : Record) (g : Nat) (res : EndResult) (b : DoneBody) :
    (s.setRecord j q).withDone g res b = (s.withDone g res b).setRecord j q := by
  unfold State.withDone
  dsimp only
  by_cases h : s.TagOpen g
  · have h' : (s.setRecord j q).TagOpen g := h
    rw [if_neg (not_not_intro h), if_neg (not_not_intro h')]
    by_cases k : s.tagsWaiting = [] ∧ s.notices.length < 32
    · have k' : (s.setRecord j q).tagsWaiting = [] ∧ (s.setRecord j q).notices.length < 32 := k
      rw [if_pos k, if_pos k']; rfl
    · have k' : ¬ ((s.setRecord j q).tagsWaiting = [] ∧ (s.setRecord j q).notices.length < 32) := k
      rw [if_neg k, if_neg k']; rfl
  · have h' : ¬ (s.setRecord j q).TagOpen g := h
    rw [if_pos h, if_pos h']

/-- A freeing in the state with another record in another slot. -/
theorem freed_setRecord (s : State) {i j : SlotNo} (hj : j ≠ i) (q r : Record) (b : EndedBody) :
    (s.setRecord j q).freed i r b = (s.freed i r b).setRecord j q := by
  have e : (s.setRecord j q).reportEnd r b = (s.reportEnd r b).setRecord j q := by
    have e0 : (if r.report then (s.setRecord j q).noticed (.ended b) else s.setRecord j q)
        = (if r.report then s.noticed (.ended b) else s).setRecord j q := by
      split
      · exact noticed_setRecord s j q _
      · rfl
    unfold State.reportEnd
    cases r.tag with
    | none => exact e0
    | some g => simp only [e0, withDone_setRecord]
  rw [freed_eq_release, freed_eq_release, e]
  generalize s.reportEnd r b = u
  unfold State.releaseSlot State.setRecord
  congr 1
  simp only [State.slot]
  rw [getAt_setAt_of_ne _ _ (Ne.symm hj), getAt_setAt_of_ne _ _ hj, setAt_comm _ hj]

/-! ### The watch (R125, R126) -/

theorem quiet_iff (s : State) (ch : Channel) : s.quiet ch = true ↔ s.Quiet ch := by
  unfold State.quiet State.Quiet State.stagedOn
  cases hst : (s.engine ch).state <;> simp <;> cases hg : s.group <;> simp [Option.any_eq_true]

theorem maskQuiet_iff (s : State) (mask : Byte) :
    s.maskQuiet mask = true ↔ ∀ ch : Channel, mask.getLsbD ch.val = true → s.Quiet ch := by
  unfold State.maskQuiet selects
  simp only [List.all_eq_true, Bool.or_eq_true, Bool.not_eq_true', quiet_iff]
  constructor
  · intro h ch hm
    rcases h ch (mem_allChannels ch) with h | h
    · rw [hm] at h; cases h
    · exact h
  · intro h ch _
    cases hm : mask.getLsbD ch.val
    · exact .inl rfl
    · exact .inr (h ch hm)

/-- Two masks have a channel in common. -/
theorem and_ne_zero_iff (a b : Byte) :
    a &&& b ≠ 0 ↔ ∃ ch : Channel, b.getLsbD ch.val = true ∧ a.getLsbD ch.val = true := by
  constructor
  · intro h
    by_contra hn
    apply h
    apply BitVec.eq_of_getLsbD_eq
    intro i hi
    have := fun hb ha => hn ⟨⟨i, hi⟩, hb, ha⟩
    simp only [BitVec.getLsbD_and, BitVec.ofNat_eq_ofNat, BitVec.getLsbD_zero]
    cases ha : a.getLsbD i <;> cases hb : b.getLsbD i <;> simp_all
  · rintro ⟨ch, hb, ha⟩ h
    have h1 : (a &&& b).getLsbD ch.val = true := by rw [BitVec.getLsbD_and, ha, hb]; rfl
    rw [h] at h1
    simp at h1

theorem maskOf_bit (ch c : Channel) : (maskOf ch).getLsbD c.val = decide (c = ch) := by
  revert ch c; decide

/-- A mask names exactly these channels. -/
def Names (m : Byte) (chs : List Channel) : Prop := ∀ c : Channel, m.getLsbD c.val = true ↔ c ∈ chs

theorem names_maskOf (ch : Channel) : Names (maskOf ch) [ch] := by
  intro c; rw [maskOf_bit]; simp

theorem watchEntries_eq {touched : Byte} {chs : List Channel} (h : Names touched chs) : ∀ (es : List OpenTag) (s : State),
    watchEntries touched es s = waitsEnded chs es s
  | [], s => rfl
  | e :: es, s => by
    unfold watchEntries waitsEnded
    cases e.subject with
    | idleWait mask =>
      have h1 : mask &&& touched ≠ 0 ↔ ∃ ch ∈ chs, mask.getLsbD ch.val = true := by
        rw [and_ne_zero_iff]
        exact exists_congr fun ch => and_congr_left' (h ch)
      simp only [h1, maskQuiet_iff, completeTag_eq_withDone, watchEntries_eq h es]
    | action => exact watchEntries_eq h es s
    | sync => exact watchEntries_eq h es s
    | snapshot => exact watchEntries_eq h es s

/-- The watch after an event that has freed a record (R125). -/
theorem watch_grown {touched : Byte} {chs : List Channel} (h : Names touched chs) {s t : State}
    (hl : s.freeList.length < t.freeList.length) : watch touched s t = t.watched chs := by
  unfold watch State.watched
  rw [if_pos hl, watchEntries_eq h]

/-- The watch after an event that has freed nothing. -/
theorem watch_none (m : Byte) {s t : State} (h : ¬ s.freeList.length < t.freeList.length) : watch m s t = t := by
  simp [watch, h]

/-- The watch of no channel changes nothing. -/
theorem watched_nil (s : State) : s.watched [] = s := by
  unfold State.watched
  generalize s.tagsOpen = es
  induction es with
  | nil => rfl
  | cons e es ih =>
    unfold waitsEnded
    cases e.subject <;> simp [ih]

theorem waitsEnded_addsReports (chs : List Channel) : ∀ (es : List OpenTag) (s : State), s.AddsReports (waitsEnded chs es s)
  | [], s => State.AddsReports.refl s
  | e :: es, s => by
    unfold waitsEnded
    split
    · split
      · exact (withDone_addsReports _ _ _ _).trans (waitsEnded_addsReports chs es _)
      · exact waitsEnded_addsReports chs es s
    all_goals exact waitsEnded_addsReports chs es s

/-- The watch only completes IDLE_WAIT entries (R126). -/
theorem watched_addsReports (s : State) (chs : List Channel) : s.AddsReports (s.watched chs) :=
  waitsEnded_addsReports chs _ s

theorem watchEntries_addsReports (touched : Byte) : ∀ (es : List OpenTag) (s : State),
    s.AddsReports (watchEntries touched es s)
  | [], s => State.AddsReports.refl s
  | e :: es, s => by
    unfold watchEntries
    split
    · split
      · exact (completeTag_addsReports _ _ _ _).trans (watchEntries_addsReports touched es _)
      · exact watchEntries_addsReports touched es s
    all_goals exact watchEntries_addsReports touched es s

theorem watch_addsReports (touched : Byte) (before after : State) : after.AddsReports (watch touched before after) := by
  unfold watch
  split
  · exact watchEntries_addsReports _ _ _
  · exact State.AddsReports.refl _

/-- Reports leave every channel as quiet as it was. -/
theorem quiet_addsReports {s t : State} (h : s.AddsReports t) (ch : Channel) : t.Quiet ch ↔ s.Quiet ch := by
  unfold State.Quiet
  rw [h.same]
  rfl

/-- The entry is a wait that the watch for these channels ends in this state (R125, R126). -/
def State.Ends (s : State) (chs : List Channel) (e : OpenTag) : Prop :=
  ∃ m, e.subject = .idleWait m ∧ (∃ ch ∈ chs, m.getLsbD ch.val = true) ∧
    ∀ ch : Channel, m.getLsbD ch.val = true → s.Quiet ch

theorem ends_addsReports {s t : State} (h : s.AddsReports t) (chs : List Channel) (e : OpenTag) :
    t.Ends chs e ↔ s.Ends chs e := by
  simp only [State.Ends, quiet_addsReports h]

theorem waitsEnded_cons (s : State) (chs : List Channel) (e : OpenTag) (es : List OpenTag) :
    (s.Ends chs e → ∃ m, waitsEnded chs (e :: es) s = waitsEnded chs es (s.withDone e.tag .idle (.idleWait m s.deviceTime))) ∧
    (¬ s.Ends chs e → waitsEnded chs (e :: es) s = waitsEnded chs es s) := by
  constructor
  · rintro ⟨m, hm, h⟩
    refine ⟨m, ?_⟩
    conv_lhs => unfold waitsEnded
    simp only [hm]
    rw [if_pos h]
  · intro hn
    conv_lhs => unfold waitsEnded
    split
    · rename_i m hm
      rw [if_neg]
      exact fun h => hn ⟨m, hm, h⟩
    all_goals rfl

/-- The entries that are still OPEN after the watch are entries that it does not end. -/
theorem waitsEnded_open (chs : List Channel) (s : State) : ∀ (es : List OpenTag) (t : State), s.AddsReports t →
    ∀ e ∈ (waitsEnded chs es t).tagsOpen, e ∈ t.tagsOpen ∧ (e ∈ es → ¬ s.Ends chs e)
  | [], _, _, e, he => ⟨he, by simp⟩
  | x :: es, t, ht, e, he => by
    obtain ⟨h1, h2⟩ := waitsEnded_cons t chs x es
    by_cases hx : t.Ends chs x
    · obtain ⟨m, h⟩ := h1 hx
      rw [h] at he
      have hd := withDone_addsReports t x.tag .idle (.idleWait m t.deviceTime)
      obtain ⟨a, b⟩ := waitsEnded_open chs s es _ (ht.trans hd) e he
      refine ⟨hd.opened.subset a, fun hm => ?_⟩
      rcases List.mem_cons.mp hm with rfl | hm
      · exact absurd rfl ((withDone_done t e.tag .idle _ ⟨e, hd.opened.subset a, rfl⟩).1 e a)
      · exact b hm
    · rw [h2 hx] at he
      obtain ⟨a, b⟩ := waitsEnded_open chs s es t ht e he
      refine ⟨a, fun hm => ?_⟩
      rcases List.mem_cons.mp hm with rfl | hm
      · exact fun h => hx ((ends_addsReports ht chs e).mpr h)
      · exact b hm

/-- The watch ends every wait it can and leaves none behind (R125). -/
theorem watched_open {s : State} {chs : List Channel} {e : OpenTag} (h : e ∈ (s.watched chs).tagsOpen) :
    e ∈ s.tagsOpen ∧ ¬ s.Ends chs e := by
  obtain ⟨a, b⟩ := waitsEnded_open chs s s.tagsOpen s (State.AddsReports.refl s) e h
  exact ⟨a, b a⟩

/-- Entries that the watch does not end change nothing. -/
theorem waitsEnded_none {chs : List Channel} {s : State} : ∀ {es : List OpenTag}, (∀ e ∈ es, ¬ s.Ends chs e) →
    waitsEnded chs es s = s
  | [], _ => rfl
  | e :: es, h => by
    rw [(waitsEnded_cons s chs e es).2 (h e (by simp))]
    exact waitsEnded_none fun x hx => h x (by simp [hx])

/-- A second watch for the same channels changes nothing. -/
theorem watched_watched (s : State) (chs : List Channel) : (s.watched chs).watched chs = s.watched chs :=
  waitsEnded_none fun _ he h => (watched_open he).2 ((ends_addsReports (watched_addsReports s chs) chs _).mp h)

/-- The watch depends on which channels are named, not on their order. -/
theorem watched_congr (s : State) {a b : List Channel} (h : ∀ c, c ∈ a ↔ c ∈ b) : s.watched a = s.watched b := by
  unfold State.watched
  generalize s.tagsOpen = es
  induction es generalizing s with
  | nil => rfl
  | cons e es ih =>
    unfold waitsEnded
    have hm : ∀ m : Byte, (∃ ch ∈ a, m.getLsbD ch.val = true) ↔ ∃ ch ∈ b, m.getLsbD ch.val = true :=
      fun m => exists_congr fun c => and_congr_left' (h c)
    simp only [hm, ih]

/-- The watch hands on no ordinary notice, so it loses none (R148). -/
theorem watched_lossCount (s : State) (chs : List Channel) : (s.watched chs).lossCount = s.lossCount := by
  unfold State.watched
  generalize s.tagsOpen = es
  induction es generalizing s with
  | nil => rfl
  | cons e es ih =>
    unfold waitsEnded
    split
    · split
      · rw [ih, withDone_lossCount]
      · exact ih s
    all_goals exact ih s

end Sys2Proof.Machine
end

