-- ==== Sys2Proof/Laws/Frame.lean ====
section
/-!
SUPPORT. What the work on actions can change: the pool, the plans, the engines, the group and the reports. Everything else
stands: device time, the settings, the latch, the link, the timers of the Notice Queue, the trigger inputs, the queue.
-/
namespace Sys2Proof.Machine

/-- `t` comes from `s` by work on actions: changes of the pool, the plans, the engines and the group, and, in between, notices handed
to the queue and completions of tags. A property that these three keep is kept by all work on actions. -/
inductive State.Works : State → State → Prop
  | work {s t : State} (h : t = { s with slots := t.slots, freeList := t.freeList, plans := t.plans, engines := t.engines,
                                         group := t.group }) : State.Works s t
  | hand (s : State) (b : NoticeBody) : State.Works s (s.handOrdinary b)
  | complete (s : State) (g : Nat) (res : EndResult) (b : DoneBody) : State.Works s (s.completeTag g res b)
  | trans {s t u : State} (h : State.Works s t) (k : State.Works t u) : State.Works s u

namespace State.Works

theorem refl (s : State) : s.Works s := .work rfl

/-- Work on actions changes nothing but the pool, the plans, the engines, the group, the tags and the queued notices. -/
theorem same {s t : State} (h : s.Works t) :
    t = { s with slots := t.slots, freeList := t.freeList, plans := t.plans, engines := t.engines, group := t.group,
                 tagsOpen := t.tagsOpen, tagsWaiting := t.tagsWaiting, notices := t.notices,
                 nextNumber := t.nextNumber, lossCount := t.lossCount } := by
  induction h with
  | work h => rw [h]
  | hand s b => rw [(handOrdinary_addsReports s b).same]
  | complete s g res b => rw [(completeTag_addsReports s g res b).same]
  | trans _ _ h k => rw [k, h]

theorem deviceTime {s t : State} (h : s.Works t) : t.deviceTime = s.deviceTime := by rw [h.same]
theorem pending {s t : State} (h : s.Works t) : t.pending = s.pending := by rw [h.same]
theorem inReset {s t : State} (h : s.Works t) : t.inReset = s.inReset := by rw [h.same]
theorem latch {s t : State} (h : s.Works t) : t.latch = s.latch := by rw [h.same]

end State.Works

open State.Works (refl trans)

theorem watchEntries_works (touched : Byte) : ∀ (es : List OpenTag) (s : State), s.Works (watchEntries touched es s)
  | [], s => refl s
  | e :: es, s => by
    unfold watchEntries
    split
    · split
      · exact (State.Works.complete _ _ _ _).trans (watchEntries_works touched es _)
      · exact watchEntries_works touched es s
    all_goals exact watchEntries_works touched es s

theorem reportEnd_works (s : State) (r : Record) (b : EndedBody) : s.Works (s.reportEnd r b) := by
  have h0 : s.Works (if r.report then s.noticed (.ended b) else s) := by
    split
    · rw [← handOrdinary_eq_noticed]; exact .hand _ _
    · exact refl _
  unfold State.reportEnd
  split
  · exact h0
  · rw [← completeTag_eq_withDone]; exact h0.trans (.complete _ _ _ _)

theorem modEngine_works (s : State) (ch : Channel) (f : Engine → Engine) : s.Works (s.modEngine ch f) := .work rfl
theorem modProgress_works (s : State) (ch : Channel) (f : Progress → Progress) : s.Works (s.modProgress ch f) := .work rfl
theorem modPlan_works (s : State) (ch : Channel) (f : Plan → Plan) : s.Works (s.modPlan ch f) := .work rfl
theorem setRecord_works (s : State) (i : SlotNo) (r : Record) : s.Works (s.setRecord i r) := .work rfl
theorem handEnd_works (s : State) (ch : Channel) : s.Works (s.handEnd ch) := .work rfl
theorem leavePlan_works (s : State) (ch : Channel) (i : SlotNo) : s.Works (s.leavePlan ch i) := .work rfl
theorem enterPlan_works (s : State) (ch : Channel) (i : SlotNo) : s.Works (s.enterPlan ch i) := .work rfl
theorem releaseSlot_works (s : State) (i : SlotNo) : s.Works (s.releaseSlot i) := .work rfl
theorem unstage_works (s : State) (i : SlotNo) : s.Works (s.unstage i) := .work rfl
theorem watch_works (m : Byte) (b s : State) : s.Works (watch m b s) := by
  unfold watch
  split
  · exact watchEntries_works _ _ _
  · exact refl s

theorem setRecState_works (s : State) (i : SlotNo) (st : RecState) : s.Works (s.setRecState i st) := by
  unfold State.setRecState
  split
  · exact refl s
  · exact setRecord_works _ _ _

theorem freeWith_works (s : State) (i : SlotNo) (r : Record) (b : EndedBody) : s.Works (s.freeWith i r b) := by
  rw [freeWith_eq_freed, freed_eq_release]
  exact (reportEnd_works s r b).trans (releaseSlot_works _ _)

theorem freeUnstarted_works (s : State) (res : EndResult) (i : SlotNo) : s.Works (s.freeUnstarted res i) := by
  unfold State.freeUnstarted
  split
  · exact refl s
  · exact freeWith_works _ _ _ _

theorem freeCurrent_works (s : State) (res : EndResult) (run : Running) : s.Works (s.freeCurrent res run) := by
  unfold State.freeCurrent
  split
  · exact refl s
  · exact freeWith_works _ _ _ _

/-- A fold of steps that each only work on actions only works on actions. -/
theorem foldl_works {α : Type} (f : State → α → State) (hf : ∀ (s : State) (a : α), s.Works (f s a)) :
    ∀ (l : List α) (s : State), s.Works (l.foldl f s)
  | [], s => refl s
  | a :: l, s => (hf s a).trans (foldl_works f hf l (f s a))

theorem freeAll_works (s : State) (res : EndResult) (is : List SlotNo) : s.Works (s.freeAll res is) :=
  foldl_works _ (fun s i => freeUnstarted_works s res i) is s

theorem startAction_works (s : State) (ch : Channel) (i : SlotNo) (r : Record) : s.Works (s.startAction ch i r) := .work rfl

theorem applySet_works (s : State) (ch : Channel) (i : SlotNo) (r : Record) (l : Bool) : s.Works (s.applySet ch i r l) :=
  (modEngine_works s ch _).trans (freeWith_works _ _ _ _)

theorem endNaturally_works (s : State) (ch : Channel) (res : EndResult) : s.Works (s.endNaturally ch res) := by
  unfold State.endNaturally
  split
  · exact refl s
  · exact ((modEngine_works s ch _).trans (freeCurrent_works _ _ _)).trans (handEnd_works _ _)

theorem cancelCurrent_works (s : State) (ch : Channel) : s.Works (s.cancelCurrent ch) := by
  unfold State.cancelCurrent
  split
  · exact refl s
  · exact ((modEngine_works s ch _).trans (freeCurrent_works _ _ _)).trans (handEnd_works _ _)

theorem preemptCurrent_works (s : State) (ch : Channel) : s.Works (s.preemptCurrent ch) := by
  unfold State.preemptCurrent
  split
  · exact refl s
  · exact (modEngine_works s ch _).trans (freeCurrent_works _ _ _)

theorem startHead_works (s : State) (ch : Channel) (i : SlotNo) (r : Record) : s.Works (s.startHead ch i r) := by
  unfold State.startHead
  split
  · exact (leavePlan_works _ _ _).trans (applySet_works _ _ _ _ _)
  all_goals exact (leavePlan_works _ _ _).trans (startAction_works _ _ _ _)

theorem dropHead_works (s : State) (ch : Channel) (i : SlotNo) (res : EndResult) : s.Works (s.dropHead ch i res) :=
  (leavePlan_works _ _ _).trans (freeUnstarted_works _ _ _)

theorem settleList_works (ch : Channel) : ∀ (l : List SlotNo) (s : State), s.Works (settleList ch l s)
  | [], s => refl s
  | i :: l, s => by
    unfold settleList
    split
    · exact refl s
    · split
      · split
        · exact (dropHead_works _ _ _ _).trans (settleList_works ch l _)
        · exact (startHead_works _ _ _ _).trans (settleList_works ch l _)
        · exact ((preemptCurrent_works _ _).trans (startHead_works _ _ _ _)).trans (settleList_works ch l _)
        · exact (dropHead_works _ _ _ _).trans (settleList_works ch l _)
        · exact setRecState_works _ _ _
        · exact refl s
      · exact refl s

theorem checkHead_works (s : State) (ch : Channel) : s.Works (s.checkHead ch) := settleList_works ch _ s

theorem checkHeadAtEnd_works (s : State) (ch : Channel) : s.Works (s.checkHeadAtEnd ch) := by
  unfold State.checkHeadAtEnd
  split
  · exact refl s
  · split
    · exact refl s
    · split
      · split
        · exact (dropHead_works _ _ _ _).trans (checkHead_works _ _)
        · exact (startHead_works _ _ _ _).trans (checkHead_works _ _)
        all_goals exact refl s
      · exact checkHead_works s ch

theorem missAfterSafed_works (s : State) (ch : Channel) : s.Works (s.missAfterSafed ch) := by
  unfold State.missAfterSafed
  split
  · exact checkHeadAtEnd_works s ch
  · exact refl s

theorem settingAtEngine_works (s : State) (ch : Channel) : s.Works (s.settingAtEngine ch) := by
  unfold State.settingAtEngine
  split
  · exact refl s
  · exact refl s
  all_goals
    dsimp only
    split
    · exact modEngine_works _ _ _
    · exact ((modEngine_works _ _ _).trans (freeCurrent_works _ _ _)).trans (missAfterSafed_works _ _)

theorem missDueList_works (ch : Channel) : ∀ (l : List SlotNo) (s : State), s.Works (missDueList ch l s)
  | [], s => refl s
  | i :: l, s => by
    unfold missDueList
    split
    · exact refl s
    · split
      · exact (dropHead_works _ _ _ _).trans (missDueList_works ch l _)
      · exact refl s

theorem skipSpan_works (s : State) (ch : Channel) (t1 : Time) : s.Works (s.skipSpan ch t1) := by
  unfold State.skipSpan
  split
  · exact refl s
  · exact (foldl_works _ (fun s i => dropHead_works s ch i .missed) _ s).trans (checkHead_works _ _)

theorem cancelPlanned_works (s : State) (ch : Channel) (i : SlotNo) : s.Works (s.cancelPlanned ch i) := by
  unfold State.cancelPlanned
  dsimp only
  split
  · exact (dropHead_works _ _ _ _).trans (checkHead_works _ _)
  · exact dropHead_works _ _ _ _

theorem emptyPlan_works (s : State) (ch : Channel) : s.Works (s.emptyPlan ch) :=
  (modPlan_works _ _ _).trans (freeAll_works _ _ _)

theorem cancelAll_works (s : State) (ch : Channel) (c : Bool) : s.Works (s.cancelAll ch c) := by
  unfold State.cancelAll
  split
  · exact (emptyPlan_works _ _).trans (cancelCurrent_works _ _)
  · exact emptyPlan_works _ _

theorem cancelRecord_works (s : State) (i : SlotNo) (r : Record) : s.Works (s.cancelRecord i r) := by
  unfold State.cancelRecord
  split
  · exact (unstage_works _ _).trans (freeUnstarted_works _ _ _)
  · exact cancelPlanned_works _ _ _
  · exact cancelPlanned_works _ _ _
  · exact cancelCurrent_works _ _

/-! ### Events of the plans -/

theorem takeEnd_works (s : State) (ch : Channel) : s.Works (s.takeEnd ch) := by
  unfold State.takeEnd
  split
  · exact (modPlan_works _ _ _).trans (checkHeadAtEnd_works _ _)
  · exact refl s

theorem takeLoad_works (s : State) (ch : Channel) : s.Works (s.takeLoad ch) := by
  unfold State.takeLoad
  split
  · exact refl s
  · exact (modPlan_works _ _ _).trans (skipSpan_works _ _ _)

theorem dueAtPlan_works (s : State) (ch : Channel) : s.Works (s.dueAtPlan ch) :=
  (checkHead_works s ch).trans (watch_works _ _ _)

theorem dueBeforeLoad_works (s : State) (ch : Channel) : s.Works (s.dueBeforeLoad ch) := by
  unfold State.dueBeforeLoad
  split
  · exact refl s
  · exact dueAtPlan_works s ch

theorem takeSettingAtPlan_works (s : State) (ch : Channel) : s.Works (s.takeSettingAtPlan ch) := by
  unfold State.takeSettingAtPlan
  split
  · exact (modPlan_works _ _ _).trans (missDueList_works _ _ _)
  · exact refl s

theorem loadAtPlan_works (s : State) (ch : Channel) : s.Works (s.loadAtPlan ch) :=
  ((dueBeforeLoad_works s ch).trans (takeLoad_works _ ch)).trans (watch_works _ _ _)

theorem settingAtPlan_works (s : State) (ch : Channel) : s.Works (s.settingAtPlan ch) :=
  (takeSettingAtPlan_works s ch).trans (watch_works _ _ _)

theorem takeOpenLoads_works (ch : Channel) : ∀ (n : Nat) (s : State), s.Works (takeOpenLoads ch n s)
  | 0, s => refl s
  | n + 1, s => by
    unfold takeOpenLoads
    split
    · exact refl s
    · exact (loadAtPlan_works s ch).trans (takeOpenLoads_works ch n _)

theorem takeSettings_works (ch : Channel) : ∀ (n : Nat) (s : State), s.Works (takeSettings ch n s)
  | 0, s => refl s
  | n + 1, s => (settingAtPlan_works s ch).trans (takeSettings_works ch n _)

theorem takePassed_works (s : State) (ch : Channel) : s.Works (s.takePassed ch) := by
  unfold State.takePassed
  split
  · exact dueAtPlan_works s ch
  · exact refl s

theorem settlePlan_works (s : State) (ch : Channel) : s.Works (s.settlePlan ch) :=
  ((takeOpenLoads_works ch _ s).trans (takeSettings_works ch _ _)).trans (takePassed_works _ ch)

theorem settlePlans_works (s : State) : s.Works s.settlePlans := foldl_works _ settlePlan_works allChannels s

/-! ### Events of the engines -/

theorem setChanState_works (s : State) (ch : Channel) (st : ChanState) : s.Works (s.setChanState ch st) := .work rfl
theorem enterActive_works (s : State) (ch : Channel) (ph : Phase) (n : Nat) : s.Works (s.enterActive ch ph n) := .work rfl
theorem enterRest_works (s : State) (ch : Channel) (n : Nat) : s.Works (s.enterRest ch n) := .work rfl
theorem takeWindow_works (s : State) (ch : Channel) : s.Works (s.takeWindow ch) := .work rfl
theorem completeFiring_works (s : State) (ch : Channel) : s.Works (s.completeFiring ch) := .work rfl
theorem overrun_works (s : State) (ch : Channel) : s.Works (s.overrun ch) := .work rfl
theorem strayEdge_works (s : State) (ch : Channel) : s.Works (s.strayEdge ch) := .work rfl

theorem beginFiring_works (s : State) (ch : Channel) (w d : Nat) : s.Works (s.beginFiring ch w d) := by
  unfold State.beginFiring
  dsimp only
  split <;> exact .work rfl

theorem dropHeldEdge_works (s : State) (ch : Channel) : s.Works (s.dropHeldEdge ch) := by
  unfold State.dropHeldEdge
  split <;> exact .work rfl

theorem pulseExpiry_works (s : State) (ch : Channel) : s.Works (s.pulseExpiry ch) := by
  unfold State.pulseExpiry
  split
  · split
    · exact endNaturally_works _ _ _
    · exact refl s
  · exact refl s

theorem trainExpiry_works (s : State) (ch : Channel) : s.Works (s.trainExpiry ch) := by
  unfold State.trainExpiry
  split
  · split
    · split
      · exact enterRest_works _ _ _
      · split
        · exact endNaturally_works _ _ _
        · exact enterActive_works _ _ _ _
      all_goals exact refl s
    · exact refl s
  · exact refl s

theorem squareExpiry_works (s : State) (ch : Channel) : s.Works (s.squareExpiry ch) := by
  unfold State.squareExpiry
  split
  · split
    · split
      · exact enterRest_works _ _ _
      · exact enterActive_works _ _ _ _
      all_goals exact refl s
    · exact refl s
  · exact refl s

theorem delayExpiry_works (s : State) (ch : Channel) : s.Works (s.delayExpiry ch) := by
  unfold State.delayExpiry
  split
  · split
    · exact enterActive_works _ _ _ _
    · exact refl s
  · exact refl s

theorem afterFiring_works (s : State) (ch : Channel) (w n d k : Nat) (x : Bool) :
    s.Works (s.afterFiring ch w n d k x) := by
  unfold State.afterFiring
  split
  · exact (dropHeldEdge_works _ _).trans (endNaturally_works _ _ _)
  · split
    · exact (dropHeldEdge_works _ _).trans (endNaturally_works _ _ _)
    · split
      · exact (modEngine_works _ _ _).trans (beginFiring_works _ _ _ _)
      · exact .work rfl

theorem pulseEnd_works (s : State) (ch : Channel) : s.Works (s.pulseEnd ch) := by
  unfold State.pulseEnd
  split
  · split
    · exact (completeFiring_works _ _).trans (afterFiring_works _ _ _ _ _ _ _)
    · exact refl s
  · exact refl s

theorem armedWindow_works (s : State) (ch : Channel) : s.Works (s.armedWindow ch) := by
  unfold State.armedWindow
  split
  · split
    · split
      · exact (takeWindow_works _ _).trans (endNaturally_works _ _ _)
      · exact takeWindow_works _ _
    · exact refl s
  · exact refl s

theorem countWindow_works (s : State) (ch : Channel) : s.Works (s.countWindow ch) := by
  unfold State.countWindow
  split
  · split
    · split
      · exact (takeWindow_works _ _).trans (endNaturally_works _ _ _)
      · exact takeWindow_works _ _
    · exact refl s
  · exact refl s

theorem strobeExpiry_works (s : State) (ch : Channel) : s.Works (s.strobeExpiry ch) := by
  unfold State.strobeExpiry
  split
  · split
    · exact endNaturally_works _ _ _
    · exact refl s
  · exact refl s

theorem retrigger_works (s : State) (ch : Channel) (w : Nat) (ph : Phase) (m : RetrigMode) :
    s.Works (s.retrigger ch w ph m) := by
  unfold State.retrigger
  split
  · exact overrun_works _ _
  · split
    · exact modProgress_works _ _ _
    · exact overrun_works _ _
  · split
    · exact overrun_works _ _
    · exact modEngine_works _ _ _

theorem countEdge_works (s : State) (ch : Channel) (w n k : Nat) : s.Works (s.countEdge ch w n k) := by
  unfold State.countEdge
  dsimp only
  split <;> exact .work rfl

theorem edgeToAction_works (s : State) (ch : Channel) : s.Works (s.edgeToAction ch) := by
  unfold State.edgeToAction
  split
  · split
    · exact beginFiring_works _ _ _ _
    · exact retrigger_works _ _ _ _ _
  · split
    · exact countEdge_works _ _ _ _ _
    · exact overrun_works _ _
  · exact refl s

theorem takeEdge_works (s : State) (ch : Channel) : s.Works (s.takeEdge ch) := by
  unfold State.takeEdge
  split
  all_goals first | exact strayEdge_works _ _ | exact edgeToAction_works _ _

/-- Taking a latch event at an engine works on actions when what it does there works on actions. -/
theorem takeSafeEvent_works (s : State) (ch : Channel) (ev : SafeEvent) (f : State → State) (hf : ∀ s : State, s.Works (f s)) :
    s.Works (s.takeSafeEvent ch ev f) := by
  unfold State.takeSafeEvent
  split
  · exact refl s
  · split
    · exact (modEngine_works _ _ _).trans (hf _)
    · exact refl s

theorem releaseAtEngine_works (s : State) (ch : Channel) : s.Works (s.releaseAtEngine ch) := by
  unfold State.releaseAtEngine
  split
  · exact ((takePassed_works s ch).trans (modEngine_works _ _ _)).trans (dueAtPlan_works _ ch)
  · exact refl s

/-! ### The group -/

theorem discardGroup_works (s : State) (g : Group) : s.Works (s.discardGroup g) :=
  (freeAll_works s .discarded g.staging).trans (.work rfl)

theorem expireGroup_works (s : State) (g : Group) (c : GroupCause) : s.Works (s.expireGroup g c) :=
  (discardGroup_works s g).trans (.hand _ _)

theorem commitRecord_works (s : State) (i : SlotNo) : s.Works (s.commitRecord i) := by
  unfold State.commitRecord
  split
  · exact refl s
  · exact (setRecord_works _ _ _).trans (enterPlan_works _ _ _)

theorem commitGroup_works (s : State) (g : Group) : s.Works (s.commitGroup g) :=
  (foldl_works _ commitRecord_works g.staging s).trans (.work rfl)

end Sys2Proof.Machine
end

