-- ==== Sys2Proof/Laws/Requests.lean ====
section
/-!
SUPPORT. The wrapper of a command, and the taking of a request: what it answers when the request is carried out, when its
length is wrong, and when the head is no request of the command.
-/
namespace Sys2Proof.Machine

theorem whileRunning_running (f : State → State) {s : State} (h : s.inReset = false) : whileRunning f s = .next (f s) := by
  simp [whileRunning, h]

theorem whileRunning_held (f : State → State) {s : State} (h : s.inReset = true) : whileRunning f s = .next s := by
  simp [whileRunning, h]

/-- A wrapped command answers a next state. -/
theorem whileRunning_next (f : State → State) (s : State) : ∃ t, whileRunning f s = .next t ∧ (t = s ∨ t = f s) := by
  cases h : s.inReset
  · exact ⟨_, whileRunning_running f h, .inr rfl⟩
  · exact ⟨_, whileRunning_held f h, .inl rfl⟩

/-- A request that is carried out is not answered by the cache. -/
theorem cached_of_carries {s : State} {rq : Request} {rest : List Request} (h : s.Carries rq rest) :
    s.cached rq = none := by
  unfold State.cached
  rcases h.fresh with h0 | h1
  · simp [h0]
  · split
    · rfl
    · simpa [List.find?_eq_none] using h1

/-- The reply to a request and its cache entry (R171, R172). -/
theorem answer_eq_withReply (s : State) (rq : Request) (resp : Response) :
    s.answer rq resp = s.withReply rq resp.1 resp.2 := by
  simp only [State.answer, State.withReply, cachePush, Config.linkCap]
  by_cases h : s.cache.length < 4
  · have : ¬ 4 ≤ s.cache.length := by omega
    simp [h, this]
  · have : 4 ≤ s.cache.length := by omega
    simp [h, this, List.drop_one]

/-- The head is taken by a command that accepts it. -/
theorem takeHead_of_carries {s : State} {rq : Request} {rest : List Request} (h : s.Carries rq rest)
    {p : Request → Bool} (hp : p rq = true) (f : State → Request → State) :
    s.takeHead p f = f { s with rxQueue := rest } rq := by
  simp [State.takeHead, h.head, hp, h.room, Config.linkCap]

/-- A request of the command's kind and length is handed to its owner and answered. -/
theorem takeRequest_of_carries {s : State} {rq : Request} {rest : List Request} (h : s.Carries rq rest) {k : Byte}
    {len : Nat} (hk : rq.kind = k) (hl : rq.fields.length + 3 = len) (f : List Byte → State → Response × State) :
    s.takeRequest k len f
      = (f rq.fields { s with rxQueue := rest }).2.withReply rq (f rq.fields { s with rxQueue := rest }).1.1
          (f rq.fields { s with rxQueue := rest }).1.2 := by
  unfold State.takeRequest
  rw [takeHead_of_carries h (by simp [State.isKind, hk, cached_of_carries h])]
  simp [carryOut, hl, answer_eq_withReply]

/-- A request of the command's kind and another length is answered BAD_LENGTH and changes nothing else (R177). -/
theorem takeRequest_badLength {s : State} {rq : Request} {rest : List Request} (h : s.Carries rq rest) {k : Byte}
    {len : Nat} (hk : rq.kind = k) (hl : rq.fields.length + 3 ≠ len) (f : List Byte → State → Response × State) :
    s.takeRequest k len f = { s with rxQueue := rest }.withReply rq .badLength [] := by
  unfold State.takeRequest
  rw [takeHead_of_carries h (by simp [State.isKind, hk, cached_of_carries h])]
  simp [carryOut, hl, answer_eq_withReply, bare]

/-- A request command on a request of its kind and length that is carried out: the owner's answer on the queue's rest, with the
reply appended (R171 step 4). -/
theorem request_next {s : State} {rq : Request} {rest : List Request} (h : s.Carries rq rest) {k : Byte} {len : Nat}
    (hk : rq.kind = k) (hl : rq.fields.length + 3 = len) (f : List Byte → State → Response × State) :
    whileRunning (fun s => s.takeRequest k len f) s
      = .next ((f rq.fields { s with rxQueue := rest }).2.withReply rq (f rq.fields { s with rxQueue := rest }).1.1
          (f rq.fields { s with rxQueue := rest }).1.2) := by
  rw [whileRunning_running _ h.running, takeRequest_of_carries h hk hl]

/-- A request command on a request of its kind and another length (R171 step 3, R177). -/
theorem request_badLength {s : State} {rq : Request} {rest : List Request} (h : s.Carries rq rest) {k : Byte} {len : Nat}
    (hk : rq.kind = k) (hl : rq.fields.length + 3 ≠ len) (f : List Byte → State → Response × State) :
    whileRunning (fun s => s.takeRequest k len f) s
      = .next (State.withReply { s with rxQueue := rest } rq .badLength []) := by
  rw [whileRunning_running _ h.running, takeRequest_badLength h hk hl]

/-! ### Fields -/

theorem leBytes_length : ∀ (k n : Nat), (leBytes k n).length = k
  | 0, _ => rfl
  | k + 1, n => by simp [leBytes, leBytes_length k]

/-- A number written in enough bytes is read back (00_scope.md, "Byte order"). -/
theorem leNat_leBytes : ∀ (k n : Nat), n < 256 ^ k → leNat (leBytes k n) = n
  | 0, n, h => by simp at h; simp [leBytes, leNat, h]
  | k + 1, n, h => by
    have h1 : n / 256 < 256 ^ k := by
      rw [Nat.div_lt_iff_lt_mul (by decide)]
      rw [Nat.pow_succ] at h
      exact h
    simp only [leBytes, leNat, leNat_leBytes k _ h1, BitVec.toNat_ofNat]
    omega

/-- A field that stands behind `off` bytes is read back. -/
theorem field_leBytes {front back : List Byte} {off k n : Nat} (hf : front.length = off) (hn : n < 256 ^ k) :
    field (front ++ (leBytes k n ++ back)) off k = n := by
  subst hf
  simp [field, leBytes_length, leNat_leBytes k n hn]

end Sys2Proof.Machine
end

