-- ==== Sys2Proof/Laws/Freeing.lean ====
section
/-!
SUPPORT. The freeing of a list of records, each before the next (R19, R110): what stands after it, how it goes past other changes,
and the watch after it.
-/
namespace Sys2Proof.Machine

theorem freedAll_cons {s : State} {i : SlotNo} {r : Record} (h : s.record i = some r) (res : EndResult) (is : List SlotNo) :
    s.freedAll res (i :: is) = (s.freed i r (unstartedBody s i r res)).freedAll res is := by
  simp [State.freedAll, h]

theorem freedAll_cons_none {s : State} {i : SlotNo} (h : s.record i = none) (res : EndResult) (is : List SlotNo) :
    s.freedAll res (i :: is) = s.freedAll res is := by
  simp [State.freedAll, h]

theorem freedAll_append (s : State) (res : EndResult) (is js : List SlotNo) :
    s.freedAll res (is ++ js) = (s.freedAll res is).freedAll res js := by
  simp [State.freedAll]

/-- The freeing of a list (R19). -/
theorem freeAll_eq_freedAll (res : EndResult) : ∀ (is : List SlotNo) (s : State), s.freeAll res is = s.freedAll res is
  | [], _ => rfl
  | i :: is, s => by
    have e : s.freeAll res (i :: is) = (s.freeUnstarted res i).freeAll res is := rfl
    rw [e, freeAll_eq_freedAll res is]
    cases h : s.record i with
    | none => rw [freedAll_cons_none h]; simp [State.freeUnstarted, h]
    | some r => rw [freedAll_cons h, freeUnstarted_eq_freed h]

/-- A property that every freeing keeps is kept by the freeing of a list. -/
theorem freedAll_keeps {p : State → Prop} (res : EndResult) (hp : ∀ s i r b, p s → p (State.freed s i r b)) :
    ∀ (is : List SlotNo) (s : State), p s → p (s.freedAll res is)
  | [], _, h => h
  | i :: is, s, h => by
    cases hr : s.record i with
    | none => rw [freedAll_cons_none hr]; exact freedAll_keeps res hp is s h
    | some r => rw [freedAll_cons hr]; exact freedAll_keeps res hp is _ (hp _ _ _ _ h)

section Frame

variable (s : State) (res : EndResult) (is : List SlotNo)

@[simp] theorem freedAll_plans : (s.freedAll res is).plans = s.plans :=
  freedAll_keeps (p := fun t => t.plans = s.plans) res (fun _ _ _ _ h => by rw [freed_plans, h]) is s rfl
@[simp] theorem freedAll_engines : (s.freedAll res is).engines = s.engines :=
  freedAll_keeps (p := fun t => t.engines = s.engines) res (fun _ _ _ _ h => by rw [freed_engines, h]) is s rfl
@[simp] theorem freedAll_group : (s.freedAll res is).group = s.group :=
  freedAll_keeps (p := fun t => t.group = s.group) res (fun _ _ _ _ h => by rw [freed_group, h]) is s rfl
@[simp] theorem freedAll_deviceTime : (s.freedAll res is).deviceTime = s.deviceTime :=
  freedAll_keeps (p := fun t => t.deviceTime = s.deviceTime) res (fun _ _ _ _ h => by rw [freed_deviceTime, h]) is s rfl
@[simp] theorem freedAll_latch : (s.freedAll res is).latch = s.latch :=
  freedAll_keeps (p := fun t => t.latch = s.latch) res (fun _ _ _ _ h => by rw [freed_latch, h]) is s rfl
@[simp] theorem freedAll_plan (ch : Channel) : (s.freedAll res is).plan ch = s.plan ch := by simp [State.plan]
@[simp] theorem freedAll_engine (ch : Channel) : (s.freedAll res is).engine ch = s.engine ch := by simp [State.engine]

end Frame

/-- A slot outside the list is as it was. -/
theorem freedAll_slot_notMem {j : SlotNo} (res : EndResult) : ∀ (is : List SlotNo) (s : State), j ∉ is →
    (s.freedAll res is).slot j = s.slot j
  | [], _, _ => rfl
  | i :: is, s, h => by
    have hi : j ≠ i := fun e => h (by simp [e])
    have hs : j ∉ is := fun e => h (by simp [e])
    cases hr : s.record i with
    | none => rw [freedAll_cons_none hr, freedAll_slot_notMem res is s hs]
    | some r => rw [freedAll_cons hr, freedAll_slot_notMem res is _ hs, freed_slot, if_neg hi]

theorem freedAll_record_notMem {j : SlotNo} (res : EndResult) {is : List SlotNo} (s : State) (h : j ∉ is) :
    (s.freedAll res is).record j = s.record j := by
  simp only [State.record, freedAll_slot_notMem res is s h]

theorem freedAll_handle_notMem {j : SlotNo} (res : EndResult) {is : List SlotNo} (s : State) (h : j ∉ is) :
    (s.freedAll res is).handle j = s.handle j := by
  simp only [State.handle, freedAll_slot_notMem res is s h]

/-- The freed slots stand at the tail of the free list in the order of the list (R18, R19). -/
theorem freedAll_freeList (res : EndResult) : ∀ (is : List SlotNo) (s : State), is.Nodup → (∀ i ∈ is, ∃ r, s.record i = some r) →
    (s.freedAll res is).freeList = s.freeList ++ is
  | [], s, _, _ => by simp [State.freedAll]
  | i :: is, s, hn, hr => by
    obtain ⟨r, h⟩ := hr i (by simp)
    obtain ⟨hi, hn⟩ := List.nodup_cons.mp hn
    rw [freedAll_cons h, freedAll_freeList res is _ hn, freed_freeList, List.append_assoc]; rfl
    intro j hj
    rw [freed_record_ne _ _ _ (by rintro rfl; exact hi hj)]
    exact hr j (by simp [hj])

/-! ### Freeing past other changes -/

/-- The freeing of a list in another rest of the state, with the same device time. -/
theorem freedAll_within {o : State} (res : EndResult) : ∀ (is : List SlotNo) (s : State), o.deviceTime = s.deviceTime →
    (s.within o).freedAll res is = (s.freedAll res is).within o
  | [], _, _ => rfl
  | i :: is, s, ho => by
    have hrec : (s.within o).record i = s.record i := rfl
    cases hr : s.record i with
    | none => rw [freedAll_cons_none (hrec.trans hr), freedAll_cons_none hr, freedAll_within res is s ho]
    | some r =>
      have hb : unstartedBody (s.within o) i r res = unstartedBody s i r res := by
        simp only [unstartedBody]; rw [show (s.within o).deviceTime = s.deviceTime from ho]; rfl
      rw [freedAll_cons (hrec.trans hr), freedAll_cons hr, hb, freed_within, freedAll_within res is _ (by rw [ho, freed_deviceTime])]

/-- The freeing of a list changes the slots, the free list and the reports, and nothing else. -/
theorem freedAll_same (s : State) (res : EndResult) (is : List SlotNo) : s.freedAll res is = (s.freedAll res is).within s := by
  have h := freedAll_within (o := s) res is s rfl
  exact h

theorem freedAll_withPlans (s : State) (P : Vector Plan 8) (res : EndResult) (is : List SlotNo) :
    State.freedAll { s with plans := P } res is = { s.freedAll res is with plans := P } := by
  have h := freedAll_within (o := { s with plans := P }) res is s rfl
  rw [show State.freedAll { s with plans := P } res is = (s.freedAll res is).within { s with plans := P } from h,
    freedAll_same s res is]
  rfl

theorem freedAll_withEngines (s : State) (E : Vector Engine 8) (res : EndResult) (is : List SlotNo) :
    State.freedAll { s with engines := E } res is = { s.freedAll res is with engines := E } := by
  have h := freedAll_within (o := { s with engines := E }) res is s rfl
  rw [show State.freedAll { s with engines := E } res is = (s.freedAll res is).within { s with engines := E } from h,
    freedAll_same s res is]
  rfl

theorem freedAll_withGroup (s : State) (g : Option Group) (res : EndResult) (is : List SlotNo) :
    State.freedAll { s with group := g } res is = { s.freedAll res is with group := g } := by
  have h := freedAll_within (o := { s with group := g }) res is s rfl
  rw [show State.freedAll { s with group := g } res is = (s.freedAll res is).within { s with group := g } from h,
    freedAll_same s res is]
  rfl

/-- The freeing of a list in the state with another record in a slot outside it. -/
theorem freedAll_setRecord {j : SlotNo} (q : Record) (res : EndResult) : ∀ (is : List SlotNo) (s : State), j ∉ is →
    (s.setRecord j q).freedAll res is = (s.freedAll res is).setRecord j q
  | [], _, _ => rfl
  | i :: is, s, h => by
    have hi : j ≠ i := fun e => h (by simp [e])
    have hs : j ∉ is := fun e => h (by simp [e])
    have hrec : (s.setRecord j q).record i = s.record i := by rw [setRecord_record, if_neg (Ne.symm hi)]
    cases hr : s.record i with
    | none => rw [freedAll_cons_none (hrec.trans hr), freedAll_cons_none hr, freedAll_setRecord q res is s hs]
    | some r =>
      have hb : unstartedBody (s.setRecord j q) i r res = unstartedBody s i r res := by
        simp only [unstartedBody, setRecord_handle, setRecord_deviceTime]
      rw [freedAll_cons (hrec.trans hr), freedAll_cons hr, hb, freed_setRecord s hi, freedAll_setRecord q res is _ hs]

/-! ### The watch after it (R125) -/

theorem names_maskOfRecords (s : State) (is : List SlotNo) : Names (s.maskOfRecords is) (s.channelsOf is) := by
  have go : ∀ (is : List SlotNo) (m : Byte) (c : Channel),
      (is.foldl (fun m i => (s.record i).elim m fun r => m ||| maskOf r.channel) m).getLsbD c.val = true
        ↔ m.getLsbD c.val = true ∨ c ∈ s.channelsOf is := by
    intro is
    induction is with
    | nil => intro m c; simp [State.channelsOf]
    | cons i is ih =>
      intro m c
      rw [List.foldl_cons, ih]
      cases hr : s.record i with
      | none => simp [State.channelsOf, hr]
      | some r =>
        simp only [Option.elim_some, BitVec.getLsbD_or, maskOf_bit, Bool.or_eq_true, decide_eq_true_eq]
        simp [State.channelsOf, hr, or_assoc]
  intro c
  unfold State.maskOfRecords
  rw [go]
  constructor
  · rintro (h | h)
    · exact absurd h (by simp)
    · exact h
  · exact .inr

/-- Records of one channel, at least one of them, are watched as that channel. -/
theorem names_channelsOf {s : State} {is : List SlotNo} {ch : Channel} (hne : is ≠ [])
    (h : ∀ i ∈ is, ∃ r, s.record i = some r ∧ r.channel = ch) : Names (maskOf ch) (s.channelsOf is) := by
  intro c
  rw [maskOf_bit, decide_eq_true_eq]
  simp only [State.channelsOf, List.mem_filterMap, Option.map_eq_some_iff]
  constructor
  · rintro rfl
    obtain ⟨i, hi⟩ := List.exists_mem_of_ne_nil is hne
    obtain ⟨r, hr, hc⟩ := h i hi
    exact ⟨i, hi, r, hr, hc⟩
  · rintro ⟨i, hi, r, hr, rfl⟩
    obtain ⟨r', hr', hc⟩ := h i hi
    rw [hr] at hr'; cases hr'; exact hc

/-- The channels of records depend on the records alone. -/
theorem channelsOf_congr {s t : State} {is : List SlotNo}
    (h : ∀ i ∈ is, (t.record i).map (·.channel) = (s.record i).map (·.channel)) : t.channelsOf is = s.channelsOf is := by
  unfold State.channelsOf
  exact List.filterMap_congr fun i hi => h i hi

/-- The watch after the freeing of a list by an event that frees nothing else, in whatever state the event leaves. -/
theorem watch_freed {touched : Byte} {s t : State} {is : List SlotNo} {chs : List Channel}
    (hl : t.freeList = s.freeList ++ is) (hn : is ≠ [] → Names touched chs) (he : is = [] → chs = []) :
    watch touched s t = t.watched chs := by
  by_cases h : is = []
  · rw [he h, watched_nil, watch_none]
    rw [hl, h]; simp
  · apply watch_grown (hn h)
    rw [hl]
    have := List.length_pos_iff.mpr h
    simp; omega

/-- The watch after the freeing of one record. -/
theorem watch_freed_one {s t : State} {i : SlotNo} (hl : t.freeList = s.freeList ++ [i]) (ch : Channel) :
    watch (maskOf ch) s t = t.watched [ch] :=
  watch_freed hl (fun _ => names_maskOf ch) (by simp)

end Sys2Proof.Machine
end

