-- ==== Sys2Proof/Laws/Plans.lean ====
section
/-!
SUPPORT. What the head of a plan does: where due handling stops, starts, applications and drops (R39 to R48).
-/
namespace Sys2Proof.Machine

theorem planTime_nil {s : State} {ch : Channel} (h : (s.plan ch).loads = []) : s.planTime ch = s.deviceTime := by
  simp [State.planTime, State.openLoads, h]

/-- The settle list stops at a head that is not due. -/
theorem settleList_notDue {ch : Channel} {rest : List SlotNo} {s : State} (hl : (s.plan ch).loads = [])
    (hn : s.NextNotDue rest) : settleList ch rest s = s := by
  cases rest with
  | nil => rfl
  | cons j js =>
    unfold settleList
    split
    · rfl
    · rename_i r hr
      have := hn j (by simp) r hr
      rw [if_neg]
      rintro ⟨_, h2⟩
      simp only [State.isDue, planTime_nil hl, decide_eq_true_eq] at h2
      omega

theorem filter_head {i : SlotNo} {rest : List SlotNo} (h : (i :: rest).Nodup) : (i :: rest).filter (· ≠ i) = rest := by
  have := List.nodup_cons.mp h
  simp
  intro a ha e
  exact this.1 (e ▸ ha)

theorem planWithout_eq {s : State} {ch : Channel} {i : SlotNo} {rest : List SlotNo} (hr : (s.plan ch).records = i :: rest)
    (hd : (s.plan ch).records.Nodup) : s.leavePlan ch i = { s with plans := s.planWithout ch rest } := by
  unfold State.leavePlan State.modPlan State.planWithout
  dsimp only
  rw [hr] at hd ⊢
  rw [filter_head hd]

/-- After the head, the next one is not due in a state that keeps the records of the rest, the plan's loads and the time. -/
theorem nextNotDue_congr {s t : State} {rest : List SlotNo} (hn : s.NextNotDue rest) (hd : t.deviceTime = s.deviceTime)
    (hr : ∀ j ∈ rest, t.record j = s.record j) : t.NextNotDue rest := by
  intro j hj r hjr
  rw [hd]
  apply hn j hj r
  rw [← hr j (List.mem_of_mem_head? hj)]
  exact hjr

theorem startAction_begun (s : State) (ch : Channel) (i : SlotNo) (r : Record) (hns : ∀ l, r.params ≠ .set l) :
    s.startAction ch i r = { s with slots := s.slotsWith i r .current, engines := setAt s.engines ch ((s.engine ch).begun i r s.deviceTime) } := by
  unfold State.startAction State.setRecord State.modEngine State.setEngine State.slotsWith
  dsimp only
  congr 1
  show setAt s.engines ch _ = _
  congr 1
  unfold Engine.begun progressAtStart Engine.started firstPhase firstWindow
  show Engine.started (s.engine ch) i _ = _
  cases r with | mk c p st po re ta sta =>
  cases p
  · exact absurd rfl (hns _)
  all_goals simp [Engine.started, Engine.deferred, State.engine]

theorem startHead_action {s : State} {ch : Channel} {i : SlotNo} {rest : List SlotNo} {r : Record} (hr : (s.plan ch).records = i :: rest)
    (hd : (s.plan ch).records.Nodup) (hns : ∀ l, r.params ≠ .set l) :
    s.startHead ch i r = { s with slots := s.slotsWith i r .current, plans := s.planWithout ch rest, engines := setAt s.engines ch ((s.engine ch).begun i r s.deviceTime) } := by
  have : s.startHead ch i r = (s.leavePlan ch i).startAction ch i r := by
    unfold State.startHead
    cases h : r.params <;> simp
    exact absurd h (hns _)
  rw [this, startAction_begun _ _ _ _ hns, planWithout_eq hr hd]
  rfl

/-- The application of a SET frees its record (R26, R65). -/
theorem applySet_eq (s : State) (ch : Channel) (i : SlotNo) (r : Record) (level : Bool) :
    s.applySet ch i r level = State.freed
      { s with engines := setAt s.engines ch { s.engine ch with outputLevel := level, restLevel := level, changePending := true } }
      i r (endedSet s i r) := freeWith_eq_freed _ _ _ _

/-- A head that leaves the plan unstarted is freed (R43, R47). -/
theorem dropHead_eq {s : State} {ch : Channel} {i : SlotNo} {rest : List SlotNo} {r : Record}
    (h1 : (s.plan ch).records = i :: rest) (hnd : (s.plan ch).records.Nodup) (h2 : s.record i = some r) (res : EndResult) :
    s.dropHead ch i res = State.freed { s with plans := s.planWithout ch rest } i r (unstartedBody s i r res) := by
  unfold State.dropHead
  rw [planWithout_eq h1 hnd]
  exact freeUnstarted_eq_freed (s := { s with plans := s.planWithout ch rest }) h2 res

theorem planWithout_plan (s : State) (ch : Channel) (rest : List SlotNo) :
    State.plan { s with plans := s.planWithout ch rest } ch = { s.plan ch with records := rest } := by
  simp [State.plan, State.planWithout, getAt_setAt_self]

theorem dropHead_settle {s : State} {ch : Channel} {i : SlotNo} {rest : List SlotNo} {r : Record} (hh : s.Held)
    (hd : s.DueHead ch i rest r) (hn : s.NextNotDue rest) (res : EndResult) :
    settleList ch rest (s.dropHead ch i res) = s.dropHead ch i res := by
  obtain ⟨h1, h2, h3, h4, h5⟩ := hd
  have hnd := hh.planOnce ch
  rw [dropHead_eq h1 hnd h2 res]
  apply settleList_notDue
  · rw [freed_plan, planWithout_plan]; exact h5
  · refine nextNotDue_congr hn (by rw [freed_deviceTime]) ?_
    intro j hj
    have : j ≠ i := by rintro rfl; rw [h1] at hnd; exact (List.nodup_cons.mp hnd).1 hj
    rw [freed_record_ne _ _ _ this]; rfl

/-- The end of the current action by a PREEMPT head (R72). -/
theorem preempt_eq {s : State} {ch : Channel} {run : Running} {rc : Record} (hr : s.Runs ch run rc) :
    s.preemptCurrent ch = State.freed
      { s with engines := setAt s.engines ch ((s.engine ch).cut (s.engine ch).restLevel .idle) }
      run.slot rc (endBody s run rc .preempted) := by
  unfold State.preemptCurrent
  rw [hr.1]
  exact freeCurrent_eq_freed
    (s := { s with engines := setAt s.engines ch ((s.engine ch).cut (s.engine ch).restLevel .idle) }) hr.2.1 .preempted

theorem planWithout_planWithout (s : State) (ch : Channel) (a b : List SlotNo) :
    State.planWithout { s with plans := s.planWithout ch a } ch b = s.planWithout ch b := by
  simp [State.planWithout, State.plan, getAt_setAt_self]

/-- Dropping a front of the plan frees it in plan order (R47, R48). -/
theorem dropFold_eq (ch : Channel) (res : EndResult) : ∀ (front : List SlotNo) (s : State) (rest : List SlotNo),
    (s.plan ch).records = front ++ rest → (front ++ rest).Nodup → (∀ i ∈ front, ∃ r, s.record i = some r) →
    front.foldl (fun s i => s.dropHead ch i res) s = State.freedAll { s with plans := s.planWithout ch rest } res front
  | [], s, rest, h, _, _ => by
    have : s.planWithout ch rest = s.plans := by
      unfold State.planWithout
      have h' : (s.plan ch).records = rest := by simpa using h
      rw [← h']
      exact setAt_getAt _ _
    rw [this]; rfl
  | i :: l, s, rest, h, hn, hr => by
    obtain ⟨r, hri⟩ := hr i (by simp)
    have hi := List.nodup_cons.mp hn
    have hd := dropHead_eq (rest := l ++ rest) h (by rw [h]; exact hn) hri res
    rw [List.foldl_cons, dropFold_eq ch res l _ rest]
    · rw [hd, freedAll_cons (s := { s with plans := s.planWithout ch rest }) hri]
      congr 1
      have e : State.planWithout (State.freed { s with plans := s.planWithout ch (l ++ rest) } i r (unstartedBody s i r res)) ch rest
          = s.planWithout ch rest := by
        rw [← planWithout_planWithout s ch (l ++ rest) rest]
        simp [State.planWithout]
      rw [e, freed_withPlans s (s.planWithout ch (l ++ rest))]
      exact (freed_withPlans s (s.planWithout ch rest) i r _).symm
    · rw [hd, freed_plan, planWithout_plan]
    · exact hi.2
    · intro j hj
      have hne : j ≠ i := fun e => hi.1 (by rw [← e]; simp [hj])
      rw [hd, freed_record_ne _ _ _ hne]
      exact hr j (by simp [hj])

theorem missDue_fold (ch : Channel) : ∀ (front : List SlotNo) (s : State) (rest : List SlotNo),
    (s.plan ch).records = front ++ rest → (front ++ rest).Nodup → (s.plan ch).loads = [] →
    (∀ i ∈ front, ∃ r, s.record i = some r ∧ (r.state = .waiting ∨ r.start.toNat ≤ s.deviceTime.toNat)) →
    (∀ j ∈ rest.head?, ∀ r, s.record j = some r → r.state = .planned ∧ s.deviceTime.toNat < r.start.toNat) →
    missDueList ch (front ++ rest) s = front.foldl (fun s i => s.dropHead ch i .missed) s
  | [], s, rest, h, hn, hl, hf, hr => by
    cases rest with
    | nil => rfl
    | cons j js =>
      simp only [List.nil_append, missDueList, List.foldl_nil]
      split
      · rfl
      · rename_i r hj
        have := hr j (by simp) r hj
        rw [if_neg]
        rintro (h1 | h1)
        · rw [this.1] at h1; cases h1
        · simp only [State.isDue, planTime_nil hl, decide_eq_true_eq] at h1; omega
  | i :: l, s, rest, h, hn, hl, hf, hr => by
    obtain ⟨r, hri, hdue⟩ := hf i (by simp)
    have hi := List.nodup_cons.mp hn
    have hd := dropHead_eq (rest := l ++ rest) h (by rw [h]; exact hn) hri .missed
    have hp : (s.dropHead ch i .missed).plan ch = { s.plan ch with records := l ++ rest } := by
      rw [hd, freed_plan, planWithout_plan]
    have ht : (s.dropHead ch i .missed).deviceTime = s.deviceTime := by rw [hd, freed_deviceTime]
    have hrec : ∀ j ∈ l ++ rest, (s.dropHead ch i .missed).record j = s.record j := by
      intro j hj
      have hne : j ≠ i := fun e => hi.1 (by rw [← e]; exact hj)
      rw [hd, freed_record_ne _ _ _ hne]
      rfl
    simp only [List.cons_append, missDueList, hri, List.foldl_cons]
    rw [if_pos]
    · apply missDue_fold ch l _ rest (by rw [hp]) hi.2 (by rw [hp]; exact hl)
      · intro j hj
        rw [hrec j (by simp [hj]), ht]; exact hf j (by simp [hj])
      · intro j hj
        rw [hrec j (by simp [List.mem_of_mem_head? hj]), ht]; exact hr j hj
    · rcases hdue with hd | hd
      · exact Or.inl hd
      · right; simp [State.isDue, planTime_nil hl, hd]

/-- Due handling takes no slot from the free list, so that a freeing before it is seen by the watch after it (R125). -/
theorem settleList_freeList (ch : Channel) : ∀ (l : List SlotNo) (s : State),
    s.freeList.length ≤ (settleList ch l s).freeList.length
  | [], s => Nat.le_refl _
  | i :: l, s => by
    have hf : ∀ (s : State) res i, s.freeList.length ≤ (s.freeUnstarted res i).freeList.length := by
      intro s res i
      unfold State.freeUnstarted
      split
      · exact Nat.le_refl _
      · rw [freeWith_eq_freed]; simp
    have hd : ∀ (s : State) res, s.freeList.length ≤ (s.dropHead ch i res).freeList.length := fun s res =>
      hf (s.leavePlan ch i) res i
    have hst : ∀ (s : State) r, s.freeList.length ≤ (s.startHead ch i r).freeList.length := by
      intro s r; unfold State.startHead
      split
      · rw [applySet_eq]; simp [State.leavePlan, State.modPlan]
      all_goals exact Nat.le_refl _
    have hp : ∀ (s : State), s.freeList.length ≤ (s.preemptCurrent ch).freeList.length := by
      intro s; unfold State.preemptCurrent
      split
      · exact Nat.le_refl _
      · unfold State.freeCurrent
        split
        · exact Nat.le_refl _
        · rw [freeWith_eq_freed]; simp
    unfold settleList
    split
    · exact Nat.le_refl _
    · split
      · split
        · exact (hd _ _).trans (settleList_freeList ch l _)
        · exact (hst _ _).trans (settleList_freeList ch l _)
        · exact ((hp _).trans (hst _ _)).trans (settleList_freeList ch l _)
        · exact (hd _ _).trans (settleList_freeList ch l _)
        · unfold State.setRecState; split <;> exact Nat.le_refl _
        · exact Nat.le_refl _
      · exact Nat.le_refl _

/-- The due handling of a due head by its fate, and then of the plan that it leaves (R39, R40). -/
theorem checkHead_due {s : State} {ch : Channel} {i : SlotNo} {rest : List SlotNo} {r : Record} (h : s.DueHead ch i rest r) :
    s.checkHead ch = match s.fate ch r.policy with
      | .miss => settleList ch rest (s.dropHead ch i .missed)
      | .start => settleList ch rest (s.startHead ch i r)
      | .preempt => settleList ch rest ((s.preemptCurrent ch).startHead ch i r)
      | .skip => settleList ch rest (s.dropHead ch i .skipped)
      | .wait => s.setRecState i .waiting
      | .hold => s := by
  obtain ⟨h1, h2, h3, h4, h5⟩ := h
  unfold State.checkHead
  rw [h1]
  simp only [settleList, h2]
  refine Eq.trans (if_pos ⟨h3, by simp [State.isDue, planTime_nil h5, h4]⟩) ?_
  cases s.fate ch r.policy <;> rfl

theorem settleList_eq_checkHead {u : State} {ch : Channel} {rest : List SlotNo} (h : (u.plan ch).records = rest) :
    settleList ch rest u = u.checkHead ch := by
  unfold State.checkHead
  rw [h]

/-- Due handling of a state, as HEAD_DUE. -/
theorem headDue_next {u : State} (h : u.inReset = false) (ch : Channel) : exec (.headDue ch) u = .next (u.dueAtPlan ch) := by
  simp [exec, execHeadDue, whileRunning, h]

/-- The watch after a change that frees a record and the due handling that follows it tests the waits of the channel, once what
HEAD_DUE does is done. -/
theorem watch_checkHead {s u : State} {ch : Channel} (hl : s.freeList.length < u.freeList.length) :
    watch (maskOf ch) s (u.checkHead ch) = (u.dueAtPlan ch).watched [ch] := by
  have hmono : u.freeList.length ≤ (u.checkHead ch).freeList.length := settleList_freeList ch (u.plan ch).records u
  rw [watch_grown (names_maskOf ch) (Nat.lt_of_lt_of_le hl hmono)]
  unfold State.dueAtPlan
  by_cases h : u.freeList.length < (u.checkHead ch).freeList.length
  · rw [watch_grown (names_maskOf ch) h, watched_watched]
  · rw [watch_none _ h]

/-- A command that frees a record and then handles the new head goes on as HEAD_DUE does. -/
theorem goesOn_of {s u : State} {c : Instr} {ch : Channel} (hu : u.inReset = false)
    (hl : s.freeList.length < u.freeList.length) (h : exec c s = .next (watch (maskOf ch) s (u.checkHead ch))) :
    s.GoesOn c u ch :=
  ⟨_, headDue_next hu ch, by rw [h, watch_checkHead hl]⟩

theorem span_eq {s : State} {ch : Channel} {t1 : Time} {front : List SlotNo} {kept : SlotNo} {rest : List SlotNo}
    (hrec : (s.plan ch).records = front ++ kept :: rest) (hall : ∀ j ∈ front ++ [kept], s.startOf j ≤ t1.toNat)
    (hrest : ∀ j ∈ rest.head?, t1.toNat < s.startOf j) : s.span ch t1 = front ++ [kept] := by
  unfold State.span
  rw [hrec, show front ++ kept :: rest = (front ++ [kept]) ++ rest by simp]
  rw [List.takeWhile_append_of_pos (by simpa using hall)]
  cases rest with
  | nil => simp
  | cons a l =>
    have := hrest a (by simp)
    simp [Nat.not_le.mpr this]

end Sys2Proof.Machine
end

