-- ==== Sys2Proof/Laws/Engines.lean ====
section
/-!
SUPPORT. What an engine with a current action does (R67 to R70, R83 to R95), and what a setting event does (R137).
-/
namespace Sys2Proof.Machine

theorem running_of {s : State} {ch : Channel} {run : Running} {r : Record} (h : s.Runs ch run r) : s.running ch = some (run,
    r) := by
  simp [State.running, h.1, h.2.1]

theorem toRest_ended (e : Engine) : e.toRest.ended .idle = e.rested := by
  unfold Engine.toRest Engine.rested Engine.ended Engine.deferred
  split
  · rename_i h; simp [h]
  · rename_i h; simp [h]

/-- A natural end or a window end frees the record and hands the end to the plan (R70). -/
theorem endNaturally_eq {s : State} {ch : Channel} {run : Running} {r : Record} (h : s.Runs ch run r) (res : EndResult) :
    s.endNaturally ch res = State.freed { s with
        engines := setAt s.engines ch (s.engine ch).rested
        plans := setAt s.plans ch { s.plan ch with endHanded := true } } run.slot r (endBody s run r res) := by
  unfold State.endNaturally
  rw [h.1]
  dsimp only
  rw [freeCurrent_eq_freed (s := s.modEngine ch fun e => e.toRest.ended .idle) (r := r) h.2.1]
  have e : (s.modEngine ch fun e => e.toRest.ended .idle) = { s with engines := setAt s.engines ch (s.engine ch).rested } := by
    simp only [State.modEngine, State.setEngine, toRest_ended]
  rw [e]
  unfold State.handEnd State.modPlan
  rw [freed_plan, freed_plans]
  exact (freed_withPlans { s with engines := setAt s.engines ch (s.engine ch).rested }
    (setAt s.plans ch { s.plan ch with endHanded := true }) run.slot r _).symm

/-- A cancel through the engine frees the record and hands the end to the plan (R71). -/
theorem cancelCurrent_eq {s : State} {ch : Channel} {run : Running} {r : Record} (h : s.Runs ch run r) :
    s.cancelCurrent ch = State.freed { s with
        engines := setAt s.engines ch ((s.engine ch).cut (s.engine ch).restLevel .idle)
        plans := setAt s.plans ch { s.plan ch with endHanded := true } } run.slot r (endBody s run r .cancelled) := by
  unfold State.cancelCurrent
  rw [h.1]
  dsimp only
  rw [freeCurrent_eq_freed (s := s.modEngine ch fun e => (e.immediate e.restLevel).ended .idle) (r := r) h.2.1]
  have e : (s.modEngine ch fun e => (e.immediate e.restLevel).ended .idle)
      = { s with engines := setAt s.engines ch ((s.engine ch).cut (s.engine ch).restLevel .idle) } := rfl
  rw [e]
  unfold State.handEnd State.modPlan
  rw [freed_plan, freed_plans]
  exact (freed_withPlans { s with engines := setAt s.engines ch ((s.engine ch).cut (s.engine ch).restLevel .idle) }
    (setAt s.plans ch { s.plan ch with endHanded := true }) run.slot r _).symm

/-- The head of a plan that waits. -/
theorem headWaits_iff (s : State) (ch : Channel) :
    s.headWaits ch = true ↔ ∃ i ∈ (s.plan ch).records.head?, ∃ r, s.record i = some r ∧ r.state = .waiting := by
  unfold State.headWaits
  cases (s.plan ch).records.head? with
  | none => simp
  | some i => simp [Option.any_eq_true]

theorem atSafeLevel_eq (e : Engine) (st : ChanState) :
    e.atSafeLevel st = { e.cut e.config.safeLevel st with restLevel := e.config.safeLevel } := rfl

/-- The latch setting at a busy engine (R73): the record is freed as SAFED, and then a WAITING head is missed (R45). -/
theorem settingAtEngine_busy {s : State} {ch : Channel} {run : Running} {r : Record} (h : s.Runs ch run r)
    (hb : (s.engine ch).state.busy = true) :
    s.settingAtEngine ch = (State.freed { s with
        engines := setAt s.engines ch ((s.engine ch).atSafeLevel .safed) } run.slot r
        (endBody s run r .safed)).missAfterSafed ch := by
  unfold State.settingAtEngine
  revert hb
  cases (s.engine ch).state <;> intro hb
  all_goals first
    | exact absurd hb (by decide)
    | (dsimp only
       rw [h.1]
       exact congrArg (State.missAfterSafed · ch) (freeCurrent_eq_freed
         (s := { s with engines := setAt s.engines ch ((s.engine ch).atSafeLevel .safed) }) (r := r) h.2.1 .safed))

theorem modProgress_eq {s : State} {ch : Channel} {run : Running} (h : (s.engine ch).current = some run) (f : Progress →
    Progress) :
    s.modProgress ch f = s.setEngine ch { s.engine ch with current := some { run with progress := f run.progress } } := by
  simp [State.modProgress, State.modEngine, h]

theorem setEngine_setEngine (s : State) (ch) (a b : Engine) : (s.setEngine ch a).setEngine ch b = s.setEngine ch b := by
  simp [State.setEngine]

theorem modEngine_setEngine (s : State) (ch) (a : Engine) (f) : (s.setEngine ch a).modEngine ch f = s.setEngine ch (f a) := by
  simp [State.modEngine, State.setEngine, State.engine, getAt_setAt_self]

theorem takeWindow_eq {s : State} {ch : Channel} {run : Running} (h : (s.engine ch).current = some run) : s.takeWindow ch =
    s.setEngine ch { s.engine ch with current := some { run with progress := { run.progress with windowRemaining := some 0, windowDue := false } } } := by
  unfold State.takeWindow; rw [modProgress_eq h]

/-- A window end: the window is at 0 and the action ends (R89, R95). -/
theorem windowEnd_eq {s : State} {ch : Channel} {run : Running} {r : Record} (h : s.Runs ch run r) (res : EndResult) :
    (s.takeWindow ch).endNaturally ch res = State.freed { s with
        engines := setAt s.engines ch (s.engine ch).rested
        plans := setAt s.plans ch { s.plan ch with endHanded := true } } run.slot r (endBody s run r res) := by
  have h2 : (s.takeWindow ch).Runs ch { run with progress := { run.progress with windowRemaining := some 0, windowDue := false } } r := by
    rw [takeWindow_eq h.1]; exact ⟨by simp, h.2⟩
  rw [endNaturally_eq h2]
  rw [takeWindow_eq h.1]
  simp only [State.setEngine, setAt_setAt, Engine.rested, State.engine, getAt_setAt_self]
  rfl

theorem edge_runs {s : State} {ch : Channel} {run : Running} {r : Record} (h : s.Runs ch run r) (k) :
    (s.setEngine ch { s.engine ch with edgesHanded := k }).running ch = some (run, r) := by
  apply running_of
  exact ⟨by simp [h.1], h.2⟩

theorem takeEdge_action {s : State} {ch : Channel} (k) (h : (s.engine ch).state = .armed ∨ (s.engine ch).state = .firing) :
    (s.setEngine ch { s.engine ch with edgesHanded := k }).takeEdge ch =
        (s.setEngine ch { s.engine ch with edgesHanded := k }).edgeToAction ch := by
  unfold State.takeEdge
  simp only [setEngine_engine_self]
  rcases h with h | h <;> rw [h]

theorem testBit_flagByte_mask (s : State) (ch : Channel) : (enabledMask s).getLsbD ch.val = (s.engine ch).config.enabled := by
  unfold enabledMask allChannels flagByte
  have : ∀ b0 b1 b2 b3 b4 b5 b6 b7 : Bool, ∀ c : Fin 8,
      (BitVec.ofNat 8 (([b0,b1,b2,b3,b4,b5,b6,b7]).foldr (fun b n => (if b then 1 else 0) + 2 * n) 0)).getLsbD c.val =
          (#v[b0,b1,b2,b3,b4,b5,b6,b7])[c.val] := by decide
  simp only [List.map_cons, List.map_nil]
  rw [this]
  fin_cases ch <;> rfl

theorem setLatch_sets {s : State} (h : s.latch = false) (c : SafeCause) : s.SetsLatch (s.setLatch c) c := by
  unfold State.setLatch
  rw [if_neg (by simp [h])]
  dsimp only
  unfold State.handOrdinary
  have e : State.noticeRoom { s with latch := true, cause := c } = decide (s.notices.length < 32) := rfl
  rw [e]
  by_cases hn : s.notices.length < 32
  · simp only [hn, decide_true, if_true]
    refine ⟨rfl, ?_, ?_, ?_, ?_⟩
    · intro ch; simp [State.engine, State.appendNotice]
    · intro ch; simp [State.plan, State.appendNotice]
    · intro _; exact ⟨rfl, rfl, _, testBit_flagByte_mask s, rfl⟩
    · intro h; omega
  · simp only [hn, decide_false, Bool.false_eq_true, if_false]
    refine ⟨rfl, ?_, ?_, ?_, ?_⟩
    · intro ch; simp [State.engine]
    · intro ch; simp [State.plan]
    · intro h; contradiction
    · intro h; exact ⟨rfl, rfl, rfl⟩

theorem safe_cons {e : Engine} {ev : SafeEvent} {more} (h : e.safeHanded = ev :: more) : e.safeFrom ev = ev :: more := by
  simp [Engine.safeFrom, h]

end Sys2Proof.Machine
end

