-- ==== Sys2Proof/Laws/Release.lean ====
section
/-!
SUPPORT. What a plan does where no head can be started, the latch being set or the channel SAFED (R139): its heads are missed. And
what the plans take before a release of the latch (R47, log 32).
-/
namespace Sys2Proof.Machine

/-- No head of the channel's plan can be started (R139). -/
abbrev State.Barred (s : State) (ch : Channel) : Prop := s.latch = true ∨ (s.engine ch).state = .safed

theorem fate_barred {s : State} {ch : Channel} (h : s.Barred ch) (p : Policy) : s.fate ch p = .miss := by
  unfold State.fate
  rcases h with h | h <;> simp [h]

/-- `t` comes from `s` by records of the plan of `ch` being missed, and loads and settings of that plan being taken. -/
structure State.MissesAt (s t : State) (ch : Channel) : Prop where
  works    : s.Works t
  engines  : t.engines = s.engines
  others   : ∀ c, c ≠ ch → t.plan c = s.plan c
  records  : (t.plan ch).records.Sublist (s.plan ch).records
  loads    : (t.plan ch).loads <:+ (s.plan ch).loads
  settings : (t.plan ch).settings ≤ (s.plan ch).settings
  missed   : ∀ i, t.record i = s.record i ∨ i ∈ (s.plan ch).records ∧ i ∉ (t.plan ch).records ∧ t.record i = none

namespace State.MissesAt

theorem refl (s : State) (ch : Channel) : s.MissesAt s ch :=
  ⟨.refl s, rfl, fun _ _ => rfl, .refl _, List.suffix_rfl, Nat.le_refl _, fun _ => .inl rfl⟩

theorem trans {s t u : State} {ch : Channel} (h : s.MissesAt t ch) (k : t.MissesAt u ch) : s.MissesAt u ch where
  works := h.works.trans k.works
  engines := k.engines.trans h.engines
  others c hc := (k.others c hc).trans (h.others c hc)
  records := k.records.trans h.records
  loads := k.loads.trans h.loads
  settings := Nat.le_trans k.settings h.settings
  missed i := by
    rcases k.missed i with e | ⟨a, b, c⟩
    · rcases h.missed i with e' | ⟨a', b', c'⟩
      · exact .inl (e.trans e')
      · exact .inr ⟨a', fun hm => b' (k.records.subset hm), e.trans c'⟩
    · exact .inr ⟨h.records.subset a, b, c⟩

theorem barred {s t : State} {ch c : Channel} (h : s.MissesAt t ch) (hb : s.Barred c) : t.Barred c := by
  unfold State.Barred State.engine
  rw [h.works.latch, h.engines]
  exact hb

/-- The records left in a plan are as they were. -/
theorem kept {s t : State} {ch : Channel} (h : s.MissesAt t ch) {i : SlotNo} (hi : i ∈ (t.plan ch).records) :
    t.record i = s.record i := by
  rcases h.missed i with e | ⟨_, b, _⟩
  · exact e
  · exact absurd hi b

theorem startOf {s t : State} {ch : Channel} (h : s.MissesAt t ch) {i : SlotNo} (hi : i ∈ (t.plan ch).records) :
    t.startOf i = s.startOf i := by
  unfold State.startOf
  rw [h.kept hi]

/-- Reports change nothing at a plan. -/
theorem of_reports {s t : State} (ch : Channel) (h : s.AddsReports t) (w : s.Works t) : s.MissesAt t ch := by
  have e := h.same
  refine ⟨w, by rw [e], fun c _ => by rw [e]; rfl, ?_, ?_, ?_, fun i => .inl (by rw [e]; rfl)⟩
  · rw [e]; exact List.Sublist.refl _
  · rw [e]; exact List.suffix_rfl
  · rw [e]; exact Nat.le_refl _

theorem watch {s t : State} {ch : Channel} (h : s.MissesAt t ch) (m : Byte) (b : State) :
    s.MissesAt (watch m b t) ch :=
  h.trans (of_reports ch (watch_addsReports m b t) (watch_works m b t))

end State.MissesAt

open State.MissesAt (refl)

/-- A head that is dropped is missed at its plan. -/
theorem dropHead_missesAt {s : State} {ch : Channel} {i : SlotNo} (hi : i ∈ (s.plan ch).records) (res : EndResult) :
    s.MissesAt (s.dropHead ch i res) ch := by
  have hw := dropHead_works s ch i res
  have hp : (s.leavePlan ch i).plan ch = { s.plan ch with records := (s.plan ch).records.filter (· ≠ i) } := by
    simp [State.leavePlan]
  have ho : ∀ c, c ≠ ch → (s.leavePlan ch i).plan c = s.plan c := by
    intro c hc; unfold State.leavePlan; rw [modPlan_plan, if_neg hc]
  unfold State.dropHead State.freeUnstarted at *
  cases hr : (s.leavePlan ch i).record i with
  | none =>
    rw [hr] at hw
    refine ⟨hw, rfl, ho, ?_, ?_, ?_, fun j => .inl rfl⟩
    · dsimp only; rw [hp]; exact List.filter_sublist
    · dsimp only; rw [hp]
    · dsimp only; rw [hp]
  | some r =>
    rw [hr] at hw
    dsimp only at hw ⊢
    rw [freeWith_eq_freed] at hw ⊢
    refine ⟨hw, by simp [State.leavePlan, State.modPlan], fun c hc => by rw [freed_plan, ho c hc], ?_, ?_, ?_, ?_⟩
    · rw [freed_plan, hp]; exact List.filter_sublist
    · rw [freed_plan, hp]
    · rw [freed_plan, hp]
    · intro j
      by_cases hj : j = i
      · subst hj; exact .inr ⟨hi, by rw [freed_plan, hp]; simp, freed_record_self _ _ _ _⟩
      · exact .inl (freed_record_ne _ _ _ hj)

/-- The plan without its head, once the head has been dropped. -/
theorem dropHead_records {s : State} {ch : Channel} {i : SlotNo} {l : List SlotNo} (h : (s.plan ch).records = i :: l)
    (hn : (i :: l).Nodup) (res : EndResult) : ((s.dropHead ch i res).plan ch).records = l := by
  have hp : ((s.leavePlan ch i).plan ch).records = l := by
    simp only [State.leavePlan, modPlan_plan_self, h, filter_head hn]
  unfold State.dropHead State.freeUnstarted
  split
  · exact hp
  · rw [freeWith_eq_freed, freed_plan, hp]

/-- Due handling where no head can be started: heads are missed until the head is not due. -/
theorem settleList_barred (ch : Channel) : ∀ (l : List SlotNo) (s : State), (s.plan ch).records = l → l.Nodup → s.Barred ch →
    s.MissesAt (settleList ch l s) ch ∧
    ∀ i ∈ ((settleList ch l s).plan ch).records.head?, ∀ r, (settleList ch l s).record i = some r →
      ¬ (r.state = .planned ∧ (settleList ch l s).isDue ch r = true)
  | [], s, h, _, _ => ⟨refl s ch, by simp [settleList, h]⟩
  | i :: l, s, h, hn, hb => by
    unfold settleList
    cases hr : s.record i with
    | none => exact ⟨refl s ch, by intro j hj r hjr; simp [h] at hj; subst hj; simp [hr] at hjr⟩
    | some r =>
      dsimp only
      split
      · rw [fate_barred hb]
        have h1 := dropHead_missesAt (s := s) (ch := ch) (i := i) (by rw [h]; simp) .missed
        obtain ⟨a, b⟩ := settleList_barred ch l _ (dropHead_records h hn .missed) (List.nodup_cons.mp hn).2 (h1.barred hb)
        exact ⟨h1.trans a, b⟩
      · rename_i hd
        refine ⟨refl s ch, ?_⟩
        intro j hj q hq
        simp [h] at hj
        subst hj
        rw [hr] at hq
        cases hq
        exact hd

theorem checkHead_barred {s : State} {ch : Channel} (hn : (s.plan ch).records.Nodup) (hb : s.Barred ch) :
    s.MissesAt (s.checkHead ch) ch := (settleList_barred ch _ s rfl hn hb).1

theorem dueAtPlan_barred {s : State} {ch : Channel} (hn : (s.plan ch).records.Nodup) (hb : s.Barred ch) :
    s.MissesAt (s.dueAtPlan ch) ch := (checkHead_barred hn hb).watch _ _

/-- A head that stands before device time is handled once: none is left. -/
theorem headPassed_dueAtPlan {s : State} {ch : Channel} (hn : (s.plan ch).records.Nodup) (hb : s.Barred ch) :
    (s.dueAtPlan ch).headPassed ch = false := by
  have h := (settleList_barred ch _ s rfl hn hb).2
  have e := (watch_addsReports (maskOf ch) s (s.checkHead ch)).same
  unfold State.dueAtPlan
  have h' : (s.checkHead ch).headPassed ch = false := by
    unfold State.headPassed
    cases hh : ((s.checkHead ch).plan ch).records.head? with
    | none => rfl
    | some i =>
      cases hr : (s.checkHead ch).record i with
      | none => simp [hr]
      | some r =>
        have := h i (by show i ∈ ((s.checkHead ch).plan ch).records.head?; rw [hh]; rfl) r hr
        simp only [Option.any_some, hr]
        rw [← Bool.not_eq_true]
        simp only [Bool.and_eq_true, decide_eq_true_eq]
        rintro ⟨⟨a, b⟩, _⟩
        exact this ⟨a, b⟩
  rw [← h', e]
  rfl

/-- The latch setting at a plan misses heads of it. -/
theorem missDueList_missesAt (ch : Channel) : ∀ (l : List SlotNo) (s : State), (s.plan ch).records = l → l.Nodup →
    s.MissesAt (missDueList ch l s) ch
  | [], s, _, _ => refl s ch
  | i :: l, s, h, hn => by
    unfold missDueList
    split
    · exact refl s ch
    · split
      · exact (dropHead_missesAt (by rw [h]; simp) .missed).trans
          (missDueList_missesAt ch l _ (dropHead_records h hn .missed) (List.nodup_cons.mp hn).2)
      · exact refl s ch

/-- A front that is missed leaves the count of the settings. -/
theorem dropHead_settings (s : State) (ch : Channel) (i : SlotNo) (res : EndResult) :
    ((s.dropHead ch i res).plan ch).settings = (s.plan ch).settings := by
  have hp : ((s.leavePlan ch i).plan ch).settings = (s.plan ch).settings := by simp [State.leavePlan]
  unfold State.dropHead State.freeUnstarted
  split
  · exact hp
  · rw [freeWith_eq_freed, freed_plan, hp]

theorem missDueList_settings (ch : Channel) : ∀ (l : List SlotNo) (s : State),
    ((missDueList ch l s).plan ch).settings = (s.plan ch).settings
  | [], _ => rfl
  | i :: l, s => by
    unfold missDueList
    split
    · rfl
    · split
      · rw [missDueList_settings ch l _, dropHead_settings]
      · rfl

theorem takeSettingAtPlan_missesAt {s : State} {ch : Channel} (hn : (s.plan ch).records.Nodup) :
    s.MissesAt (s.takeSettingAtPlan ch) ch := by
  unfold State.takeSettingAtPlan
  split
  · have hp : s.MissesAt (s.modPlan ch fun p => { p with settings := p.settings - 1 }) ch := by
      refine ⟨modPlan_works _ _ _, rfl, fun c hc => by rw [modPlan_plan, if_neg hc], ?_, ?_, ?_, fun _ => .inl rfl⟩
      · simp
      · simp
      · simp
    exact hp.trans (missDueList_missesAt ch _ _ (by simp) hn)
  · exact refl s ch

theorem settingAtPlan_missesAt {s : State} {ch : Channel} (hn : (s.plan ch).records.Nodup) :
    s.MissesAt (s.settingAtPlan ch) ch := (takeSettingAtPlan_missesAt hn).watch _ _

/-- Dropping a front of the plan misses records of it. -/
theorem dropFold_missesAt (ch : Channel) : ∀ (front : List SlotNo) (s : State) (rest : List SlotNo),
    (s.plan ch).records = front ++ rest → (front ++ rest).Nodup →
    s.MissesAt (front.foldl (fun s i => s.dropHead ch i .missed) s) ch
  | [], s, _, _, _ => refl s ch
  | i :: l, s, rest, h, hn =>
    (dropHead_missesAt (by rw [h]; simp) .missed).trans
      (dropFold_missesAt ch l _ rest (dropHead_records h hn .missed) (List.nodup_cons.mp hn).2)

theorem skipSpan_barred {s : State} {ch : Channel} (hn : (s.plan ch).records.Nodup) (hb : s.Barred ch) (t1 : Time) :
    s.MissesAt (s.skipSpan ch t1) ch := by
  unfold State.skipSpan
  split
  · exact refl s ch
  · have hpre : (s.span ch t1).dropLast <+: (s.plan ch).records :=
      (List.dropLast_prefix _).trans (List.takeWhile_prefix _)
    obtain ⟨rest, hr⟩ := hpre
    have h1 := dropFold_missesAt ch _ s rest hr.symm (by rw [hr]; exact hn)
    exact h1.trans (checkHead_barred (h1.records.nodup hn) (h1.barred hb))

theorem takeLoad_barred {s : State} {ch : Channel} (hn : (s.plan ch).records.Nodup) (hb : s.Barred ch) :
    s.MissesAt (s.takeLoad ch) ch := by
  unfold State.takeLoad
  split
  · exact refl s ch
  · rename_i l rest h
    have hp : s.MissesAt (s.modPlan ch fun p => { p with loads := rest }) ch := by
      refine ⟨modPlan_works _ _ _, rfl, fun c hc => by rw [modPlan_plan, if_neg hc], by simp, ?_, by simp, fun _ => .inl rfl⟩
      simp only [modPlan_plan_self]
      have : s.openLoads ch <:+ (s.plan ch).loads := List.dropWhile_suffix _
      rw [h] at this
      exact (List.suffix_cons _ _).trans this
    exact hp.trans (skipSpan_barred (by simpa using hn) (hp.barred hb) _)

theorem loadAtPlan_barred {s : State} {ch : Channel} (hn : (s.plan ch).records.Nodup) (hb : s.Barred ch) :
    s.MissesAt (s.loadAtPlan ch) ch := by
  have h1 : s.MissesAt (s.dueBeforeLoad ch) ch := by
    unfold State.dueBeforeLoad
    split
    · exact refl s ch
    · exact dueAtPlan_barred hn hb
  exact h1.trans ((takeLoad_barred (h1.records.nodup hn) (h1.barred hb)).watch _ _)

/-! ### A WAITING head whose action has ended as SAFED (R45) -/

/-- Due handling of a due front where no head can be started is the dropping of that front. -/
theorem settleList_front (ch : Channel) : ∀ (front : List SlotNo) (s : State) (rest : List SlotNo),
    (s.plan ch).records = front ++ rest → (front ++ rest).Nodup → s.Barred ch → (s.plan ch).loads = [] →
    (∀ i ∈ front, ∃ r, s.record i = some r ∧ r.state = .planned ∧ r.start.toNat ≤ s.deviceTime.toNat) →
    s.NextNotDue rest →
    settleList ch (front ++ rest) s = front.foldl (fun s i => s.dropHead ch i .missed) s
  | [], s, rest, _, _, _, hl, _, hr => settleList_notDue hl hr
  | i :: l, s, rest, h, hn, hb, hl, hf, hr => by
    obtain ⟨r, hri, hpl, hdue⟩ := hf i (by simp)
    have hi := List.nodup_cons.mp hn
    have h1 := dropHead_missesAt (s := s) (ch := ch) (i := i) (by rw [h]; simp) .missed
    have hp := dropHead_records h hn .missed
    have ht := h1.works.deviceTime
    have hrec : ∀ j ∈ l ++ rest, (s.dropHead ch i .missed).record j = s.record j := fun j hj => h1.kept (by rw [hp]; exact hj)
    simp only [List.cons_append, settleList, hri, List.foldl_cons]
    rw [if_pos ⟨hpl, by simp [State.isDue, planTime_nil hl, hdue]⟩, fate_barred hb]
    refine settleList_front ch l _ rest hp hi.2 (h1.barred hb) ?_ ?_ ?_
    · have := h1.loads
      rw [hl] at this
      exact List.eq_nil_of_suffix_nil this
    · intro j hj
      rw [hrec j (by simp [hj]), ht]; exact hf j (by simp [hj])
    · exact nextNotDue_congr hr ht fun j hj => hrec j (by simp [hj])

/-- After the end of the current action as SAFED, a WAITING head and the due heads behind it are dropped, where the plan has no
setting left to take (R45, R139). -/
theorem missAfterSafed_eq {s : State} {ch : Channel} {i : SlotNo} {l rest : List SlotNo} {r : Record}
    (h : (s.plan ch).records = i :: l ++ rest) (hn : (i :: l ++ rest).Nodup) (hb : s.Barred ch) (hr : s.record i = some r)
    (hw : r.state = .waiting) (hs : (s.plan ch).settings = 0) (hl : (s.plan ch).loads = [])
    (hf : ∀ j ∈ l, ∃ q, s.record j = some q ∧ q.state = .planned ∧ q.start.toNat ≤ s.deviceTime.toNat)
    (hrest : s.NextNotDue rest) :
    s.missAfterSafed ch = State.freedAll { s with plans := s.planWithout ch rest } .missed (i :: l) := by
  rw [← dropFold_eq ch .missed (i :: l) s rest h hn ?_, List.foldl_cons]
  · have hi := List.nodup_cons.mp hn
    have h1 := dropHead_missesAt (s := s) (ch := ch) (i := i) (by rw [h]; simp) .missed
    have hp := dropHead_records (l := l ++ rest) h hn .missed
    have ht := h1.works.deviceTime
    have hrec : ∀ j ∈ l ++ rest, (s.dropHead ch i .missed).record j = s.record j := fun j hj => h1.kept (by rw [hp]; exact hj)
    unfold State.missAfterSafed
    rw [if_pos ⟨(headWaits_iff s ch).mpr ⟨i, by simp [h], r, hr, hw⟩, hs⟩]
    unfold State.checkHeadAtEnd
    rw [h]
    simp only [List.cons_append, hr, hw, if_true, fate_barred hb]
    unfold State.checkHead
    rw [hp]
    refine settleList_front ch l _ rest hp hi.2 (h1.barred hb) ?_ ?_ ?_
    · have := h1.loads
      rw [hl] at this
      exact List.eq_nil_of_suffix_nil this
    · intro j hj
      rw [hrec j (by simp [hj]), ht]; exact hf j hj
    · exact nextNotDue_congr hrest ht fun j hj => hrec j (by simp [hj])
  · intro j hj
    rcases List.mem_cons.mp hj with rfl | hj
    · exact ⟨r, hr⟩
    · obtain ⟨q, hq, _⟩ := hf j hj
      exact ⟨q, hq⟩

/-! ### What the plans have outstanding at a release (R47, log 32) -/

/-- The plan has nothing outstanding that a release would let run late. -/
structure State.Settled (s : State) (ch : Channel) : Prop where
  loads    : s.openLoads ch = []
  settings : (s.plan ch).settings = 0
  passed   : s.headPassed ch = false

theorem takeOpenLoads_nil {ch : Channel} {s : State} (h : s.openLoads ch = []) (n : Nat) : takeOpenLoads ch n s = s := by
  cases n <;> simp [takeOpenLoads, h]

theorem settlePlan_settled {s : State} {ch : Channel} (h : s.Settled ch) : s.settlePlan ch = s := by
  unfold State.settlePlan
  simp only [takeOpenLoads_nil h.loads, h.settings, takeSettings, State.takePassed, h.passed, Bool.false_eq_true, if_false]

theorem settlePlans_settled {s : State} (h : ∀ ch, s.Settled ch) : s.settlePlans = s := by
  unfold State.settlePlans
  generalize allChannels = l
  induction l with
  | nil => rfl
  | cons c l ih => rw [List.foldl_cons, settlePlan_settled (h c), ih]

/-- An open load is taken first, and shortens what is left of them. -/
theorem takeLoad_shorter {s : State} {ch : Channel} (hn : (s.plan ch).records.Nodup) (hb : s.Barred ch) :
    (s.loadAtPlan ch).openLoads ch = [] ∨ ((s.loadAtPlan ch).plan ch).loads.length + 1 ≤ (s.plan ch).loads.length := by
  have h1 : s.MissesAt (s.dueBeforeLoad ch) ch := by
    unfold State.dueBeforeLoad
    split
    · exact refl s ch
    · exact dueAtPlan_barred hn hb
  have hw := (watch_addsReports (maskOf ch) (s.dueBeforeLoad ch) ((s.dueBeforeLoad ch).takeLoad ch)).same
  have e1 : (s.loadAtPlan ch).openLoads ch = ((s.dueBeforeLoad ch).takeLoad ch).openLoads ch := by
    unfold State.loadAtPlan; rw [hw]; rfl
  have e2 : (s.loadAtPlan ch).plan ch = ((s.dueBeforeLoad ch).takeLoad ch).plan ch := by
    unfold State.loadAtPlan; rw [hw]; rfl
  rw [e1, e2]
  have hn1 := h1.records.nodup hn
  have hb1 := h1.barred hb
  have hlen := h1.loads.length_le
  generalize s.dueBeforeLoad ch = u at *
  unfold State.takeLoad
  split
  · rename_i h; exact .inl h
  · rename_i t0 t1 rest h
    right
    have hle : (u.openLoads ch).length ≤ (u.plan ch).loads.length := (List.dropWhile_suffix _).length_le
    rw [h] at hle
    have h2 := (skipSpan_barred (s := u.modPlan ch fun p => { p with loads := rest }) (ch := ch) (by simpa using hn1)
      hb1 t1).loads.length_le
    simp only [modPlan_plan_self] at h2
    simp only [List.length_cons] at hle
    omega

/-- Fuel beyond the number of the loads changes nothing. -/
theorem takeOpenLoads_fuel (ch : Channel) : ∀ (n m : Nat) (s : State), (s.plan ch).records.Nodup → s.Barred ch →
    (s.openLoads ch = [] ∨ (s.plan ch).loads.length ≤ n ∧ (s.plan ch).loads.length ≤ m) →
    takeOpenLoads ch n s = takeOpenLoads ch m s
  | n, m, s, hn, hb, h => by
    by_cases h0 : s.openLoads ch = []
    · rw [takeOpenLoads_nil h0, takeOpenLoads_nil h0]
    · obtain ⟨h1, h2⟩ := h.resolve_left h0
      have hpos : 1 ≤ (s.plan ch).loads.length := by
        have := (List.dropWhile_suffix (l := (s.plan ch).loads) fun l => (s.span ch l.2).isEmpty).length_le
        have : 1 ≤ (s.openLoads ch).length := List.length_pos_iff.mpr h0
        unfold State.openLoads at *
        omega
      obtain ⟨n, rfl⟩ : ∃ k, n = k + 1 := ⟨n - 1, by omega⟩
      obtain ⟨m, rfl⟩ : ∃ k, m = k + 1 := ⟨m - 1, by omega⟩
      obtain ⟨l, ls, hl⟩ := List.exists_cons_of_ne_nil h0
      simp only [takeOpenLoads, hl]
      have hm := loadAtPlan_barred hn hb
      refine takeOpenLoads_fuel ch n m _ (hm.records.nodup hn) (hm.barred hb) ?_
      rcases takeLoad_shorter hn hb with h | h
      · exact .inl h
      · right; omega

/-- Settling a plan with an open load: the load is taken first. -/
theorem settlePlan_load {s : State} {ch : Channel} (hn : (s.plan ch).records.Nodup) (hb : s.Barred ch)
    (h : s.openLoads ch ≠ []) : s.settlePlan ch = (s.loadAtPlan ch).settlePlan ch := by
  have hpos : 1 ≤ (s.plan ch).loads.length := by
    have := (List.dropWhile_suffix (l := (s.plan ch).loads) fun l => (s.span ch l.2).isEmpty).length_le
    have : 1 ≤ (s.openLoads ch).length := List.length_pos_iff.mpr h
    unfold State.openLoads at *
    omega
  obtain ⟨k, hk⟩ : ∃ k, (s.plan ch).loads.length = k + 1 := ⟨_, (Nat.sub_add_cancel hpos).symm⟩
  obtain ⟨l, ls, hl⟩ := List.exists_cons_of_ne_nil h
  have hm := loadAtPlan_barred hn hb
  have e : takeOpenLoads ch (s.plan ch).loads.length s
      = takeOpenLoads ch ((s.loadAtPlan ch).plan ch).loads.length (s.loadAtPlan ch) := by
    rw [hk]
    simp only [takeOpenLoads, hl]
    refine takeOpenLoads_fuel ch _ _ _ (hm.records.nodup hn) (hm.barred hb) ?_
    rcases takeLoad_shorter hn hb with h | h
    · exact .inl h
    · right; omega
  unfold State.settlePlan
  simp only [e]

/-- A load passes over no record where it passes over none of the first. -/
theorem span_nil_iff (s : State) (ch : Channel) (t1 : Time) :
    s.span ch t1 = [] ↔ ∀ i ∈ (s.plan ch).records.head?, t1.toNat < s.startOf i := by
  unfold State.span
  cases (s.plan ch).records with
  | nil => simp
  | cons i l => by_cases h : s.startOf i ≤ t1.toNat <;> (simp [h]; try omega)

theorem openLoads_nil_iff (s : State) (ch : Channel) : s.openLoads ch = [] ↔ ∀ l ∈ (s.plan ch).loads, s.span ch l.2 = [] := by
  unfold State.openLoads
  rw [List.dropWhile_eq_nil_iff]
  simp

/-- In a plan that is in order, no load comes to be outstanding because records are missed. -/
theorem State.MissesAt.openLoads_nil {s t : State} {ch : Channel} (h : s.MissesAt t ch)
    (ho : ((s.plan ch).records.map s.startOf).Pairwise (· ≤ ·)) (hn : s.openLoads ch = []) : t.openLoads ch = [] := by
  rw [openLoads_nil_iff] at hn ⊢
  intro l hl
  have hs := (span_nil_iff s ch l.2).mp (hn l (h.loads.subset hl))
  rw [span_nil_iff]
  intro i hi
  have hm := List.mem_of_mem_head? hi
  rw [h.startOf hm]
  have hm' := h.records.subset hm
  cases hr : (s.plan ch).records with
  | nil => rw [hr] at hm'; cases hm'
  | cons j js =>
    rw [hr] at hs ho hm'
    have hj := hs j (by simp)
    rcases List.mem_cons.mp hm' with rfl | hi'
    · exact hj
    · have := (List.pairwise_cons.mp ho).1 (s.startOf i) (List.mem_map_of_mem hi')
      omega

/-- Settling a plan with no open load and a latch setting left: the setting is taken first. -/
theorem settlePlan_setting {s : State} {ch : Channel} (hn : (s.plan ch).records.Nodup)
    (ho : ((s.plan ch).records.map s.startOf).Pairwise (· ≤ ·)) (hl : s.openLoads ch = []) (h : 0 < (s.plan ch).settings) :
    s.settlePlan ch = (s.settingAtPlan ch).settlePlan ch := by
  have hm := settingAtPlan_missesAt hn
  have hk : ((s.settingAtPlan ch).plan ch).settings + 1 = (s.plan ch).settings := by
    have hw := (watch_addsReports (maskOf ch) s (s.takeSettingAtPlan ch)).same
    have e : (s.settingAtPlan ch).plan ch = (s.takeSettingAtPlan ch).plan ch := by unfold State.settingAtPlan; rw [hw]; rfl
    rw [e]
    unfold State.takeSettingAtPlan
    rw [if_pos h, missDueList_settings]
    simp only [modPlan_plan_self]
    omega
  unfold State.settlePlan
  simp only [takeOpenLoads_nil hl, takeOpenLoads_nil (hm.openLoads_nil ho hl)]
  rw [← hk]
  rfl

/-- Settling a plan with no open load, no setting left and a head whose start was passed: the due handling is all. -/
theorem settlePlan_passed {s : State} {ch : Channel} (hn : (s.plan ch).records.Nodup) (hb : s.Barred ch)
    (ho : ((s.plan ch).records.map s.startOf).Pairwise (· ≤ ·)) (hl : s.openLoads ch = []) (hs : (s.plan ch).settings = 0)
    (h : s.headPassed ch = true) : s.settlePlan ch = (s.dueAtPlan ch).settlePlan ch := by
  have hm := dueAtPlan_barred hn hb
  rw [settlePlan_settled (s := s.dueAtPlan ch) ⟨hm.openLoads_nil ho hl, by have := hm.settings; omega, headPassed_dueAtPlan hn hb⟩]
  unfold State.settlePlan
  simp only [takeOpenLoads_nil hl, hs, takeSettings, State.takePassed, h, if_true]

/-- What is missed at one plan leaves another as settled as it was. -/
theorem State.MissesAt.settled {s t : State} {ch c : Channel} (h : s.MissesAt t ch) (hh : s.Held) (hc : c ≠ ch)
    (hs : s.Settled c) : t.Settled c := by
  have hp := h.others c hc
  have hd := h.works.deviceTime
  have hrec : ∀ i ∈ (s.plan c).records, t.record i = s.record i := by
    intro i hi
    rcases h.missed i with e | ⟨a, _, _⟩
    · exact e
    · obtain ⟨r, h1, h2, _⟩ := (hh.planned c i).mp hi
      obtain ⟨r', h1', h2', _⟩ := (hh.planned ch i).mp a
      rw [h1] at h1'; cases h1'
      exact absurd (h2.symm.trans h2') hc
  have hspan : ∀ t1, t.span c t1 = s.span c t1 := by
    intro t1
    unfold State.span
    rw [hp]
    revert hrec
    generalize (s.plan c).records = l
    intro hrec
    induction l with
    | nil => rfl
    | cons i l ih =>
      have e : t.startOf i = s.startOf i := by unfold State.startOf; rw [hrec i (by simp)]
      simp only [List.takeWhile_cons, e, ih fun j hj => hrec j (by simp [hj])]
  have hopen : t.openLoads c = s.openLoads c := by
    unfold State.openLoads
    rw [hp]
    simp only [hspan]
  refine ⟨hopen.trans hs.loads, by rw [hp]; exact hs.settings, ?_⟩
  rw [← hs.passed]
  unfold State.headPassed State.isDue State.planTime
  rw [hp, hopen, hd]
  cases hh' : (s.plan c).records.head? with
  | none => rfl
  | some i => simp only [Option.any_some]; rw [hrec i (List.mem_of_mem_head? hh')]

/-- Settling the plans takes first the event of the lowest channel that is not settled. -/
theorem settlePlans_first {s v : State} {ch : Channel} (hh : s.Held) (hv : s.MissesAt v ch)
    (hlow : ∀ c < ch, s.Settled c) (h : s.settlePlan ch = v.settlePlan ch) : s.settlePlans = v.settlePlans := by
  unfold State.settlePlans
  have key : ∀ (l : List Channel), (∀ a b, l = a ++ b → ∀ x ∈ a, ∀ y ∈ b, x < y) → ch ∈ l →
      l.foldl (fun s c => s.settlePlan c) s = l.foldl (fun s c => s.settlePlan c) v := by
    intro l
    induction l with
    | nil => intro _ hm; cases hm
    | cons c l ih =>
      intro hsort hm
      rw [List.foldl_cons, List.foldl_cons]
      by_cases hc : c = ch
      · subst hc; rw [h]
      · have hm' : ch ∈ l := by
          rcases List.mem_cons.mp hm with e | e
          · exact absurd e.symm hc
          · exact e
        have hlt : c < ch := hsort [c] l rfl c (by simp) ch hm'
        rw [settlePlan_settled (hlow c hlt), settlePlan_settled (hv.settled hh hc (hlow c hlt))]
        exact ih (fun a b e x hx y hy => hsort (c :: a) b (by rw [e]; rfl) x (by simp [hx]) y hy) hm'
  refine key allChannels ?_ (by unfold allChannels; fin_cases ch <;> decide)
  have hp : allChannels.Pairwise (· < ·) := by decide
  intro a b e x hx y hy
  rw [e] at hp
  exact (List.pairwise_append.mp hp).2.2 x hx y hy

end Sys2Proof.Machine
end

