-- ==== Sys2Proof/WellFormed.lean ====
section
/-!
DEFINITION. What the types of a command's operands do not say by themselves.
A channel is a `Fin 8` and the straps are two bits, so only the bytes of a frame are checked.
-/
namespace Sys2Proof

/-- REQUEST_FRAME_RECEIVED ends a frame, so it brings one byte or more, and no frame is longer than 132 bytes (R162). -/
def Instr.wellFormed : Instr → Bool
  | .requestFrameReceived bytes => 1 ≤ bytes.length && bytes.length ≤ 132
  | .tick _ | .syncEdge _ | .skippedSpanRule _ | .headDue _ | .channelEnd _ | .pulseExpiry _ | .trainPhaseExpiry _
  | .squarePhaseExpiry _ | .delayExpiry _ | .pulseEnd _ | .strobeExpiry _ | .armedWindowExpiry _ | .countWindowExpiry _
  | .filterTimerExpiry _ | .edge _ | .snapshotCapture | .safenFallingEdge | .safeSettingAtEngine _
  | .safeSettingAtPlan _ | .safeReleaseAtEngine _ | .groupTimerExpiry | .retryTimerExpiry | .gapTimerExpiry
  | .linkReset | .replyFromCache | .badKind | .replySend | .noticeSend | .identify | .readStatus | .readTime
  | .setGlobal | .setChannel | .readConfig | .schedule | .stagingSchedule | .cancel | .cancelChannel | .queryAction
  | .queryChannel | .groupBegin | .groupCommit | .groupAbort | .snapshot | .waitIdle | .armSync | .cancelTag
  | .noticeAck | .enterSafe | .releaseSafe | .restart | .powerOnReset | .resetRelease _ _ | .byteReceived _
  | .frameTransmitted => true

end Sys2Proof
end

