-- ==== Sys2Proof/Tests/Slice0.lean ====
section
/-!
SUPPORT. The model's own tests. Each command shows its effect on a small state, the ill-formed command is refused, and for
every statement that has hypotheses a witness shows states and operands that meet them, each clause at a boundary of its range.
-/
open Sys2Proof Sys2Proof.Machine

namespace Sys2Proof.Tests

set_option Elab.async false

/-! ### Helpers -/

/-- The state after a command. -/
def after (c : Instr) (s : State) : State :=
  match exec c s with
  | .next t => t
  | .fault _ | .refused _ => s

/-- A record of channel 0 in a state. -/
def recOf (params : Params) (start : Time) (policy : Policy) (state : RecState) : Record :=
  { channel := 0, params := params, start := start, policy := policy, report := true, tag := none, state := state }

/-- A progress part that has just begun a phase. -/
def progOf (phase : Phase) (remaining : Option Nat) : Progress :=
  { activeLevel := true, actualStart := 90, late := false, phase := phase, phaseRemaining := remaining, windowRemaining := none,
    windowDue := false, pulses := 0, firings := 0, edges := 0, overruns := 0, activeBegan := false }

/-- Channel 0 enabled and IDLE at device time 100. -/
def idle0 : State :=
  { State.reset with deviceTime := 100 }.modEngine 0 fun e =>
    { e with state := .idle, config := { e.config with enabled := true } }

/-- A record put into a slot of the pool and held by the block that its state names. -/
def place (s : State) (i : SlotNo) (r : Record) : State :=
  let s1 := { s.setRecord i r with freeList := s.freeList.filter (· ≠ i) }
  match r.state with
  | .planned | .waiting => s1.modPlan r.channel fun p => { p with records := p.records ++ [i] }
  | .staged => { s1 with group := s.group.map fun g => { g with staging := g.staging ++ [i] } }
  | .current => s1

/-- An action of channel 0 that is CURRENT in slot 9. -/
def busy0 (params : Params) (st : ChanState) (p : Progress) : State :=
  (place idle0 9 (recOf params 90 .wait .current)).modEngine 0 fun e =>
    { e with state := st, outputLevel := true, current := some { slot := 9, progress := p } }

/-- The current action of `busy0`. -/
def run0 (p : Progress) : Running := { slot := 9, progress := p }

/-- A PULSE of 5 ticks under way. -/
def pulsing : State := busy0 (.pulse 5) .running (progOf .active (some 3))

/-- A request at the head of the Receive Queue. -/
def rqOf (kind : Byte) (fields : List Byte) : Request := { seq := 7, kind := kind, fields := fields }

/-- The state with one request in the Receive Queue. -/
def ask (s : State) (kind : Byte) (fields : List Byte) : State := { s with rxQueue := [rqOf kind fields] }

/-- The last reply: its status and its fields. -/
def reply (s : State) : Option (Status × List Byte) := s.replies.getLast?.map fun r => (r.status, r.fields)

/-- A running state with empty reply queue and cache carries out the request that it is asked. -/
theorem ask_carries {s : State} (kind : Byte) (fields : List Byte) (h : s.inReset = false) (hr : s.replies = [])
    (hc : s.cache = []) : (ask s kind fields).Carries (rqOf kind fields) [] :=
  ⟨h, rfl, by simp [ask, hr], Or.inr (by simp [ask, hc])⟩

/-- The record of a slot is held by the block that its state names. -/
def placed (s : State) (i : SlotNo) : Option Record → Bool
  | none => true
  | some r =>
    decide ((s.engine r.channel).state ≠ .off) &&
    match r.state with
    | .planned | .waiting => (s.plan r.channel).records.contains i
    | .staged => s.group.any fun g => g.staging.contains i
    | .current => (s.engine r.channel).current.any fun run => decide (run.slot = i)

/-- The slots with their numbers. -/
def numberedSlots (s : State) : List (SlotNo × Slot) := (List.finRange 256).zip s.slots.toArray.toList

theorem numberedSlots_eq (s : State) : numberedSlots s = (List.finRange 256).map fun i => (i, s.slot i) := by
  apply List.ext_getElem
  · simp [numberedSlots]
  · intro i h1 h2
    simp [numberedSlots, State.slot, getAt]

/-- A check of `State.Held` that the kernel evaluates quickly. -/
def heldCheck (s : State) : Bool :=
  decide (s.freeList = ((numberedSlots s).filter fun p => p.2.record.isNone).map (·.1)) &&
  (numberedSlots s).all (fun p => decide (1 ≤ p.2.gen ∧ p.2.gen ≤ 255) && placed s p.1 p.2.record) &&
  allChannels.all (fun ch => decide (s.plan ch).records.Nodup &&
    ((s.plan ch).records.all fun i => (s.record i).any fun r =>
      decide (r.channel = ch ∧ (r.state = .planned ∨ r.state = .waiting))) &&
    ((s.engine ch).current.all fun run => (s.record run.slot).any fun r => decide (r.channel = ch ∧ r.state = .current)) &&
    decide ((s.engine ch).current.isSome = (s.engine ch).state.busy)) &&
  s.group.all fun g => decide g.staging.Nodup && g.staging.all fun i => (s.record i).any fun r => decide (r.state = .staged)

theorem held_of_check {s : State} (h : heldCheck s = true) : s.Held := by
  simp only [heldCheck, numberedSlots_eq, List.filter_map, List.map_map, List.all_map, Bool.and_eq_true, decide_eq_true_eq,
    List.all_eq_true, List.mem_finRange, forall_const, Function.comp_def] at h
  obtain ⟨⟨⟨hf, hs⟩, hc⟩, hg⟩ := h
  have hplaced : ∀ i r, s.record i = some r → placed s i (some r) = true := by
    intro i r hr; rw [← hr]; exact (hs i).2
  refine ⟨?_, ?_, fun i => (hs i).1, ?_, ?_, ?_, ?_, ?_, ?_, ?_⟩
  · rw [hf]; simpa using (List.nodup_finRange 256).filter _
  · intro i; rw [hf]; simp [State.record]
  · intro ch; exact (hc ch (mem_allChannels ch)).1.1.1
  · intro ch i
    constructor
    · intro hi
      have := (hc ch (mem_allChannels ch)).1.1.2 i hi
      rw [Option.any_eq_true] at this
      obtain ⟨r, h1, h2⟩ := this
      exact ⟨r, h1, by simpa using h2⟩
    · rintro ⟨r, h1, rfl, h3⟩
      have := hplaced i r h1
      rcases h3 with h3 | h3 <;> · simp only [placed, h3, Bool.and_eq_true] at this; simpa using this.2
  · intro g h; rw [h] at hg; simp only [Option.all_some, Bool.and_eq_true, decide_eq_true_eq] at hg; exact hg.1
  · intro i
    constructor
    · rintro ⟨g, h1, h2⟩
      rw [h1] at hg
      simp only [Option.all_some, Bool.and_eq_true, decide_eq_true_eq, List.all_eq_true] at hg
      have := hg.2 i h2
      rw [Option.any_eq_true] at this
      obtain ⟨r, h1, h2⟩ := this
      exact ⟨r, h1, by simpa using h2⟩
    · rintro ⟨r, h1, h2⟩
      have := hplaced i r h1
      simp only [placed, h2, Bool.and_eq_true] at this
      obtain ⟨g, h3, h4⟩ := (Option.any_eq_true _ _).mp this.2
      exact ⟨g, h3, by simpa using h4⟩
  · intro ch i
    constructor
    · rintro ⟨run, h1, rfl⟩
      have := (hc ch (mem_allChannels ch)).1.2
      rw [h1] at this
      simp only [Option.all_some] at this
      rw [Option.any_eq_true] at this
      obtain ⟨r, h1, h2⟩ := this
      exact ⟨r, h1, by simpa using h2⟩
    · rintro ⟨r, h1, rfl, h3⟩
      have := hplaced i r h1
      simp only [placed, h3, Bool.and_eq_true] at this
      obtain ⟨run, h3, h4⟩ := (Option.any_eq_true _ _).mp this.2
      exact ⟨run, h3, by simpa using h4⟩
  · intro ch; exact (hc ch (mem_allChannels ch)).2
  · intro ch ho i r h1 h2
    have := hplaced i r h1
    simp only [placed, Bool.and_eq_true, decide_eq_true_eq] at this
    exact this.1 (h2 ▸ ho)

/-- A check of `State.PlansKept` that the kernel evaluates quickly. -/
def plansCheck (s : State) : Bool :=
  allChannels.all (fun ch => decide (((s.plan ch).records.map s.startOf).Pairwise (· ≤ ·)) &&
    ((s.plan ch).records.tail.all fun i => (s.record i).all fun r => decide (r.state = .planned)) &&
    ((s.plan ch).loads.all fun l => decide (l.1.toNat ≤ s.deviceTime.toNat)) &&
    (s.latch || decide ((s.plan ch).settings = 0))) &&
  (numberedSlots s).all fun p => p.2.record.all fun r =>
    !decide (r.state = .waiting) || decide (r.start.toNat ≤ s.deviceTime.toNat)

theorem plansKept_of_check {s : State} (h : plansCheck s = true) : s.PlansKept := by
  simp only [plansCheck, numberedSlots_eq, List.all_map, Bool.and_eq_true, decide_eq_true_eq, List.all_eq_true,
    List.mem_finRange, forall_const, Function.comp_def] at h
  obtain ⟨hc, hs⟩ := h
  refine ⟨fun ch => (hc ch (mem_allChannels ch)).1.1.1, ?_, ?_, fun ch => (hc ch (mem_allChannels ch)).1.2, ?_⟩
  · intro ch i hi r hr
    have := (hc ch (mem_allChannels ch)).1.1.2 i hi
    rw [hr, Option.all_some] at this
    simpa using this
  · intro i r hr hw
    have := hs i
    rw [show (s.slot i).record = some r from hr, Option.all_some] at this
    simpa [hw] using this
  · intro hl ch
    simpa [hl] using (hc ch (mem_allChannels ch)).2

/-- A check of `State.TagsKept` that the kernel evaluates quickly. -/
def tagsCheck (s : State) : Bool :=
  decide (s.tagsOpen.map (·.tag) ++ s.tagsWaiting.map (·.tag)).Nodup &&
  (s.tagsOpen.map (·.tag) ++ s.tagsWaiting.map (·.tag)).all (fun g => decide (1 ≤ g ∧ g ≤ 255)) &&
  decide (1 ≤ s.nextTag ∧ s.nextTag ≤ 255) &&
  s.tagsOpen.all (fun e => match e.subject with
    | .action h => (numberedSlots s).any fun p => p.2.record.any fun r => decide (r.tag = some e.tag ∧ s.handle p.1 = h)
    | .sync => s.syncArm.any fun arm => decide (arm.tag = e.tag)
    | .snapshot m => s.snapshot.any fun sc => decide (sc.tag = e.tag ∧ sc.mask = m)
    | .idleWait _ => true) &&
  (numberedSlots s).all (fun p => p.2.record.all fun r => r.tag.all fun g =>
    s.tagsOpen.any fun e => decide (e.tag = g ∧ e.subject = .action (s.handle p.1))) &&
  s.syncArm.all (fun arm => s.tagsOpen.any fun e => decide (e.tag = arm.tag ∧ e.subject = .sync)) &&
  s.snapshot.all fun sc => s.tagsOpen.any fun e => decide (e.tag = sc.tag ∧ e.subject = .snapshot sc.mask)

theorem tagsKept_of_check {s : State} (h : tagsCheck s = true) : s.TagsKept := by
  simp only [tagsCheck, numberedSlots_eq, List.all_map, List.any_map, Bool.and_eq_true, decide_eq_true_eq, List.all_eq_true,
    List.mem_finRange, forall_const, Function.comp_def] at h
  obtain ⟨⟨⟨⟨⟨⟨h1, h2⟩, h3⟩, h4⟩, h5⟩, h6⟩, h7⟩ := h
  refine ⟨h1, h2, h3, ?_, ?_, ?_, ?_, ?_, ?_⟩
  · intro e he h hs
    have := h4 e he
    rw [hs] at this
    simp only [List.any_eq_true, Option.any_eq_true, decide_eq_true_eq] at this
    obtain ⟨i, _, r, hr, ht, hh⟩ := this
    exact ⟨i, r, hr, hh, ht⟩
  · intro i r g hr hg
    have := h5 i
    rw [show (s.slot i).record = some r from hr, Option.all_some, hg, Option.all_some] at this
    simpa [List.any_eq_true] using this
  · intro e he hs
    have := h4 e he
    rw [hs] at this
    simpa [Option.any_eq_true] using this
  · intro arm ha
    rw [ha, Option.all_some] at h6
    simpa [List.any_eq_true] using h6
  · intro e he m hs
    have := h4 e he
    rw [hs] at this
    simpa [Option.any_eq_true] using this
  · intro sc hsc
    rw [hsc, Option.all_some] at h7
    simpa [List.any_eq_true] using h7

/-- The check of `State.NextNotDue`. -/
theorem nextNotDue_of_check {s : State} {rest : List SlotNo}
    (h : (rest.head?.all fun j => (s.record j).all fun r => decide (s.deviceTime.toNat < r.start.toNat)) = true) :
    s.NextNotDue rest := by
  intro j hj r hr
  rw [Option.mem_def.mp hj, Option.all_some, hr, Option.all_some] at h
  simpa using h


/-! ### The ill-formed command -/

theorem test_wellFormed_refuses_no_bytes : (Instr.requestFrameReceived []).wellFormed = false := by decide
theorem test_wellFormed_refuses_a_long_frame :
    (Instr.requestFrameReceived (List.replicate 133 { value := 0, stop := true })).wellFormed = false := by decide +kernel
theorem test_wellFormed_takes_the_longest_frame :
    (Instr.requestFrameReceived (List.replicate 132 { value := 0, stop := true })).wellFormed = true := by decide +kernel
theorem test_decodeTableWord_reads_nothing : decodeTableWord 8 0 = none ∧ State.reset.withFetchWord 8 0 = State.reset :=
  ⟨rfl, rfl⟩

/-! ### One effect of each command -/

/-- Channel 0 with two records planned, in slots 1 and 2. -/
def planned2 (start1 start2 : Time) : State :=
  place (place idle0 1 (recOf (.pulse 5) start1 .wait .planned)) 2 (recOf (.pulse 6) start2 .skip .planned)

/-- An open group that stages a PULSE of channel 0 in slot 3, its start as soon as possible, with a tag. -/
def staged3 : State :=
  place { idle0 with group := some { id := 1, staging := [], timer := 0 }, tagsOpen := [{ tag := 5, subject := .action 0x0103 }] } 3
    { recOf (.pulse 5) 0 .wait .staged with tag := some 5 }

/-- Three queued notices, of which one is sent. -/
def noticed : State :=
  { State.reset with
    linkOpen := true
    notices := [{ number := 1, body := .loss 1 0, sent := true }, { number := 2, body := .loss 2 0, sent := false }]
    nextNumber := 3
    retryTimer := some 7 }

theorem test_tick :
    let t := after (.tick { sync := true, safen := false, trg := 1 }) { pulsing with syncPrev := some false }
    t.deviceTime = 101 ∧ t.syncSampled = some .rising ∧ t.safenFall = true ∧ (t.trigger 0).filtered = some true ∧
    (t.engine 0).current.map (·.progress.phaseRemaining) = some (some 2) := by decide +kernel
theorem test_syncEdge :
    let t := after (.syncEdge .rising) { idle0 with
      syncPrev := some false, syncArm := some { value := 500, pol := .rising, tag := 4 },
      tagsOpen := [{ tag := 4, subject := .sync }] }
    t.deviceTime = 500 ∧ t.syncArm = none ∧ t.tagsOpen = [] ∧ (t.plan 0).loads = [(100, 500)] ∧
    t.notices.getLast?.map (·.body) = some (.done 4 .applied (.sync 500 .rising 100 500)) := by decide +kernel
theorem test_skippedSpanRule :
    let t := after (.skippedSpanRule 0) ({ planned2 110 120 with deviceTime := 200 }.modPlan 0 fun p =>
      { p with loads := [(100, 200)] })
    t.record 1 = none ∧ (t.engine 0).current.map (·.slot) = some 2 ∧ t.notices.length = 2 := by decide +kernel
theorem test_skippedSpanRule_takes_the_earlier_due_head_first :
    let t := after (.skippedSpanRule 0) ({ planned2 100 150 with deviceTime := 200 }.modPlan 0 fun p =>
      { p with loads := [(100, 200)] })
    (t.engine 0).current.map (·.slot) = some 1 ∧ t.record 2 = none ∧ (t.plan 0).loads = [] := by decide +kernel
theorem test_headDue :
    let t := after (.headDue 0) (planned2 100 101)
    (t.engine 0).state = .running ∧ (t.engine 0).current.map (·.slot) = some 1 ∧ (t.plan 0).records = [2] := by decide +kernel
theorem test_channelEnd :
    let t := after (.channelEnd 0) ((place idle0 1 (recOf (.pulse 5) 90 .wait .waiting)).modPlan 0 fun p =>
      { p with endHanded := true })
    (t.engine 0).current.map (·.progress.late) = some true ∧ (t.plan 0).records = [] := by decide +kernel
theorem test_pulseExpiry :
    let t := after (.pulseExpiry 0) (busy0 (.pulse 5) .running (progOf .active (some 0)))
    (t.engine 0).state = .idle ∧ t.record 9 = none ∧ (t.slot 9).gen = 2 ∧ (t.plan 0).endHanded = true := by decide +kernel
theorem test_trainPhaseExpiry :
    let t := after (.trainPhaseExpiry 0) (busy0 (.train 2 9 0) .running (progOf .active (some 0)))
    (t.engine 0).outputLevel = false ∧ (t.engine 0).current.map (·.progress.phaseRemaining) = some (some 7) := by
  decide +kernel
theorem test_squarePhaseExpiry :
    let t := after (.squarePhaseExpiry 0) (busy0 (.square 9) .running (progOf .rest (some 0)))
    (t.engine 0).outputLevel = true ∧ (t.engine 0).current.map (·.progress.phaseRemaining) = some (some 5) := by
  decide +kernel
theorem test_delayExpiry :
    let t := after (.delayExpiry 0) (busy0 (.armed 4 0 3 0 .extend) .firing (progOf .delay (some 0)))
    (t.engine 0).current.map (fun r => (r.progress.phase, r.progress.phaseRemaining)) = some (.active, some 4) := by
  decide +kernel
theorem test_pulseEnd :
    let t := after (.pulseEnd 0) (busy0 (.armed 4 0 3 0 .extend) .firing (progOf .active (some 0)))
    (t.engine 0).state = .armed ∧ (t.engine 0).current.map (·.progress.firings) = some 1 := by decide +kernel
theorem test_strobeExpiry :
    (after (.strobeExpiry 0) (busy0 (.count 4 1 0) .firing (progOf .strobe (some 0)))).freeList.getLast? = some 9 := by
  decide +kernel
theorem test_armedWindowExpiry :
    let t := after (.armedWindowExpiry 0) (busy0 (.armed 4 0 0 9 .extend) .armed
      { progOf .listen none with windowRemaining := some 0, windowDue := true })
    (t.engine 0).state = .idle ∧ t.notices.getLast?.any (fun n => match n.body with
      | .ended b => decide (b.result = .noTrigger)
      | _ => false) = true := by decide +kernel
theorem test_countWindowExpiry :
    let t := after (.countWindowExpiry 0) (busy0 (.count 4 3 9) .armed
      { progOf .listen none with windowRemaining := some 0, windowDue := true, edges := 1 })
    (t.engine 0).state = .idle ∧ t.notices.getLast?.any (fun n => match n.body with
      | .ended b => decide (b.result = .short ∧ b.edges = 1)
      | _ => false) = true := by decide +kernel
theorem test_filterTimerExpiry :
    let t := after (.filterTimerExpiry 0) (idle0.setTrigger 0 { filtered := some false, sample := true, filterTimer := some 0 })
    (t.trigger 0).filtered = some true ∧ (t.engine 0).edgesHanded = 1 := by decide +kernel
theorem test_edge :
    let t := after (.edge 0) ((busy0 (.armed 4 0 3 0 .extend) .armed (progOf .listen none)).modEngine 0 fun e =>
      { e with edgesHanded := 1 })
    (t.engine 0).state = .firing ∧
    (t.engine 0).current.map (fun r => (r.progress.phase, r.progress.edges)) = some (.delay, 1) := by decide +kernel
theorem test_snapshotCapture :
    let t := after .snapshotCapture { idle0 with
      snapshot := some { mask := 1, time := 100, tag := 2, due := some (100, false) },
      tagsOpen := [{ tag := 2, subject := .snapshot 1 }] }
    t.snapshot = none ∧ t.notices.length = 2 ∧ t.tagsOpen = [] := by decide +kernel
theorem test_safenFallingEdge :
    let t := after .safenFallingEdge { idle0 with safenSample := false, safenFall := true }
    t.latch = true ∧ t.cause = .line ∧ (t.engine 0).safeHanded = [.setting] ∧ (t.plan 0).settings = 1 := by decide +kernel
theorem test_safeSettingAtEngine :
    let t := after (.safeSettingAtEngine 0) (pulsing.modEngine 0 fun e => { e with safeHanded := [.setting] })
    (t.engine 0).state = .safed ∧ (t.engine 0).out = false ∧ t.record 9 = none := by decide +kernel
theorem test_safeSettingAtEngine_misses_a_waiting_head :
    let s := (place pulsing 1 (recOf (.pulse 5) 95 .wait .waiting)).modEngine 0 fun e => { e with safeHanded := [.setting] }
    let t := after (.safeSettingAtEngine 0) s
    let u := after (.safeSettingAtEngine 0) (s.modPlan 0 fun p => { p with settings := 1 })
    ((t.engine 0).state = .safed ∧ t.record 1 = none ∧ (t.plan 0).records = []) ∧
    (u.engine 0).state = .safed ∧ (u.plan 0).records = [1] := by decide +kernel
theorem test_safeSettingAtPlan :
    let t := after (.safeSettingAtPlan 0) ((planned2 100 101).modPlan 0 fun p => { p with settings := 1 })
    (t.plan 0).records = [2] ∧ t.record 1 = none := by decide +kernel
theorem test_safeReleaseAtEngine :
    let t := after (.safeReleaseAtEngine 0) ((planned2 100 101).modEngine 0 fun e =>
      { e with state := .safed, safeHanded := [.release] })
    (t.engine 0).state = .running ∧ (t.plan 0).records = [2] := by decide +kernel
theorem test_safeReleaseAtEngine_starts_no_head_that_was_passed :
    let t := after (.safeReleaseAtEngine 0) ((planned2 99 101).modEngine 0 fun e =>
      { e with state := .safed, safeHanded := [.release] })
    (t.engine 0).state = .idle ∧ t.record 1 = none ∧ (t.plan 0).records = [2] := by decide +kernel
theorem test_safeReleaseAtEngine_starts_no_waiting_head :
    let t := after (.safeReleaseAtEngine 0) ((place idle0 1 (recOf (.pulse 5) 95 .wait .waiting)).modEngine 0 fun e =>
      { e with state := .safed, safeHanded := [.release] })
    (t.engine 0).state = .idle ∧ (t.plan 0).records = [1] := by decide +kernel
theorem test_groupTimerExpiry :
    let t := after .groupTimerExpiry staged3
    t.group = none ∧ t.record 3 = none ∧ t.notices.getLast?.map (·.body) = some (.groupExpired 1 1 .timeout) := by
  decide +kernel
theorem test_retryTimerExpiry :
    let t := after .retryTimerExpiry { noticed with retryTimer := some 0, expiries := 7 }
    t.stall = true ∧ t.expiries = 8 ∧ t.notices.map (·.sent) = [false, false] := by decide +kernel
theorem test_gapTimerExpiry :
    let t := after .gapTimerExpiry { State.reset with asm := .length }
    t.asm = .hunt ∧ t.counters.gap = 1 := by decide +kernel
theorem test_requestFrameReceived :
    (after (.requestFrameReceived ((frameOf [0x51, 7, 0x01]).map fun b => { value := b, stop := true })) State.reset).rxQueue
      = [rqOf 0x01 []] := by decide +kernel
theorem test_linkReset :
    let t := after .linkReset { noticed with rxQueue := [rqOf 1 []], lowSpan := true }
    t.rxQueue = [] ∧ t.linkOpen = false ∧ t.retryTimer = none ∧ t.notices.map (·.sent) = [false, false] := by decide +kernel
theorem test_linkReset_needs_a_low_span :
    after .linkReset { noticed with rxQueue := [rqOf 1 []] } = { noticed with rxQueue := [rqOf 1 []] } := by decide +kernel
theorem test_replyFromCache :
    let r : Reply := { seq := 7, kind := 1, status := .ok, fields := [] }
    (after .replyFromCache { ask State.reset 1 [] with cache := [r] }).replies = [r] := by decide +kernel
theorem test_badKind : reply (after .badKind (ask State.reset 0x77 [])) = some (.badKind, []) := by decide +kernel
theorem test_replySend :
    let t := after .replySend { State.reset with replies := [{ seq := 7, kind := 0x50, status := .ok, fields := [] }] }
    t.replies = [] ∧ t.tx = some (frameOf [0x52, 7, 0x50, 0]) := by decide +kernel
theorem test_noticeSend :
    let t := after .noticeSend noticed
    t.notices.map (·.sent) = [true, true] ∧ t.tx = some (frameOf [0x53, 2, 0, 5, 2, 0, 0, 0, 0, 0, 0, 0]) := by
  decide +kernel
theorem test_identify :
    reply (after .identify (ask State.reset 0x01 [])) = some (.ok, [0xA7, 0, 0xE8, 8, 1, 8, 0, 1, 64, 32, 16, 32]) := by
  decide +kernel
theorem test_readStatus :
    let t := after .readStatus { ask State.reset 0x02 [1] with counters := { Counters.zero with gap := 258 } }
    t.counters = .zero ∧ (reply t).map (fun r => r.2.take 6) = some [0, 0, 0, 0, 2, 1] := by decide +kernel
theorem test_readTime :
    reply (after .readTime (ask idle0 0x03 [])) = some (.ok, [100, 0, 0, 0, 0, 0, 0, 0, 0, 0, 0, 0, 0, 0, 0]) := by
  decide +kernel
theorem test_setGlobal :
    let t := after .setGlobal (ask State.reset 0x04 [1, 0x10, 0x27, 0, 0, 0, 0, 0, 0, 0, 0, 0, 0])
    t.minLead = 10000 ∧ t.horizon = 2 ^ 32 ∧ (reply t).map (·.1) = some .ok := by decide +kernel
theorem test_setChannel :
    let t := after .setChannel (ask State.reset 0x05 [7, 1, 1, 2, 9])
    (t.engine 7).state = .idle ∧ (t.engine 7).out = true ∧ (t.engine 7).restLevel = true ∧
    (t.engine 7).config = { enabled := true, safeLevel := true, polarity := .both, filter := 9 } := by decide +kernel
theorem test_setChannel_takes_the_filter_expiry_first :
    let t := after .setChannel (ask (idle0.setTrigger 0 { filtered := some false, sample := true, filterTimer := some 0 })
      0x05 [0, 1, 0, 1, 0])
    (t.trigger 0).filtered = some true ∧ (t.engine 0).edgesHanded = 1 ∧ (t.engine 0).config.polarity = .falling := by
  decide +kernel
theorem test_readConfig :
    (reply (after .readConfig (ask State.reset 0x06 []))).map (fun r => r.2.drop 32)
      = some [100, 0, 0, 0, 0, 0, 1, 0, 0xE8, 3, 50, 0] := by decide +kernel
theorem test_schedule :
    let t := after .schedule (ask idle0 0x10 (scheduleBody 0 1 2 1 1 0 0 0 5 0 0 0 0 0))
    reply t = some (.deferred, [0, 1, 1]) ∧ (t.plan 0).records = [0] ∧ (t.record 0).map (·.start) = some 200 := by
  decide +kernel
theorem test_stagingSchedule :
    let t := after .stagingSchedule (ask { idle0 with group := some { id := 1, staging := [], timer := 9 } } 0x10
      (scheduleBody 0 0 2 1 0 1 0 1 0 0 0 0 0 0))
    reply t = some (.staged, [0, 1, 0]) ∧ t.group.map (·.staging) = some [0] := by decide +kernel
theorem test_cancel :
    let t := after .cancel (ask pulsing 0x11 [9, 1])
    reply t = some (.ok, []) ∧ (t.engine 0).out = false ∧ (t.engine 0).state = .idle ∧ t.record 9 = none := by decide +kernel
theorem test_cancelChannel :
    let t := after .cancelChannel (ask (planned2 500 600) 0x12 [0, 1])
    reply t = some (.ok, [2]) ∧ (t.plan 0).records = [] ∧ t.freeList.drop 254 = [1, 2] := by decide +kernel
theorem test_queryAction :
    (reply (after .queryAction (ask pulsing 0x13 [9, 1]))).map (fun r => r.2.take 14)
      = some [4, 0, 1, 90, 0, 0, 0, 0, 0, 3, 0, 3, 0, 0] := by decide +kernel
theorem test_queryChannel :
    reply (after .queryChannel (ask (planned2 500 600) 0x14 [0, 0]))
      = some (.ok, [1, 0, 0, 2, 0, 0, 2, 1, 1, 0xF4, 1, 0, 0, 0, 0, 2, 0, 0]) := by decide +kernel
theorem test_groupBegin :
    let t := after .groupBegin (ask State.reset 0x20 [0, 0])
    reply t = some (.ok, [1, 0xE8, 3]) ∧ t.group = some { id := 1, staging := [], timer := 1000000 } := by decide +kernel
theorem test_groupCommit :
    let t := after .groupCommit (ask staged3 0x21 [])
    reply t = some (.ok, [1]) ∧ t.group = none ∧ (t.plan 0).records = [3] ∧ (t.record 3).map (·.start) = some 200 := by
  decide +kernel
theorem test_groupAbort :
    let t := after .groupAbort (ask staged3 0x22 [])
    reply t = some (.ok, [1]) ∧ t.group = none ∧ t.record 3 = none ∧ t.tagsOpen = [] := by decide +kernel
theorem test_snapshot :
    let t := after .snapshot (ask idle0 0x30 [3, 200, 0, 0, 0, 0, 0])
    reply t = some (.deferred, [1]) ∧ t.snapshot = some { mask := 3, time := 200, tag := 1, due := none } := by decide +kernel
theorem test_waitIdle :
    reply (after .waitIdle (ask idle0 0x31 [1])) = some (.ok, [0]) ∧
    reply (after .waitIdle (ask pulsing 0x31 [1])) = some (.deferred, [1]) := by decide +kernel
theorem test_armSync :
    (after .armSync (ask State.reset 0x32 [5, 0, 0, 0, 0, 0, 1])).syncArm = some { value := 5, pol := .falling, tag := 1 } :=
        by
  decide +kernel
theorem test_cancelTag :
    let t := after .cancelTag (ask staged3 0x33 [5])
    reply t = some (.ok, []) ∧ t.group.map (·.staging) = some [] ∧ t.record 3 = none := by decide +kernel
theorem test_noticeAck :
    let t := after .noticeAck (ask { noticed with lossCount := 3 } 0x40 [1, 0])
    reply t = some (.ok, [1, 2]) ∧ t.notices.map (·.number) = [2, 3] ∧ t.retryTimer = none ∧ t.lossCount = 0 := by
  decide +kernel
theorem test_enterSafe :
    let t := after .enterSafe (ask pulsing 0x50 [])
    reply t = some (.ok, []) ∧ t.latch = true ∧ t.cause = .request ∧ (t.engine 7).safeHanded = [.setting] := by decide +kernel
theorem test_releaseSafe :
    let t := after .releaseSafe (ask { State.reset with latch := true, cause := .line } 0x51 [])
    reply t = some (.ok, []) ∧ t.latch = false ∧ t.cause = .line ∧ (t.engine 7).safeHanded = [.release] := by decide +kernel
/-- Before the release the plans take, in turn, an open load, a setting and an overdue head (R47, log 32). -/
theorem test_releaseSafe_settles_the_plans :
    let latched (s : State) : State := after .releaseSafe (ask { s with latch := true } 0x51 [])
    let a := latched ((planned2 99 101).modPlan 0 fun p => { p with loads := [(50, 100)] })
    let b := latched ((planned2 100 101).modPlan 0 fun p => { p with settings := 1 })
    let c := latched (planned2 99 101)
    (a.latch = false ∧ a.record 1 = none ∧ (a.plan 0).records = [2] ∧ (a.plan 0).loads = []) ∧
    (b.latch = false ∧ b.record 1 = none ∧ (b.plan 0).settings = 0) ∧
    (c.latch = false ∧ c.record 1 = none ∧ (c.plan 0).records = [2]) := by decide +kernel
theorem test_restart :
    let t := after .restart (ask pulsing 0x7F [])
    reply t = some (.ok, []) ∧ (t.engine 0).state = .idle ∧ t.record 9 = none ∧ t.deviceTime = 100 ∧
    t.notices.map (·.number) = [2] := by decide +kernel
/-- A sampled fall that is still to be taken counts as SAFEn 0 at once (R136, R140, R144, R182), and finds the latch set after a
RESTART. -/
theorem test_untaken_fall_is_the_level :
    let s := { idle0 with safenSample := false, safenFall := true }
    let t := after .restart (ask s 0x7F [])
    reply (after .releaseSafe (ask s 0x51 [])) = some (.lineAsserted, []) ∧
    ((reply (after .readStatus (ask s 0x02 [0]))).map fun r => (r.2.getD 25 0) &&& 4) = some 0 ∧
    (t.latch = true ∧ t.cause = .line ∧ (t.engine 0).state = .safed) ∧
    (after .safenFallingEdge t).notices = t.notices := by decide +kernel
theorem test_powerOnReset :
    let t := after .powerOnReset pulsing
    t.inReset = true ∧ t.notices = [] ∧ (t.engine 0).state = .off := by decide +kernel
theorem test_resetRelease :
    let t := after (.resetRelease 3 false) (State.held [])
    t.latch = true ∧ t.cause = .line ∧ bitRate t.baud = 921600 ∧ t.attn = true := by decide +kernel
theorem test_byteReceived :
    (after (.byteReceived { value := 0xC5, stop := true }) State.reset).asm = .length ∧
    (after (.byteReceived { value := 0xC5, stop := false }) State.reset).counters.framing = 1 := by decide +kernel
theorem test_byteReceived_marks_the_low_span :
    (after (.byteReceived { value := 0, stop := false }) State.reset).lowSpan = true ∧
    (after (.byteReceived { value := 0, stop := true }) { State.reset with lowSpan := true }).lowSpan = false := by
  decide +kernel
theorem test_frameTransmitted :
    let t := after .frameTransmitted { noticed with tx := some [1] }
    t.tx = some (frameOf [0x53, 2, 0, 5, 2, 0, 0, 0, 0, 0, 0, 0]) ∧ t.notices.map (·.sent) = [true, true] := by decide +kernel

/-- The levels on TXD: 1 with no frame, and the ten bits of each character of a frame (R161, R187). -/
theorem test_txd :
    State.reset.txd = [true] ∧
    { State.reset with tx := some [0xC5] }.txd = [false, true, false, true, false, false, false, true, true, true] := by
  decide +kernel

/-! ### Witnesses of the hypotheses: the machine, resets and ticks

For each statement with hypotheses, states and operands that meet them, one for each clause, at a boundary of its range. -/

/-- The pins of an ordinary tick. -/
def pins (trg : BitVec 8) : Pins := { sync := false, safen := true, trg := trg }

/-- Trigger input 0 in a state. -/
def trg0 (filtered : Option Bool) (sample : Bool) (filter : Byte) (timer : Option Nat) : State :=
  (idle0.setTrigger 0 { filtered := filtered, sample := sample, filterTimer := timer }).modEngine 0 fun e =>
    { e with config := { e.config with filter := filter } }

theorem witness_StepTakesTheFrontCommand : State.reset.pending = [] := rfl
theorem witness_EveryCommandAnswersAndKeepsTheQueue :
    (State.held []).inReset = true ∧ Instr.identify ≠ .powerOnReset ∧ ∀ b x, Instr.identify ≠ .resetRelease b x :=
  ⟨rfl, by decide, fun _ _ h => by cases h⟩
theorem witness_PowerOnResetHoldsAndReleaseStarts : (State.held []).inReset = true ∧ State.reset.inReset = false := ⟨rfl, rfl⟩
/-- A tick below the limit and at it; a snapshot that is due at the tick, that is due later, and whose capture waits. -/
theorem witness_TickAdvancesTimeSamplesAndCounts :
    let full := { State.reset with deviceTime := BitVec.ofNat 48 (2 ^ 48 - 1) }
    let sc : Scheduled := { mask := 1, time := 101, tag := 1, due := none }
    (State.reset.inReset = false ∧ State.reset.syncSampled = none ∧ State.reset.safenFall = false) ∧
    (full.inReset = false ∧ full.syncSampled = none ∧ full.safenFall = false ∧ full.deviceTime.toNat = 2 ^ 48 - 1) ∧
    ({ idle0 with snapshot := some sc }.snapshot = some sc ∧ sc.time.toNat = idle0.deviceTime.toNat + 1) ∧
    ({ idle0 with snapshot := some { sc with time := 102 } }.snapshot ≠ none) ∧
    ({ sc with due := some (101, true) }.due ≠ none) ∧ State.reset.snapshot = none := by decide +kernel
theorem witness_TickClosesTheIntervalAtTheEngines :
    pulsing.inReset = false ∧ pulsing.syncSampled = none ∧ pulsing.safenFall = false := by decide +kernel
/-- The first sample; a sample at the filtered level; filter 0; filters 1 and 255 beginning; a timer with one tick left. -/
theorem witness_TickFiltersATriggerInput :
    (trg0 none false 0 none).inReset = false ∧ (trg0 none false 0 none).syncSampled = none ∧
    (trg0 none false 0 none).safenFall = false ∧ (trg0 none false 0 none).trigger 0 =
        { filtered := none, sample := false, filterTimer := none } ∧
    ((trg0 (some true) true 0 none).trigger 0).filtered = some ((pins 1).trg.getLsbD 0) ∧
    ((trg0 (some false) false 0 none).trigger 0).filtered = some (!(pins 1).trg.getLsbD 0) ∧
    ((trg0 (some false) false 0 none).engine 0).config.filter = 0 ∧
    ((trg0 (some false) false 1 none).engine 0).config.filter ≠ 0 ∧ ((trg0 (some false) false 255 none).trigger 0).filterTimer = none ∧
    ((trg0 (some false) true 255 (some 1)).trigger 0).filterTimer = some 1 := by decide +kernel
theorem witness_TickTakesOutstandingEventsFirst :
    { idle0 with syncSampled := some .rising }.syncSampled = some SyncPolarity.rising ∧
    ({ idle0 with safenFall := true }.syncSampled = none ∧ { idle0 with safenFall := true }.safenFall = true) ∧
    (let s := trg0 (some false) true 3 (some 0)
     s.inReset = false ∧ s.syncSampled = none ∧ s.safenFall = false ∧ (s.trigger 0).filterTimer = some 0) := by decide +kernel
theorem witness_FilterTimerExpiryMakesTheTransition :
    ((trg0 (some false) true 3 (some 0)).trigger 0).filterTimer = some 0 ∧
    ((trg0 (some false) true 3 (some 1)).trigger 0).filterTimer ≠ some 0 ∧
    (trg0 (some false) true 3 (some 0)).inReset = false := by decide +kernel
theorem witness_DeviceTimeMovesOnlyAtTicksAndLoads :
    pulsing.inReset = false ∧ Instr.edge 0 ≠ .powerOnReset ∧ exec (.edge 0) pulsing = .next (after (.edge 0) pulsing) ∧
    (∀ p, Instr.edge 0 ≠ .tick p) ∧ ∀ d, Instr.edge 0 ≠ .syncEdge d :=
  ⟨rfl, by decide, rfl, fun _ h => (by cases h), fun _ h => (by cases h)⟩

/-! ### SYNC edges and captures -/

/-- A sync arm at a value, and the edge that SYNC has made. -/
def armed (value : Time) (edge : Option SyncPolarity) : State :=
  { idle0 with syncSampled := edge, syncPrev := some false, syncArm := some { value := value, pol := .rising, tag := 16 },
               tagsOpen := [{ tag := 16, subject := .sync }] }

/-- V just above device time and V equal to it; an edge without an arm, of the other polarity, ahead of its tick, and none. -/
theorem witness_SyncEdgeLoadsOrRejectsTheArm :
    ((armed 101 (some .rising)).inReset = false ∧ (armed 101 (some .rising)).syncSampled = some .rising ∧
      (armed 101 (some .rising)).syncArm = some { value := 101, pol := .rising, tag := 16 } ∧
      (∃ e ∈ (armed 101 (some .rising)).tagsOpen, e.tag = 16) ∧ (armed 101 (some .rising)).deviceTime.toNat < (101 : Time).toNat) ∧
    ((100 : Time).toNat ≤ (armed 100 (some .rising)).deviceTime.toNat) ∧
    ({ idle0 with syncSampled := some .rising }.syncArm = none) ∧
    ((armed 101 (some .falling)).syncSampled = some .falling ∧ ((armed 101 (some .falling)).syncArm.map (·.pol)) =
        some .rising) ∧
    ((armed 101 none).syncSampled = none ∧ (armed 101 none).syncPrev = some (decide (SyncPolarity.rising = .falling))) ∧
    ((armed 101 none).syncSampled ≠ some .falling ∧ (armed 101 none).syncPrev ≠ some (decide (SyncPolarity.falling =
        .falling))) := by
  decide +kernel
theorem witness_SnapshotCaptureCompletesTheTag :
    let sc : Scheduled := { mask := 0xFF, time := 100, tag := 1, due := some (100, false) }
    let s := { pulsing with snapshot := some sc, tagsOpen := [{ tag := 1, subject := .snapshot 0xFF }] }
    s.inReset = false ∧ s.snapshot = some sc ∧ sc.due = some (100, false) ∧ (∃ e ∈ s.tagsOpen, e.tag = sc.tag) ∧
    { pulsing with snapshot := some { sc with due := none } }.snapshot = some { sc with due := none } := by decide +kernel

/-! ### Plans -/

/-- A head in slot 1 that is due at device time, and behind it a record in slot 2 that is due one tick later. -/
def dueThen (r : Record) (base : State) : State :=
  place (place base 1 r) 2 (recOf (.pulse 6) 101 .skip .planned)

/-- The channel of `dueThen` with a PULSE of 5 ticks as head. -/
def due (policy : Policy) (base : State) : State := dueThen (recOf (.pulse 5) 100 policy .planned) base

/-- Channel 0 SAFED. -/
def safed0 : State := idle0.modEngine 0 fun e => { e with state := .safed }

/-- What the statements about a due head ask for, but for the latch, the channel and the record. -/
def DueOne (s : State) (r : Record) : Prop :=
  s.inReset = false ∧ s.Held ∧ s.DueHead 0 1 [2] r ∧ s.NextNotDue [2]

/-- The check of `DueOne`. -/
theorem dueOne_of_check {s : State} {r : Record} (h : heldCheck s = true) (h1 : s.inReset = false)
    (h2 : (s.plan 0).records = [1, 2] ∧ s.record 1 = some r ∧ r.state = .planned ∧ r.start.toNat ≤ s.deviceTime.toNat ∧
      (s.plan 0).loads = [])
    (h3 : (([2] : List SlotNo).head?.all fun j => (s.record j).all fun r => decide (s.deviceTime.toNat < r.start.toNat)) =
        true) :
    DueOne s r := ⟨h1, held_of_check h, h2, nextNotDue_of_check h3⟩

theorem witness_HeadDueStartsOnAnIdleChannel :
    (DueOne (due .wait idle0) (recOf (.pulse 5) 100 .wait .planned) ∧ (due .wait idle0).latch = false ∧
      ((due .wait idle0).engine 0).state = .idle ∧ ∀ l, (recOf (.pulse 5) 100 .wait .planned).params ≠ .set l) ∧
    DueOne (dueThen (recOf (.set true) 100 .wait .planned) idle0) (recOf (.set true) 100 .wait .planned) :=
  ⟨⟨dueOne_of_check (by decide +kernel) rfl (by decide +kernel) (by decide +kernel), rfl, by decide +kernel,
      fun _ h => by cases h⟩,
    dueOne_of_check (by decide +kernel) rfl (by decide +kernel) (by decide +kernel)⟩
theorem witness_HeadDueLeavesOrWaits :
    (DueOne { due .wait idle0 with latch := true } (recOf (.pulse 5) 100 .wait .planned)) ∧
    (DueOne (due .wait safed0) (recOf (.pulse 5) 100 .wait .planned) ∧ ((due .wait safed0).engine 0).state = .safed) ∧
    (DueOne (due .skip pulsing) (recOf (.pulse 5) 100 .skip .planned) ∧ ((due .skip pulsing).engine 0).state = .running) ∧
    (DueOne (due .wait pulsing) (recOf (.pulse 5) 100 .wait .planned) ∧ (due .wait pulsing).latch = false) :=
  ⟨dueOne_of_check (by decide +kernel) rfl (by decide +kernel) (by decide +kernel),
    ⟨dueOne_of_check (by decide +kernel) rfl (by decide +kernel) (by decide +kernel), by decide +kernel⟩,
    ⟨dueOne_of_check (by decide +kernel) rfl (by decide +kernel) (by decide +kernel), by decide +kernel⟩,
    ⟨dueOne_of_check (by decide +kernel) rfl (by decide +kernel) (by decide +kernel), rfl⟩⟩
theorem witness_HeadDuePreemptsTheCurrentAction :
    (DueOne (due .preempt pulsing) (recOf (.pulse 5) 100 .preempt .planned) ∧
      (due .preempt pulsing).Runs 0 (run0 (progOf .active (some 3))) (recOf (.pulse 5) 90 .wait .current)) ∧
    DueOne (dueThen (recOf (.set true) 100 .preempt .planned) pulsing) (recOf (.set true) 100 .preempt .planned) :=
  ⟨⟨dueOne_of_check (by decide +kernel) rfl (by decide +kernel) (by decide +kernel), by unfold State.Runs; decide +kernel⟩,
    dueOne_of_check (by decide +kernel) rfl (by decide +kernel) (by decide +kernel)⟩
theorem witness_NoPlannedHeadIsDueAfterHeadDue :
    (due .wait idle0).Held ∧ exec (.headDue 0) (due .wait idle0) = .next (after (.headDue 0) (due .wait idle0)) ∧
    ((after (.headDue 0) (due .wait idle0)).plan 0).records = [2] ∧
    (after (.headDue 0) (due .wait idle0)).record 2 = some (recOf (.pulse 6) 101 .skip .planned) :=
  ⟨held_of_check (by decide +kernel), rfl, by decide +kernel, by decide +kernel⟩

/-- The end of channel 0 handed to its plan, whose head is in a state. -/
def ended (base : State) (st : RecState) : State :=
  (dueThen (recOf (.pulse 5) 100 .wait st) base).modPlan 0 fun p => { p with endHanded := true }

/-- No end handed; an empty plan; a PLANNED head; a WAITING head on a busy channel, on an IDLE one, and under the latch. -/
theorem witness_ChannelEndChecksTheHead :
    ((due .wait idle0).Held ∧ ((due .wait idle0).plan 0).endHanded = false) ∧
    (let s := idle0.modPlan 0 fun p => { p with endHanded := true }
     heldCheck s = true ∧ (s.plan 0).endHanded = true ∧ (s.plan 0).records = []) ∧
    (let s := ended idle0 .planned
     heldCheck s = true ∧ (s.plan 0).endHanded = true ∧ (s.plan 0).records = [1, 2] ∧
       s.record 1 = some (recOf (.pulse 5) 100 .wait .planned)) ∧
    (let s := ended pulsing .waiting
     heldCheck s = true ∧ s.latch = false ∧ (s.engine 0).state = .running ∧ (s.plan 0).endHanded = true ∧
       s.record 1 = some (recOf (.pulse 5) 100 .wait .waiting)) ∧
    (let s := ended idle0 .waiting
     heldCheck s = true ∧ s.latch = false ∧ (s.engine 0).state = .idle ∧ s.NextNotDue [2] ∧ (s.plan 0).loads = [] ∧
       s.record 1 = some (recOf (.pulse 5) 100 .wait .waiting)) ∧
    (let s := { ended idle0 .waiting with latch := true }
     heldCheck s = true ∧ s.latch = true ∧ s.NextNotDue [2]) :=
  ⟨⟨held_of_check (by decide +kernel), by decide +kernel⟩, by decide +kernel, by decide +kernel, by decide +kernel,
    ⟨by decide +kernel, rfl, by decide +kernel, nextNotDue_of_check (by decide +kernel), by decide +kernel, by decide +kernel⟩,
    ⟨by decide +kernel, rfl, nextNotDue_of_check (by decide +kernel)⟩⟩

/-- A head in slot 1 and a record behind it in slot 2 that is due too. -/
def dueBoth (r : Record) (base : State) : State := place (place base 1 r) 2 (recOf (.pulse 6) 100 .skip .planned)

/-- What the clauses on the record behind a due head ask for, but for the latch and the channel. -/
theorem witness_dueBehindADueHead :
    (let r := recOf (.pulse 5) 100 .wait .planned
     let s := dueBoth r idle0
     heldCheck s = true ∧ s.DueHead 0 1 [2] r ∧ s.latch = false ∧ (s.engine 0).state = .idle ∧ s.startOf 2 ≤ 100) ∧
    (let r := recOf (.set true) 100 .wait .planned
     heldCheck (dueBoth r idle0) = true ∧ (dueBoth r idle0).DueHead 0 1 [2] r) ∧
    (let r := recOf (.pulse 5) 100 .skip .planned
     heldCheck (dueBoth r pulsing) = true ∧ (dueBoth r pulsing).DueHead 0 1 [2] r ∧
       ((dueBoth r pulsing).engine 0).state = .running ∧ { dueBoth r pulsing with latch := true }.latch = true) ∧
    (let r := recOf (.pulse 5) 100 .preempt .planned
     heldCheck (dueBoth r pulsing) = true ∧ (dueBoth r pulsing).DueHead 0 1 [2] r ∧
       (dueBoth r pulsing).Runs 0 (run0 (progOf .active (some 3))) (recOf (.pulse 5) 90 .wait .current)) ∧
    (let r := recOf (.set true) 100 .preempt .planned
     heldCheck (dueBoth r pulsing) = true ∧ (dueBoth r pulsing).DueHead 0 1 [2] r) := by
  unfold State.DueHead State.Runs
  decide +kernel

/-- A WAITING head of each sort with a due record behind it, at the end of the action: an action and a SET on the IDLE channel, and
one on a SAFED channel with the latch clear. -/
theorem witness_dueBehindAWaitingHead :
    let at_end (r : Record) (base : State) : State := (dueBoth r base).modPlan 0 fun p => { p with endHanded := true }
    (let s := at_end (recOf (.pulse 5) 100 .wait .waiting) idle0
     heldCheck s = true ∧ (s.plan 0).endHanded = true ∧ (s.plan 0).records = [1, 2] ∧ s.latch = false ∧
       (s.engine 0).state = .idle ∧ s.record 1 = some (recOf (.pulse 5) 100 .wait .waiting)) ∧
    (let s := at_end (recOf (.set true) 99 .wait .waiting) idle0
     heldCheck s = true ∧ (s.plan 0).records = [1, 2] ∧ s.record 1 = some (recOf (.set true) 99 .wait .waiting)) ∧
    (let s := at_end (recOf (.pulse 5) 100 .wait .waiting) safed0
     heldCheck s = true ∧ s.latch = false ∧ (s.engine 0).state = .safed ∧
       s.record 1 = some (recOf (.pulse 5) 100 .wait .waiting)) := by decide +kernel

/-- A WAITING SET is applied at the end of the action, and the due PULSE behind it starts in the same event; behind a WAITING PULSE a
due SKIP record is skipped (R45). -/
theorem test_channelEnd_settles_the_backlog :
    let at_end (r : Record) (base : State) : State := (dueBoth r base).modPlan 0 fun p => { p with endHanded := true }
    let t := after (.channelEnd 0) (at_end (recOf (.set true) 99 .wait .waiting) idle0)
    let u := after (.channelEnd 0) (at_end (recOf (.pulse 5) 99 .wait .waiting) idle0)
    (t.record 1 = none ∧ (t.engine 0).restLevel = true ∧ (t.engine 0).current.map (·.slot) = some 2 ∧ (t.plan 0).records = []) ∧
    (u.record 2 = none ∧ (u.engine 0).current.map (·.slot) = some 1 ∧ (u.plan 0).records = []) := by decide +kernel

/-- The state in which the record of a slot holds tag 5. -/
def tagged5 (s : State) (i : SlotNo) (r : Record) : State :=
  { s.setRecord i { r with tag := some 5 } with tagsOpen := [{ tag := 5, subject := .action (s.handle i) }] }

/-- The cancel of a WAITING head with a due record behind it, by its handle and by its tag. -/
theorem witness_cancelOfAHeadBeforeADueRecord :
    (let s := ask (dueBoth (recOf (.pulse 5) 95 .wait .waiting) pulsing) 0x11 [1, 1]
     s.Carries (rqOf 0x11 [1, 1]) [] ∧ s.Held ∧ (s.plan 0).records = 1 :: [2] ∧ (1 : Byte).toNat = (s.slot 1).gen ∧
       s.record 1 = some (recOf (.pulse 5) 95 .wait .waiting)) ∧
    (let s := ask (tagged5 (dueBoth (recOf (.pulse 5) 95 .wait .waiting) pulsing) 1 (recOf (.pulse 5) 95 .wait .waiting)) 0x33 [5]
     s.Carries (rqOf 0x33 [5]) [] ∧ s.Held ∧ (s.plan 0).records = 1 :: [2] ∧
       s.tagsOpen = [] ++ { tag := 5, subject := .action (s.handle 1) } :: [] ∧ (s.record 1).map (·.state) = some .waiting) :=
  ⟨⟨ask_carries _ _ rfl rfl rfl, held_of_check (by decide +kernel), by decide +kernel⟩,
    ⟨ask_carries _ _ rfl rfl rfl, held_of_check (by decide +kernel), by decide +kernel⟩⟩

/-- A forward load from 50 to 100 that the plan of channel 0 has still to take. -/
def loaded (base : State) : State := base.modPlan 0 fun p => { p with loads := [(50, 100)] }

/-- No load; a load behind a head that was due before it; a front of one record, PLANNED and WAITING; a front of two whose last one
starts on an IDLE channel, waits on a busy one, is a SET, or stands under the latch. -/
theorem witness_SkippedSpanRuleKeepsTheLast :
    ((due .wait idle0).openLoads 0 = []) ∧
    (let s := loaded (planned2 50 100)
     heldCheck s = true ∧ s.openLoads 0 ≠ [] ∧ s.startOf 1 ≤ 50) ∧
    (let s := loaded (due .wait idle0)
     heldCheck s = true ∧ (s.plan 0).loads = [(50, 100)] ∧ (100 : Time).toNat ≤ s.deviceTime.toNat ∧
       (s.plan 0).records = [] ++ 1 :: [2] ∧ s.startOf 1 ≤ 100 ∧ (50 : Time).toNat < s.startOf 1 ∧ s.NextNotDue [2]) ∧
    (let s := loaded (dueThen (recOf (.pulse 5) 50 .wait .waiting) pulsing)
     heldCheck s = true ∧ (s.plan 0).records = [] ++ 1 :: [2] ∧ (s.record 1).map (·.state) = some .waiting) ∧
    (let s := loaded (planned2 99 100)
     heldCheck s = true ∧ (s.plan 0).loads = [(50, 100)] ∧ (s.plan 0).records = [1] ++ 2 :: [] ∧ s.latch = false ∧
       s.startOf 1 ≤ 100 ∧ s.startOf 2 ≤ 100 ∧ (50 : Time).toNat < s.startOf 1 ∧ (s.record 2).map (·.state) = some .planned ∧ (s.engine 0).state = .idle) ∧
    (let s := loaded (place (place pulsing 1 (recOf (.pulse 5) 99 .skip .planned)) 2 (recOf (.pulse 6) 100 .wait .planned))
     heldCheck s = true ∧ (s.plan 0).records = [1] ++ 2 :: [] ∧ (s.engine 0).state.busy = true ∧
       (s.record 2).map (·.policy) = some .wait) ∧
    (let s := loaded (place (place idle0 1 (recOf (.pulse 5) 51 .wait .planned)) 2 (recOf (.set true) 100 .wait .planned))
     heldCheck s = true ∧ (50 : Time).toNat < s.startOf 1 ∧ (s.record 2).map (·.params) = some (.set true) ∧
       ({ s with latch := true }.latch = true ∧ heldCheck { s with latch := true } = true)) :=
  ⟨by decide +kernel, by decide +kernel, ⟨by decide +kernel, by decide +kernel, by decide +kernel, by decide +kernel,
    by decide +kernel, by decide +kernel, nextNotDue_of_check (by decide +kernel)⟩, by decide +kernel, by decide +kernel,
    by decide +kernel, by decide +kernel⟩

/-- No setting handed; a front of none; a front of a due record, before one that is due a tick later. -/
theorem witness_SafeSettingAtPlanMissesDueHeads :
    (heldCheck (due .wait idle0) = true ∧ ((due .wait idle0).plan 0).settings = 0) ∧
    (let s := (planned2 101 102).modPlan 0 fun p => { p with settings := 1 }
     heldCheck s = true ∧ (s.plan 0).settings = 0 + 1 ∧ (s.plan 0).records = [] ++ [1, 2] ∧
       s.record 1 = some (recOf (.pulse 5) 101 .wait .planned)) ∧
    (let s := (due .wait idle0).modPlan 0 fun p => { p with settings := 1 }
     heldCheck s = true ∧ (s.plan 0).records = [1] ++ [2] ∧ (s.plan 0).loads = [] ∧
       s.record 1 = some (recOf (.pulse 5) 100 .wait .planned) ∧ s.record 2 = some (recOf (.pulse 6) 101 .skip .planned)) :=
           by
  decide +kernel

/-! ### Engines -/

/-- What the statements about a current action ask for. -/
def RunsOn (s : State) (params : Params) (p : Progress) : Prop :=
  s.inReset = false ∧ s.Runs 0 (run0 p) (recOf params 90 .wait .current)

/-- `busy0` runs the action it is given. -/
theorem busy0_runs (params : Params) (st : ChanState) (p : Progress) : RunsOn (busy0 params st p) params p :=
  ⟨rfl, rfl, rfl, rfl⟩

theorem witness_PulseAndStrobeEndNaturally :
    RunsOn (busy0 (.pulse 1) .running (progOf .active (some 0))) (.pulse 1) (progOf .active (some 0)) ∧
    RunsOn (busy0 (.count 1 1 0) .firing (progOf .strobe (some 0))) (.count 1 1 0) (progOf .strobe (some 0)) ∧
    RunsOn (busy0 (.pulse 2) .running (progOf .active (some 1))) (.pulse 2) (progOf .active (some 1)) :=
  ⟨busy0_runs _ _ _, busy0_runs _ _ _, busy0_runs _ _ _⟩
/-- The phases of a TRAIN: ACTIVE, REST with no pulse count, REST before the last pulse and after it; the halves of a SQUARE. -/
theorem witness_TrainAndSquarePhasesAlternate :
    RunsOn (busy0 (.train 1 2 1) .running (progOf .active (some 0))) (.train 1 2 1) (progOf .active (some 0)) ∧
    RunsOn (busy0 (.train 1 2 0) .running (progOf .rest (some 0))) (.train 1 2 0) (progOf .rest (some 0)) ∧
    RunsOn (busy0 (.train 1 2 1) .running { progOf .rest (some 0) with pulses := 1 }) (.train 1 2 1)
      { progOf .rest (some 0) with pulses := 1 } ∧
    RunsOn (busy0 (.train 1 2 1) .running (progOf .rest (some 1))) (.train 1 2 1) (progOf .rest (some 1)) ∧
    RunsOn (busy0 (.square 2) .running (progOf .active (some 0))) (.square 2) (progOf .active (some 0)) ∧
    RunsOn (busy0 (.square 3) .running (progOf .rest (some 0))) (.square 3) (progOf .rest (some 0)) :=
  ⟨busy0_runs _ _ _, busy0_runs _ _ _, busy0_runs _ _ _, busy0_runs _ _ _, busy0_runs _ _ _, busy0_runs _ _ _⟩

/-- An ARMED action of two firings with a window. -/
def pair (d : Nat) : Params := .armed 1 2 d 9 .holdOne

theorem witness_DelayExpiryBeginsThePulse :
    RunsOn (busy0 (pair 1) .firing (progOf .delay (some 0))) (pair 1) (progOf .delay (some 0)) := busy0_runs _ _ _
/-- The last firing; an expired window; a held edge without and with a delay; none of them. -/
theorem witness_PulseEndDecidesWhatFollows :
    (RunsOn (busy0 (pair 0) .firing { progOf .active (some 0) with firings := 1 }) (pair 0)
      { progOf .active (some 0) with firings := 1 } ∧ satInc 1 = 2) ∧
    RunsOn (busy0 (pair 0) .firing { progOf .active (some 0) with windowRemaining := some 0 }) (pair 0)
      { progOf .active (some 0) with windowRemaining := some 0 } ∧
    (let s := (busy0 (pair 0) .firing (progOf .active (some 0))).modEngine 0 fun e => { e with pendingEdge := true }
     RunsOn s (pair 0) (progOf .active (some 0)) ∧ (s.engine 0).pendingEdge = true) ∧
    (let s := (busy0 (pair 1) .firing (progOf .active (some 0))).modEngine 0 fun e => { e with pendingEdge := true }
     RunsOn s (pair 1) (progOf .active (some 0)) ∧ (s.engine 0).pendingEdge = true) ∧
    (RunsOn (busy0 (pair 1) .firing (progOf .active (some 0))) (pair 1) (progOf .active (some 0)) ∧ satInc 0 ≠ 2) :=
  ⟨⟨busy0_runs _ _ _, rfl⟩, busy0_runs _ _ _, ⟨⟨rfl, rfl, rfl, rfl⟩, rfl⟩, ⟨⟨rfl, rfl, rfl, rfl⟩, rfl⟩, ⟨busy0_runs _ _ _, by decide⟩⟩

/-- A window whose expiry is to be taken in a phase. -/
def expiring (ph : Phase) : Progress := { progOf ph none with windowRemaining := some 0, windowDue := true }

theorem witness_WindowExpiryEndsAListeningAction :
    RunsOn (busy0 (pair 0) .armed (expiring .listen)) (pair 0) (expiring .listen) ∧
    RunsOn (busy0 (pair 0) .firing (expiring .active)) (pair 0) (expiring .active) ∧
    RunsOn (busy0 (.count 1 2 9) .armed (expiring .listen)) (.count 1 2 9) (expiring .listen) ∧
    RunsOn (busy0 (.count 1 2 9) .firing (expiring .strobe)) (.count 1 2 9) (expiring .strobe) ∧
    RunsOn (busy0 (pair 0) .armed (progOf .listen none)) (pair 0) (progOf .listen none) :=
  ⟨busy0_runs _ _ _, busy0_runs _ _ _, busy0_runs _ _ _, busy0_runs _ _ _, busy0_runs _ _ _⟩

/-- One edge handed to the engine of channel 0. -/
def edged (s : State) : State := s.modEngine 0 fun e => { e with edgesHanded := 1 }

/-- A stray edge; no edge; the last but one edge, the last edge and an edge too many of a COUNT. -/
theorem witness_StrayEdgesAndEdgesOfACountAreCounted :
    (((edged idle0).engine 0).edgesHanded = 0 + 1 ∧ ((edged idle0).engine 0).state = .idle) ∧ (idle0.engine 0).edgesHanded =
        0 ∧
    (RunsOn (edged (busy0 (.count 1 2 0) .armed (progOf .listen none))) (.count 1 2 0) (progOf .listen none) ∧
      ((edged (busy0 (.count 1 2 0) .armed (progOf .listen none))).engine 0).edgesHanded = 0 + 1 ∧ satInc 0 ≠ 2) ∧
    (RunsOn (edged (busy0 (.count 1 1 0) .armed (progOf .listen none))) (.count 1 1 0) (progOf .listen none) ∧ satInc 0 = 1) ∧
    (RunsOn (edged (busy0 (.count 1 1 0) .firing (progOf .strobe (some 1)))) (.count 1 1 0) (progOf .strobe (some 1)) ∧
      ((edged (busy0 (.count 1 1 0) .firing (progOf .strobe (some 1)))).engine 0).state = .firing) :=
  ⟨⟨rfl, rfl⟩, rfl, ⟨⟨rfl, rfl, rfl, rfl⟩, rfl, by decide⟩, ⟨⟨rfl, rfl, rfl, rfl⟩, rfl⟩, ⟨⟨rfl, rfl, rfl, rfl⟩, rfl⟩⟩
theorem witness_EdgeInListenStartsAFiring :
    (RunsOn (edged (busy0 (pair 1) .armed (progOf .listen none))) (pair 1) (progOf .listen none) ∧
      ((edged (busy0 (pair 1) .armed (progOf .listen none))).engine 0).edgesHanded = 0 + 1) ∧
    (RunsOn (edged (busy0 (pair 0) .armed (progOf .listen none))) (pair 0) (progOf .listen none) ∧
      ((edged (busy0 (pair 0) .armed (progOf .listen none))).engine 0).state = .armed) :=
  ⟨⟨⟨rfl, rfl, rfl, rfl⟩, rfl⟩, ⟨⟨rfl, rfl, rfl, rfl⟩, rfl⟩⟩
/-- The three retrigger modes, EXTEND in both phases, and HOLD_ONE with the latch clear and set. -/
theorem witness_EdgeInAFiringFollowsTheRetriggerMode :
    let s (m : RetrigMode) (ph : Phase) : State := edged (busy0 (.armed 1 0 1 0 m) .firing (progOf ph (some 1)))
    (RunsOn (s .noRetrigger .active) (.armed 1 0 1 0 .noRetrigger) (progOf .active (some 1)) ∧
      ((s .noRetrigger .active).engine 0).state = .firing ∧ ((s .noRetrigger .active).engine 0).edgesHanded = 0 + 1) ∧
    RunsOn (s .extend .delay) (.armed 1 0 1 0 .extend) (progOf .delay (some 1)) ∧
    RunsOn (s .extend .active) (.armed 1 0 1 0 .extend) (progOf .active (some 1)) ∧
    (RunsOn (s .holdOne .delay) (.armed 1 0 1 0 .holdOne) (progOf .delay (some 1)) ∧
      ((s .holdOne .delay).engine 0).pendingEdge = false) ∧
    (let t := (s .holdOne .active).modEngine 0 fun e => { e with pendingEdge := true }
     RunsOn t (.armed 1 0 1 0 .holdOne) (progOf .active (some 1)) ∧ (t.engine 0).pendingEdge = true) :=
  ⟨⟨⟨rfl, rfl, rfl, rfl⟩, rfl, rfl⟩, ⟨rfl, rfl, rfl, rfl⟩, ⟨rfl, rfl, rfl, rfl⟩, ⟨⟨rfl, rfl, rfl, rfl⟩, rfl⟩, ⟨⟨rfl, rfl, rfl, rfl⟩, rfl⟩⟩

/-! ### The safe state, timers and the link -/

theorem witness_SettingEventsSetTheLatch :
    ({ idle0 with safenFall := true }.safenFall = true ∧ { idle0 with safenFall := true }.latch = false) ∧
    { idle0 with safenFall := true, latch := true }.latch = true ∧ idle0.safenFall = false ∧
    (ask idle0 0x50 []).Carries (rqOf 0x50 []) [] :=
  ⟨⟨rfl, rfl⟩, rfl, rfl, ask_carries _ _ rfl rfl rfl⟩

/-- Latch events handed to channel 0. -/
def handed (s : State) (evs : List SafeEvent) : State := s.modEngine 0 fun e => { e with safeHanded := evs }

/-- No event of the sort; a setting at an OFF, an IDLE and a busy channel, the last without a WAITING head, and with one whose plan
has a setting left to take or none; a release at an IDLE and at a SAFED one, with a WAITING head and with a head that was passed
too; and each behind an event of the other sort that changes something and that changes nothing. -/
theorem witness_EnginesTakeTheSettingAndTheRelease :
    (((handed safed0 [.release, .setting]).engine 0).safeHanded = .release :: [.setting] ∧
      ((handed safed0 [.release]).engine 0).state = .safed ∧ ((handed idle0 [.release, .setting]).engine 0).state ≠ .safed ∧
      SafeEvent.setting ∈ [SafeEvent.setting] ∧
      ((handed pulsing [.setting, .release]).engine 0).state ≠ .off ∧ ((handed pulsing [.setting]).engine 0).state ≠ .safed ∧
      ((handed safed0 [.setting, .release]).engine 0).safeHanded = .setting :: [.release]) ∧
    SafeEvent.setting ∉ ((handed idle0 [.release]).engine 0).safeHanded ∧
    ((handed State.reset [.setting]).engine 0).state = .off ∧
    (((handed idle0 [.setting]).engine 0).state = .idle ∧ ((handed idle0 [.setting]).engine 0).current = none) ∧
    ((handed pulsing [.setting, .release]).Runs 0 (run0 (progOf .active (some 3))) (recOf (.pulse 5) 90 .wait .current) ∧
      ((handed pulsing [.setting, .release]).engine 0).state = .running ∧
      ((handed pulsing [.setting, .release]).plan 0).records = []) ∧
    (let s := handed (dueThen (recOf (.pulse 5) 100 .wait .waiting) pulsing) [.setting]
     s.Runs 0 (run0 (progOf .active (some 3))) (recOf (.pulse 5) 90 .wait .current) ∧ (s.plan 0).records.head? = some 1 ∧
       s.record 1 = some (recOf (.pulse 5) 100 .wait .waiting) ∧ (s.plan 0).settings = 0 ∧
       heldCheck s = true ∧ (s.plan 0).loads = [] ∧ (s.plan 0).records = [1] ++ [2] ∧
       s.record 2 = some (recOf (.pulse 6) 101 .skip .planned) ∧
       0 < ((s.modPlan 0 fun p => { p with settings := 1 }).plan 0).settings) ∧
    SafeEvent.release ∉ ((handed idle0 [.setting]).engine 0).safeHanded ∧
    ((handed idle0 [.release]).engine 0).state ≠ .safed ∧
    (((handed safed0 [.release]).engine 0).safeHanded = [.release] ∧ ((handed safed0 [.release]).plan 0).records = []) ∧
    (((handed (due .wait safed0) [.release]).engine 0).state = .safed ∧
      ((handed (dueThen (recOf (.pulse 5) 100 .wait .waiting) safed0) [.release]).engine 0).state = .safed) ∧
    (let s := handed (dueThen (recOf (.pulse 5) 99 .wait .planned) safed0) [.release]
     heldCheck s = true ∧ s.record 1 = some (recOf (.pulse 5) 99 .wait .planned) ∧ (s.plan 0).records.head? = some 1 ∧
       (99 : Time).toNat ≤ (s.planTime 0).toNat ∧ (99 : Time).toNat < s.deviceTime.toNat) :=
  ⟨by decide +kernel, by decide +kernel, by decide +kernel, by decide +kernel, ⟨⟨rfl, rfl, rfl⟩, rfl, by decide +kernel⟩,
    by unfold State.Runs; decide +kernel, by decide +kernel, by decide +kernel, by decide +kernel, by decide +kernel,
    by decide +kernel⟩
/-- SAFEn asserted, with the latch set and with its fall still to be taken; the latch clear; the latch set with every plan settled, and with a load, a setting and an overdue head of
channel 0 still to be taken. -/
theorem witness_ReleaseSafeAnswersInOrder :
    ((ask { idle0 with safenSample := false, latch := true } 0x51 []).Carries (rqOf 0x51 []) [] ∧
      (ask { idle0 with safenSample := false, safenFall := true } 0x51 []).Carries (rqOf 0x51 []) []) ∧
    ((ask idle0 0x51 []).Carries (rqOf 0x51 []) [] ∧ idle0.safenSample = true ∧ idle0.latch = false) ∧
    (let s := ask { idle0 with latch := true } 0x51 []
     s.Carries (rqOf 0x51 []) [] ∧ ∀ ch, s.openLoads ch = [] ∧ (s.plan ch).settings = 0 ∧ (s.plan ch).records.head? = none) ∧
    (let s := ask { loaded (planned2 99 100) with latch := true } 0x51 []
     s.Carries (rqOf 0x51 []) [] ∧ s.Held ∧ s.PlansKept ∧ s.openLoads 0 ≠ []) ∧
    (let s := ask { (planned2 99 100).modPlan 0 fun p => { p with settings := 1 } with latch := true } 0x51 []
     s.Carries (rqOf 0x51 []) [] ∧ s.Held ∧ s.PlansKept ∧ s.openLoads 0 = [] ∧ 0 < (s.plan 0).settings) ∧
    (let s := ask { planned2 99 100 with latch := true } 0x51 []
     s.Carries (rqOf 0x51 []) [] ∧ s.Held ∧ s.PlansKept ∧ s.openLoads 0 = [] ∧ (s.plan 0).settings = 0 ∧
       (s.plan 0).records.head? = some 1 ∧ s.record 1 = some (recOf (.pulse 5) 99 .wait .planned) ∧
       (99 : Time).toNat < s.deviceTime.toNat) :=
  ⟨⟨ask_carries _ _ rfl rfl rfl, ask_carries _ _ rfl rfl rfl⟩, ⟨ask_carries _ _ rfl rfl rfl, rfl, rfl⟩,
    ⟨ask_carries _ _ rfl rfl rfl, by decide +kernel⟩,
    ⟨ask_carries _ _ rfl rfl rfl, held_of_check (by decide +kernel), plansKept_of_check (by decide +kernel), by decide +kernel⟩,
    ⟨ask_carries _ _ rfl rfl rfl, held_of_check (by decide +kernel), plansKept_of_check (by decide +kernel), by decide +kernel⟩,
    ⟨ask_carries _ _ rfl rfl rfl, held_of_check (by decide +kernel), plansKept_of_check (by decide +kernel), by decide +kernel⟩⟩
/-- A group whose timer is at 0 and one with a tick left; no group; GROUP_ABORT of a group that stages a record and of one that
stages none. -/
theorem witness_GroupExpiryAndAbortDiscardTheGroup :
    (staged3.Held ∧ staged3.group = some { id := 1, staging := [3], timer := 0 }) ∧
    (staged3.group.map fun g => { g with timer := 1 }) = some { id := 1, staging := [3], timer := 1 } ∧
    (idle0.group = none ∧ (ask idle0 0x22 []).Carries (rqOf 0x22 []) [] ∧ (ask idle0 0x21 []).Carries (rqOf 0x21 []) []) ∧
    ((ask staged3 0x22 []).Carries (rqOf 0x22 []) [] ∧ (ask staged3 0x22 []).Held) ∧
    (let s := ask { idle0 with group := some { id := 1, staging := [], timer := 1 } } 0x22 []
     s.Carries (rqOf 0x22 []) [] ∧ s.Held) :=
  ⟨⟨held_of_check (by decide +kernel), rfl⟩, rfl,
    ⟨rfl, ask_carries _ _ rfl rfl rfl, ask_carries _ _ rfl rfl rfl⟩,
    ⟨ask_carries _ _ rfl rfl rfl, held_of_check (by decide +kernel)⟩,
    ⟨ask_carries _ _ rfl rfl rfl, held_of_check (by decide +kernel)⟩⟩
theorem witness_RetryExpiryResendsOrStalls :
    { noticed with retryTimer := some 0, expiries := 7 }.retryTimer = some 0 ∧
    { noticed with retryTimer := some 1 }.retryTimer ≠ some 0 ∧ noticed.inReset = false := by decide +kernel
theorem witness_TheAssemblerTakesBytes :
    State.reset.asm = .hunt ∧ (0xC4 : Byte) ≠ 0xC5 ∧ { State.reset with asm := .length }.asm = .length ∧
    (3 ≤ (3 : Byte).toNat ∧ (128 : Byte).toNat ≤ 128) ∧ ((2 : Byte).toNat < 3 ∧ 128 < (129 : Byte).toNat) ∧
    (([0x51] : List Byte).length + 1 < 3) ∧ (3 ≤ ([0x51, 7] : List Byte).length + 1) ∧
    { State.reset with asm := .check 3 [0x51, 7, 1] none }.asm ≠ .hunt := by decide +kernel
/-- The shortest body and the longest; a stray, a duplicate, an overflow, an anonymous and a numbered request. -/
theorem witness_RequestFrameIsExaminedInOrder :
    (State.reset.inReset = false ∧ State.reset.asm = .hunt) ∧
    (3 ≤ ([0x51, 7, 1] : List Byte).length ∧ (List.replicate 128 (0x51 : Byte)).length ≤ 128) ∧ (0x52 : Byte) ≠ 0x51 ∧
    ((7 : Byte) ≠ 0 ∧ ∃ q ∈ (ask State.reset 1 []).rxQueue, q.seq = 7) ∧
    (∀ q ∈ (ask State.reset 1 []).rxQueue, q.seq ≠ 8) ∧
    4 ≤ { State.reset with rxQueue := List.replicate 4 (rqOf 1 []) }.rxQueue.length ∧
    { State.reset with rxQueue := List.replicate 3 (rqOf 1 []) }.rxQueue.length < 4 := by decide +kernel
theorem witness_LinkResetClearsTheLink :
    (idle0.inReset = false ∧ idle0.lowSpan = false) ∧
    ({ idle0 with lowSpan := true }.lowSpan = true ∧ idle0.group = none) ∧
    ({ staged3 with lowSpan := true }.Held ∧ { staged3 with lowSpan := true }.lowSpan = true ∧
      staged3.group = some { id := 1, staging := [3], timer := 0 }) :=
  ⟨⟨rfl, rfl⟩, ⟨rfl, rfl⟩, ⟨held_of_check (by decide +kernel), rfl, rfl⟩⟩
/-- A reply; neither reply nor room; a notice behind three sent ones; a full window, a stall, a closed link; a frame on TXD. -/
theorem witness_TheArbiterSendsRepliesThenNotices :
    let note (n : Nat) (sent : Bool) : Notice := { number := n, body := .loss 1 0, sent := sent }
    let s := { noticed with notices := [note 1 true, note 2 true, note 3 true, note 4 false] }
    let r : Reply := { seq := 7, kind := 1, status := .ok, fields := [] }
    ({ noticed with replies := [r] }.tx = none ∧ { noticed with replies := [r] }.replies = r :: []) ∧
    noticed.replies = [] ∧
    (s.tx = none ∧ s.replies = [] ∧ s.linkOpen = true ∧ s.stall = false ∧
      s.notices = [note 1 true, note 2 true, note 3 true] ++ note 4 false :: [] ∧ (s.notices.filter (·.sent)).length < 4) ∧
    4 ≤ ((List.replicate 4 (note 1 true)).filter (·.sent)).length ∧
    { noticed with stall := true }.stall = true ∧ State.reset.linkOpen = false ∧ { noticed with tx := some [] }.tx ≠ none ∧
    (∀ n ∈ ([] : List Notice), n.sent = true) := by decide +kernel

/-! ### Requests -/

theorem witness_RequestsAreTakenByKindAndLength :
    State.reset.rxQueue = [] ∧ 4 ≤ { State.reset with replies := List.replicate 4 { seq := 0, kind := 1, status := .ok, fields := [] } }.replies.length ∧
    (∀ rq ∈ (ask State.reset 0x02 []).rxQueue.head?, rq.kind ≠ 0x01) ∧
    ((ask State.reset 0x01 [0]).Carries (rqOf 0x01 [0]) [] ∧ (rqOf 0x01 [0]).fields.length + 3 ≠ 3) ∧
    ((ask State.reset 0x04 (List.replicate 12 0)).Carries (rqOf 0x04 (List.replicate 12 0)) [] ∧
      (rqOf 0x04 (List.replicate 12 0)).fields.length + 3 ≠ 16) :=
  ⟨rfl, by decide, by decide, ⟨ask_carries _ _ rfl rfl rfl, by decide⟩, ⟨ask_carries _ _ rfl rfl rfl, by decide⟩⟩
/-- The fourth entry of a full cache answers, with one place left in the Reply Queue; an unlisted kind; a listed one. -/
theorem witness_CachedAndUnknownRequests :
    let e (seq : Byte) : Reply := { seq := seq, kind := 1, status := .ok, fields := [] }
    (let s := { ask State.reset 1 [] with cache := [e 4, e 5, e 6, e 7], replies := [e 1, e 2, e 3] }
     s.inReset = false ∧ s.rxQueue = rqOf 1 [] :: [] ∧ s.replies.length < 4 ∧ (rqOf 1 []).seq ≠ 0 ∧
       s.cache = [e 4, e 5, e 6] ++ e 7 :: [] ∧ (e 7).seq = (rqOf 1 []).seq ∧ (e 7).kind = (rqOf 1 []).kind ∧
       ∀ x ∈ [e 4, e 5, e 6], ¬ (x.seq = (rqOf 1 []).seq ∧ x.kind = (rqOf 1 []).kind)) ∧
    (ask State.reset 0x00 []).Carries (rqOf 0x00 []) [] ∧ (ask State.reset 0x7E []).Carries (rqOf 0x7E []) [] ∧
    (ask State.reset 0x7F []).Carries (rqOf 0x7F []) [] :=
  ⟨by decide +kernel, ask_carries _ _ rfl rfl rfl, ask_carries _ _ rfl rfl rfl, ask_carries _ _ rfl rfl rfl⟩
theorem witness_ReadsCarryTheState :
    (ask idle0 0x01 []).Carries (rqOf 0x01 []) [] ∧ (ask idle0 0x03 []).Carries (rqOf 0x03 []) [] ∧
    (ask (armed 101 none) 0x03 []).Carries (rqOf 0x03 []) [] ∧ (ask idle0 0x06 []).Carries (rqOf 0x06 []) [] ∧
    (ask staged3 0x02 [0]).Carries (rqOf 0x02 [0]) [] ∧ (ask idle0 0x02 [1]).Carries (rqOf 0x02 [1]) [] ∧
    ((ask idle0 0x02 [2]).Carries (rqOf 0x02 [2]) [] ∧ 1 < (2 : Byte).toNat) :=
  ⟨ask_carries _ _ rfl rfl rfl, ask_carries _ _ rfl rfl rfl, ask_carries _ _ rfl rfl rfl, ask_carries _ _ rfl rfl rfl,
    ask_carries _ _ rfl rfl rfl, ask_carries _ _ rfl rfl rfl, ⟨ask_carries _ _ rfl rfl rfl, by decide⟩⟩

/-- The fields of a SET_GLOBAL. -/
def globalBody (sel : Byte) (l h g r : Nat) : List Byte :=
  [sel] ++ leBytes 2 l ++ leBytes 6 h ++ leBytes 2 g ++ leBytes 2 r

/-- The lowest and the highest values are taken; the ones beyond, and a selection bit above 3, are refused. -/
theorem witness_SetGlobalSetsAllOrNone :
    (ask idle0 0x04 (globalBody 15 10 65536 1 5)).Carries (rqOf 0x04 (globalBody 15 10 65536 1 5)) [] ∧
    (ask idle0 0x04 (globalBody 15 10000 (2 ^ 40) 60000 1000)).Carries (rqOf 0x04 (globalBody 15 10000 (2 ^ 40) 60000 1000)) [] ∧
    (reply (after .setGlobal (ask idle0 0x04 (globalBody 15 10000 (2 ^ 40) 60000 1000)))).map (·.1) = some .ok ∧
    reply (after .setGlobal (ask idle0 0x04 (globalBody 1 9 65536 1 5))) = some (.badParam, []) ∧
    reply (after .setGlobal (ask idle0 0x04 (globalBody 2 10 (2 ^ 40 + 1) 1 5))) = some (.badParam, []) ∧
    reply (after .setGlobal (ask idle0 0x04 (globalBody 4 10 65536 60001 5))) = some (.badParam, []) ∧
    reply (after .setGlobal (ask idle0 0x04 (globalBody 16 10 65536 1 5))) = some (.badParam, []) :=
  ⟨ask_carries _ _ rfl rfl rfl, ask_carries _ _ rfl rfl rfl, by decide +kernel, by decide +kernel, by decide +kernel,
    by decide +kernel, by decide +kernel⟩
/-- Flag, level, polarity and channel just out of range; a busy channel, one with a plan, one with a staged record; an OFF, an
IDLE and a SAFED channel; trigger inputs at and away from their filtered level; an expiry of the filter timer to be taken. -/
theorem witness_SetChannelRefusesOrActs :
    (1 < (2 : Byte).toNat ∧ 2 < (3 : Byte).toNat ∧ 7 < (8 : Byte).toNat) ∧
    (ask pulsing 0x05 [0, 1, 1, 2, 255]).Carries (rqOf 0x05 [0, 1, 1, 2, 255]) [] ∧ (pulsing.engine 0).state = .running ∧
    ((due .wait idle0).plan 0).records ≠ [] ∧
    (∃ i ∈ ([3] : List SlotNo), (staged3.record i).map (·.channel) = some 0) ∧
    (ask idle0 0x05 [0, 1, 0, 0, 0]).Carries (rqOf 0x05 [0, 1, 0, 0, 0]) [] ∧
    ((idle0.engine 1).state = .off ∧ (idle0.engine 0).state = .idle ∧ (safed0.engine 0).state = .safed) ∧
    ((idle0.plan 0).records = [] ∧ idle0.group = none) ∧
    ((idle0.trigger 0).filtered = none ∧
      ((trg0 (some true) true 0 none).trigger 0).filtered = some ((trg0 (some true) true 0 none).trigger 0).sample ∧
      ((trg0 (some true) false 0 none).trigger 0).filtered = some (!((trg0 (some true) false 0 none).trigger 0).sample)) ∧
    ((ask (trg0 (some false) true 3 (some 0)) 0x05 [0, 1, 0, 0, 0]).Carries (rqOf 0x05 [0, 1, 0, 0, 0]) [] ∧
      ((trg0 (some false) true 3 (some 0)).trigger 0).filterTimer = some 0) :=
  ⟨by decide, ask_carries _ _ rfl rfl rfl, by decide +kernel, by decide +kernel, by decide +kernel,
    ask_carries _ _ rfl rfl rfl, by decide +kernel, by decide +kernel, by decide +kernel,
    ⟨ask_carries _ _ rfl rfl rfl, by decide +kernel⟩⟩
/-- The first value, the last value, and the last value with it and the first one held. -/
theorem witness_TagsAreGivenInTheirCycle :
    State.reset.tagToGive = 1 ∧ { State.reset with nextTag := 255 }.tagToGive = 255 ∧
    (let s := { State.reset with
       nextTag := 255, tagsOpen := [{ tag := 255, subject := .sync }, { tag := 1, subject := .sync }] }
     1 ≤ s.nextTag ∧ s.nextTag ≤ 255 ∧ s.tagsOpen.length + s.tagsWaiting.length < 16 ∧ s.tagToGive = 2) := by decide +kernel

/-- A SCHEDULE of a PULSE of one tick on channel 0. -/
def pulseBody (channel tagged grouped : Byte) (start : Time) : List Byte :=
  scheduleBody channel 1 (policyCode .wait) 1 tagged grouped start 0 1 0 0 0 0 0

/-- Channel 0 with 64 places of its plan taken. -/
def planFull0 : State := idle0.modPlan 0 fun p => { p with records := List.replicate 64 0 }

/-- Sixteen tags waiting. -/
def tagsFull0 : State :=
  { idle0 with tagsOpen := (List.range 16).map fun n => { tag := n + 1, subject := .sync } }

/-- Each refusal at its boundary, in the order of the checks; a width of 0, an undefined kind and an undefined flag. -/
theorem witness_ScheduleRefusesInOrder :
    ((ask idle0 0x10 (pulseBody 8 0 0 0)).Carries (rqOf 0x10 (pulseBody 8 0 0 0)) [] ∧
      fieldsGive 1 0 1 0 0 0 0 0 (.pulse 1)) ∧
    ((idle0.engine 7).state = .off ∧ reply (after .schedule (ask idle0 0x10 (pulseBody 7 0 0 0))) = some (.channelOff, [])) ∧
    reply (after .schedule (ask { idle0 with deviceTime := BitVec.ofNat 48 (2 ^ 48 - 100) } 0x10 (pulseBody 0 0 0 0)))
      = some (.tooFar, []) ∧
    reply (after .schedule (ask idle0 0x10 (pulseBody 0 0 0 199))) = some (.tooLate, []) ∧
    reply (after .schedule (ask idle0 0x10 (pulseBody 0 0 0 (BitVec.ofNat 48 (2 ^ 32 + 101))))) = some (.tooFar, []) ∧
    reply (after .schedule (ask planFull0 0x10 (pulseBody 0 0 0 200))) = some (.planFull, []) ∧
    reply (after .schedule (ask { idle0 with freeList := [] } 0x10 (pulseBody 0 0 0 200))) = some (.poolFull, []) ∧
    reply (after .schedule (ask tagsFull0 0x10 (pulseBody 0 1 0 200))) = some (.tagsFull, []) ∧
    reply (after .stagingSchedule (ask idle0 0x10 (pulseBody 0 0 1 0))) = some (.noGroup, []) ∧
    reply (after .stagingSchedule (ask { idle0 with group := some { id := 1, staging := List.replicate 32 0, timer := 9 } } 0x10
      (pulseBody 0 0 1 0))) = some (.groupFull, []) ∧
    (∀ params, ¬ fieldsGive 6 0 1 0 0 0 0 0 params) ∧ (∀ params, ¬ fieldsGive 1 0 0 0 0 0 0 0 params) ∧
    1 < (2 : Byte).toNat :=
  ⟨⟨ask_carries _ _ rfl rfl rfl, by simp [fieldsGive]⟩, by decide +kernel, by decide +kernel, by decide +kernel,
    by decide +kernel, by decide +kernel, by decide +kernel, by decide +kernel, by decide +kernel, by decide +kernel,
    fun params => by cases params <;> simp [fieldsGive], fun params => by cases params <;> simp [fieldsGive], by decide⟩
/-- The earliest start, an ASAP start, and a staging one with the last place of the group. -/
theorem witness_ScheduleAdmitsOrStages :
    ((ask idle0 0x10 (pulseBody 0 1 0 200)).Carries (rqOf 0x10 (pulseBody 0 1 0 200)) [] ∧
      (ask idle0 0x10 (pulseBody 0 1 0 200)).Held ∧ (200 : Time).toNat ≠ 0 ∧
      idle0.deviceTime.toNat + idle0.minLead ≤ (200 : Time).toNat ∧
      (200 : Time).toNat ≤ idle0.deviceTime.toNat + idle0.horizon ∧ (idle0.engine 0).state ≠ .off ∧
      (idle0.plan 0).records.length < 64 ∧ idle0.freeList = 0 :: (List.finRange 256).tail ∧
      idle0.tagsOpen.length + idle0.tagsWaiting.length < 16) ∧
    ((ask idle0 0x10 (pulseBody 0 0 0 0)).Carries (rqOf 0x10 (pulseBody 0 0 0 0)) [] ∧
      (200 : Time).toNat = idle0.deviceTime.toNat + idle0.minLead) ∧
    (let s := { idle0 with group := some { id := 1, staging := List.replicate 31 0, timer := 9 } }
     (ask s 0x10 (pulseBody 0 0 1 0)).Carries (rqOf 0x10 (pulseBody 0 0 1 0)) [] ∧ s.group.map (·.staging.length) = some 31)
         :=
  ⟨⟨ask_carries _ _ rfl rfl rfl, held_of_check (by decide +kernel), by decide +kernel, by decide +kernel, by decide +kernel,
      by decide +kernel, by decide +kernel, by decide +kernel, by decide +kernel⟩,
    ⟨ask_carries _ _ rfl rfl rfl, by decide +kernel⟩, ⟨ask_carries _ _ rfl rfl rfl, by decide +kernel⟩⟩
/-- Stale handles (generation 0, another generation, a FREE slot); a staged record, the head of a plan, one behind the head, and
the current action. -/
theorem witness_CancelFreesTheRecord :
    ((ask pulsing 0x11 [9, 0]).Carries (rqOf 0x11 [9, 0]) [] ∧ (ask pulsing 0x11 [9, 0]).Held) ∧
    ((2 : Byte).toNat ≠ (pulsing.slot 9).gen ∧ pulsing.record 8 = none) ∧
    ((ask staged3 0x11 [3, 1]).Carries (rqOf 0x11 [3, 1]) [] ∧ (ask staged3 0x11 [3, 1]).Held ∧ (1 : Byte).toNat =
        (staged3.slot 3).gen) ∧
    (let s := ask (due .wait idle0) 0x11 [1, 1]
     s.Carries (rqOf 0x11 [1, 1]) [] ∧ s.Held ∧ (s.plan 0).records = [] ++ 1 :: [2] ∧ s.NextNotDue [2] ∧ (s.plan 0).loads =
         []) ∧
    (let s := ask (due .wait idle0) 0x11 [2, 1]
     s.Carries (rqOf 0x11 [2, 1]) [] ∧ (s.plan 0).records = [1] ++ 2 :: []) ∧
    (let s := ask pulsing 0x11 [9, 1]
     s.Carries (rqOf 0x11 [9, 1]) [] ∧ s.Held ∧ (s.engine 0).current = some (run0 (progOf .active (some 3)))) :=
  ⟨⟨ask_carries _ _ rfl rfl rfl, held_of_check (by decide +kernel)⟩, by decide +kernel,
    ⟨ask_carries _ _ rfl rfl rfl, held_of_check (by decide +kernel), by decide +kernel⟩,
    ⟨ask_carries _ _ rfl rfl rfl, held_of_check (by decide +kernel), by decide +kernel, nextNotDue_of_check (by decide +kernel),
      by decide +kernel⟩,
    ⟨ask_carries _ _ rfl rfl rfl, by decide +kernel⟩,
    ⟨ask_carries _ _ rfl rfl rfl, held_of_check (by decide +kernel), by decide +kernel⟩⟩
theorem witness_CancelChannelEmptiesThePlan :
    (1 < (2 : Byte).toNat ∧ 7 < (8 : Byte).toNat ∧ (7 : Byte) = BitVec.ofNat 8 (7 : Channel).val) ∧
    ((ask (due .wait idle0) 0x12 [0, 0]).Carries (rqOf 0x12 [0, 0]) [] ∧ (ask (due .wait idle0) 0x12 [0, 0]).Held) ∧
    ((ask idle0 0x12 [7, 1]).Carries (rqOf 0x12 [7, 1]) [] ∧ (idle0.engine 7).current = none ∧ (idle0.plan 7).records = []) ∧
    ((ask (due .wait pulsing) 0x12 [0, 1]).Carries (rqOf 0x12 [0, 1]) [] ∧ (ask (due .wait pulsing) 0x12 [0, 1]).Held ∧
      (due .wait pulsing).Runs 0 (run0 (progOf .active (some 3))) (recOf (.pulse 5) 90 .wait .current)) :=
  ⟨by decide, ⟨ask_carries _ _ rfl rfl rfl, held_of_check (by decide +kernel)⟩,
    ⟨ask_carries _ _ rfl rfl rfl, by decide +kernel, by decide +kernel⟩,
    ⟨ask_carries _ _ rfl rfl rfl, held_of_check (by decide +kernel), by unfold State.Runs; decide +kernel⟩⟩
theorem witness_QueriesReportRecordAndChannel :
    (ask pulsing 0x13 [9, 0]).Carries (rqOf 0x13 [9, 0]) [] ∧
    ((ask pulsing 0x13 [9, 1]).Carries (rqOf 0x13 [9, 1]) [] ∧ (1 : Byte).toNat = (pulsing.slot 9).gen ∧
      pulsing.record 9 = some (recOf (.pulse 5) 90 .wait .current) ∧
      (pulsing.engine 0).current = some (run0 (progOf .active (some 3)))) ∧
    ((ask staged3 0x13 [3, 1]).Carries (rqOf 0x13 [3, 1]) [] ∧ (staged3.record 3).map (·.state) = some .staged) ∧
    ((ask idle0 0x14 [8, 1]).Carries (rqOf 0x14 [8, 1]) [] ∧ (ask idle0 0x14 [7, 2]).Carries (rqOf 0x14 [7, 2]) []) ∧
    (∀ i ∈ ((due .wait pulsing).plan 0).records.head?, (due .wait pulsing).record i ≠ none) ∧
    (∀ i ∈ (idle0.plan 7).records.head?, idle0.record i ≠ none) :=
  ⟨ask_carries _ _ rfl rfl rfl, ⟨ask_carries _ _ rfl rfl rfl, by decide +kernel⟩,
    ⟨ask_carries _ _ rfl rfl rfl, by decide +kernel⟩, ⟨ask_carries _ _ rfl rfl rfl, ask_carries _ _ rfl rfl rfl⟩,
    by decide +kernel, by decide +kernel⟩
theorem witness_GroupBeginOpensAGroup :
    ((ask idle0 0x20 (leBytes 2 60001)).Carries (rqOf 0x20 (leBytes 2 60001)) [] ∧ 60000 < 60001 ∧ 60001 < 2 ^ 16) ∧
    ((ask staged3 0x20 (leBytes 2 60000)).Carries (rqOf 0x20 (leBytes 2 60000)) [] ∧ staged3.group ≠ none) ∧
    ((ask idle0 0x20 (leBytes 2 0)).Carries (rqOf 0x20 (leBytes 2 0)) [] ∧ idle0.group = none) ∧
    (after .groupBegin (ask { idle0 with nextGroupId := 255 } 0x20 (leBytes 2 60000))).nextGroupId = 1 :=
  ⟨⟨ask_carries _ _ rfl rfl rfl, by decide, by decide⟩, ⟨ask_carries _ _ rfl rfl rfl, by decide +kernel⟩,
    ⟨ask_carries _ _ rfl rfl rfl, rfl⟩, by decide +kernel⟩

/-- An open group that stages in slot 3 a PULSE of channel 0 with a start. -/
def stagedAt (start : Time) : State :=
  place { idle0 with group := some { id := 1, staging := [], timer := 9 } } 3 (recOf (.pulse 5) start .wait .staged)

/-- A group that stages in slots 3 and 4 two records of channel 0 with the start of the record in its plan, in slot 1. -/
def stagedTwo : State :=
  place (place { place idle0 1 (recOf (.pulse 5) 300 .wait .planned) with group := some { id := 1, staging := [], timer := 9 } } 3
    (recOf (.pulse 5) 300 .wait .staged)) 4 (recOf (.pulse 5) 300 .wait .staged)

/-- A staged start one tick too early, and one at the earliest tick; two staged records with the start of a planned one. -/
theorem witness_GroupCommitPlansAllOrNone :
    ((ask (stagedAt 199) 0x21 []).Carries (rqOf 0x21 []) [] ∧ (ask (stagedAt 199) 0x21 []).Held ∧
      (stagedAt 199).group.map (·.staging) = some ([] ++ 3 :: []) ∧
      (stagedAt 199).record 3 = some (recOf (.pulse 5) 199 .wait .staged) ∧
      (199 : Time).toNat < (stagedAt 199).deviceTime.toNat + (stagedAt 199).minLead) ∧
    ((ask (stagedAt 200) 0x21 []).Carries (rqOf 0x21 []) [] ∧ (ask (stagedAt 200) 0x21 []).Held ∧
      (stagedAt 200).record 3 = some (recOf (.pulse 5) 200 .wait .staged) ∧
      (stagedAt 200).deviceTime.toNat + (stagedAt 200).minLead ≤ (200 : Time).toNat ∧
      ((stagedAt 200).plan 0).records.length + 0 < 64) ∧
    ((ask stagedTwo 0x21 []).Carries (rqOf 0x21 []) [] ∧ (ask stagedTwo 0x21 []).Held ∧
      stagedTwo.group.map (·.staging) = some ([] ++ 3 :: [] ++ 4 :: []) ∧
      ((stagedTwo.plan 0).records.map stagedTwo.startOf).Pairwise (· ≤ ·) ∧
      ((after .groupCommit (ask stagedTwo 0x21 [])).plan 0).records = [1, 3, 4]) :=
  ⟨⟨ask_carries _ _ rfl rfl rfl, held_of_check (by decide +kernel), by decide +kernel, by decide +kernel, by decide +kernel⟩,
    ⟨ask_carries _ _ rfl rfl rfl, held_of_check (by decide +kernel), by decide +kernel, by decide +kernel, by decide +kernel⟩,
    ⟨ask_carries _ _ rfl rfl rfl, held_of_check (by decide +kernel), by decide +kernel, by decide +kernel, by decide +kernel⟩⟩
/-- Each refusal at its boundary; a capture at the earliest time; a capture at once. -/
theorem witness_SnapshotSchedulesOrCaptures :
    (ask idle0 0x30 (0xFF :: leBytes 6 0)).Carries (rqOf 0x30 (0xFF :: leBytes 6 0)) [] ∧
    reply (after .snapshot (ask idle0 0x30 (0 :: leBytes 6 0))) = some (.badParam, []) ∧
    reply (after .snapshot (ask { idle0 with snapshot := some { mask := 1, time := 200, tag := 1, due := none } } 0x30
      (1 :: leBytes 6 0))) = some (.busy, []) ∧
    reply (after .snapshot (ask idle0 0x30 (1 :: leBytes 6 199))) = some (.tooLate, []) ∧
    reply (after .snapshot (ask idle0 0x30 (1 :: leBytes 6 (2 ^ 32 + 101)))) = some (.tooFar, []) ∧
    reply (after .snapshot (ask tagsFull0 0x30 (1 :: leBytes 6 200))) = some (.tagsFull, []) ∧
    reply (after .snapshot (ask idle0 0x30 (1 :: leBytes 6 200))) = some (.deferred, [1]) ∧
    (after .snapshot (ask idle0 0x30 (1 :: leBytes 6 0))).notices.length = 2 :=
  ⟨ask_carries _ _ rfl rfl rfl, by decide +kernel, by decide +kernel, by decide +kernel, by decide +kernel, by decide +kernel,
    by decide +kernel, by decide +kernel⟩
theorem witness_WaitIdleAndArmSyncGiveATag :
    ((ask idle0 0x31 [0xFF]).Carries (rqOf 0x31 [0xFF]) [] ∧ ∀ ch : Channel, (idle0.plan ch).records = []) ∧
    ((ask pulsing 0x31 [1]).Carries (rqOf 0x31 [1]) [] ∧ (pulsing.engine 0).state = .running) ∧
    16 ≤ tagsFull0.tagsOpen.length + tagsFull0.tagsWaiting.length ∧
    ((ask idle0 0x32 (leBytes 6 0 ++ [1])).Carries (rqOf 0x32 (leBytes 6 0 ++ [1])) [] ∧ (1 : Byte).toNat ≤ 1 ∧ idle0.syncArm = none) ∧
    (1 < (2 : Byte).toNat ∧ (armed 101 none).syncArm ≠ none) :=
  ⟨⟨ask_carries _ _ rfl rfl rfl, by decide +kernel⟩, ⟨ask_carries _ _ rfl rfl rfl, by decide +kernel⟩, by decide +kernel,
    ⟨ask_carries _ _ rfl rfl rfl, by decide, rfl⟩, by decide +kernel⟩
/-- A tag that no entry holds and one that waits; the four subjects, an action that is STAGED, PLANNED at the head and behind it,
WAITING, and CURRENT. -/
theorem witness_CancelTagEndsTheSubject :
    ((ask idle0 0x33 [255]).Carries (rqOf 0x33 [255]) [] ∧ idle0.tagsOpen = [] ∧ idle0.tagsWaiting = []) ∧
    (∃ w ∈ { idle0 with tagsWaiting := [{ tag := 1, result := .idle, body := .idleWait 1 0 }] }.tagsWaiting, w.tag =
        (1 : Byte).toNat) ∧
    (let s := ask (armed 101 none) 0x33 [16]
     s.Carries (rqOf 0x33 [16]) [] ∧ s.tagsOpen = [] ++ { tag := 16, subject := .sync } :: []) ∧
    (let s := ask { idle0 with tagsOpen := [{ tag := 1, subject := .idleWait 1 }] } 0x33 [1]
     s.Carries (rqOf 0x33 [1]) [] ∧ s.tagsOpen = [] ++ { tag := 1, subject := .idleWait 1 } :: []) ∧
    (let s := ask { idle0 with tagsOpen := [{ tag := 1, subject := .snapshot 1 }],
                               snapshot := some { mask := 1, time := 200, tag := 1, due := none } } 0x33 [1]
     s.Carries (rqOf 0x33 [1]) [] ∧ s.snapshot = some { mask := 1, time := 200, tag := 1, due := none }) ∧
    (let s := ask staged3 0x33 [5]
     s.Carries (rqOf 0x33 [5]) [] ∧ s.Held ∧ s.tagsOpen = [] ++ { tag := 5, subject := .action (s.handle 3) } :: [] ∧
       s.record 3 = some { recOf (.pulse 5) 0 .wait .staged with tag := some 5 } ∧
       s.group = some { id := 1, staging := [3], timer := 0 }) ∧
    (let s := ask (tagged5 (due .wait idle0) 1 (recOf (.pulse 5) 100 .wait .planned)) 0x33 [5]
     s.Carries (rqOf 0x33 [5]) [] ∧ s.Held ∧ (s.plan 0).records = [] ++ 1 :: [2] ∧ s.NextNotDue [2] ∧ (s.plan 0).loads = []) ∧
    (let s := ask (tagged5 (due .wait idle0) 2 (recOf (.pulse 6) 101 .skip .planned)) 0x33 [5]
     s.Carries (rqOf 0x33 [5]) [] ∧ s.Held ∧ (s.plan 0).records = [1] ++ 2 :: []) ∧
    (let s := ask (tagged5 (due .wait pulsing) 1 (recOf (.pulse 5) 100 .wait .waiting)) 0x33 [5]
     s.Carries (rqOf 0x33 [5]) [] ∧ s.Held ∧ s.NextNotDue [2] ∧ (s.record 1).map (·.state) = some .waiting) ∧
    (let s := ask (tagged5 pulsing 9 (recOf (.pulse 5) 90 .wait .current)) 0x33 [5]
     s.Carries (rqOf 0x33 [5]) [] ∧ s.Held ∧ s.tagsOpen = [] ++ { tag := 5, subject := .action (s.handle 9) } :: [] ∧
       (s.engine 0).current = some (run0 (progOf .active (some 3)))) :=
  ⟨⟨ask_carries _ _ rfl rfl rfl, rfl, rfl⟩, by decide +kernel, ⟨ask_carries _ _ rfl rfl rfl, rfl⟩,
    ⟨ask_carries _ _ rfl rfl rfl, rfl⟩, ⟨ask_carries _ _ rfl rfl rfl, rfl⟩,
    ⟨ask_carries _ _ rfl rfl rfl, held_of_check (by decide +kernel), by decide +kernel, by decide +kernel, by decide +kernel⟩,
    ⟨ask_carries _ _ rfl rfl rfl, held_of_check (by decide +kernel), by decide +kernel, nextNotDue_of_check (by decide +kernel),
      by decide +kernel⟩,
    ⟨ask_carries _ _ rfl rfl rfl, held_of_check (by decide +kernel), by decide +kernel⟩,
    ⟨ask_carries _ _ rfl rfl rfl, held_of_check (by decide +kernel), nextNotDue_of_check (by decide +kernel),
      by decide +kernel⟩,
    ⟨ask_carries _ _ rfl rfl rfl, held_of_check (by decide +kernel), by decide +kernel, by decide +kernel⟩⟩
theorem witness_NoticeAckRemovesAndRefills :
    ((ask noticed 0x40 (leBytes 2 2)).Carries (rqOf 0x40 (leBytes 2 2)) [] ∧
      ∀ x ∈ noticed.notices, x.number = 2 → x.sent = false) ∧
    (∃ x later, (ask noticed 0x40 (leBytes 2 1)).Carries (rqOf 0x40 (leBytes 2 1)) [] ∧
      noticed.notices = [] ++ x :: later ∧ x.number = 1 ∧ x.sent = true) ∧
    (1 ≤ noticed.nextNumber ∧ noticed.nextNumber ≤ 65535) :=
  ⟨⟨ask_carries _ _ rfl rfl rfl, by decide⟩, ⟨_, _, ask_carries _ _ rfl rfl rfl, rfl, rfl, rfl⟩, by decide⟩
theorem witness_RestartClearsTheWork :
    (ask pulsing 0x7F []).Carries (rqOf 0x7F []) [] ∧
    (ask { pulsing with safenSample := false } 0x7F []).Carries (rqOf 0x7F []) [] :=
  ⟨ask_carries _ _ rfl rfl rfl, ask_carries _ _ rfl rfl rfl⟩

/-! ### The watch -/

/-- A PULSE of channel 0 at its expiry, and a wait for the channels of a mask. -/
def waited (mask : Byte) : State :=
  { busy0 (.pulse 5) .running (progOf .active (some 0)) with tagsOpen := [{ tag := 1, subject := .idleWait mask }] }

/-- The end that makes the one selected channel quiet; an end that frees no record of the selected channels; an end after which a
selected channel still has a plan. -/
theorem witness_TheWatchEndsQuietWaits :
    let t (s : State) : State := after (.pulseExpiry 0) s
    ((waited 1).Held ∧ (waited 1).TagsKept ∧ exec (.pulseExpiry 0) (waited 1) = .next (t (waited 1)) ∧
      (waited 1).record 9 = some (recOf (.pulse 5) 90 .wait .current) ∧ 9 ∈ (t (waited 1)).freeList ∧
      ((t (waited 1)).engine 0).state = .idle ∧ ((t (waited 1)).plan 0).records = [] ∧ (t (waited 1)).tagsOpen = []) ∧
    ((waited 2).Held ∧ (waited 2).TagsKept ∧ (t (waited 2)).tagsOpen.length = 1) ∧
    (let s := place (waited 1) 2 (recOf (.pulse 6) 101 .skip .planned)
     s.Held ∧ s.TagsKept ∧ ((t s).plan 0).records = [2] ∧ (t s).tagsOpen.length = 1) :=
  ⟨⟨held_of_check (by decide +kernel), tagsKept_of_check (by decide +kernel), rfl, by decide +kernel, by decide +kernel,
      by decide +kernel, by decide +kernel, by decide +kernel⟩,
    ⟨held_of_check (by decide +kernel), tagsKept_of_check (by decide +kernel), by decide +kernel⟩,
    ⟨held_of_check (by decide +kernel), tagsKept_of_check (by decide +kernel), by decide +kernel, by decide +kernel⟩⟩

/-! ### Invariants -/

/-- A busy state with a due head and its command at the front of the queue keeps its records held and its plans in order, and a step
answers. -/
theorem witness_StepsKeepEveryRecordHeld :
    let s := { due .preempt pulsing with pending := [.headDue 0] }
    s.Held ∧ s.PlansKept ∧ step s = .next (after (.headDue 0) (due .preempt pulsing)) ∧
    { s with safenSample := false, latch := true }.LineKept ∧
    ∃ t, step { s with safenSample := false, latch := true } = .next t :=
  ⟨held_of_check (by decide +kernel), plansKept_of_check (by decide +kernel), rfl, fun _ => .inl rfl, _, rfl⟩
theorem witness_StepsKeepTheCapacities :
    let s := { ask planFull0 0x10 (pulseBody 0 0 0 200) with
               pending := [.schedule], replies := List.replicate 3 { seq := 0, kind := 1, status := .ok, fields := [] } }
    (s.Bounded ∧ step s = .next (after .schedule { s with pending := [] })) ∧
    (let k := { ask staged3 0x22 [] with
       pending := [.groupAbort], syncArm := some { value := 500, pol := .rising, tag := 16 }
       snapshot := some { mask := 1, time := 200, tag := 2, due := none }
       tagsOpen := [{ tag := 5, subject := .action 0x0103 }, { tag := 16, subject := .sync }, { tag := 2, subject := .snapshot 1 },
         { tag := 3, subject := .idleWait 1 }] }
     k.Held ∧ k.TagsKept ∧ step k = .next (after .groupAbort { k with pending := [] })) :=
  ⟨⟨⟨by decide +kernel, by decide +kernel, by decide +kernel, by decide +kernel, by decide +kernel, fun g h => by cases h⟩, rfl⟩,
    held_of_check (by decide +kernel), tagsKept_of_check (by decide +kernel), rfl⟩
theorem witness_StepsKeepTheNoticesInOrder :
    let s := { noticed with pending := [.noticeSend] }
    s.NoticesKept ∧ ∃ t, step s = .next t := by
  refine ⟨⟨by decide +kernel, ?_, by decide +kernel, ⟨1, by omega, by simp [noticed]⟩, ?_, by decide +kernel, by decide +kernel,
    by decide +kernel, by decide +kernel, by decide +kernel⟩, _, rfl⟩
  · simp [numbered, noticed]
  · intro h; exact absurd rfl h

end Sys2Proof.Tests
end

