-- ==== Sys2Proof/Proofs/Queries.lean ====
section
/-!
PROOF. QUERY_ACTION (R31) and QUERY_CHANNEL (R52): how their fields are read, what each answers, and the reply byte by byte.
-/
namespace Sys2Proof.Machine

/-! ### Reading the fields of a query -/

/-- A field of one byte holds that byte's number. -/
theorem field_one {fs : List Byte} {off : Nat} {b : Byte} (h : fs[off]? = some b) : field fs off 1 = b.toNat := by
  obtain ⟨hlt, hget⟩ := List.getElem?_eq_some_iff.mp h
  simp [field, List.drop_eq_getElem_cons hlt, hget, leNat]

/-- A flag byte 00H or 01H is the flag that it writes (R177). -/
theorem flagField_flagBit {fs : List Byte} {off : Nat} {b : Bool} (h : fs[off]? = some (flagBit b)) :
    flagField fs off = some b := by
  unfold flagField
  rw [field_one h]
  cases b <;> rfl

/-- A flag byte that is at most 01H writes a flag. -/
theorem exists_flagBit {b : Byte} (h : b.toNat ≤ 1) : ∃ c, b = flagBit c := by
  rcases Nat.le_one_iff_eq_zero_or_eq_one.mp h with h0 | h1
  · exact ⟨false, BitVec.eq_of_toNat_eq h0⟩
  · exact ⟨true, BitVec.eq_of_toNat_eq h1⟩

/-- A flag byte above 01H is no flag (R177). -/
theorem flagField_gt_one {fs : List Byte} {off : Nat} {b : Byte} (h : fs[off]? = some b) (hb : 1 < b.toNat) :
    flagField fs off = none := by
  unfold flagField
  rw [field_one h]
  split
  · omega
  · omega
  · rfl

theorem toChannel_gt_seven {n : Nat} (h : 7 < n) : toChannel n = none := dif_neg (by omega)

theorem toChannel_val (ch : Channel) : toChannel ch.val = some ch := dif_pos ch.isLt

theorem channelByte_toNat (ch : Channel) : (BitVec.ofNat 8 ch.val).toNat = ch.val := by
  rw [BitVec.toNat_ofNat]
  omega

/-- The handle field of a request: slot in the low byte, generation in the high byte (R16). -/
theorem handleField_slot_gen (i : SlotNo) (gen : Byte) :
    handleField [BitVec.ofNat 8 i.val, gen] = handleOf gen.toNat i := by
  have hi : i.val % 256 = i.val := Nat.mod_eq_of_lt i.isLt
  simp only [handleField, handleOf, field, List.drop_zero, List.take, leNat, BitVec.toNat_ofNat]
  congr 1
  omega

theorem handleOf_toNat (gen : Byte) (i : SlotNo) : (handleOf gen.toNat i).toNat = gen.toNat * 256 + i.val := by
  have hi := i.isLt
  have hg := gen.isLt
  rw [handleOf, BitVec.toNat_ofNat]
  omega

theorem handleSlot_handleOf (gen : Byte) (i : SlotNo) : handleSlot (handleOf gen.toNat i) = i := by
  have hi := i.isLt
  apply Fin.ext
  simp only [handleSlot, handleOf_toNat]
  omega

theorem handleGen_handleOf (gen : Byte) (i : SlotNo) : handleGen (handleOf gen.toNat i) = gen.toNat := by
  have hi := i.isLt
  simp only [handleGen, handleOf_toNat]
  omega

/-- What a handle written as slot and generation names (R16). -/
theorem lookup_handleOf (s : State) (gen : Byte) (i : SlotNo) :
    s.lookup (handleOf gen.toNat i)
      = if gen ≠ 0 ∧ gen.toNat = (s.slot i).gen then (s.record i).map fun r => (i, r) else none := by
  have h0 : gen.toNat ≠ 0 ↔ gen ≠ 0 := not_congr (BitVec.toNat_eq (y := 0#8)).symm
  simp only [State.lookup, handleSlot_handleOf, handleGen_handleOf, h0]

theorem lookup_stale {s : State} {gen : Byte} {i : SlotNo} (h : gen = 0 ∨ gen.toNat ≠ (s.slot i).gen ∨ s.record i = none) :
    s.lookup (handleOf gen.toNat i) = none := by
  rw [lookup_handleOf]
  rcases h with h | h | h <;> simp [h]

theorem lookup_live {s : State} {gen : Byte} {i : SlotNo} {r : Record} (h0 : gen ≠ 0) (hg : gen.toNat = (s.slot i).gen)
    (hr : s.record i = some r) : s.lookup (handleOf gen.toNat i) = some (i, r) := by
  rw [lookup_handleOf, if_pos ⟨h0, hg⟩, hr]
  rfl

/-! ### QUERY_ACTION (R31) -/

/-- What the Action Pool answers to QUERY_ACTION of a handle (R31). -/
def State.actionReply (s : State) (h : Handle) : Response :=
  (s.lookup h).elim (bare .noSuchAction) fun live => (.ok, s.actionFields live.2)

/-- QUERY_ACTION appends the answer to its handle, and no block changes (R31). -/
theorem queryAction_next {s : State} {rq : Request} {rest : List Request} {i : SlotNo} {gen : Byte}
    (hc : s.Carries rq rest) (hk : rq.kind = 0x13) (hf : rq.fields = [BitVec.ofNat 8 i.val, gen]) :
    exec .queryAction s = .next (State.withReply { s with rxQueue := rest } rq
      (s.actionReply (handleOf gen.toNat i)).1 (s.actionReply (handleOf gen.toNat i)).2) := by
  have hlook : State.lookup { s with rxQueue := rest } (handleField rq.fields) = s.lookup (handleOf gen.toNat i) := by
    rw [hf, handleField_slot_gen]
    rfl
  refine (request_next hc hk (by rw [hf]; rfl) _).trans ?_
  simp only [hlook, State.actionReply]
  cases s.lookup (handleOf gen.toNat i) <;> rfl

theorem actionReply_stale {s : State} {i : SlotNo} {gen : Byte}
    (h : gen = 0 ∨ gen.toNat ≠ (s.slot i).gen ∨ s.record i = none) :
    s.actionReply (handleOf gen.toNat i) = (.noSuchAction, []) := by
  rw [State.actionReply, lookup_stale h]
  rfl

theorem actionReply_live {s : State} {i : SlotNo} {gen : Byte} {r : Record} (h0 : gen ≠ 0)
    (hg : gen.toNat = (s.slot i).gen) (hr : s.record i = some r) :
    s.actionReply (handleOf gen.toNat i) = (.ok, s.actionFields r) := by
  rw [State.actionReply, lookup_live h0 hg hr]
  rfl

/-- The presence byte of a progress part: bit 0 progress, bit 1 phase remaining, bit 2 window remaining (section 11.3). -/
theorem actionPresence_some (g : Progress) :
    actionPresence (some g)
      = BitVec.ofNat 8 (1 + (if g.phaseRemaining = none then 0 else 2) + (if g.windowRemaining = none then 0 else 4)) := by
  cases hp : g.phaseRemaining <;> cases hw : g.windowRemaining <;> simp [actionPresence, flagByte, hp, hw]

/-- A record that is not CURRENT has no progress part: presence 0 and absent fields 0 (R31, R178). -/
theorem actionFields_of_not_current (s : State) {r : Record} (h : r.state ≠ .current) :
    s.actionFields r = [recStateCode r.state, BitVec.ofNat 8 r.channel.val, kindCode r.params] ++ leBytes 6 r.start.toNat
      ++ ([0] ++ List.replicate 23 0) := by
  have hp : s.progressOf r = none := if_neg h
  simp only [State.actionFields, hp, List.append_assoc]
  rfl

/-- A CURRENT record carries the progress part of its channel's engine (R24, R31). -/
theorem actionFields_of_current {s : State} {r : Record} {run : Running} (h : r.state = .current)
    (hrun : (s.engine r.channel).current = some run) :
    s.actionFields r = [recStateCode r.state, BitVec.ofNat 8 r.channel.val, kindCode r.params] ++ leBytes 6 r.start.toNat
      ++ ([actionPresence (some run.progress)] ++ progressFields (some run.progress)) := by
  have hp : s.progressOf r = some run.progress := by
    rw [State.progressOf, if_pos h, hrun]
    rfl
  simp only [State.actionFields, hp, List.append_assoc]
  rfl

/-! ### QUERY_CHANNEL (R52) -/

theorem queryChannel_next {s : State} {rq : Request} {rest : List Request} {n flag : Byte} {status : Status}
    {fields : List Byte} {t : State} (hc : s.Carries rq rest) (hk : rq.kind = 0x14) (hf : rq.fields = [n, flag])
    (h : State.queryChannel { s with rxQueue := rest } [n, flag] = ((status, fields), t)) :
    exec .queryChannel s = .next (t.withReply rq status fields) := by
  have hnext := request_next hc hk (len := 5) (by rw [hf]; rfl) fun fs s => s.queryChannel fs
  rw [hf, h] at hnext
  exact hnext

theorem queryChannel_badParam (s : State) (n : Byte) {flag : Byte} (h : 1 < flag.toNat) :
    s.queryChannel [n, flag] = ((.badParam, []), s) := by
  simp only [State.queryChannel, flagField_gt_one (fs := [n, flag]) (off := 1) rfl h, bare]

theorem queryChannel_badChannel (s : State) {n : Byte} (clear : Bool) (h : 7 < n.toNat) :
    s.queryChannel [n, flagBit clear] = ((.badChannel, []), s) := by
  simp only [State.queryChannel, flagField_flagBit (fs := [n, flagBit clear]) (off := 1) rfl,
    field_one (fs := [n, flagBit clear]) (off := 0) rfl, toChannel_gt_seven h, bare]

/-- The fields are those before the clear flag takes effect (R52, R76). -/
theorem queryChannel_ok (s : State) (ch : Channel) (clear : Bool) :
    s.queryChannel [BitVec.ofNat 8 ch.val, flagBit clear]
      = ((.ok, s.channelFields ch), if clear then s.modEngine ch fun e => { e with strayCount := 0 } else s) := by
  simp only [State.queryChannel, flagField_flagBit (fs := [BitVec.ofNat 8 ch.val, flagBit clear]) (off := 1) rfl,
    field_one (fs := [BitVec.ofNat 8 ch.val, flagBit clear]) (off := 0) rfl, channelByte_toNat, toChannel_val]

/-- The level that the reply gives as the rest level: the safe level while the channel is OFF (R52). -/
theorem flagBit_reportedRest (e : Engine) :
    flagBit e.reportedRest
      = if e.state = .off then (if e.config.safeLevel then 1 else 0) else (if e.restLevel then 1 else 0) := by
  unfold Engine.reportedRest
  split <;> rfl

/-- The presence byte of QUERY_CHANNEL: bit 0 current action, bit 1 plan head, bit 2 pending edge (section 11.3). -/
theorem channelPresence {α β : Type} (current : Option α) (records : List β) (pendingEdge : Bool) :
    flagByte [current.isSome, records.head?.isSome, pendingEdge]
      = BitVec.ofNat 8 ((if current = none then 0 else 1) + (if records = [] then 0 else 2)
          + (if pendingEdge then 4 else 0)) := by
  cases current <;> cases records <;> cases pendingEdge <;> simp [flagByte]

/-- The handle of an engine's current action in the reply of QUERY_CHANNEL, 0 without one (R178). -/
def State.currentFields (s : State) : Option Running → List Byte
  | none => [0, 0]
  | some run => leBytes 2 (s.handle run.slot).toNat

theorem handleBytes_current (s : State) (current : Option Running) :
    handleBytes (current.map fun run => s.handle run.slot) = s.currentFields current := by
  cases current with
  | none => simp [State.currentFields, handleBytes, leBytes]
  | some run => rfl

/-- The head of a channel's plan with its record. -/
def State.headRecord (s : State) (ch : Channel) : Option (SlotNo × Record) :=
  (s.plan ch).records.head?.bind fun i => (s.record i).map fun r => (i, r)

/-- The fields of a plan's head in the reply of QUERY_CHANNEL: handle, start and record state, all 0 without a head (R178). -/
def State.headFields (s : State) : Option (SlotNo × Record) → List Byte
  | none => [0, 0, 0, 0, 0, 0, 0, 0, 0]
  | some (i, r) => leBytes 2 (s.handle i).toNat ++ leBytes 6 r.start.toNat ++ [recStateCode r.state]

/-- The part of the reply that the head of the plan gives, where the head is a record in use. -/
theorem headFields_eq {s : State} {ch : Channel} (h : ∀ i ∈ (s.plan ch).records.head?, s.record i ≠ none) :
    handleBytes ((s.plan ch).records.head?.map s.handle) ++ leBytes 6 ((s.plan ch).records.head?.elim 0 s.startOf)
        ++ [(s.plan ch).records.head?.elim 0 fun i => (s.record i).elim 0 fun r => recStateCode r.state]
      = s.headFields (s.headRecord ch) := by
  unfold State.headRecord
  cases hh : (s.plan ch).records.head? with
  | none => simp [State.headFields, handleBytes, leBytes]
  | some i =>
    obtain ⟨r, hr⟩ := Option.ne_none_iff_exists'.mp (h i hh)
    simp [hr, State.headFields, State.startOf, handleBytes]

/-- The reply of QUERY_CHANNEL in the terms of the spec's layout (R52, section 11.3). -/
theorem channelFields_eq {s : State} {ch : Channel} (h : ∀ i ∈ (s.plan ch).records.head?, s.record i ≠ none) :
    s.channelFields ch
      = [chanStateCode (s.engine ch).state, flagBit (s.engine ch).outputLevel, flagBit (s.engine ch).reportedRest,
          flagByte [(s.engine ch).current.isSome, (s.plan ch).records.head?.isSome, (s.engine ch).pendingEdge]]
        ++ s.currentFields (s.engine ch).current ++ [BitVec.ofNat 8 (s.plan ch).records.length] ++ s.headFields (s.headRecord ch)
        ++ leBytes 2 (s.engine ch).strayCount := by
  rw [← headFields_eq h, ← handleBytes_current]
  simp only [State.channelFields, List.append_assoc]
  rfl

/-! ### The obligation -/

/-- Settles O48: a query that is carried out is answered with the fields read from the state that it finds, the fields are those
of the layouts above, and the codes are the clauses of their definitions. -/
theorem queriesReportRecordAndChannel : Obligations.QueriesReportRecordAndChannel := by
  unfold Obligations.QueriesReportRecordAndChannel
  refine ⟨?action, ?channel, ?kinds, ?recStates, ?chanStates, ?phases⟩
  case action =>
    intro s rq rest i gen hc hk hf
    simp only [queryAction_next hc hk hf]
    refine ⟨fun hstale => ?stale, fun r h0 hg hr => ?live⟩
    case stale => rw [actionReply_stale hstale]
    case live =>
      rw [actionReply_live h0 hg hr]
      refine ⟨fun hst => ?_, fun run hst hrun => ?_⟩
      · simp only [actionFields_of_not_current s hst, List.append_assoc]
      · simp only [actionFields_of_current hst hrun, actionPresence_some, progressFields, timeBytes, flagBit,
          List.append_assoc, List.cons_append, List.nil_append]
  case channel =>
    intro s rq rest n flag hc hk hf
    refine ⟨fun hflag => ?badParam, fun hflag hn => ?badChannel, ?ok⟩
    case badParam => exact queryChannel_next hc hk hf (queryChannel_badParam _ n hflag)
    case badChannel =>
      obtain ⟨clear, rfl⟩ := exists_flagBit hflag
      exact queryChannel_next hc hk hf (queryChannel_badChannel _ clear hn)
    case ok =>
      rintro ch rfl e records head hhead fields
      have hfields : s.channelFields ch = fields := by
        rw [channelFields_eq hhead, channelPresence, flagBit_reportedRest]
        rfl
      refine ⟨?keep, ?clear⟩
      case keep =>
        rintro rfl
        rw [← hfields]
        exact queryChannel_next hc hk hf (queryChannel_ok _ ch false)
      case clear =>
        rintro rfl
        rw [← hfields]
        exact queryChannel_next hc hk hf (queryChannel_ok _ ch true)
  case kinds => simp only [kindCode, implies_true, and_self]
  case recStates => simp only [recStateCode, and_self]
  case chanStates => simp only [chanStateCode, and_self]
  case phases => simp only [phaseCode, and_self]

end Sys2Proof.Machine
end

