-- ==== Sys2Proof/Proofs/HeadDuePreempt.lean ====
section
/-!
PROOF. HEAD_DUE with a due PREEMPT head on a busy channel (R42, R72): the freeing of the ended action goes past the start of the
head, and the new head is handled in the same event.
-/
namespace Sys2Proof.Machine

/-! ### A freeing goes past changes at a plan and an engine -/

theorem freed_modPlan (s : State) (ch : Channel) (f : Plan → Plan) (i : SlotNo) (r : Record) (b : EndedBody) :
    (s.freed i r b).modPlan ch f = (s.modPlan ch f).freed i r b := by
  refine Eq.trans ?_ (freed_withPlans s (setAt s.plans ch (f (s.plan ch))) i r b).symm
  simp only [State.modPlan, freed_plans, freed_plan]

theorem freed_modEngine (s : State) (ch : Channel) (f : Engine → Engine) (i : SlotNo) (r : Record) (b : EndedBody) :
    (s.freed i r b).modEngine ch f = (s.modEngine ch f).freed i r b := by
  refine Eq.trans ?_ (freed_withEngines s (setAt s.engines ch (f (s.engine ch))) i r b).symm
  simp only [State.modEngine, State.setEngine, freed_engines, freed_engine]

theorem freed_leavePlan (s : State) (ch : Channel) (i k : SlotNo) (r : Record) (b : EndedBody) :
    (s.freed k r b).leavePlan ch i = (s.leavePlan ch i).freed k r b :=
  freed_modPlan s ch _ k r b

theorem freed_startAction (s : State) (ch : Channel) {i k : SlotNo} (hik : i ≠ k) (r rc : Record) (b : EndedBody) :
    (s.freed k rc b).startAction ch i r = (s.startAction ch i r).freed k rc b := by
  simp only [State.startAction, ← freed_setRecord s hik, freed_modEngine, freed_engine, freed_deviceTime]

/-- A record that is started runs alike before and after the freeing of another one. -/
theorem freed_startHead (s : State) (ch : Channel) {i k : SlotNo} (hik : i ≠ k) {r : Record} (hns : ∀ l, r.params ≠ .set l)
    (rc : Record) (b : EndedBody) : (s.freed k rc b).startHead ch i r = (s.startHead ch i r).freed k rc b := by
  unfold State.startHead
  split
  case h_1 l hl => exact absurd hl (hns l)
  all_goals rw [freed_leavePlan, freed_startAction _ ch hik]

/-! ### The due handling behind a head that has left its plan -/

/-- The due handling of `s` at `ch` takes the head off the plan, which leaves `rest`, frees a record, and goes on at `u`. -/
structure State.TakesHead (s u : State) (ch : Channel) (rest : List SlotNo) : Prop where
  settles    : s.checkHead ch = settleList ch rest u
  plan       : u.plan ch = { s.plan ch with records := rest }
  records    : ∀ j ∈ rest, u.record j = s.record j
  inReset    : u.inReset = s.inReset
  deviceTime : u.deviceTime = s.deviceTime
  freeList   : s.freeList.length < u.freeList.length

/-- Where the new head is not due, HEAD_DUE ends with the watch (R39, R125). -/
theorem headDue_of_nextNotDue {s u : State} {ch : Channel} {rest : List SlotNo} (h : s.TakesHead u ch rest)
    (hr : s.inReset = false) (hl : (s.plan ch).loads = []) (hn : s.NextNotDue rest) :
    exec (.headDue ch) s = .next (u.watched [ch]) := by
  have hl' : (u.plan ch).loads = [] := by rw [h.plan]; exact hl
  have hstop : s.checkHead ch = u :=
    h.settles.trans (settleList_notDue hl' (nextNotDue_congr hn h.deviceTime h.records))
  rw [headDue_next hr, State.dueAtPlan, hstop, watch_grown (names_maskOf ch) h.freeList]

/-- The new head is handled in the same event (R39, R46). -/
theorem headDue_goesOn {s u : State} {ch : Channel} {rest : List SlotNo} (h : s.TakesHead u ch rest) (hr : s.inReset = false) :
    s.GoesOn (.headDue ch) u ch := by
  refine goesOn_of (h.inReset.trans hr) h.freeList ?_
  have hrec : (u.plan ch).records = rest := by rw [h.plan]
  rw [headDue_next hr, State.dueAtPlan, h.settles, settleList_eq_checkHead hrec]

/-- The watch after the freeing of a record, by the channel that the record names (R125). -/
theorem frees_of_channel {r : Record} {ch : Channel} (hc : r.channel = ch) (s : State) (i : SlotNo) (b : EndedBody) :
    s.Frees ((s.freed i r b).watched [ch]) i r b := by
  rw [State.Frees, hc]

/-! ### The slots of the head, of the action and of the rest of the plan -/

/-- A record that a plan holds names the plan's channel and is not CURRENT (R15, R33). -/
theorem planned_record {s : State} (hh : s.Held) {ch : Channel} {i : SlotNo} (hi : i ∈ (s.plan ch).records) {r : Record}
    (hr : s.record i = some r) : r.channel = ch ∧ r.state ≠ .current := by
  obtain ⟨q, hq, hc, hst⟩ := (hh.planned ch i).mp hi
  obtain rfl : r = q := Option.some.inj (hr.symm.trans hq)
  exact ⟨hc, by rcases hst with h | h <;> rw [h] <;> decide⟩

/-- The record of a running action is CURRENT, so that no plan holds its slot (R15). -/
theorem running_not_planned {s : State} (hh : s.Held) {ch : Channel} {run : Running} {rc : Record} (hrun : s.Runs ch run rc) :
    run.slot ∉ (s.plan ch).records := by
  intro hm
  obtain ⟨hcur, hrec, -⟩ := hrun
  obtain ⟨q, hq, -, hst⟩ := (hh.current ch run.slot).mp ⟨run, hcur, rfl⟩
  exact (planned_record hh hm hq).2 hst

/-- A due PREEMPT head on a running channel preempts (R40, R42). -/
theorem fate_preempt {s : State} (hh : s.Held) {ch : Channel} {run : Running} {rc : Record} (hrun : s.Runs ch run rc)
    (hl : s.latch = false) : s.fate ch .preempt = .preempt := by
  have hb : (s.engine ch).state.busy = true := by rw [← hh.busy ch, hrun.1]; rfl
  unfold State.fate
  rw [if_neg (by simp [hl])]
  revert hb
  cases (s.engine ch).state <;> simp [ChanState.busy]

/-! ### What the PREEMPT head leaves -/

/-- The engine of a channel cut to its rest level at once, the record of its action still to be freed (R72). -/
def State.cutToRest (s : State) (ch : Channel) : State :=
  { s with engines := setAt s.engines ch ((s.engine ch).cut (s.engine ch).restLevel .idle) }

/-- A PREEMPT head of a kind other than SET started in the place of the current action (R42, R64). -/
def State.preemptStarted (s : State) (ch : Channel) (i : SlotNo) (rest : List SlotNo) (r : Record) : State :=
  { s with
    slots := s.slotsWith i r .current
    plans := s.planWithout ch rest
    engines := setAt s.engines ch (((s.engine ch).cut (s.engine ch).restLevel .idle).begun i r s.deviceTime) }

/-- A PREEMPT head of kind SET applied in the place of the current action, its own record still to be freed (R26, R42). -/
def State.preemptApplied (s : State) (ch : Channel) (rest : List SlotNo) (level : Bool) : State :=
  { s with
    plans := s.planWithout ch rest
    engines := setAt s.engines ch { (s.engine ch).cut (s.engine ch).restLevel .idle with
      outputLevel := level, restLevel := level, changePending := true } }

theorem cutToRest_startHead {s : State} {ch : Channel} {i : SlotNo} {rest : List SlotNo} {r : Record}
    (hrec : (s.plan ch).records = i :: rest) (hnd : (s.plan ch).records.Nodup) (hns : ∀ l, r.params ≠ .set l) :
    (s.cutToRest ch).startHead ch i r = s.preemptStarted ch i rest r := by
  refine (startHead_action (s := s.cutToRest ch) hrec hnd hns).trans ?_
  simp only [State.cutToRest, State.preemptStarted, State.engine, getAt_setAt_self, setAt_setAt]
  rfl

theorem cutToRest_apply {s : State} {ch : Channel} {i : SlotNo} {rest : List SlotNo}
    (hrec : (s.plan ch).records = i :: rest) (hnd : (s.plan ch).records.Nodup) (level : Bool) :
    ((s.cutToRest ch).leavePlan ch i).modEngine ch (fun e => { e.deferred level with restLevel := level })
      = s.preemptApplied ch rest level := by
  rw [planWithout_eq (s := s.cutToRest ch) hrec hnd]
  simp only [State.cutToRest, State.preemptApplied, State.modEngine, State.setEngine, State.engine, getAt_setAt_self,
    setAt_setAt]
  rfl

/-- The ended action is reported and its record freed, and the head stands in its place (R42). -/
theorem preempt_start {s : State} {ch : Channel} {i : SlotNo} {rest : List SlotNo} {r rc : Record} {run : Running}
    (hrec : (s.plan ch).records = i :: rest) (hnd : (s.plan ch).records.Nodup) (hrun : s.Runs ch run rc) (hik : i ≠ run.slot)
    (hns : ∀ l, r.params ≠ .set l) :
    (s.preemptCurrent ch).startHead ch i r
      = (s.preemptStarted ch i rest r).freed run.slot rc (endBody s run rc .preempted) :=
  calc (s.preemptCurrent ch).startHead ch i r
      = ((s.cutToRest ch).freed run.slot rc (endBody s run rc .preempted)).startHead ch i r := by rw [preempt_eq hrun]; rfl
    _ = ((s.cutToRest ch).startHead ch i r).freed run.slot rc (endBody s run rc .preempted) :=
        freed_startHead _ ch hik hns rc _
    _ = _ := by rw [cutToRest_startHead hrec hnd hns]

/-- The ended action is reported and its record freed first, and then the record of the SET (R26, R42). -/
theorem preempt_apply {s : State} {ch : Channel} {i : SlotNo} {rest : List SlotNo} {r rc : Record} {run : Running}
    (hrec : (s.plan ch).records = i :: rest) (hnd : (s.plan ch).records.Nodup) (hrun : s.Runs ch run rc) (hik : i ≠ run.slot)
    {level : Bool} (hset : r.params = .set level) :
    (s.preemptCurrent ch).startHead ch i r
      = ((s.preemptApplied ch rest level).freed run.slot rc (endBody s run rc .preempted)).freed i r (endedSet s i r) := by
  have hbody : endedSet ((s.preemptCurrent ch).leavePlan ch i) i r = endedSet s i r := by
    rw [preempt_eq hrun, freed_leavePlan, endedSet, freed_handle_ne _ _ _ hik, freed_deviceTime]
    rfl
  have hstart : (s.preemptCurrent ch).startHead ch i r = ((s.preemptCurrent ch).leavePlan ch i).applySet ch i r level := by
    simp only [State.startHead, hset]
  rw [hstart, State.applySet, freeWith_eq_freed, hbody, preempt_eq hrun, freed_leavePlan, freed_modEngine,
    ← cutToRest_apply hrec hnd level]
  rfl

/-! ### The due handling of a PREEMPT head -/

/-- A due PREEMPT head on a channel that runs an action, with the latch clear: the case of R42. -/
structure State.Preempts (s : State) (ch : Channel) (i : SlotNo) (rest : List SlotNo) (r : Record) (run : Running)
    (rc : Record) : Prop where
  held   : s.Held
  due    : s.DueHead ch i rest r
  latch  : s.latch = false
  runs   : s.Runs ch run rc
  policy : r.policy = .preempt

section Preempts

variable {s : State} {ch : Channel} {i : SlotNo} {rest : List SlotNo} {r rc : Record} {run : Running}

theorem preempts_records (h : s.Preempts ch i rest r run rc) : (s.plan ch).records = i :: rest := by
  obtain ⟨hrec, -⟩ := h.due
  exact hrec

theorem preempts_nodup (h : s.Preempts ch i rest r run rc) : (i :: rest).Nodup :=
  preempts_records h ▸ h.held.planOnce ch

theorem preempts_slot_notMem (h : s.Preempts ch i rest r run rc) : run.slot ∉ i :: rest :=
  preempts_records h ▸ running_not_planned h.held h.runs

theorem preempts_head_ne (h : s.Preempts ch i rest r run rc) : i ≠ run.slot := fun e =>
  preempts_slot_notMem h (e ▸ List.mem_cons_self)

theorem preempts_rest_ne (h : s.Preempts ch i rest r run rc) {j : SlotNo} (hj : j ∈ rest) : j ≠ i ∧ j ≠ run.slot :=
  ⟨fun e => (List.nodup_cons.mp (preempts_nodup h)).1 (e ▸ hj),
    fun e => preempts_slot_notMem h (e ▸ List.mem_cons_of_mem _ hj)⟩

theorem preempts_channel (h : s.Preempts ch i rest r run rc) : r.channel = ch := by
  obtain ⟨hrec, hr, -⟩ := h.due
  exact (planned_record h.held (by rw [hrec]; exact List.mem_cons_self) hr).1

theorem preempts_loads (h : s.Preempts ch i rest r run rc) : (s.plan ch).loads = [] := by
  obtain ⟨-, -, -, -, hl⟩ := h.due
  exact hl

theorem preempts_checkHead (h : s.Preempts ch i rest r run rc) :
    s.checkHead ch = settleList ch rest ((s.preemptCurrent ch).startHead ch i r) := by
  rw [checkHead_due h.due, h.policy, fate_preempt h.held h.runs h.latch]

/-- A PREEMPT head of a kind other than SET: the ended action's record is freed (R42, R72). -/
theorem preempts_start (h : s.Preempts ch i rest r run rc) (hns : ∀ l, r.params ≠ .set l) :
    s.TakesHead ((s.preemptStarted ch i rest r).freed run.slot rc (endBody s run rc .preempted)) ch rest where
  settles := by
    rw [preempts_checkHead h, preempt_start (preempts_records h) (h.held.planOnce ch) h.runs (preempts_head_ne h) hns]
  plan := by rw [freed_plan]; exact planWithout_plan s ch rest
  records j hj := by
    obtain ⟨hji, hjk⟩ := preempts_rest_ne h hj
    rw [freed_record_ne _ _ _ hjk]
    exact (setRecord_record s i j { r with state := .current }).trans (if_neg hji)
  inReset := freed_inReset _ _ _ _
  deviceTime := freed_deviceTime _ _ _ _
  freeList := by
    rw [freed_freeList, List.length_append]
    exact Nat.lt_succ_self _

/-- A PREEMPT head of kind SET: the ended action's record is freed and then its own (R26, R42, R72). -/
theorem preempts_apply (h : s.Preempts ch i rest r run rc) {level : Bool} (hset : r.params = .set level) :
    s.TakesHead (((s.preemptApplied ch rest level).freed run.slot rc (endBody s run rc .preempted)).freed i r
      (endedSet s i r)) ch rest where
  settles := by
    rw [preempts_checkHead h, preempt_apply (preempts_records h) (h.held.planOnce ch) h.runs (preempts_head_ne h) hset]
  plan := by rw [freed_plan, freed_plan]; exact planWithout_plan s ch rest
  records j hj := by
    obtain ⟨hji, hjk⟩ := preempts_rest_ne h hj
    rw [freed_record_ne _ _ _ hji, freed_record_ne _ _ _ hjk]
    rfl
  inReset := (freed_inReset _ _ _ _).trans (freed_inReset _ _ _ _)
  deviceTime := (freed_deviceTime _ _ _ _).trans (freed_deviceTime _ _ _ _)
  freeList := by
    rw [freed_freeList, freed_freeList, List.length_append, List.length_append]
    exact Nat.lt_succ_of_lt (Nat.lt_succ_self _)

end Preempts

/-! ### The obligation -/

/-- Settles O15: the action's end goes past the start of the head, and the event goes on at the head behind it. -/
theorem headDuePreemptsTheCurrentAction : Obligations.HeadDuePreemptsTheCurrentAction := by
  unfold Obligations.HeadDuePreemptsTheCurrentAction
  intro s ch i rest r rc run hreset hheld hdue hlatch hruns hpol
  have h : s.Preempts ch i rest r run rc := ⟨hheld, hdue, hlatch, hruns, hpol⟩
  refine ⟨fun hns => ?started, fun level hset => ?applied⟩
  case started =>
    have ht := preempts_start h hns
    obtain ⟨-, -, hchannel⟩ := hruns
    exact ⟨fun hn => ⟨_, headDue_of_nextNotDue ht hreset (preempts_loads h) hn, frees_of_channel hchannel _ _ _⟩,
      headDue_goesOn ht hreset⟩
  case applied =>
    have ht := preempts_apply h hset
    exact ⟨fun hn => ⟨_, headDue_of_nextNotDue ht hreset (preempts_loads h) hn, frees_of_channel (preempts_channel h) _ _ _⟩,
      headDue_goesOn ht hreset⟩

end Sys2Proof.Machine
end

