-- ==== Sys2Proof/Proofs/ScheduleAdmission.lean ====
section
/-!
PROOF. SCHEDULE and STAGING_SCHEDULE that pass their checks (R36 to R38, R104, R105): how the body is read, the allocation of the
record, its place in the plan, and the reply.
-/
namespace Sys2Proof.Machine

/-! ### Reading the body of a SCHEDULE -/

/-- The operands of a SCHEDULE as its body writes them (section 11.2). -/
structure ScheduleOperands where
  channel : Byte
  kind    : Byte
  policy  : Byte
  report  : Byte
  tagged  : Byte
  grouped : Byte
  start   : Time
  level   : Byte
  w       : Nat
  p       : Nat
  n       : Nat
  d       : Nat
  v       : Nat
  mode    : Byte

/-- The body that writes the operands. -/
def ScheduleOperands.body (o : ScheduleOperands) : List Byte :=
  scheduleBody o.channel o.kind o.policy o.report o.tagged o.grouped o.start o.level o.w o.p o.n o.d o.v o.mode

/-- The numbers fit their fields. -/
structure ScheduleOperands.Fit (o : ScheduleOperands) : Prop where
  w : o.w < 2 ^ 24
  p : o.p < 2 ^ 24
  n : o.n < 2 ^ 16
  d : o.d < 2 ^ 24
  v : o.v < 2 ^ 32

/-- The operands give these fields: each code is defined and each parameter that the kind uses is in its range (R20, R21). -/
structure ScheduleOperands.Give (o : ScheduleOperands) (q : ScheduleFields) : Prop where
  fit     : o.Fit
  channel : q.channel = o.channel.toNat
  params  : fieldsGive o.kind o.level o.w o.p o.n o.d o.v o.mode q.params
  start   : q.start = o.start
  policy  : o.policy = policyCode q.policy
  report  : o.report = flagBit q.report
  tagged  : o.tagged = flagBit q.tagged
  grouped : o.grouped = flagBit q.grouped

/-- A field of which the bytes write a number in range holds that number. -/
theorem field_of_take {fs : List Byte} {off k n : Nat} (h : (fs.drop off).take k = leBytes k n) (hn : n < 256 ^ k) :
    field fs off k = n := by
  rw [field, h, leNat_leBytes k n hn]

theorem policyOf_policyCode (pol : Policy) : policyOf (policyCode pol).toNat = some pol := by cases pol <;> rfl

/-- The parameters are read back by their kind (R20, R21). -/
theorem paramsField_body {o : ScheduleOperands} (hfit : o.Fit) {params : Params}
    (h : fieldsGive o.kind o.level o.w o.p o.n o.d o.v o.mode params) : paramsField o.body = some params := by
  have hkind : field o.body 1 1 = o.kind.toNat := field_one rfl
  have hlevel : o.body[12]? = some o.level := rfl
  have hmode : field o.body 28 1 = o.mode.toNat := field_one rfl
  have hw : field o.body 13 3 = o.w := field_of_take rfl hfit.w
  have hp : field o.body 16 3 = o.p := field_of_take rfl hfit.p
  have hn : field o.body 19 2 = o.n := field_of_take rfl hfit.n
  have hd : field o.body 21 3 = o.d := field_of_take rfl hfit.d
  have hv : field o.body 24 4 = o.v := field_of_take rfl hfit.v
  cases params with
  | set l =>
    obtain ⟨hk, hl⟩ := h
    have hflag : flagField o.body 12 = some l := flagField_flagBit (by rw [hlevel, hl]; rfl)
    simp [paramsField, hkind, hk, hflag]
  | pulse w' =>
    obtain ⟨hk, rfl, h1⟩ := h
    simp [paramsField, hkind, hk, hw, h1]
  | train w' p' n' =>
    obtain ⟨hk, rfl, rfl, rfl, h1, h2⟩ := h
    have h3 : 2 ≤ o.p := by omega
    simp [paramsField, hkind, hk, hw, hp, hn, h1, h2, h3]
  | square p' =>
    obtain ⟨hk, rfl, h2⟩ := h
    simp [paramsField, hkind, hk, hp, h2]
  | armed w' n' d' v' m =>
    obtain ⟨hk, rfl, rfl, rfl, rfl, h1, hm⟩ := h
    have hretrig : retrigOf o.mode.toNat = some m := by rw [hm]; cases m <;> rfl
    simp [paramsField, hkind, hk, hw, hn, hd, hv, hmode, h1, hretrig]
  | count w' n' v' =>
    obtain ⟨hk, rfl, rfl, rfl, h1, h2⟩ := h
    simp [paramsField, hkind, hk, hw, hn, hv, h1, h2]

/-- The fields are read back (R36 step 2). -/
theorem scheduleFields_body {o : ScheduleOperands} {q : ScheduleFields} (h : o.Give q) : scheduleFields o.body = some q := by
  have hchannel : field o.body 0 1 = q.channel := (field_one rfl).trans h.channel.symm
  have hparams : paramsField o.body = some q.params := paramsField_body h.fit h.params
  have hpolicy : policyOf (field o.body 2 1) = some q.policy := by
    rw [field_one (b := o.policy) rfl, h.policy, policyOf_policyCode]
  have hreport : flagField o.body 3 = some q.report := flagField_flagBit (congrArg some h.report)
  have htagged : flagField o.body 4 = some q.tagged := flagField_flagBit (congrArg some h.tagged)
  have hgrouped : flagField o.body 5 = some q.grouped := flagField_flagBit (congrArg some h.grouped)
  have hstart : BitVec.ofNat 48 (field o.body 6 6) = q.start := by
    rw [field_of_take (n := o.start.toNat) rfl o.start.isLt, h.start]
    exact (BitVec.ofNat_toNat 48 o.start).trans (BitVec.setWidth_eq o.start)
  simp only [scheduleFields, hchannel, hparams, hpolicy, hreport, htagged, hgrouped, hstart]

/-- The group flag says which of the two commands takes the request (R104). -/
theorem isStaging_body {o : ScheduleOperands} {q : ScheduleFields} (h : o.Give q) {rq : Request} (hf : rq.fields = o.body) :
    isStaging rq = q.grouped := by
  have hlen : o.body.length = 29 := rfl
  have hflag : field o.body 5 1 = (flagBit q.grouped).toNat := (field_one rfl).trans (congrArg BitVec.toNat h.grouped)
  rw [isStaging, hf, hlen, hflag]
  cases q.grouped <;> rfl

/-! ### The commands -/

/-- A SCHEDULE that is carried out is answered with what the checks and the owner say (R36, R171). -/
theorem scheduleHead_next {s : State} {rq : Request} {rest : List Request} (hc : s.Carries rq rest)
    (hlen : rq.fields.length = 29) {p : State → Request → Bool} (hp : p s rq = true) {st : Status} {fields : List Byte}
    {t : State} (h : State.doSchedule { s with rxQueue := rest } rq.fields = ((st, fields), t)) :
    whileRunning (fun s => s.takeHead (p s) (carryOut 32 fun fs s => s.doSchedule fs)) s
      = .next (t.withReply rq st fields) := by
  rw [whileRunning_running _ hc.running, takeHead_of_carries hc hp, carryOut, if_pos (by rw [hlen]), h, answer_eq_withReply]

theorem isKind_of_carries {s : State} {rq : Request} {rest : List Request} (hc : s.Carries rq rest) :
    s.isKind rq.kind rq = true := by
  simp [State.isKind, cached_of_carries hc]

theorem schedule_next {s : State} {rq : Request} {rest : List Request} {o : ScheduleOperands} {q : ScheduleFields}
    (hc : s.Carries rq rest) (hk : rq.kind = 0x10) (ho : o.Give q) (hf : rq.fields = o.body) (hg : q.grouped = false)
    {st : Status} {fields : List Byte} {t : State}
    (h : State.doSchedule { s with rxQueue := rest } o.body = ((st, fields), t)) :
    exec .schedule s = .next (t.withReply rq st fields) :=
  scheduleHead_next hc (by rw [hf]; rfl) (p := fun s rq => s.isKind 0x10 rq && !isStaging rq)
    (by rw [isStaging_body ho hf, hg, ← hk, isKind_of_carries hc]; rfl) (hf ▸ h)

theorem stagingSchedule_next {s : State} {rq : Request} {rest : List Request} {o : ScheduleOperands} {q : ScheduleFields}
    (hc : s.Carries rq rest) (hk : rq.kind = 0x10) (ho : o.Give q) (hf : rq.fields = o.body) (hg : q.grouped = true)
    {st : Status} {fields : List Byte} {t : State}
    (h : State.doSchedule { s with rxQueue := rest } o.body = ((st, fields), t)) :
    exec .stagingSchedule s = .next (t.withReply rq st fields) :=
  scheduleHead_next hc (by rw [hf]; rfl) (p := fun s rq => s.isKind 0x10 rq && isStaging rq)
    (by rw [isStaging_body ho hf, hg, ← hk, isKind_of_carries hc]; rfl) (hf ▸ h)

/-- A SCHEDULE with the group flag clear, for a channel that is not OFF, is handed on to its plan (R36). -/
theorem doSchedule_direct {s : State} {fs : List Byte} {q : ScheduleFields} (hq : scheduleFields fs = some q) {ch : Channel}
    (hch : toChannel q.channel = some ch) (hon : (s.engine ch).state ≠ .off) (hg : q.grouped = false) :
    s.doSchedule fs = s.admitDirect q ch := by
  simp only [State.doSchedule, hq, hch, if_neg hon, hg, Bool.false_eq_true, if_false]

/-- A SCHEDULE with the group flag set, for a channel that is not OFF, is handed on to the group (R104). -/
theorem doSchedule_staging {s : State} {fs : List Byte} {q : ScheduleFields} (hq : scheduleFields fs = some q) {ch : Channel}
    (hch : toChannel q.channel = some ch) (hon : (s.engine ch).state ≠ .off) (hg : q.grouped = true) :
    s.doSchedule fs = s.stage q ch := by
  simp only [State.doSchedule, hq, hch, if_neg hon, hg, if_true]

/-! ### Allocation (R18) -/

/-- The state with a record of a SCHEDULE in the slot `i`, taken from the head of the free list, and its tag allocated where one
is asked for (R18, R118). -/
def State.allocated (s : State) (q : ScheduleFields) (ch : Channel) (start : Time) (st : RecState) (i : SlotNo)
    (free : List SlotNo) : State :=
  { s with
    freeList := free
    slots := setAt s.slots i { s.slot i with record := some {
      channel := ch, params := q.params, start := start, policy := q.policy, report := q.report,
      tag := if q.tagged then some s.tagToGive else none, state := st } }
    tagsOpen := if q.tagged then s.tagsOpen ++ [{ tag := s.tagToGive, subject := .action (s.handle i) }] else s.tagsOpen
    nextTag := if q.tagged then tagAfter s.tagToGive else s.nextTag }

theorem allocate_eq {s : State} {q : ScheduleFields} {i : SlotNo} {free : List SlotNo} (hfree : s.freeList = i :: free)
    (htag : q.tagged = true → s.tagsOpen.length + s.tagsWaiting.length < 16) (ch : Channel) (start : Time) (st : RecState) :
    s.allocate q ch start st
      = .ok (i, if q.tagged then some s.tagToGive else none, s.allocated q ch start st i free) := by
  have hroom : (q.tagged && s.tagsFull) = false := by
    cases hq : q.tagged with
    | false => rfl
    | true =>
      exact decide_eq_false (Nat.not_le.mpr (htag hq))
  unfold State.allocate State.allocated
  rw [hfree]
  simp only [hroom]
  cases q.tagged <;> rfl

/-- The record that was allocated has its own start, and every other record the start that it had. -/
theorem allocated_startOf (s : State) (q : ScheduleFields) (ch : Channel) (start : Time) (st : RecState) (i : SlotNo)
    (free : List SlotNo) (j : SlotNo) :
    (s.allocated q ch start st i free).startOf j = if j = i then start.toNat else s.startOf j := by
  simp only [State.startOf, State.record, State.slot, State.allocated, getAt_setAt]
  split <;> rfl

/-- The fields of the reply: slot, generation, and the tag or 0 (R16, R178). -/
theorem scheduleReply_handle (s : State) (i : SlotNo) (tag : Option Nat) :
    scheduleReply (s.handle i) tag
      = [BitVec.ofNat 8 i.val, BitVec.ofNat 8 (s.slot i).gen, BitVec.ofNat 8 (tag.getD 0)] := by
  have hi := i.isLt
  have hlow : BitVec.ofNat 8 (s.handle i).toNat = BitVec.ofNat 8 i.val := by
    apply BitVec.eq_of_toNat_eq
    simp only [State.handle, handleOf, BitVec.toNat_ofNat]
    omega
  have hhigh : BitVec.ofNat 8 ((s.handle i).toNat / 256) = BitVec.ofNat 8 (s.slot i).gen := by
    apply BitVec.eq_of_toNat_eq
    simp only [State.handle, handleOf, BitVec.toNat_ofNat]
    omega
  simp only [scheduleReply, leBytes, hlow, hhigh, List.cons_append, List.nil_append]

/-! ### The place in the plan (R34) -/

/-- A record stands after the last one of the front whose start is no later, and before a later one. -/
theorem insertInto_split (s : State) (i : SlotNo) : ∀ (l : List SlotNo), ∃ before after,
    l = before ++ after ∧ s.insertInto i l = before ++ i :: after ∧ (∀ j ∈ before, s.startOf j ≤ s.startOf i) ∧
      ∀ j ∈ after.head?, s.startOf i < s.startOf j
  | [] => ⟨[], [], rfl, rfl, by simp, by simp⟩
  | j :: js => by
    by_cases h : s.startOf j ≤ s.startOf i
    · obtain ⟨before, after, hl, hins, hbefore, hafter⟩ := insertInto_split s i js
      refine ⟨j :: before, after, by rw [hl]; rfl, ?_, List.forall_mem_cons.mpr ⟨h, hbefore⟩, hafter⟩
      rw [State.insertInto, if_pos h, hins]
      rfl
    · refine ⟨[], j :: js, rfl, if_neg h, by simp, ?_⟩
      rintro _ ⟨⟩
      exact Nat.lt_of_not_le h

/-! ### Admission and staging -/

/-- The start that a direct SCHEDULE comes to: ASAP is device time plus L, and a given one lies from there to the horizon (R37). -/
def State.Resolves (s : State) (start at_ : Time) : Prop :=
  start.toNat = 0 ∧ at_.toNat = s.deviceTime.toNat + s.minLead ∨
    start.toNat ≠ 0 ∧ at_ = start ∧ s.deviceTime.toNat + s.minLead ≤ start.toNat ∧
      start.toNat ≤ s.deviceTime.toNat + s.horizon

theorem directStart_of_resolves {s : State} {start at_ : Time} (h : s.Resolves start at_) : s.directStart start = .ok at_ := by
  unfold State.directStart
  rcases h with ⟨h0, hat⟩ | ⟨h0, rfl, hlead, hhorizon⟩
  · have hlt := at_.isLt
    have hfar : ¬ maxTime < at_.toNat := by rw [maxTime]; omega
    simp only [h0, if_true, ← hat, if_neg hfar, BitVec.ofNat_toNat, BitVec.setWidth_eq]
  · simp only [if_neg h0, if_neg (Nat.not_lt.mpr hlead), if_neg (Nat.not_lt.mpr hhorizon)]

/-- A direct SCHEDULE that passes its checks (R38). -/
theorem admitDirect_eq {s : State} {q : ScheduleFields} {ch : Channel} {at_ : Time} {i : SlotNo} {free : List SlotNo}
    (hstart : s.Resolves q.start at_) (hplan : (s.plan ch).records.length < 64) (hfree : s.freeList = i :: free)
    (htag : q.tagged = true → s.tagsOpen.length + s.tagsWaiting.length < 16) :
    s.admitDirect q ch
      = ((if q.tagged then .deferred else .ok,
          scheduleReply (s.handle i) (if q.tagged then some s.tagToGive else none)),
        (s.allocated q ch at_ .planned i free).enterPlan ch i) := by
  have hroom : ¬ Config.planCap ≤ (s.plan ch).records.length := Nat.not_le.mpr hplan
  simp only [State.admitDirect, directStart_of_resolves hstart, if_neg hroom, allocate_eq hfree htag]

/-- A staging SCHEDULE that passes its checks (R105). -/
theorem stage_eq {s : State} {q : ScheduleFields} {g : Group} {i : SlotNo} {free : List SlotNo} (hg : s.group = some g)
    (hroom : g.staging.length < 32) (hstart : q.start.toNat = 0 ∨ q.start.toNat ≤ s.deviceTime.toNat + s.horizon)
    (hfree : s.freeList = i :: free) (htag : q.tagged = true → s.tagsOpen.length + s.tagsWaiting.length < 16)
    (ch : Channel) :
    s.stage q ch
      = ((.staged, scheduleReply (s.handle i) (if q.tagged then some s.tagToGive else none)),
        { s.allocated q ch q.start .staged i free with group := some { g with staging := g.staging ++ [i] } }) := by
  have hcap : ¬ Config.stagingCap ≤ g.staging.length := Nat.not_le.mpr hroom
  have hfar : ¬ (q.start.toNat ≠ 0 ∧ s.deviceTime.toNat + s.horizon < q.start.toNat) := by omega
  simp only [State.stage, hg, if_neg hcap, if_neg hfar, allocate_eq hfree htag]

/-- A record that is allocated and enters its plan stands behind the records whose start is no later, and before a later one
(R34). -/
theorem enterPlan_split {s : State} {i : SlotNo} (hi : s.record i = none) (q : ScheduleFields) (ch : Channel) (at_ : Time)
    (free : List SlotNo) : ∃ before after,
    (s.plan ch).records = before ++ after ∧
    (∀ j ∈ before, ∀ r, s.record j = some r → r.start.toNat ≤ at_.toNat) ∧
    (∀ j ∈ after.head?, ∀ r, s.record j = some r → at_.toNat < r.start.toNat) ∧
    (s.allocated q ch at_ .planned i free).enterPlan ch i
      = { s.allocated q ch at_ .planned i free with
          plans := setAt s.plans ch { s.plan ch with records := before ++ i :: after } } := by
  have hown : (s.allocated q ch at_ .planned i free).startOf i = at_.toNat := (allocated_startOf ..).trans (if_pos rfl)
  have hother : ∀ j r, s.record j = some r → (s.allocated q ch at_ .planned i free).startOf j = r.start.toNat := by
    intro j r hj
    have hne : j ≠ i := by
      rintro rfl
      rw [hi] at hj
      cases hj
    rw [allocated_startOf, if_neg hne, State.startOf, hj]
    rfl
  obtain ⟨before, after, hrec, hins, hbefore, hafter⟩ :=
    insertInto_split (s.allocated q ch at_ .planned i free) i (s.plan ch).records
  refine ⟨before, after, hrec, fun j hj r hr => ?_, fun j hj r hr => ?_, ?_⟩
  · rw [← hother j r hr, ← hown]
    exact hbefore j hj
  · rw [← hother j r hr, ← hown]
    exact hafter j hj
  · rw [← hins]
    rfl

/-! ### The obligation -/

/-- The tag byte of a reply is 0 where no tag was asked for (R178). -/
theorem tag_getD (tagged : Bool) (tag : Nat) : (if tagged then some tag else none).getD 0 = if tagged then tag else 0 := by
  cases tagged <;> rfl

/-- Settles O45: the body is read back, the record is allocated, and it is put in its place in the plan or on the staging list. -/
theorem scheduleAdmitsOrStages : Obligations.ScheduleAdmitsOrStages := by
  unfold Obligations.ScheduleAdmitsOrStages
  refine ⟨?direct, ?staging⟩
  case direct =>
    intro s rq rest ch level mode kind w p n d v start at_ pol report tagged params i free hc hh hk hw hp hn hd hv hf hparams hon
      hstart hplan hfree htag
    have hgive : ScheduleOperands.Give ⟨BitVec.ofNat 8 ch.val, kind, policyCode pol, flagBit report, flagBit tagged,
        flagBit false, start, level, w, p, n, d, v, mode⟩ ⟨ch.val, params, start, pol, report, tagged, false⟩ :=
      ⟨⟨hw, hp, hn, hd, hv⟩, (channelByte_toNat ch).symm, hparams, rfl, rfl, rfl, rfl, rfl⟩
    have hi : State.record { s with rxQueue := rest } i = none := (hh.free i).mp (by rw [hfree]; exact List.mem_cons_self)
    obtain ⟨before, after, hrec, hbefore, hafter, henter⟩ := enterPlan_split hi
      ⟨ch.val, params, start, pol, report, tagged, false⟩ ch at_ free
    have hadmit := (doSchedule_direct (s := { s with rxQueue := rest }) (scheduleFields_body hgive) (toChannel_val ch) hon
      rfl).trans (admitDirect_eq hstart hplan hfree htag)
    rw [henter, scheduleReply_handle, tag_getD] at hadmit
    exact ⟨before, after, hrec, hbefore, hafter, schedule_next hc hk hgive hf rfl hadmit⟩
  case staging =>
    intro s rq rest ch level mode kind w p n d v start pol report tagged params i free g hc hk hw hp hn hd hv hf hparams hon
      hgroup hroom hstart hfree htag
    have hgive : ScheduleOperands.Give ⟨BitVec.ofNat 8 ch.val, kind, policyCode pol, flagBit report, flagBit tagged,
        flagBit true, start, level, w, p, n, d, v, mode⟩ ⟨ch.val, params, start, pol, report, tagged, true⟩ :=
      ⟨⟨hw, hp, hn, hd, hv⟩, (channelByte_toNat ch).symm, hparams, rfl, rfl, rfl, rfl, rfl⟩
    have hstage := (doSchedule_staging (s := { s with rxQueue := rest }) (scheduleFields_body hgive) (toChannel_val ch) hon
      rfl).trans (stage_eq (s := { s with rxQueue := rest }) hgroup hroom hstart hfree htag ch)
    rw [scheduleReply_handle, tag_getD] at hstage
    exact stagingSchedule_next hc hk hgive hf rfl hstage

end Sys2Proof.Machine
end

section
/-!
PROOF. HEAD_DUE with a due head on an IDLE channel (R40, R41, R64, R65): the head is started, or, being a SET, applied and freed,
and the new head is handled in the same event.
-/
namespace Sys2Proof.Machine

/-! ### What the head leaves -/

/-- The head of a plan, of a kind other than SET, started on its channel (R41, R64). -/
def State.headStarted (s : State) (ch : Channel) (i : SlotNo) (rest : List SlotNo) (r : Record) : State :=
  { s with
    slots := s.slotsWith i r .current
    plans := s.planWithout ch rest
    engines := setAt s.engines ch ((s.engine ch).begun i r s.deviceTime) }

/-- A SET at the head of a plan applied, its record still to be freed (R41, R65). -/
def State.headApplied (s : State) (ch : Channel) (rest : List SlotNo) (level : Bool) : State :=
  { s with
    plans := s.planWithout ch rest
    engines := setAt s.engines ch { s.engine ch with outputLevel := level, restLevel := level, changePending := true } }

theorem headStarted_plan (s : State) (ch : Channel) (i : SlotNo) (rest : List SlotNo) (r : Record) :
    (s.headStarted ch i rest r).plan ch = { s.plan ch with records := rest } :=
  planWithout_plan s ch rest

theorem headStarted_freeList (s : State) (ch : Channel) (i : SlotNo) (rest : List SlotNo) (r : Record) :
    (s.headStarted ch i rest r).freeList = s.freeList := rfl

theorem headStarted_record_ne (s : State) (ch : Channel) {i j : SlotNo} (hj : j ≠ i) (rest : List SlotNo) (r : Record) :
    (s.headStarted ch i rest r).record j = s.record j :=
  (setRecord_record s i j { r with state := .current }).trans (if_neg hj)

theorem headApplied_plan (s : State) (ch : Channel) (rest : List SlotNo) (level : Bool) :
    (s.headApplied ch rest level).plan ch = { s.plan ch with records := rest } :=
  planWithout_plan s ch rest

/-- A SET that is handed to the engine is applied and its record freed as COMPLETE (R26, R41, R65). -/
theorem startHead_set {s : State} {ch : Channel} {i : SlotNo} {rest : List SlotNo} {r : Record} {level : Bool}
    (hrec : (s.plan ch).records = i :: rest) (hnd : (s.plan ch).records.Nodup) (hset : r.params = .set level) :
    s.startHead ch i r = (s.headApplied ch rest level).freed i r (endedSet s i r) :=
  calc s.startHead ch i r
      = (s.leavePlan ch i).applySet ch i r level := by simp only [State.startHead, hset]
    _ = State.applySet { s with plans := s.planWithout ch rest } ch i r level := by rw [planWithout_eq hrec hnd]
    _ = (s.headApplied ch rest level).freed i r (endedSet s i r) := applySet_eq _ ch i r level

/-! ### The due handling of a head on an IDLE channel -/

/-- The watch looks at the state before the event only for its free list (R125). -/
theorem watch_before_congr {s u : State} (h : u.freeList = s.freeList) (touched : Byte) (t : State) :
    watch touched s t = watch touched u t := by
  unfold watch
  rw [h]

/-- A due head on an IDLE channel, with the latch clear: the case of R40 in which the head is started. -/
structure State.FindsIdle (s : State) (ch : Channel) (i : SlotNo) (rest : List SlotNo) (r : Record) : Prop where
  held  : s.Held
  due   : s.DueHead ch i rest r
  latch : s.latch = false
  idle  : (s.engine ch).state = .idle

section FindsIdle

variable {s : State} {ch : Channel} {i : SlotNo} {rest : List SlotNo} {r : Record}

theorem findsIdle_records (h : s.FindsIdle ch i rest r) : (s.plan ch).records = i :: rest := by
  obtain ⟨hrec, -⟩ := h.due
  exact hrec

theorem findsIdle_rest_ne (h : s.FindsIdle ch i rest r) {j : SlotNo} (hj : j ∈ rest) : j ≠ i := by
  have hnd : (i :: rest).Nodup := findsIdle_records h ▸ h.held.planOnce ch
  rintro rfl
  exact (List.nodup_cons.mp hnd).1 hj

theorem findsIdle_channel (h : s.FindsIdle ch i rest r) : r.channel = ch := by
  obtain ⟨hrec, hr, -⟩ := h.due
  exact (planned_record h.held (by rw [hrec]; exact List.mem_cons_self) hr).1

theorem findsIdle_loads (h : s.FindsIdle ch i rest r) : (s.plan ch).loads = [] := by
  obtain ⟨-, -, -, -, hl⟩ := h.due
  exact hl

theorem findsIdle_fate (h : s.FindsIdle ch i rest r) (policy : Policy) : s.fate ch policy = .start := by
  unfold State.fate
  rw [if_neg (by simp [h.latch]), h.idle]

theorem findsIdle_checkHead (h : s.FindsIdle ch i rest r) : s.checkHead ch = settleList ch rest (s.startHead ch i r) := by
  rw [checkHead_due h.due, findsIdle_fate h]

/-- A head of a kind other than SET is started, and the due handling goes on behind it (R39, R41). -/
theorem findsIdle_start (h : s.FindsIdle ch i rest r) (hns : ∀ l, r.params ≠ .set l) :
    s.checkHead ch = settleList ch rest (s.headStarted ch i rest r) := by
  rw [findsIdle_checkHead h, startHead_action (findsIdle_records h) (h.held.planOnce ch) hns]
  rfl

/-- The new head is handled as HEAD_DUE handles it with the first one started (R41, R46). -/
theorem headDue_eq_headStarted (h : s.FindsIdle ch i rest r) (hr : s.inReset = false) (hns : ∀ l, r.params ≠ .set l) :
    exec (.headDue ch) s = exec (.headDue ch) (s.headStarted ch i rest r) := by
  have hrec : ((s.headStarted ch i rest r).plan ch).records = rest := by rw [headStarted_plan]
  have hsettle : s.checkHead ch = (s.headStarted ch i rest r).checkHead ch :=
    (findsIdle_start h hns).trans (settleList_eq_checkHead hrec)
  rw [headDue_next hr, headDue_next (u := s.headStarted ch i rest r) hr, State.dueAtPlan, State.dueAtPlan, hsettle,
    watch_before_congr (headStarted_freeList s ch i rest r)]

/-- Where the new head is not due, the start is all that HEAD_DUE does (R39, R64). -/
theorem headDue_starts (h : s.FindsIdle ch i rest r) (hr : s.inReset = false) (hns : ∀ l, r.params ≠ .set l)
    (hn : s.NextNotDue rest) : exec (.headDue ch) s = .next (s.headStarted ch i rest r) := by
  have hloads : ((s.headStarted ch i rest r).plan ch).loads = [] := by
    rw [headStarted_plan]
    exact findsIdle_loads h
  have hnext : (s.headStarted ch i rest r).NextNotDue rest :=
    nextNotDue_congr hn rfl fun j hj => headStarted_record_ne s ch (findsIdle_rest_ne h hj) rest r
  have hstop : s.checkHead ch = s.headStarted ch i rest r := (findsIdle_start h hns).trans (settleList_notDue hloads hnext)
  rw [headDue_next hr, State.dueAtPlan, hstop, watch_none]
  rw [headStarted_freeList]
  exact Nat.lt_irrefl _

/-- A SET leaves the plan, is applied, and its record is freed (R26, R65). -/
theorem findsIdle_apply (h : s.FindsIdle ch i rest r) {level : Bool} (hset : r.params = .set level) :
    s.TakesHead ((s.headApplied ch rest level).freed i r (endedSet s i r)) ch rest where
  settles := by rw [findsIdle_checkHead h, startHead_set (findsIdle_records h) (h.held.planOnce ch) hset]
  plan := by rw [freed_plan, headApplied_plan]
  records j hj := freed_record_ne _ _ _ (findsIdle_rest_ne h hj)
  inReset := freed_inReset _ _ _ _
  deviceTime := freed_deviceTime _ _ _ _
  freeList := by
    rw [freed_freeList, List.length_append]
    exact Nat.lt_succ_self _

end FindsIdle

/-! ### The obligation -/

/-- Settles O13: a start frees nothing, so that HEAD_DUE goes on from the started head; an applied SET is a freeing, behind which
the event goes on at the new head. -/
theorem headDueStartsOnAnIdleChannel : Obligations.HeadDueStartsOnAnIdleChannel := by
  unfold Obligations.HeadDueStartsOnAnIdleChannel
  refine ⟨?started, ?applied⟩
  case started =>
    intro s ch i rest r hreset hheld hdue hlatch hidle hns
    have h : s.FindsIdle ch i rest r := ⟨hheld, hdue, hlatch, hidle⟩
    exact ⟨headDue_starts h hreset hns, headDue_eq_headStarted h hreset hns⟩
  case applied =>
    intro s ch i rest r level hreset hheld hdue hlatch hidle hset
    have h : s.FindsIdle ch i rest r := ⟨hheld, hdue, hlatch, hidle⟩
    have ht := findsIdle_apply h hset
    exact ⟨fun hn =>
        ⟨_, headDue_of_nextNotDue ht hreset (findsIdle_loads h) hn, frees_of_channel (findsIdle_channel h) _ _ _⟩,
      headDue_goesOn ht hreset⟩

end Sys2Proof.Machine
end

section
/-!
PROOF. The firings of an ARMED action: an edge in LISTEN begins one (R86), the expiry of its DELAY begins the pulse (R87), and an
edge during it follows the retrigger mode (R90 to R92). Each of these changes one engine only.
-/
namespace Sys2Proof.Machine

/-! ### Phases of a firing -/

theorem enter_delay (p : Progress) (len : Nat) :
    p.enter .delay len = { p with phase := .delay, phaseRemaining := some len } := by
  simp [Progress.enter]

theorem enter_active (p : Progress) (len : Nat) :
    p.enter .active len = { p with phase := .active, phaseRemaining := some len, activeBegan := true } := by
  simp [Progress.enter]

/-- A pulse begins: ACTIVE with its length, and the active level of the action, deferred (R61, R87). -/
theorem enterActive_active {s : State} {ch : Channel} {run : Running} (h : (s.engine ch).current = some run) (w : Nat) :
    s.enterActive ch .active w = s.setEngine ch { s.engine ch with
      outputLevel := run.progress.activeLevel, changePending := true
      current := some { run with progress :=
        { run.progress with phase := .active, phaseRemaining := some w, activeBegan := true } } } := by
  rw [State.enterActive, modProgress_eq h, modEngine_setEngine, enter_active]
  rfl

/-! ### The beginning of a firing (R86) -/

/-- What every firing begins with, a DELAY or not: the edge is counted and the channel is FIRING. -/
theorem countedFiring_eq {s : State} {ch : Channel} {run : Running} (h : (s.engine ch).current = some run) :
    (s.modProgress ch fun p => { p with edges := satInc p.edges }).setChanState ch .firing =
      s.setEngine ch { s.engine ch with
        state := .firing
        current := some { run with progress := { run.progress with edges := satInc run.progress.edges } } } := by
  rw [modProgress_eq h, State.setChanState, modEngine_setEngine]

theorem beginFiring_delayed {s : State} {ch : Channel} {run : Running} (h : (s.engine ch).current = some run) (w : Nat)
    {d : Nat} (hd : d ≠ 0) :
    s.beginFiring ch w d = s.setEngine ch { s.engine ch with
      state := .firing
      current := some { run with progress := { run.progress with
        edges := satInc run.progress.edges, phase := .delay, phaseRemaining := some d } } } := by
  rw [State.beginFiring, if_neg hd, countedFiring_eq h, modProgress_eq (by rw [setEngine_engine_self]), setEngine_setEngine,
    setEngine_engine_self, enter_delay]

theorem beginFiring_undelayed {s : State} {ch : Channel} {run : Running} (h : (s.engine ch).current = some run) (w : Nat) :
    s.beginFiring ch w 0 = s.setEngine ch { s.engine ch with
      state := .firing, outputLevel := run.progress.activeLevel, changePending := true
      current := some { run with progress := { run.progress with
        edges := satInc run.progress.edges, phase := .active, phaseRemaining := some w, activeBegan := true } } } := by
  rw [State.beginFiring, if_pos rfl, countedFiring_eq h, enterActive_active (by rw [setEngine_engine_self]),
    setEngine_setEngine, setEngine_engine_self]

/-! ### The retrigger modes (R90 to R92) -/

theorem overrun_eq {s : State} {ch : Channel} {run : Running} (h : (s.engine ch).current = some run) :
    s.overrun ch = s.setEngine ch { s.engine ch with
      current := some { run with progress := { run.progress with overruns := satInc run.progress.overruns } } } :=
  modProgress_eq h _

theorem retrigger_none (s : State) (ch : Channel) (w : Nat) (ph : Phase) :
    s.retrigger ch w ph .noRetrigger = s.overrun ch := rfl

theorem retrigger_extend_inactive (s : State) (ch : Channel) (w : Nat) {ph : Phase} (hph : ph ≠ .active) :
    s.retrigger ch w ph .extend = s.overrun ch := by
  rw [State.retrigger, if_neg hph]

/-- EXTEND restarts the ACTIVE phase and counts the edge (R91). -/
theorem retrigger_extend_active {s : State} {ch : Channel} {run : Running} (h : (s.engine ch).current = some run) (w : Nat)
    {ph : Phase} (hph : ph = .active) :
    s.retrigger ch w ph .extend = s.setEngine ch { s.engine ch with
      current := some { run with progress := { run.progress with
        phaseRemaining := some w, edges := satInc run.progress.edges } } } := by
  rw [State.retrigger, if_pos hph, modProgress_eq h]

theorem retrigger_holdOne_held {s : State} {ch : Channel} (h : (s.engine ch).pendingEdge = true) (w : Nat) (ph : Phase) :
    s.retrigger ch w ph .holdOne = s.overrun ch := by
  rw [State.retrigger, if_pos h]

theorem retrigger_holdOne_free {s : State} {ch : Channel} (h : (s.engine ch).pendingEdge = false) (w : Nat) (ph : Phase) :
    s.retrigger ch w ph .holdOne = s.setEngine ch { s.engine ch with pendingEdge := true } := by
  rw [State.retrigger, if_neg (by simp [h])]
  rfl

/-! ### The commands on an ARMED action -/

/-- DELAY_EXPIRY at the expiry of the DELAY of an ARMED action (R87). -/
theorem delayExpiry_armed {s : State} {ch : Channel} {run : Running} {r : Record} {w n d v : Nat} {m : RetrigMode}
    (h : s.Runs ch run r) (hp : r.params = .armed w n d v m) (hph : run.progress.phase = .delay)
    (hdue : run.progress.phaseRemaining = some 0) : s.delayExpiry ch = s.enterActive ch .active w := by
  cases r
  cases hp
  have hend : run.progress.phase = .delay ∧ run.progress.phaseDue := ⟨hph, by simp [Progress.phaseDue, hdue]⟩
  simp only [State.delayExpiry, running_of h, if_pos hend]

/-- The engine with `k` edges still to be taken. -/
def State.edgeLeft (s : State) (ch : Channel) (k : Nat) : State := s.setEngine ch { s.engine ch with edgesHanded := k }

theorem edgeLeft_engine (s : State) (ch : Channel) (k : Nat) :
    (s.edgeLeft ch k).engine ch = { s.engine ch with edgesHanded := k } := setEngine_engine_self _ _ _

theorem edgeLeft_setEngine (s : State) (ch : Channel) (k : Nat) (e : Engine) :
    (s.edgeLeft ch k).setEngine ch e = s.setEngine ch e := setEngine_setEngine _ _ _ _

/-- EDGE with an edge handed over: one fewer is left, and the engine takes it (R81). -/
theorem edge_next {s : State} {ch : Channel} {k : Nat} (hr : s.inReset = false) (hk : (s.engine ch).edgesHanded = k + 1) :
    exec (.edge ch) s = .next ((s.edgeLeft ch k).takeEdge ch) := by
  have hleft : (s.modEngine ch fun e => { e with edgesHanded := e.edgesHanded - 1 }) = s.edgeLeft ch k := by
    simp only [State.modEngine, hk, Nat.add_sub_cancel, State.edgeLeft]
  have hpos : 0 < (s.engine ch).edgesHanded := by omega
  simp only [exec, execEdge, whileRunning_running _ hr, if_pos hpos, hleft]

/-- A channel that is ARMED or FIRING runs an ARMED action of these parameters, and `k + 1` edges wait at its engine. -/
structure State.EdgeOnArmed (s : State) (ch : Channel) (run : Running) (w d k : Nat) (m : RetrigMode) : Prop where
  running : s.inReset = false
  action  : ∃ r n v, s.Runs ch run r ∧ r.params = .armed w n d v m
  edge    : (s.engine ch).edgesHanded = k + 1
  takes   : (s.engine ch).state = .armed ∨ (s.engine ch).state = .firing

section EdgeOnArmed

variable {s : State} {ch : Channel} {run : Running} {w d k : Nat} {m : RetrigMode}

theorem edgeOnArmed_current (h : s.EdgeOnArmed ch run w d k m) : ((s.edgeLeft ch k).engine ch).current = some run := by
  obtain ⟨r, n, v, ⟨hcur, -⟩, -⟩ := h.action
  rw [edgeLeft_engine]
  exact hcur

/-- EDGE begins a firing in LISTEN and follows the retrigger mode in the other phases (R86, R90 to R92). -/
theorem edgeOnArmed_next (h : s.EdgeOnArmed ch run w d k m) :
    exec (.edge ch) s = .next (if run.progress.phase = .listen then (s.edgeLeft ch k).beginFiring ch w d
      else (s.edgeLeft ch k).retrigger ch w run.progress.phase m) := by
  obtain ⟨r, n, v, hruns, hp⟩ := h.action
  have hrun : (s.edgeLeft ch k).running ch = some (run, r) := edge_runs hruns k
  have haction : (s.edgeLeft ch k).takeEdge ch = (s.edgeLeft ch k).edgeToAction ch := takeEdge_action k h.takes
  rw [edge_next h.running h.edge, haction]
  cases r
  cases hp
  simp only [State.edgeToAction, hrun]

theorem edgeOnArmed_listen (h : s.EdgeOnArmed ch run w d k m) (hph : run.progress.phase = .listen) :
    exec (.edge ch) s = .next ((s.edgeLeft ch k).beginFiring ch w d) := by
  rw [edgeOnArmed_next h, if_pos hph]

theorem edgeOnArmed_firing (h : s.EdgeOnArmed ch run w d k m) (hph : run.progress.phase = .delay ∨ run.progress.phase = .active) :
    exec (.edge ch) s = .next ((s.edgeLeft ch k).retrigger ch w run.progress.phase m) := by
  have hnot : run.progress.phase ≠ .listen := by
    rcases hph with hph | hph <;> simp [hph]
  rw [edgeOnArmed_next h, if_neg hnot]

end EdgeOnArmed

/-! ### The obligations -/

/-- Settles O22: the expiry begins the pulse whatever the window reads. -/
theorem delayExpiryBeginsThePulse : Obligations.DelayExpiryBeginsThePulse := by
  unfold Obligations.DelayExpiryBeginsThePulse
  intro s ch run r w n d v m hreset hruns hp hph hdue
  have hcur : (s.engine ch).current = some run := hruns.left
  calc exec (.delayExpiry ch) s
      = .next (s.delayExpiry ch) := whileRunning_running (fun s => s.delayExpiry ch) hreset
    _ = .next (s.enterActive ch .active w) := by rw [delayExpiry_armed hruns hp hph hdue]
    _ = _ := by rw [enterActive_active hcur]; rfl

/-- Settles O26: a firing begins with its DELAY or, where D is 0, with its pulse. -/
theorem edgeInListenStartsAFiring : Obligations.EdgeInListenStartsAFiring := by
  unfold Obligations.EdgeInListenStartsAFiring
  intro s ch run r w n d v k m hreset hruns hp hk hst hph
  have h : s.EdgeOnArmed ch run w d k m := ⟨hreset, ⟨r, n, v, hruns, hp⟩, hk, hst⟩
  have hcur := edgeOnArmed_current h
  refine ⟨fun hd => ?delayed, ?undelayed⟩
  case delayed =>
    rw [edgeOnArmed_listen h hph, beginFiring_delayed hcur w hd, edgeLeft_setEngine, edgeLeft_engine]
    rfl
  case undelayed =>
    rintro rfl
    rw [edgeOnArmed_listen h hph, beginFiring_undelayed hcur, edgeLeft_setEngine, edgeLeft_engine]
    rfl

/-- Settles O27, by the retrigger mode: three of its five cases come down to the one overrun. -/
theorem edgeInAFiringFollowsTheRetriggerMode : Obligations.EdgeInAFiringFollowsTheRetriggerMode := by
  unfold Obligations.EdgeInAFiringFollowsTheRetriggerMode
  intro s ch run r w n d v k m hreset hruns hp hk hst hph g overrun
  have h : s.EdgeOnArmed ch run w d k m := ⟨hreset, ⟨r, n, v, hruns, hp⟩, hk, hst⟩
  have hcur := edgeOnArmed_current h
  have hpending : ((s.edgeLeft ch k).engine ch).pendingEdge = (s.engine ch).pendingEdge := by rw [edgeLeft_engine]
  have hover : (s.edgeLeft ch k).retrigger ch w g.phase m = (s.edgeLeft ch k).overrun ch → overrun := by
    intro hre
    have hnext := edgeOnArmed_firing h hph
    rw [hre, overrun_eq hcur, edgeLeft_setEngine, edgeLeft_engine] at hnext
    exact hnext
  refine ⟨?none, ?extendInDelay, ?extendInActive, ?holdHeld, ?holdFree⟩
  case none =>
    rintro rfl
    exact hover (retrigger_none _ _ _ _)
  case extendInDelay =>
    rintro rfl hdelay
    exact hover (retrigger_extend_inactive _ _ _ (by simp [hdelay]))
  case extendInActive =>
    rintro rfl hactive
    rw [edgeOnArmed_firing h hph, retrigger_extend_active hcur w hactive, edgeLeft_setEngine, edgeLeft_engine]
    rfl
  case holdHeld =>
    rintro rfl hheld
    exact hover (retrigger_holdOne_held (hpending.trans hheld) _ _)
  case holdFree =>
    rintro rfl hfree
    rw [edgeOnArmed_firing h hph, retrigger_holdOne_free (hpending.trans hfree), edgeLeft_setEngine, edgeLeft_engine]
    rfl

end Sys2Proof.Machine
end

section
/-!
PROOF. GROUP_COMMIT (R107 to R109): the examination of the staging list, what the commit of a record changes, the plan that the
insertions make, and the two answers.
-/
namespace Sys2Proof.Machine

/-! ### The examination (R107) -/

/-- The record in the slot names the channel. -/
def State.namesChannel (s : State) (c : Channel) (i : SlotNo) : Bool := (s.record i).any fun r => r.channel = c

/-- The first check of R107 that a record fails behind the records `earlier` of the staging list. -/
def State.commitVerdict (s : State) (earlier : List SlotNo) (r : Record) : Option Status :=
  s.commitCheck r (earlier.countP (s.namesChannel r.channel))

/-- Each of these records passes R107 when `done` and then those before it have been examined. -/
def State.PassFrom (s : State) (done is : List SlotNo) : Prop :=
  ∀ before j after q, is = before ++ j :: after → s.record j = some q → s.commitVerdict (done ++ before) q = none

/-- The records of a channel are counted by the channels of the examined records. -/
theorem count_channelsOf (s : State) (c : Channel) (is : List SlotNo) :
    (s.channelsOf is).count c = is.countP (s.namesChannel c) := by
  have hname : ∀ i, s.namesChannel c i = ((s.record i).map fun r => r.channel == c).getD false := by
    intro i
    cases h : s.record i <;> simp [State.namesChannel, h, beq_eq_decide]
  rw [State.channelsOf, List.count, List.countP_filterMap]
  refine List.countP_congr fun i _ => ?_
  rw [hname, Option.map_map]
  rfl

theorem commitCheck_examined (s : State) (done : List SlotNo) (r : Record) :
    s.commitCheck r ((s.channelsOf done).reverse.count r.channel) = s.commitVerdict done r := by
  rw [List.count_reverse, count_channelsOf, State.commitVerdict]

/-- The examination stops at a record that fails a check (R107). -/
theorem commitFailure_stops {s : State} {done : List SlotNo} {i : SlotNo} {r : Record} {st : Status}
    (hr : s.record i = some r) (h : s.commitVerdict done r = some st) (rest : List SlotNo) :
    s.commitFailure (i :: rest) (s.channelsOf done).reverse = some (st, i) := by
  simp only [State.commitFailure, hr, commitCheck_examined, h]

/-- The examination goes on behind a record that passes (R107). -/
theorem commitFailure_goesOn {s : State} {done : List SlotNo} {i : SlotNo}
    (h : ∀ r, s.record i = some r → s.commitVerdict done r = none) (rest : List SlotNo) :
    s.commitFailure (i :: rest) (s.channelsOf done).reverse = s.commitFailure rest (s.channelsOf (done ++ [i])).reverse := by
  cases hr : s.record i with
  | none => simp [State.commitFailure, State.channelsOf, hr]
  | some r =>
    have hnext : (s.channelsOf (done ++ [i])).reverse = r.channel :: (s.channelsOf done).reverse := by
      simp [State.channelsOf, hr]
    simp only [State.commitFailure, hr, commitCheck_examined, h r hr, hnext]

/-- The examination comes behind the records that pass (R107). -/
theorem commitFailure_append {s : State} (rest : List SlotNo) : ∀ {is done : List SlotNo}, s.PassFrom done is →
    s.commitFailure (is ++ rest) (s.channelsOf done).reverse = s.commitFailure rest (s.channelsOf (done ++ is)).reverse
  | [], done, _ => by rw [List.nil_append, List.append_nil]
  | i :: is, done, h => by
    have hi : ∀ r, s.record i = some r → s.commitVerdict done r = none := fun r hr => by
      simpa using h [] i is r rfl hr
    have his : s.PassFrom (done ++ [i]) is := fun before j after q hsplit hq => by
      simpa using h (i :: before) j after q (by rw [hsplit, List.cons_append]) hq
    rw [List.cons_append, commitFailure_goesOn hi, commitFailure_append rest his, ← List.append_cons]

theorem commitFailure_pass {s : State} {is : List SlotNo} (h : s.PassFrom [] is) : s.commitFailure is [] = none := by
  have hall := commitFailure_append [] h
  rwa [List.append_nil] at hall

theorem commitFailure_first {s : State} {before after : List SlotNo} {i : SlotNo} {r : Record} {st : Status}
    (hpass : s.PassFrom [] before) (hr : s.record i = some r) (h : s.commitVerdict before r = some st) :
    s.commitFailure (before ++ i :: after) [] = some (st, i) :=
  (commitFailure_append (i :: after) hpass).trans (commitFailure_stops hr h after)

/-- A record within the limits of R107 passes: its start against device time, and the room in its plan. -/
theorem commitCheck_pass {s : State} {r : Record} {k : Nat}
    (hgiven : r.start.toNat ≠ 0 → s.deviceTime.toNat + s.minLead ≤ r.start.toNat ∧
      r.start.toNat ≤ s.deviceTime.toNat + s.horizon)
    (hasap : r.start.toNat = 0 → s.deviceTime.toNat + s.minLead < 2 ^ 48)
    (hroom : (s.plan r.channel).records.length + k < 64) : s.commitCheck r k = none := by
  have hearly : ¬ (r.start.toNat ≠ 0 ∧ r.start.toNat < s.deviceTime.toNat + s.minLead) :=
    fun ⟨h0, hlt⟩ => Nat.not_lt.mpr (hgiven h0).1 hlt
  have hfar : ¬ (r.start.toNat ≠ 0 ∧ s.deviceTime.toNat + s.horizon < r.start.toNat) :=
    fun ⟨h0, hlt⟩ => Nat.not_lt.mpr (hgiven h0).2 hlt
  have hlimit : ¬ (r.start.toNat = 0 ∧ maxTime < s.deviceTime.toNat + s.minLead) :=
    fun ⟨h0, hlt⟩ => Nat.not_lt.mpr (Nat.le_sub_one_of_lt (hasap h0)) hlt
  have hfull : ¬ Config.planCap ≤ (s.plan r.channel).records.length + k := Nat.not_le.mpr hroom
  simp only [State.commitCheck, if_neg hearly, if_neg hfar, if_neg hlimit, if_neg hfull]

/-! ### The insertions into one plan (R34) -/

/-- The records stand in non-decreasing order of start (R34). -/
def State.InOrder (s : State) (l : List SlotNo) : Prop := (l.map s.startOf).Pairwise (· ≤ ·)

/-- Records inserted one after the other (R109). -/
def State.insertAll (s : State) (l is : List SlotNo) : List SlotNo := is.foldl (fun l i => s.insertInto i l) l

theorem insertInto_perm (s : State) (i : SlotNo) (l : List SlotNo) : (s.insertInto i l).Perm (i :: l) := by
  obtain ⟨before, after, rfl, hins, -, -⟩ := insertInto_split s i l
  rw [hins]
  exact List.perm_middle

/-- An insertion keeps the order of the records that stood in the plan. -/
theorem insertInto_sublist (s : State) (i : SlotNo) (l : List SlotNo) : l.Sublist (s.insertInto i l) := by
  obtain ⟨before, after, rfl, hins, -, -⟩ := insertInto_split s i l
  rw [hins]
  exact (List.sublist_cons_self i after).append_left before

/-- An insertion compares the starts of the records it places and passes, and no others. -/
theorem insertInto_congr {s t : State} {i : SlotNo} (hi : s.startOf i = t.startOf i) : ∀ {l : List SlotNo},
    (∀ j ∈ l, s.startOf j = t.startOf j) → s.insertInto i l = t.insertInto i l
  | [], _ => rfl
  | j :: js, h => by
    obtain ⟨hj, hjs⟩ := List.forall_mem_cons.mp h
    simp only [State.insertInto, hi, hj, insertInto_congr hi hjs]

/-- In a plan in order, every record behind the inserted one starts later (R34). -/
theorem insertInto_split_inOrder {s : State} (i : SlotNo) {l : List SlotNo} (h : s.InOrder l) : ∃ before after,
    l = before ++ after ∧ s.insertInto i l = before ++ i :: after ∧ (∀ j ∈ before, s.startOf j ≤ s.startOf i) ∧
      ∀ j ∈ after, s.startOf i < s.startOf j := by
  obtain ⟨before, after, rfl, hins, hbefore, hhead⟩ := insertInto_split s i l
  refine ⟨before, after, rfl, hins, hbefore, ?_⟩
  have hafter : s.InOrder after := List.Pairwise.sublist ((List.sublist_append_right before after).map s.startOf) h
  cases after with
  | nil => simp
  | cons a as =>
    have ha : s.startOf i < s.startOf a := hhead a rfl
    have has : ∀ j ∈ as, s.startOf a ≤ s.startOf j :=
      List.forall_mem_map.mp (List.pairwise_cons.mp hafter).1
    exact List.forall_mem_cons.mpr ⟨ha, fun j hj => ha.trans_le (has j hj)⟩

theorem insertInto_inOrder {s : State} (i : SlotNo) {l : List SlotNo} (h : s.InOrder l) : s.InOrder (s.insertInto i l) := by
  obtain ⟨before, after, rfl, hins, hbefore, hafter⟩ := insertInto_split_inOrder i h
  rw [hins]
  simp only [State.InOrder, List.pairwise_map, List.pairwise_append, List.pairwise_cons] at h ⊢
  obtain ⟨hfront, hback, hacross⟩ := h
  exact ⟨hfront, ⟨fun j hj => (hafter j hj).le, hback⟩, fun j hj =>
    List.forall_mem_cons.mpr ⟨hbefore j hj, hacross j hj⟩⟩

/-- In a plan in order, the inserted record follows every record of no later start (R34). -/
theorem insertInto_follows {s : State} {i j : SlotNo} {l : List SlotNo} (h : s.InOrder l) (hj : j ∈ l)
    (hle : s.startOf j ≤ s.startOf i) : [j, i].Sublist (s.insertInto i l) := by
  obtain ⟨before, after, rfl, hins, -, hafter⟩ := insertInto_split_inOrder i h
  have hbefore : j ∈ before := (List.mem_append.mp hj).resolve_right fun hja => Nat.not_lt.mpr hle (hafter j hja)
  rw [hins]
  exact (List.singleton_sublist.mpr hbefore).append (List.singleton_sublist.mpr List.mem_cons_self)

theorem insertAll_perm (s : State) : ∀ (is l : List SlotNo), (s.insertAll l is).Perm (l ++ is)
  | [], l => by rw [List.append_nil]; exact List.Perm.refl l
  | i :: is, l => (insertAll_perm s is _).trans
      (((insertInto_perm s i l).append_right is).trans List.perm_middle.symm)

theorem insertAll_sublist (s : State) : ∀ (is l : List SlotNo), l.Sublist (s.insertAll l is)
  | [], l => List.Sublist.refl l
  | i :: is, l => (insertInto_sublist s i l).trans (insertAll_sublist s is _)

theorem insertAll_inOrder {s : State} : ∀ (is : List SlotNo) {l : List SlotNo}, s.InOrder l → s.InOrder (s.insertAll l is)
  | [], _, h => h
  | i :: is, _, h => insertAll_inOrder is (insertInto_inOrder i h)

theorem insertAll_append (s : State) (l is ks : List SlotNo) :
    s.insertAll l (is ++ ks) = s.insertAll (s.insertAll l is) ks := List.foldl_append

/-- Each of the inserted records follows the earlier records of no later start (R34). -/
theorem insertAll_follows {s : State} {i j : SlotNo} {l is : List SlotNo} (h : s.InOrder l) (hj : j ∈ l) (hi : i ∈ is)
    (hle : s.startOf j ≤ s.startOf i) : [j, i].Sublist (s.insertAll l is) := by
  obtain ⟨front, back, rfl⟩ := List.append_of_mem hi
  rw [insertAll_append]
  have hplaced := insertInto_follows (insertAll_inOrder front h) ((insertAll_sublist s front l).subset hj) hle
  exact hplaced.trans (insertAll_sublist s back _)

/-- Two of the inserted records keep their staging order where the earlier one starts no later (R109). -/
theorem insertAll_keepsOrder {s : State} {i k : SlotNo} {l front back : List SlotNo} (h : s.InOrder l) (hk : k ∈ back)
    (hle : s.startOf i ≤ s.startOf k) : [i, k].Sublist (s.insertAll l (front ++ i :: back)) := by
  rw [List.append_cons, insertAll_append]
  have hplaced : i ∈ s.insertAll l (front ++ [i]) :=
    (insertAll_perm s (front ++ [i]) l).mem_iff.mpr (by simp)
  exact insertAll_follows (insertAll_inOrder (front ++ [i]) h) hplaced hk hle

/-! ### The commit of the records (R109) -/

/-- A staged record as its commit leaves it: PLANNED, an ASAP start resolved to device time plus L (R22, R109). -/
def State.committed (s : State) (r : Record) : Record :=
  { r with state := .planned
           start := if r.start.toNat = 0 then BitVec.ofNat 48 (s.deviceTime.toNat + s.minLead) else r.start }

/-- The resolved start as a sum of device times. -/
theorem committed_eq (s : State) (r : Record) : s.committed r = { r with
    state := .planned
    start := if r.start = 0 then s.deviceTime + BitVec.ofNat 48 s.minLead else r.start } := by
  have hzero : r.start.toNat = 0 ↔ r.start = 0 := (BitVec.toNat_eq (x := r.start) (y := 0)).symm
  have hsum : BitVec.ofNat 48 (s.deviceTime.toNat + s.minLead) = s.deviceTime + BitVec.ofNat 48 s.minLead := by
    rw [BitVec.ofNat_add, BitVec.ofNat_toNat, BitVec.setWidth_eq]
  simp only [State.committed, hzero, hsum]

theorem commitRecord_some {s : State} {i : SlotNo} {r : Record} (h : s.record i = some r) :
    s.commitRecord i = (s.setRecord i (s.committed r)).enterPlan r.channel i := by
  simp only [State.commitRecord, h, State.committed]

theorem commitRecord_none {s : State} {i : SlotNo} (h : s.record i = none) : s.commitRecord i = s := by
  simp only [State.commitRecord, h]

/-- The commit of a record changes the pool and the plans, and nothing else. -/
theorem commitRecord_same (s : State) (i : SlotNo) :
    s.commitRecord i = { s with slots := (s.commitRecord i).slots, plans := (s.commitRecord i).plans } := by
  cases h : s.record i with
  | none => rw [commitRecord_none h]
  | some r => rw [commitRecord_some h]; rfl

theorem commitRecord_slot (s : State) (i j : SlotNo) :
    (s.commitRecord i).slot j =
      if j = i then { s.slot j with record := (s.record j).map s.committed } else s.slot j := by
  cases h : s.record i with
  | none =>
    rw [commitRecord_none h]
    split
    · next hj =>
      subst hj
      rw [h, Option.map_none, ← h]
      rfl
    · rfl
  | some r =>
    rw [commitRecord_some h, State.enterPlan, modPlan_slot, setRecord_slot]
    refine ite_congr rfl (fun hj => ?_) fun _ => rfl
    rw [hj, h, Option.map_some]

theorem commitRecord_record_ne (s : State) {i j : SlotNo} (h : j ≠ i) : (s.commitRecord i).record j = s.record j := by
  rw [State.record, commitRecord_slot, if_neg h, State.record]

theorem commitRecord_plan (s : State) (i : SlotNo) (c : Channel) :
    (s.commitRecord i).plan c = { s.plan c with
      records := if s.namesChannel c i then (s.commitRecord i).insertInto i (s.plan c).records else (s.plan c).records } := by
  cases h : s.record i with
  | none => simp [commitRecord_none h, State.namesChannel, h]
  | some r =>
    have hins : ∀ l, ((s.setRecord i (s.committed r)).enterPlan r.channel i).insertInto i l =
        (s.setRecord i (s.committed r)).insertInto i l := fun l =>
      insertInto_congr (modPlan_startOf ..) fun _ _ => modPlan_startOf ..
    rw [commitRecord_some h]
    simp only [hins]
    by_cases hc : r.channel = c
    · subst hc
      simp [State.enterPlan, State.namesChannel, h]
    · simp [State.enterPlan, modPlan_plan, State.namesChannel, h, hc, Ne.symm hc]

/-- `t` is `s` with these records committed: each PLANNED in its slot, and inserted in its channel's plan in the order of the list,
by the starts that `t` gives (R109). -/
structure State.Commits (s t : State) (is : List SlotNo) : Prop where
  same  : t = { s with slots := t.slots, plans := t.plans }
  slots : ∀ j, t.slot j = if j ∈ is then { s.slot j with record := (s.record j).map s.committed } else s.slot j
  plans : ∀ c, t.plan c =
    { s.plan c with records := t.insertAll (s.plan c).records (is.filter (s.namesChannel c)) }

section Commits

variable {s t : State} {is : List SlotNo}

theorem commits_record (h : s.Commits t is) (j : SlotNo) :
    t.record j = if j ∈ is then (s.record j).map s.committed else s.record j := by
  rw [State.record, h.slots]
  split <;> rfl

theorem commits_gen (h : s.Commits t is) (j : SlotNo) : (t.slot j).gen = (s.slot j).gen := by
  rw [h.slots]
  split <;> rfl

theorem commits_startOf (h : s.Commits t is) {j : SlotNo} (hj : j ∉ is) : t.startOf j = s.startOf j := by
  rw [State.startOf, commits_record h, if_neg hj, State.startOf]

/-- The first record's commit and those of the others behind it are the commits of all. -/
theorem commits_cons {i : SlotNo} (hi : i ∉ is) (hout : ∀ c, ∀ j ∈ is, j ∉ (s.plan c).records)
    (h : (s.commitRecord i).Commits t is) : s.Commits t (i :: is) where
  same := by rw [h.same, commitRecord_same]
  slots j := by
    have hcommitted : (s.commitRecord i).committed = s.committed := by rw [commitRecord_same]; rfl
    rw [h.slots, hcommitted]
    by_cases hj : j = i
    · rw [if_neg (hj ▸ hi), commitRecord_slot, if_pos hj, if_pos (hj ▸ List.mem_cons_self)]
    · rw [commitRecord_slot, if_neg hj, commitRecord_record_ne s hj]
      simp only [List.mem_cons, hj, false_or]
  plans c := by
    have hstart : ∀ j, j ∉ is → (s.commitRecord i).startOf j = t.startOf j := fun j hj => (commits_startOf h hj).symm
    have hins : (s.commitRecord i).insertInto i (s.plan c).records = t.insertInto i (s.plan c).records :=
      insertInto_congr (hstart i hi) fun j hj => hstart j fun hmem => hout c j hmem hj
    have hnames : is.filter ((s.commitRecord i).namesChannel c) = is.filter (s.namesChannel c) :=
      List.filter_congr fun j hj => by
        rw [State.namesChannel, commitRecord_record_ne s (ne_of_mem_of_not_mem hj hi), State.namesChannel]
    rw [h.plans, hnames, commitRecord_plan, hins, List.filter_cons]
    cases s.namesChannel c i <;> rfl

end Commits

/-- The records of a list, none of which stands in a plan, are committed in its order (R109). -/
theorem foldl_commits : ∀ {is : List SlotNo} {s : State}, is.Nodup → (∀ c, ∀ j ∈ is, j ∉ (s.plan c).records) →
    s.Commits (is.foldl State.commitRecord s) is
  | [], _, _, _ => ⟨rfl, fun _ => rfl, fun _ => rfl⟩
  | i :: is, s, hnodup, hout => by
    obtain ⟨hi, his⟩ := List.nodup_cons.mp hnodup
    have hrest : ∀ c, ∀ j ∈ is, j ∉ (s.plan c).records := fun c j hj => hout c j (List.mem_cons_of_mem i hj)
    refine commits_cons hi hrest (foldl_commits his fun c j hj hmem => ?_)
    rw [commitRecord_plan] at hmem
    dsimp only at hmem
    split at hmem
    · have hcases := List.mem_cons.mp ((insertInto_perm _ _ _).mem_iff.mp hmem)
      exact hcases.elim (ne_of_mem_of_not_mem hj hi) (hrest c j hj)
    · exact hrest c j hj hmem

/-- A staged record stands in no plan (R106). -/
theorem staged_not_planned {s : State} (hh : s.Held) {g : Group} (hg : s.group = some g) (c : Channel) {i : SlotNo}
    (hi : i ∈ g.staging) : i ∉ (s.plan c).records := by
  intro hplan
  obtain ⟨r, hr, hst⟩ := (hh.staged i).mp ⟨g, hg, hi⟩
  obtain ⟨q, hq, -, hplanned⟩ := (hh.planned c i).mp hplan
  obtain rfl : q = r := Option.some.inj (hq.symm.trans hr)
  rw [hst] at hplanned
  simp at hplanned

/-! ### A plan after the commit (R109) -/

section Plan

variable {s t : State} {is : List SlotNo} {c : Channel}

theorem commits_records (h : s.Commits t is) (c : Channel) :
    (t.plan c).records = t.insertAll (s.plan c).records (is.filter (s.namesChannel c)) := by
  rw [h.plans]

/-- A commit changes nothing of a plan but its records. -/
theorem commits_plan (h : s.Commits t is) (c : Channel) : t.plan c = { s.plan c with records := (t.plan c).records } := by
  rw [commits_records h]
  exact h.plans c

theorem commits_perm (h : s.Commits t is) (c : Channel) :
    (t.plan c).records.Perm ((s.plan c).records ++ is.filter (s.namesChannel c)) := by
  rw [commits_records h]
  exact insertAll_perm _ _ _

theorem commits_sublist (h : s.Commits t is) (c : Channel) : (s.plan c).records.Sublist (t.plan c).records := by
  rw [commits_records h]
  exact insertAll_sublist _ _ _

/-- The records that stood in the plan keep their starts, and so their order. -/
theorem commits_inOrder (h : s.Commits t is) (hout : ∀ j ∈ is, j ∉ (s.plan c).records)
    (hs : s.InOrder (s.plan c).records) : t.InOrder (s.plan c).records := by
  have hmap : (s.plan c).records.map t.startOf = (s.plan c).records.map s.startOf :=
    List.map_congr_left fun j hj => commits_startOf h fun hmem => hout j hmem hj
  rw [State.InOrder, hmap]
  exact hs

theorem commits_planInOrder (h : s.Commits t is) (hout : ∀ j ∈ is, j ∉ (s.plan c).records)
    (hs : s.InOrder (s.plan c).records) : t.InOrder (t.plan c).records := by
  rw [commits_records h]
  exact insertAll_inOrder _ (commits_inOrder h hout hs)

/-- A committed record that stands in the plan is one of its channel. -/
theorem commits_names (h : s.Commits t is) (hout : ∀ j ∈ is, j ∉ (s.plan c).records) {i : SlotNo} (hi : i ∈ is)
    (hmem : i ∈ (t.plan c).records) : s.namesChannel c i = true := by
  have hcases := List.mem_append.mp ((commits_perm h c).mem_iff.mp hmem)
  exact (List.mem_filter.mp (hcases.resolve_left (hout i hi))).2

/-- A committed record follows every record that stood in the plan with no later start (R34). -/
theorem commits_follows (h : s.Commits t is) (hout : ∀ j ∈ is, j ∉ (s.plan c).records)
    (hs : s.InOrder (s.plan c).records) {i j : SlotNo} (hj : j ∈ (s.plan c).records) (hi : i ∈ is)
    (hmem : i ∈ (t.plan c).records) (hle : t.startOf j ≤ t.startOf i) : [j, i].Sublist (t.plan c).records := by
  have hfilter : i ∈ is.filter (s.namesChannel c) := List.mem_filter.mpr ⟨hi, commits_names h hout hi hmem⟩
  rw [commits_records h]
  exact insertAll_follows (commits_inOrder h hout hs) hj hfilter hle

/-- Committed records keep their staging order where the earlier one starts no later (R109). -/
theorem commits_keepsOrder (h : s.Commits t is) (hout : ∀ j ∈ is, j ∉ (s.plan c).records)
    (hs : s.InOrder (s.plan c).records) {before middle after : List SlotNo} {i k : SlotNo}
    (hsplit : is = before ++ i :: middle ++ k :: after) (hi : i ∈ (t.plan c).records) (hk : k ∈ (t.plan c).records)
    (hle : t.startOf i ≤ t.startOf k) : [i, k].Sublist (t.plan c).records := by
  have hni : s.namesChannel c i = true := commits_names h hout (by simp [hsplit]) hi
  have hnk : s.namesChannel c k = true := commits_names h hout (by simp [hsplit]) hk
  have hfilter : is.filter (s.namesChannel c) = before.filter (s.namesChannel c) ++
      i :: (middle.filter (s.namesChannel c) ++ k :: after.filter (s.namesChannel c)) := by
    simp [hsplit, hni, hnk]
  rw [commits_records h, hfilter]
  exact insertAll_keepsOrder (commits_inOrder h hout hs) (List.mem_append_right _ List.mem_cons_self) hle

end Plan

/-! ### The answers -/

theorem handle_leBytes (s : State) (i : SlotNo) :
    leBytes 2 (s.handle i).toNat = [BitVec.ofNat 8 i.val, BitVec.ofNat 8 (s.slot i).gen] :=
  List.append_inj_left' (scheduleReply_handle s i none) rfl

/-- The first record that fails gives the status and its handle, and no block changes (R108). -/
theorem groupCommit_first {s : State} {g : Group} {before after : List SlotNo} {i : SlotNo} {r : Record} {st : Status}
    (hg : s.group = some g) (hsplit : g.staging = before ++ i :: after) (hpass : s.PassFrom [] before)
    (hr : s.record i = some r) (h : s.commitVerdict before r = some st) :
    s.groupCommit = ((st, [BitVec.ofNat 8 i.val, BitVec.ofNat 8 (s.slot i).gen]), s) := by
  simp only [State.groupCommit, hg, hsplit, commitFailure_first hpass hr h, handle_leBytes]

/-- Where every record passes, the group is committed and the count answered (R109). -/
theorem groupCommit_pass {s : State} {g : Group} (hg : s.group = some g) (hpass : s.PassFrom [] g.staging) :
    s.groupCommit = ((.ok, [BitVec.ofNat 8 g.staging.length]), s.commitGroup g) := by
  simp only [State.groupCommit, hg, commitFailure_pass hpass]
  rfl

theorem groupCommit_next {s : State} {rq : Request} {rest : List Request} (hc : s.Carries rq rest) (hk : rq.kind = 0x21)
    (hf : rq.fields = []) {st : Status} {fields : List Byte} {t : State}
    (h : State.groupCommit { s with rxQueue := rest } = ((st, fields), t)) :
    exec .groupCommit s = .next (t.withReply rq st fields) := by
  have hnext := request_next hc hk (len := 3) (by rw [hf]; rfl) fun _ s => s.groupCommit
  rw [h] at hnext
  exact hnext

/-! ### The obligation -/

/-- Settles O50: the first record that fails stops the examination, and where none fails the commits are insertions by the starts
of the next state, so that the order of each plan is that of insertions alone. -/
theorem groupCommitPlansAllOrNone : Obligations.GroupCommitPlansAllOrNone := by
  unfold Obligations.GroupCommitPlansAllOrNone
  refine ⟨?fails, ?commits⟩
  case fails =>
    intro s rq rest g before after i r st hc _ hk hf hg hsplit hr now verdict hpass hfail
    have hfirst := groupCommit_first (s := { s with rxQueue := rest }) hg hsplit hpass hr hfail
    exact groupCommit_next hc hk hf hfirst
  case commits =>
    intro s rq rest g hc hh hk hf hg hlimits
    have hpass : State.PassFrom { s with rxQueue := rest } [] g.staging := by
      intro before j after q hsplit hq
      obtain ⟨hgiven, hasap, hroom⟩ := hlimits before j after q hsplit hq
      exact commitCheck_pass (s := { s with rxQueue := rest }) hgiven hasap hroom
    have hout : ∀ c, ∀ j ∈ g.staging, j ∉ (s.plan c).records := fun c j => staged_not_planned hh hg c
    have hcommits := foldl_commits (s := { s with rxQueue := rest }) (hh.stagedOnce g hg) hout
    refine ⟨_, groupCommit_next hc hk hf (groupCommit_pass (s := { s with rxQueue := rest }) hg hpass), ?same, ?pool,
      ?records, ?plans⟩
    case same => rw [State.commitGroup, hcommits.same]
    case pool => exact fun i => ⟨commits_gen hcommits i, fun hi => (commits_record hcommits i).trans (if_neg hi)⟩
    case records =>
      intro i hi r hr
      have hr1 : State.record { s with rxQueue := rest } i = some r := hr
      exact (commits_record hcommits i).trans (by rw [if_pos hi, hr1, Option.map_some, committed_eq])
    case plans =>
      intro ch
      refine ⟨?frame, ?perm, ?kept, fun horder => ⟨?order, ?follows, ?keepsOrder⟩⟩
      case frame => exact commits_plan hcommits ch
      case perm => exact commits_perm hcommits ch
      case kept => exact commits_sublist hcommits ch
      case order => exact (commits_planInOrder hcommits (hout ch) horder :)
      case follows => exact fun j hj i hi => commits_follows hcommits (hout ch) horder hj hi
      case keepsOrder => exact fun _ _ _ _ _ => commits_keepsOrder hcommits (hout ch) horder

end Sys2Proof.Machine
end

section
/-!
PROOF. SNAPSHOT (R127, R128): how its fields are read, the status of the first check that fails, and the tag given where every check
passes, with the snapshot scheduled or the capture made at once.
-/
namespace Sys2Proof.Machine

/-! ### Reading the fields -/

/-- The first byte of the fields is the mask. -/
theorem byteField_head (b : Byte) (fs : List Byte) : byteField (b :: fs) 0 = b := by
  rw [byteField, field_one (b := b) rfl, BitVec.ofNat_toNat, BitVec.setWidth_eq]

/-- A device time of which the fields hold the six bytes is read back. -/
theorem timeField_of_take {fs : List Byte} {off : Nat} {time : Time} (h : (fs.drop off).take 6 = leBytes 6 time.toNat) :
    BitVec.ofNat 48 (field fs off 6) = time := by
  rw [field_of_take h time.isLt, BitVec.ofNat_toNat, BitVec.setWidth_eq]

/-! ### The checks and what follows them -/

/-- The status of the first check of R127 that fails. -/
def State.snapshotVerdict (s : State) (mask : Byte) (time : Time) : Option Status :=
  if mask = 0 then some .badParam
  else if s.snapshot ≠ none then some .busy
  else if time.toNat ≠ 0 ∧ time.toNat < s.deviceTime.toNat + s.minLead then some .tooLate
  else if time.toNat ≠ 0 ∧ s.deviceTime.toNat + s.horizon < time.toNat then some .tooFar
  else if 16 ≤ s.tagsOpen.length + s.tagsWaiting.length then some .tagsFull
  else none

/-- The state with the snapshot scheduled under the tag that it is given (R128). -/
def State.snapshotScheduled (s : State) (mask : Byte) (time : Time) : State :=
  { s.allocTag (.snapshot mask) with snapshot := some { mask := mask, time := time, tag := s.tagToGive, due := none } }

/-- The state with the capture made at once, on time, and the tag that it is given completed (R128, R130). -/
def State.snapshotCaptured (s : State) (mask : Byte) : State :=
  (s.allocTag (.snapshot mask)).withDone s.tagToGive .captured (.captured mask 0 s.deviceTime false (s.capture mask))

/-- SNAPSHOT on fields that write a mask and a capture time: the status of the first check that fails, and where none does the tag
given and the snapshot scheduled, or captured for time 0 (R127, R128). -/
theorem doSnapshot_eq (s : State) (mask : Byte) (time : Time) :
    s.doSnapshot (mask :: leBytes 6 time.toNat)
      = (s.snapshotVerdict mask time).elim
          ((.deferred, [BitVec.ofNat 8 s.tagToGive]),
            if time.toNat = 0 then s.snapshotCaptured mask else s.snapshotScheduled mask time)
          fun st => ((st, []), s) := by
  have htime : BitVec.ofNat 48 (field (mask :: leBytes 6 time.toNat) 1 6) = time := timeField_of_take rfl
  have hbusy : s.snapshot.isSome ↔ s.snapshot ≠ none := Option.isSome_iff_ne_none
  have hfull : s.tagsFull ↔ 16 ≤ s.tagsOpen.length + s.tagsWaiting.length := decide_eq_true_iff
  simp only [State.doSnapshot, State.snapshotVerdict, byteField_head, htime, hbusy, hfull, completeTag_eq_withDone]
  split_ifs <;> rfl

theorem doSnapshot_refused {s : State} {mask : Byte} {time : Time} {st : Status} (h : s.snapshotVerdict mask time = some st) :
    s.doSnapshot (mask :: leBytes 6 time.toNat) = ((st, []), s) := by
  rw [doSnapshot_eq, h, Option.elim_some]

theorem doSnapshot_scheduled {s : State} {mask : Byte} {time : Time} (h : s.snapshotVerdict mask time = none)
    (ht : time.toNat ≠ 0) :
    s.doSnapshot (mask :: leBytes 6 time.toNat)
      = ((.deferred, [BitVec.ofNat 8 s.tagToGive]), s.snapshotScheduled mask time) := by
  rw [doSnapshot_eq, h, Option.elim_none, if_neg ht]

theorem doSnapshot_captured {s : State} {mask : Byte} {time : Time} (h : s.snapshotVerdict mask time = none)
    (ht : time.toNat = 0) :
    s.doSnapshot (mask :: leBytes 6 time.toNat)
      = ((.deferred, [BitVec.ofNat 8 s.tagToGive]), s.snapshotCaptured mask) := by
  rw [doSnapshot_eq, h, Option.elim_none, if_pos ht]

/-- A SNAPSHOT that is carried out is answered with what the Snapshot Unit says on the queue's rest (R171). -/
theorem snapshot_next {s : State} {rq : Request} {rest : List Request} {mask : Byte} {time : Time} {st : Status}
    {fields : List Byte} {t : State} (hc : s.Carries rq rest) (hk : rq.kind = 0x30)
    (hf : rq.fields = mask :: leBytes 6 time.toNat)
    (h : State.doSnapshot { s with rxQueue := rest } (mask :: leBytes 6 time.toNat) = ((st, fields), t)) :
    exec .snapshot s = .next (t.withReply rq st fields) := by
  have hnext := request_next hc hk (len := 10) (by rw [hf]; rfl) fun fs s => s.doSnapshot fs
  rw [hf, h] at hnext
  exact hnext

/-! ### The obligation -/

/-- Settles O51: the checks give their verdict on the request's mask and time, and one with no verdict is scheduled or captured by
whether its time is 0. -/
theorem snapshotSchedulesOrCaptures : Obligations.SnapshotSchedulesOrCaptures := by
  unfold Obligations.SnapshotSchedulesOrCaptures
  intro s rq rest mask time hc hk hf s1 now tag verdict given
  refine ⟨fun st hverdict => ?refused, fun hverdict htime => ?scheduled, fun hverdict htime => ?captured⟩
  case refused => exact snapshot_next hc hk hf (doSnapshot_refused (s := s1) hverdict)
  case scheduled => exact snapshot_next hc hk hf (doSnapshot_scheduled (s := s1) hverdict htime)
  case captured => exact snapshot_next hc hk hf (doSnapshot_captured (s := s1) hverdict htime)

end Sys2Proof.Machine
end

section
/-!
PROOF. The places of a record (R15): what the invariant `Held` says of the record in a slot, the state in which one slot has been
taken out of its place, and the four places into which a slot goes again.
-/
namespace Sys2Proof.Machine

/-! ### Where the record of a slot is -/

section Places

variable {s : State} {i : SlotNo} {r : Record}

theorem State.Held.mem_plan (h : s.Held) (hr : s.record i = some r) (c : Channel) :
    i ∈ (s.plan c).records ↔ r.channel = c ∧ (r.state = .planned ∨ r.state = .waiting) := by
  rw [h.planned]; simp [hr]

theorem State.Held.mem_staging (h : s.Held) (hr : s.record i = some r) :
    (∃ g, s.group = some g ∧ i ∈ g.staging) ↔ r.state = .staged := by
  rw [h.staged]; simp [hr]

theorem State.Held.runs (h : s.Held) (hr : s.record i = some r) (c : Channel) :
    (∃ run, (s.engine c).current = some run ∧ run.slot = i) ↔ r.channel = c ∧ r.state = .current := by
  rw [h.current]; simp [hr]

theorem State.Held.not_free (h : s.Held) (hr : s.record i = some r) : i ∉ s.freeList := by
  rw [h.free, hr]; exact Option.some_ne_none r

/-- The action that an engine runs has a record, which names the channel. -/
theorem State.Held.current_record (h : s.Held) {c : Channel} {run : Running} (hc : (s.engine c).current = some run) :
    ∃ r, s.record run.slot = some r ∧ r.channel = c ∧ r.state = .current :=
  (h.current c run.slot).mp ⟨run, hc, rfl⟩

/-- A record in a plan is in use and names the plan's channel. -/
theorem State.Held.plan_record (h : s.Held) {c : Channel} (hi : i ∈ (s.plan c).records) :
    ∃ r, s.record i = some r ∧ r.channel = c ∧ (r.state = .planned ∨ r.state = .waiting) := (h.planned c i).mp hi

/-- A staged record is in use. -/
theorem State.Held.staged_record (h : s.Held) {g : Group} (hg : s.group = some g) (hi : i ∈ g.staging) :
    ∃ r, s.record i = some r ∧ r.state = .staged := (h.staged i).mp ⟨g, hg, hi⟩

end Places

/-! ### A slot out of its place -/

/-- The invariant of the places with one slot in none of them. -/
structure State.HeldBut (s : State) (i : SlotNo) : Prop where
  freeOnce   : s.freeList.Nodup
  free       : ∀ j, j ≠ i → (j ∈ s.freeList ↔ s.record j = none)
  generation : ∀ j, 1 ≤ (s.slot j).gen ∧ (s.slot j).gen ≤ 255
  planOnce   : ∀ c, (s.plan c).records.Nodup
  planned    : ∀ c j, j ≠ i → (j ∈ (s.plan c).records ↔
                 ∃ r, s.record j = some r ∧ r.channel = c ∧ (r.state = .planned ∨ r.state = .waiting))
  stagedOnce : ∀ g, s.group = some g → g.staging.Nodup
  staged     : ∀ j, j ≠ i → ((∃ g, s.group = some g ∧ j ∈ g.staging) ↔ ∃ r, s.record j = some r ∧ r.state = .staged)
  current    : ∀ c j, j ≠ i → ((∃ run, (s.engine c).current = some run ∧ run.slot = j) ↔
                 ∃ r, s.record j = some r ∧ r.channel = c ∧ r.state = .current)
  busy       : ∀ c, (s.engine c).current.isSome = (s.engine c).state.busy
  off        : ∀ c, (s.engine c).state = .off → ∀ j r, j ≠ i → s.record j = some r → r.channel ≠ c
  notFree    : i ∉ s.freeList
  notPlanned : ∀ c, i ∉ (s.plan c).records
  notStaged  : ∀ g, s.group = some g → i ∉ g.staging
  notCurrent : ∀ c run, (s.engine c).current = some run → run.slot ≠ i

/-- The engine goes on with the action it has, or with none, and is OFF only if it was. -/
structure Engine.Continues (e e' : Engine) : Prop where
  slot : e'.current.map (·.slot) = e.current.map (·.slot)
  busy : e'.state.busy = e.state.busy
  off  : e'.state = .off → e.state = .off

theorem Engine.Continues.refl (e : Engine) : e.Continues e := ⟨rfl, rfl, id⟩

theorem Engine.Continues.current_iff {e e' : Engine} (h : e.Continues e') (i : SlotNo) :
    (∃ run, e'.current = some run ∧ run.slot = i) ↔ ∃ run, e.current = some run ∧ run.slot = i := by
  have := h.slot
  cases h1 : e.current <;> cases h2 : e'.current <;> simp_all

theorem Engine.Continues.isSome {e e' : Engine} (h : e.Continues e') : e'.current.isSome = e.current.isSome := by
  have := congrArg Option.isSome h.slot
  simpa using this

theorem staging_iff {a b : Option Group} (h : b.map (·.staging) = a.map (·.staging)) (l : List SlotNo) :
    (∃ g, b = some g ∧ g.staging = l) ↔ ∃ g, a = some g ∧ g.staging = l := by
  cases a <;> cases b <;> simp_all

/-- The invariant reads the pool, the records of the plans, the staging list, and of an engine its state and its action. -/
theorem State.Held.congr {s t : State} (h : s.Held) (hs : t.slots = s.slots) (hf : t.freeList = s.freeList)
    (hp : ∀ c, (t.plan c).records = (s.plan c).records) (hg : t.group.map (·.staging) = s.group.map (·.staging))
    (he : ∀ c, (s.engine c).Continues (t.engine c)) : t.Held := by
  have hslot : ∀ i, t.slot i = s.slot i := fun i => by simp only [State.slot, hs]
  have hrec : ∀ i, t.record i = s.record i := fun i => by simp only [State.record, hslot]
  have hst : ∀ i, (∃ g, t.group = some g ∧ i ∈ g.staging) ↔ ∃ g, s.group = some g ∧ i ∈ g.staging := by
    intro i
    cases hgs : s.group <;> cases hgt : t.group <;> simp_all
  refine ⟨hf ▸ h.freeOnce, fun i => ?_, fun i => ?_, fun c => ?_, fun c i => ?_, fun g hg' => ?_, fun i => ?_, fun c i => ?_,
    fun c => ?_, fun c hc i r hr => ?_⟩
  · rw [hf, hrec]; exact h.free i
  · rw [hslot]; exact h.generation i
  · rw [hp]; exact h.planOnce c
  · rw [hp, hrec]; exact h.planned c i
  · obtain ⟨g', hg1, hg2⟩ := (staging_iff hg g.staging).mp ⟨g, hg', rfl⟩
    exact hg2 ▸ h.stagedOnce g' hg1
  · rw [hst, hrec]; exact h.staged i
  · rw [(he c).current_iff, hrec]; exact h.current c i
  · rw [(he c).isSome, (he c).busy]; exact h.busy c
  · exact h.off c ((he c).off hc) i r (hrec i ▸ hr)

/-! ### Leaving a place -/

section Leaving

variable {s : State} {i : SlotNo} {r : Record}

/-- A record leaves its plan. -/
theorem State.Held.leavePlan (h : s.Held) {ch : Channel} (hi : i ∈ (s.plan ch).records) : (s.leavePlan ch i).HeldBut i := by
  obtain ⟨r, hr, hc, hst⟩ := h.plan_record hi
  have hplan : ∀ c, ((s.leavePlan ch i).plan c).records
      = if c = ch then (s.plan ch).records.filter (· ≠ i) else (s.plan c).records := by
    intro c
    unfold State.leavePlan
    rw [modPlan_plan]
    split <;> rfl
  refine ⟨h.freeOnce, fun j _ => h.free j, h.generation, fun c => ?_, fun c j hj => ?_, h.stagedOnce, fun j _ => h.staged j,
    fun c j _ => h.current c j, h.busy, fun c hc j r' _ hr' => h.off c hc j r' hr', h.not_free hr, fun c hm => ?_,
    fun g hg hm => ?_, fun c run hrun he => ?_⟩
  · rw [hplan]
    split
    · exact (h.planOnce ch).filter _
    · exact h.planOnce c
  · rw [hplan, leavePlan_record, ← h.planned]
    split
    · next hcc => subst hcc; simp [hj]
    · rfl
  · rw [hplan] at hm
    split at hm
    · simp at hm
    · next hcc => exact hcc (((h.mem_plan hr c).mp hm).1.symm.trans hc)
  · have := (h.mem_staging hr).mp ⟨g, hg, hm⟩
    rw [this] at hst
    simp at hst
  · have := ((h.runs hr c).mp ⟨run, hrun, he⟩).2
    rw [this] at hst
    simp at hst

/-- The current action leaves its engine. -/
theorem State.Held.leaveEngine (h : s.Held) {ch : Channel} {run : Running} (hrun : (s.engine ch).current = some run)
    {f : Engine → Engine} (hf : (f (s.engine ch)).current = none) (hb : (f (s.engine ch)).state.busy = false)
    (ho : (f (s.engine ch)).state ≠ .off) : (s.modEngine ch f).HeldBut run.slot := by
  obtain ⟨r, hr, hc, hst⟩ := h.current_record hrun
  refine ⟨h.freeOnce, fun j _ => h.free j, h.generation, h.planOnce, fun c j _ => h.planned c j, h.stagedOnce,
    fun j _ => h.staged j, fun c j hj => ?_, fun c => ?_, fun c hoff j r' _ hr' => ?_, h.not_free hr, fun c hm => ?_,
    fun g hg hm => ?_, fun c run' hrun' he => ?_⟩
  · rw [modEngine_engine, modEngine_record, ← h.current]
    split
    · next hcc => subst hcc; simp [hf, hrun, Ne.symm hj]
    · rfl
  · rw [modEngine_engine]
    split
    · rw [hf, hb]; rfl
    · exact h.busy c
  · rw [modEngine_engine] at hoff
    split at hoff
    · exact absurd hoff ho
    · exact h.off c hoff j r' hr'
  · have := ((h.mem_plan hr c).mp hm).2
    rw [hst] at this
    simp at this
  · have := (h.mem_staging hr).mp ⟨g, hg, hm⟩
    rw [hst] at this
    simp at this
  · rw [modEngine_engine] at hrun'
    split at hrun'
    · rw [hf] at hrun'; simp at hrun'
    · next hcc => exact hcc (((h.runs hr c).mp ⟨run', hrun', he⟩).1.symm.trans hc)

theorem unstage_group (s : State) (i : SlotNo) :
    (s.unstage i).group = s.group.map fun g => { g with staging := g.staging.filter (· ≠ i) } := rfl

/-- A staged record leaves the staging list. -/
theorem State.Held.leaveGroup (h : s.Held) {g : Group} (hg : s.group = some g) (hi : i ∈ g.staging) :
    (s.unstage i).HeldBut i := by
  obtain ⟨r, hr, hst⟩ := h.staged_record hg hi
  refine ⟨h.freeOnce, fun j _ => h.free j, h.generation, h.planOnce, fun c j _ => h.planned c j, fun g' hg' => ?_,
    fun j hj => ?_, fun c j _ => h.current c j, h.busy, fun c hc j r' _ hr' => h.off c hc j r' hr', h.not_free hr,
    fun c hm => ?_, fun g' hg' hm => ?_, fun c run' hrun' he => ?_⟩
  · rw [unstage_group, hg] at hg'
    cases hg'
    exact (h.stagedOnce g hg).filter _
  · rw [unstage_record, ← h.staged, unstage_group, hg]
    simp [hj]
  · have := ((h.mem_plan hr c).mp hm).2
    rw [hst] at this
    simp at this
  · rw [unstage_group, hg] at hg'
    cases hg'
    simp at hm
  · have := ((h.runs hr c).mp ⟨run', hrun', he⟩).2
    rw [hst] at this
    simp at this

/-- The slot at the head of the free list leaves it. -/
theorem State.Held.leavePool (h : s.Held) {rest : List SlotNo} (hi : s.freeList = i :: rest) :
    State.HeldBut { s with freeList := rest } i := by
  have hnd := h.freeOnce
  rw [hi, List.nodup_cons] at hnd
  have hnone : s.record i = none := (h.free i).mp (by rw [hi]; simp)
  have hmem : ∀ j, j ≠ i → (j ∈ rest ↔ j ∈ s.freeList) := fun j hj => by rw [hi]; simp [hj]
  refine ⟨hnd.2, fun j hj => (hmem j hj).trans (h.free j), h.generation, h.planOnce, fun c j _ => h.planned c j, h.stagedOnce,
    fun j _ => h.staged j, fun c j _ => h.current c j, h.busy, fun c hc j r' _ hr' => h.off c hc j r' hr', hnd.1,
    fun c hm => ?_, fun g hg hm => ?_, fun c run hrun he => ?_⟩
  · obtain ⟨r, hr, _⟩ := h.plan_record hm
    rw [hnone] at hr; cases hr
  · obtain ⟨r, hr, _⟩ := h.staged_record hg hm
    rw [hnone] at hr; cases hr
  · obtain ⟨r, hr, _⟩ := h.current_record hrun
    rw [he, hnone] at hr; cases hr

end Leaving

/-! ### Entering a place -/

section Entering

variable {s : State} {i : SlotNo}

/-- The slot goes back to the pool. -/
theorem State.HeldBut.freed (h : s.HeldBut i) (r : Record) (b : EndedBody) : (s.freed i r b).Held := by
  have hrec : ∀ j, j ≠ i → (s.freed i r b).record j = s.record j := fun j hj => freed_record_ne s r b hj
  have hgen := h.generation i
  refine ⟨?_, fun j => ?_, fun j => ?_, fun c => ?_, fun c j => ?_, fun g hg => ?_, fun j => ?_, fun c j => ?_,
    fun c => ?_, fun c hc j r' hr' => ?_⟩
  · rw [freed_freeList, List.nodup_append]
    exact ⟨h.freeOnce, List.nodup_singleton i, fun a ha b hb => by
      rw [List.mem_singleton] at hb; subst hb; exact fun e => h.notFree (e ▸ ha)⟩
  · rw [freed_freeList, List.mem_append, List.mem_singleton]
    by_cases hj : j = i
    · subst hj; simp
    · rw [hrec j hj, h.free j hj]; simp [hj]
  · rw [freed_slot]
    split
    · dsimp only; split <;> omega
    · exact h.generation j
  · rw [freed_plan]; exact h.planOnce c
  · rw [freed_plan]
    by_cases hj : j = i
    · subst hj; simp [h.notPlanned c]
    · rw [hrec j hj]; exact h.planned c j hj
  · rw [freed_group] at hg; exact h.stagedOnce g hg
  · rw [freed_group]
    by_cases hj : j = i
    · subst hj
      simpa using h.notStaged
    · rw [hrec j hj]; exact h.staged j hj
  · rw [freed_engine]
    by_cases hj : j = i
    · subst hj
      simpa using h.notCurrent c
    · rw [hrec j hj]; exact h.current c j hj
  · rw [freed_engine]; exact h.busy c
  · rw [freed_engine] at hc
    by_cases hj : j = i
    · subst hj; simp at hr'
    · rw [hrec j hj] at hr'; exact h.off c hc j r' hj hr'

/-- The record of the slot becomes the action of an engine that has none. -/
theorem State.HeldBut.enterEngine (h : s.HeldBut i) {r : Record} {ch : Channel} (hc : r.channel = ch) (hst : r.state = .current)
    (hn : (s.engine ch).current = none) {f : Engine → Engine} {run : Running}
    (hf : (f (s.engine ch)).current = some run) (hi : run.slot = i) (hb : (f (s.engine ch)).state.busy = true) :
    ((s.setRecord i r).modEngine ch f).Held := by
  have hrec : ∀ j, j ≠ i → ((s.setRecord i r).modEngine ch f).record j = s.record j := fun j hj => by
    rw [modEngine_record, setRecord_record, if_neg hj]
  have hself : ((s.setRecord i r).modEngine ch f).record i = some r := by simp
  have heng : ∀ c, ((s.setRecord i r).modEngine ch f).engine c = if c = ch then f (s.engine ch) else s.engine c := fun c => by
    rw [modEngine_engine]; rfl
  refine ⟨h.freeOnce, fun j => ?_, fun j => ?_, h.planOnce, fun c j => ?_, h.stagedOnce, fun j => ?_, fun c j => ?_,
    fun c => ?_, fun c hoff j r' hr' => ?_⟩
  · by_cases hj : j = i
    · subst hj; rw [hself]; simp [h.notFree]
    · rw [hrec j hj]; exact h.free j hj
  · rw [modEngine_slot, setRecord_slot]
    split
    · exact h.generation i
    · exact h.generation j
  · by_cases hj : j = i
    · subst hj; rw [hself]; simp [h.notPlanned, hst]
    · rw [hrec j hj]; exact h.planned c j hj
  · by_cases hj : j = i
    · subst hj; rw [hself]
      simpa [hst] using h.notStaged
    · rw [hrec j hj]; exact h.staged j hj
  · rw [heng]
    by_cases hj : j = i
    · subst hj; rw [hself]
      split
      · next hcc => subst hcc; simp [hf, hi, hc, hst]
      · next hcc =>
        have := h.notCurrent c
        simp only [Option.some.injEq]
        constructor
        · rintro ⟨run', h1, h2⟩; exact absurd h2 (this run' h1)
        · rintro ⟨r', rfl, h1, _⟩; exact absurd (h1.symm.trans hc) hcc
    · rw [hrec j hj, ← h.current c j hj]
      split
      · next hcc => subst hcc; simp [hf, hi, hn, Ne.symm hj]
      · rfl
  · rw [heng]
    split
    · rw [hf, hb]; rfl
    · exact h.busy c
  · rw [heng] at hoff
    split at hoff
    · rw [hoff] at hb; cases hb
    · next hcc =>
      by_cases hj : j = i
      · subst hj
        rw [hself] at hr'
        cases hr'
        exact fun e => hcc (e.symm.trans hc)
      · rw [hrec j hj] at hr'; exact h.off c hoff j r' hj hr'

/-- The record of the slot enters a plan. -/
theorem State.HeldBut.enterPlan (h : s.HeldBut i) {r : Record} (hst : r.state = .planned)
    (ho : (s.engine r.channel).state ≠ .off) : ((s.setRecord i r).enterPlan r.channel i).Held := by
  have hrec : ∀ j, j ≠ i → ((s.setRecord i r).enterPlan r.channel i).record j = s.record j := fun j hj => by
    rw [enterPlan_record, setRecord_record, if_neg hj]
  have hself : ((s.setRecord i r).enterPlan r.channel i).record i = some r := by simp
  have hperm := insertInto_perm (s.setRecord i r) i (s.plan r.channel).records
  have hplan : ∀ c, (((s.setRecord i r).enterPlan r.channel i).plan c).records
      = if c = r.channel then (s.setRecord i r).insertInto i (s.plan r.channel).records else (s.plan c).records := fun c => by
    unfold State.enterPlan
    rw [modPlan_plan]
    split <;> rfl
  refine ⟨h.freeOnce, fun j => ?_, fun j => ?_, fun c => ?_, fun c j => ?_, h.stagedOnce, fun j => ?_, fun c j => ?_,
    h.busy, fun c hoff j r' hr' => ?_⟩
  · by_cases hj : j = i
    · subst hj; rw [hself]; simp [h.notFree]
    · rw [hrec j hj]; exact h.free j hj
  · rw [enterPlan_slot, setRecord_slot]
    split
    · exact h.generation i
    · exact h.generation j
  · rw [hplan]
    split
    · rw [hperm.nodup_iff, List.nodup_cons]; exact ⟨h.notPlanned _, h.planOnce _⟩
    · exact h.planOnce c
  · rw [hplan]
    by_cases hj : j = i
    · subst hj; rw [hself]
      split
      · next hcc => subst hcc; simp [hperm.mem_iff, hst]
      · next hcc => simp [h.notPlanned, Ne.symm hcc]
    · rw [hrec j hj, ← h.planned c j hj]
      split
      · next hcc => subst hcc; simp [hperm.mem_iff, hj]
      · rfl
  · by_cases hj : j = i
    · subst hj; rw [hself]
      simpa [hst] using h.notStaged
    · rw [hrec j hj]; exact h.staged j hj
  · rw [enterPlan_engine]
    by_cases hj : j = i
    · subst hj; rw [hself]
      simpa [hst] using h.notCurrent c
    · rw [hrec j hj]; exact h.current c j hj
  · by_cases hj : j = i
    · subst hj
      rw [hself] at hr'
      cases hr'
      exact fun e => ho (e ▸ hoff)
    · rw [hrec j hj] at hr'; exact h.off c hoff j r' hj hr'

/-- The record of the slot enters the staging list of the open group. -/
theorem State.HeldBut.enterGroup (h : s.HeldBut i) {r : Record} (hst : r.state = .staged) {g : Group} (hg : s.group = some g)
    (ho : (s.engine r.channel).state ≠ .off) :
    State.Held { s.setRecord i r with group := some { g with staging := g.staging ++ [i] } } := by
  have hrec : ∀ j, j ≠ i → (s.setRecord i r).record j = s.record j := fun j hj => by rw [setRecord_record, if_neg hj]
  have hself : (s.setRecord i r).record i = some r := by simp
  refine ⟨h.freeOnce, fun j => ?_, fun j => ?_, h.planOnce, fun c j => ?_, fun g' hg' => ?_, fun j => ?_, fun c j => ?_,
    h.busy, fun c hoff j r' hr' => ?_⟩
  · show j ∈ s.freeList ↔ (s.setRecord i r).record j = none
    by_cases hj : j = i
    · subst hj; rw [hself]; simp [h.notFree]
    · rw [hrec j hj]; exact h.free j hj
  · show 1 ≤ ((s.setRecord i r).slot j).gen ∧ ((s.setRecord i r).slot j).gen ≤ 255
    rw [setRecord_slot]
    split
    · exact h.generation i
    · exact h.generation j
  · show j ∈ (s.plan c).records ↔ ∃ r', (s.setRecord i r).record j = some r' ∧ _
    by_cases hj : j = i
    · subst hj; rw [hself]; simp [h.notPlanned, hst]
    · rw [hrec j hj]; exact h.planned c j hj
  · cases hg'
    rw [List.nodup_append]
    exact ⟨h.stagedOnce g hg, List.nodup_singleton i, fun a ha b hb => by
      rw [List.mem_singleton] at hb; subst hb; exact fun e => h.notStaged g hg (e ▸ ha)⟩
  · show _ ↔ ∃ r', (s.setRecord i r).record j = some r' ∧ _
    by_cases hj : j = i
    · subst hj; rw [hself]; simp [hst]
    · rw [hrec j hj, ← h.staged j hj, hg]; simp [hj]
  · show (∃ run, (s.engine c).current = some run ∧ run.slot = j) ↔ ∃ r', (s.setRecord i r).record j = some r' ∧ _
    by_cases hj : j = i
    · subst hj; rw [hself]
      simpa [hst] using h.notCurrent c
    · rw [hrec j hj]; exact h.current c j hj
  · have hr'' : (s.setRecord i r).record j = some r' := hr'
    by_cases hj : j = i
    · subst hj
      rw [hself] at hr''
      cases hr''
      exact fun e => ho (e ▸ hoff)
    · rw [hrec j hj] at hr''; exact h.off c hoff j r' hj hr''

end Entering

end Sys2Proof.Machine
end

section
/-!
PROOF. The steps of which all work on actions is made, and that each keeps the places of the records. The premises about places
stand under a condition `H`: with `H` true the work starts from states with every record in its place; with `H` false nothing is
known of the places, and the relation says only what the work can change.
-/
namespace Sys2Proof.Machine

/-! ### The steps of the work -/

/-- The plan after a change that takes no record in and has nothing more handed to it. -/
structure Plan.Eases (H : Prop) (p p' : Plan) : Prop where
  records  : p'.records.Sublist p.records
  kept     : H → p'.records = p.records
  loads    : ∀ l ∈ p'.loads, l ∈ p.loads
  settings : p'.settings ≤ p.settings

/-- `t` comes from `s` by work on actions that allocates no record and frees records of the channels `C` only: changes at an engine
or a plan that leave the records in their places, notices handed on, records leaving a plan, an engine or the staging list as they
are freed, starts, a head that becomes WAITING, and the closing of an emptied group. -/
inductive State.Acts (H : Prop) (C : List Channel) : State → State → Prop
  | refl (s : State) : Acts H C s s
  | trans {s t u : State} (h : Acts H C s t) (k : Acts H C t u) : Acts H C s u
  | engine (s : State) (ch : Channel) (f : Engine → Engine) (h : H → (s.engine ch).Continues (f (s.engine ch))) :
      Acts H C s (s.modEngine ch f)
  | plan (s : State) (ch : Channel) (f : Plan → Plan) (h : (s.plan ch).Eases H (f (s.plan ch))) : Acts H C s (s.modPlan ch f)
  | hand (s : State) (b : NoticeBody) : Acts H C s (s.handOrdinary b)
  | drop {s : State} {ch : Channel} {i : SlotNo} {r : Record} (b : EndedBody) (hc : ch ∈ C)
      (hr : H → s.record i = some r) (hi : H → i ∈ (s.plan ch).records) : Acts H C s ((s.leavePlan ch i).freed i r b)
  | finish {s : State} {ch : Channel} {run : Running} {r : Record} {f : Engine → Engine} (b : EndedBody) (hc : ch ∈ C)
      (hr : H → s.record run.slot = some r) (hrun : (s.engine ch).current = some run) (hf : (f (s.engine ch)).current = none)
      (hs : (f (s.engine ch)).state = .idle ∨ (f (s.engine ch)).state = .safed) :
      Acts H C s ((s.modEngine ch f).freed run.slot r b)
  | start {s : State} {ch : Channel} {i : SlotNo} {r : Record} (hr : H → s.record i = some r)
      (hi : H → i ∈ (s.plan ch).records) (hn : H → (s.engine ch).current = none) :
      Acts H C s ((s.leavePlan ch i).startAction ch i r)
  | wait {s : State} {ch : Channel} {i : SlotNo} {r : Record} (hr : s.record i = some r)
      (h : H → (∃ rest, (s.plan ch).records = i :: rest) ∧ r.state = .planned ∧ s.isDue ch r = true) :
      Acts H C s (s.setRecord i { r with state := .waiting })
  | unlist (s : State) (i : SlotNo) (h : H → ∀ g, s.group = some g → i ∉ g.staging) : Acts H C s (s.unstage i)
  | unstage {s : State} {i : SlotNo} {r : Record} (b : EndedBody) (hc : H → r.channel ∈ C) (hr : H → s.record i = some r)
      (hi : H → ∃ g, s.group = some g ∧ i ∈ g.staging) : Acts H C s ((s.unstage i).freed i r b)
  | close (s : State) (h : H → ∀ g, s.group = some g → g.staging = []) : Acts H C s { s with group := none }

theorem freed_works (s : State) (i : SlotNo) (r : Record) (b : EndedBody) : s.Works (s.freed i r b) := by
  rw [← freeWith_eq_freed]; exact freeWith_works s i r b

theorem acts_works {H : Prop} {C : List Channel} {s t : State} (h : s.Acts H C t) : s.Works t := by
  induction h with
  | refl s => exact .refl s
  | trans _ _ h k => exact h.trans k
  | engine s ch f _ => exact modEngine_works s ch f
  | plan s ch f _ => exact modPlan_works s ch f
  | hand s b => exact .hand s b
  | drop b _ _ _ => exact (leavePlan_works _ _ _).trans (freed_works _ _ _ b)
  | finish b _ _ _ _ _ => exact (modEngine_works _ _ _).trans (freed_works _ _ _ b)
  | start _ _ _ => exact (leavePlan_works _ _ _).trans (startAction_works _ _ _ _)
  | wait _ _ => exact setRecord_works _ _ _
  | unlist s i _ => exact unstage_works s i
  | unstage b _ _ _ => exact (unstage_works _ _).trans (freed_works _ _ _ b)
  | close s _ => exact .work rfl

/-! ### The places are kept -/

theorem modPlan_held {s : State} (h : s.Held) (ch : Channel) {f : Plan → Plan} (hf : (f (s.plan ch)).records = (s.plan ch).records) :
    (s.modPlan ch f).Held := by
  refine h.congr rfl rfl (fun c => ?_) rfl fun c => .refl _
  rw [modPlan_plan]
  split
  · next hc => rw [hf, hc]
  · rfl

theorem modEngine_held {s : State} (h : s.Held) (ch : Channel) {f : Engine → Engine}
    (hf : (s.engine ch).Continues (f (s.engine ch))) : (s.modEngine ch f).Held := by
  refine h.congr rfl rfl (fun c => rfl) rfl fun c => ?_
  rw [modEngine_engine]
  split
  · next hc => rw [hc]; exact hf
  · exact .refl _

theorem addsReports_held {s t : State} (h : s.Held) (k : s.AddsReports t) : t.Held := by
  rw [k.same]
  exact h.congr rfl rfl (fun c => rfl) rfl fun c => .refl _

/-- A start puts the head into the engine. -/
theorem startAction_held {s : State} (h : s.Held) {ch : Channel} {i : SlotNo} {r : Record} (hr : s.record i = some r)
    (hi : i ∈ (s.plan ch).records) (hn : (s.engine ch).current = none) : ((s.leavePlan ch i).startAction ch i r).Held := by
  have hch := ((h.mem_plan hr ch).mp hi).1
  refine State.HeldBut.enterEngine (r := { r with state := .current }) (h.leavePlan hi) hch rfl hn
    (f := fun e => e.started i (progressAtStart (s.engine ch).restLevel s.deviceTime r))
    (run := { slot := i, progress := progressAtStart (s.engine ch).restLevel s.deviceTime r }) rfl rfl ?_
  dsimp only [Engine.started]
  split <;> rfl

/-- A head that becomes WAITING stays in its plan. -/
theorem waits_held {s : State} (h : s.Held) {i : SlotNo} {r : Record} (hr : s.record i = some r) (hst : r.state = .planned) :
    (s.setRecord i { r with state := .waiting }).Held := by
  have hrec : ∀ j, j ≠ i → (s.setRecord i { r with state := .waiting }).record j = s.record j := fun j hj => by
    rw [setRecord_record, if_neg hj]
  have hself := setRecord_record_self s i { r with state := .waiting }
  refine ⟨h.freeOnce, fun j => ?_, fun j => ?_, h.planOnce, fun c j => ?_, h.stagedOnce, fun j => ?_, fun c j => ?_, h.busy,
    fun c hoff j r' hr' => ?_⟩
  · by_cases hj : j = i
    · subst hj; rw [hself]; simp [h.not_free hr]
    · rw [hrec j hj]; exact h.free j
  · rw [setRecord_slot]
    split
    · exact h.generation i
    · exact h.generation j
  · by_cases hj : j = i
    · subst hj; rw [hself, setRecord_plan, h.mem_plan hr]; simp [hst]
    · rw [hrec j hj]; exact h.planned c j
  · by_cases hj : j = i
    · subst hj; rw [hself, setRecord_group, h.mem_staging hr]; simp [hst]
    · rw [hrec j hj]; exact h.staged j
  · by_cases hj : j = i
    · subst hj; rw [hself, setRecord_engine, h.runs hr]; simp [hst]
    · rw [hrec j hj]; exact h.current c j
  · by_cases hj : j = i
    · subst hj
      rw [hself] at hr'
      cases hr'
      exact h.off c hoff j r hr
    · rw [hrec j hj] at hr'; exact h.off c hoff j r' hr'

theorem unstage_id {s : State} {i : SlotNo} (h : ∀ g, s.group = some g → i ∉ g.staging) : s.unstage i = s := by
  unfold State.unstage
  cases hg : s.group with
  | none => cases s; cases hg; rfl
  | some g =>
    have e : g.staging.filter (· ≠ i) = g.staging := List.filter_eq_self.mpr fun j hj => by
      simpa using fun e : j = i => h g hg (e ▸ hj)
    rw [Option.map_some, e]
    cases s; cases hg; rfl

theorem close_held {s : State} (h : s.Held) (hg : ∀ g, s.group = some g → g.staging = []) :
    State.Held { s with group := none } := by
  refine ⟨h.freeOnce, h.free, h.generation, h.planOnce, h.planned, nofun, fun i => ?_, h.current, h.busy, h.off⟩
  rw [show State.record { s with group := none } i = s.record i from rfl, ← h.staged]
  constructor
  · rintro ⟨g, h1, _⟩; cases h1
  · rintro ⟨g, h1, h2⟩; rw [hg g h1] at h2; cases h2

/-- All work on actions keeps every record in its place. -/
theorem acts_held {C : List Channel} {H : Prop} {s t : State} (h : s.Acts H C t) (hH : H) : s.Held → t.Held := by
  induction h with
  | refl s => exact id
  | trans _ _ h k => exact fun hs => k (h hs)
  | engine s ch f h => exact fun hs => modEngine_held hs ch (h hH)
  | plan s ch f h => exact fun hs => modPlan_held hs ch (h.kept hH)
  | hand s b => exact fun hs => addsReports_held hs (handOrdinary_addsReports s b)
  | drop b _ _ hi => exact fun hs => (hs.leavePlan (hi hH)).freed _ b
  | finish b _ _ hrun hf hs' =>
    intro hs
    refine (hs.leaveEngine hrun hf ?_ ?_).freed _ b
    · rcases hs' with e | e <;> rw [e] <;> rfl
    · rcases hs' with e | e <;> rw [e] <;> exact nofun
  | start hr hi hn => exact fun hs => startAction_held hs (hr hH) (hi hH) (hn hH)
  | wait hr h => exact fun hs => waits_held hs hr (h hH).2.1
  | unlist s i h => exact fun hs => (unstage_id (h hH)).symm ▸ hs
  | unstage b _ _ hi =>
    intro hs
    obtain ⟨g, hg, hm⟩ := hi hH
    exact (hs.leaveGroup hg hm).freed _ b
  | close s h => exact fun hs => close_held hs (h hH)

/-! ### Engines -/

section Work

variable {H : Prop} {C : List Channel} {ch : Channel}

theorem modProgress_continues (e : Engine) (f : Progress → Progress) :
    e.Continues { e with current := e.current.map fun run => { run with progress := f run.progress } } :=
  ⟨by cases e.current <;> rfl, rfl, id⟩

theorem modProgress_acts (s : State) (ch : Channel) (f : Progress → Progress) : s.Acts H C (s.modProgress ch f) :=
  .engine s ch _ fun _ => modProgress_continues _ f

/-- An engine change that touches neither the action nor the channel state. -/
theorem modEngine_acts (s : State) (ch : Channel) {f : Engine → Engine} (hc : (f (s.engine ch)).current = (s.engine ch).current)
    (hs : (f (s.engine ch)).state = (s.engine ch).state) : s.Acts H C (s.modEngine ch f) :=
  .engine s ch f fun _ => ⟨by rw [hc], by rw [hs], fun h => hs ▸ h⟩

theorem setChanState_acts {s : State} (hb : H → (s.engine ch).state.busy = true) {st : ChanState} (hst : st.busy = true) :
    s.Acts H C (s.setChanState ch st) :=
  .engine s ch _ fun hH => ⟨rfl, by rw [hb hH]; exact hst, fun h => by rw [show st = .off from h] at hst; cases hst⟩

@[simp] theorem modProgress_state (s : State) (ch : Channel) (f : Progress → Progress) :
    ((s.modProgress ch f).engine ch).state = (s.engine ch).state := by
  unfold State.modProgress; rw [modEngine_engine_self]

theorem enterActive_acts (s : State) (ch : Channel) (ph : Phase) (n : Nat) : s.Acts H C (s.enterActive ch ph n) :=
  (modProgress_acts s ch _).trans (modEngine_acts _ _ rfl rfl)

theorem enterRest_acts (s : State) (ch : Channel) (n : Nat) : s.Acts H C (s.enterRest ch n) :=
  (modProgress_acts s ch _).trans (modEngine_acts _ _ rfl rfl)

theorem handEnd_acts (s : State) (ch : Channel) : s.Acts H C (s.handEnd ch) :=
  .plan s ch _ ⟨List.Sublist.refl _, fun _ => rfl, fun _ h => h, le_refl _⟩

/-- The current action leaves its engine and is freed. -/
theorem freeCurrent_acts {s : State} (hC : ch ∈ C) (hh : H → s.Held) {run : Running} (hrun : (s.engine ch).current = some run)
    {f : Engine → Engine} (hf : (f (s.engine ch)).current = none)
    (hs : (f (s.engine ch)).state = .idle ∨ (f (s.engine ch)).state = .safed) (res : EndResult) :
    s.Acts H C ((s.modEngine ch f).freeCurrent res run) := by
  cases hr : s.record run.slot with
  | none =>
    have e : (s.modEngine ch f).freeCurrent res run = s.modEngine ch f := by
      unfold State.freeCurrent
      rw [modEngine_record, hr]
    rw [e]
    refine .engine s ch f fun hH => ?_
    obtain ⟨r, hr', _⟩ := (hh hH).current_record hrun
    rw [hr] at hr'; cases hr'
  | some r =>
    rw [freeCurrent_eq_freed (s := s.modEngine ch f) hr]
    exact .finish _ hC (fun _ => hr) hrun hf hs

theorem toRest_fields (e : Engine) : e.toRest.state = e.state ∧ e.toRest.current = e.current := by
  unfold Engine.toRest; split <;> exact ⟨rfl, rfl⟩

theorem endNaturally_acts {s : State} (hC : ch ∈ C) (hh : H → s.Held) (res : EndResult) : s.Acts H C (s.endNaturally ch res) := by
  unfold State.endNaturally
  split
  · exact .refl s
  · next run hrun => exact (freeCurrent_acts hC hh hrun rfl (.inl rfl) res).trans (handEnd_acts _ _)

theorem cancelCurrent_acts {s : State} (hC : ch ∈ C) (hh : H → s.Held) : s.Acts H C (s.cancelCurrent ch) := by
  unfold State.cancelCurrent
  split
  · exact .refl s
  · next run hrun => exact (freeCurrent_acts hC hh hrun rfl (.inl rfl) _).trans (handEnd_acts _ _)

theorem preemptCurrent_acts {s : State} (hC : ch ∈ C) (hh : H → s.Held) : s.Acts H C (s.preemptCurrent ch) := by
  unfold State.preemptCurrent
  split
  · exact .refl s
  · next run hrun => exact freeCurrent_acts hC hh hrun rfl (.inl rfl) _

/-! ### Heads -/

theorem leavePlan_eases (p : Plan) (i : SlotNo) (h : H → i ∉ p.records) :
    p.Eases H { p with records := p.records.filter (· ≠ i) } :=
  ⟨List.filter_sublist, fun hH => List.filter_eq_self.mpr fun j hj => by
    simpa using fun e : j = i => h hH (e ▸ hj), fun _ hl => hl, le_refl _⟩

theorem dropHead_acts {s : State} (hC : ch ∈ C) (hh : H → s.Held) {i : SlotNo} (hi : H → i ∈ (s.plan ch).records)
    (res : EndResult) : s.Acts H C (s.dropHead ch i res) := by
  unfold State.dropHead
  cases hr : s.record i with
  | none =>
    have e : (s.leavePlan ch i).freeUnstarted res i = s.leavePlan ch i := by
      unfold State.freeUnstarted
      rw [leavePlan_record, hr]
    rw [e]
    refine .plan s ch _ (leavePlan_eases _ i fun hH => ?_)
    obtain ⟨r, hr', _⟩ := (hh hH).plan_record (hi hH)
    rw [hr] at hr'; cases hr'
  | some r =>
    rw [freeUnstarted_eq_freed (s := s.leavePlan ch i) hr]
    exact .drop _ hC (fun _ => hr) hi

theorem startHead_acts {s : State} (hC : ch ∈ C) {i : SlotNo} {r : Record} (hr : H → s.record i = some r)
    (hi : H → i ∈ (s.plan ch).records) (hn : H → (s.engine ch).current = none) : s.Acts H C (s.startHead ch i r) := by
  unfold State.startHead
  split
  · unfold State.applySet
    rw [freeWith_eq_freed, ← freed_modEngine]
    exact (State.Acts.drop _ hC hr hi).trans (modEngine_acts _ _ rfl rfl)
  all_goals exact .start hr hi hn

/-- What the plan's list is once its head has left. -/
theorem leavePlan_records {s : State} {i : SlotNo} {l : List SlotNo} (hl : (s.plan ch).records = i :: l)
    (hn : (s.plan ch).records.Nodup) : ((s.leavePlan ch i).plan ch).records = l := by
  rw [hl] at hn
  unfold State.leavePlan
  rw [modPlan_plan_self]
  simpa only [hl] using filter_head hn

theorem freeUnstarted_plan (s : State) (res : EndResult) (i : SlotNo) (c : Channel) :
    (s.freeUnstarted res i).plan c = s.plan c := by
  cases hr : s.record i with
  | none => unfold State.freeUnstarted; rw [hr]
  | some r => rw [freeUnstarted_eq_freed hr, freed_plan]

theorem freeCurrent_plan (s : State) (res : EndResult) (run : Running) (c : Channel) :
    (s.freeCurrent res run).plan c = s.plan c := by
  cases hr : s.record run.slot with
  | none => unfold State.freeCurrent; rw [hr]
  | some r => rw [freeCurrent_eq_freed hr, freed_plan]

theorem freeCurrent_engine (s : State) (res : EndResult) (run : Running) (c : Channel) :
    (s.freeCurrent res run).engine c = s.engine c := by
  cases hr : s.record run.slot with
  | none => unfold State.freeCurrent; rw [hr]
  | some r => rw [freeCurrent_eq_freed hr, freed_engine]

theorem freeCurrent_record {s : State} {run : Running} {i : SlotNo} (h : i ≠ run.slot) (res : EndResult) :
    (s.freeCurrent res run).record i = s.record i := by
  cases hr : s.record run.slot with
  | none => unfold State.freeCurrent; rw [hr]
  | some r => rw [freeCurrent_eq_freed hr, freed_record_ne _ _ _ h]

theorem dropHead_plan (s : State) (ch : Channel) (i : SlotNo) (res : EndResult) (c : Channel) :
    (s.dropHead ch i res).plan c = (s.leavePlan ch i).plan c := freeUnstarted_plan _ _ _ _

theorem startHead_plan (s : State) (ch : Channel) (i : SlotNo) (r : Record) (c : Channel) :
    (s.startHead ch i r).plan c = (s.leavePlan ch i).plan c := by
  unfold State.startHead
  split
  · unfold State.applySet; rw [freeWith_eq_freed, freed_plan]; rfl
  all_goals rfl

theorem preemptCurrent_plan (s : State) (ch c : Channel) : (s.preemptCurrent ch).plan c = s.plan c := by
  unfold State.preemptCurrent
  split
  · rfl
  · rw [freeCurrent_plan]; rfl

/-- After a preemption the engine has no action, and a record that it did not run is as it was. -/
theorem preemptCurrent_current (s : State) (ch : Channel) : ((s.preemptCurrent ch).engine ch).current = none := by
  unfold State.preemptCurrent
  split
  · assumption
  · rw [freeCurrent_engine, modEngine_engine_self]; rfl

theorem preemptCurrent_record {s : State} (hh : s.Held) {i : SlotNo} (hi : i ∈ (s.plan ch).records) :
    (s.preemptCurrent ch).record i = s.record i := by
  unfold State.preemptCurrent
  split
  · rfl
  · next run hrun =>
    obtain ⟨r, hr, _, hst⟩ := hh.current_record hrun
    refine freeCurrent_record (fun e => ?_) _
    subst e
    have := ((hh.mem_plan hr ch).mp hi).2
    rw [hst] at this
    simp at this

/-- An IDLE engine has no action. -/
theorem State.Held.current_none {s : State} (hh : s.Held) (hs : (s.engine ch).state.busy = false) :
    (s.engine ch).current = none := by
  have := hh.busy ch
  rw [hs] at this
  simpa using this

theorem fate_start {s : State} {p : Policy} (h : s.fate ch p = .start) : (s.engine ch).state = .idle := by
  unfold State.fate at h
  split at h
  · cases h
  · cases he : (s.engine ch).state <;> simp only [he] at h
    all_goals first | rfl | (cases p <;> cases h)

theorem settleList_acts (hC : ch ∈ C) : ∀ (l : List SlotNo) (s : State), (H → s.Held) → (H → (s.plan ch).records = l) →
    s.Acts H C (settleList ch l s)
  | [], s, _, _ => .refl s
  | i :: l, s, hh, hl => by
    have hi : H → i ∈ (s.plan ch).records := fun hH => by rw [hl hH]; exact List.mem_cons_self
    have hleft : H → ((s.leavePlan ch i).plan ch).records = l := fun hH => leavePlan_records (hl hH) ((hh hH).planOnce ch)
    have hdrop : ∀ res, s.Acts H C (settleList ch l (s.dropHead ch i res)) := fun res =>
      have h1 := dropHead_acts hC hh hi res
      h1.trans (settleList_acts hC l _ (fun hH => acts_held h1 hH (hh hH)) fun hH => by rw [dropHead_plan]; exact hleft hH)
    unfold settleList
    split
    · exact .refl s
    · next r hr =>
      split
      · next hdue =>
        split
        · exact hdrop .missed
        · next hfate =>
          have h1 : s.Acts H C (s.startHead ch i r) := startHead_acts hC (fun _ => hr) hi fun hH =>
            (hh hH).current_none (by rw [fate_start hfate]; rfl)
          exact h1.trans (settleList_acts hC l _ (fun hH => acts_held h1 hH (hh hH)) fun hH => by
            rw [startHead_plan]; exact hleft hH)
        · have h0 : s.Acts H C (s.preemptCurrent ch) := preemptCurrent_acts hC hh
          have hl' : H → ((s.preemptCurrent ch).plan ch).records = i :: l := fun hH => by rw [preemptCurrent_plan, hl hH]
          have h1 : (s.preemptCurrent ch).Acts H C ((s.preemptCurrent ch).startHead ch i r) := startHead_acts hC
            (fun hH => by rw [preemptCurrent_record (hh hH) (hi hH), hr])
            (fun hH => by rw [hl' hH]; exact List.mem_cons_self) fun _ => preemptCurrent_current s ch
          have hh0 : H → (s.preemptCurrent ch).Held := fun hH => acts_held h0 hH (hh hH)
          exact (h0.trans h1).trans (settleList_acts hC l _ (fun hH => acts_held h1 hH (hh0 hH)) fun hH => by
            rw [startHead_plan]; exact leavePlan_records (hl' hH) ((hh0 hH).planOnce ch))
        · exact hdrop .skipped
        · unfold State.setRecState
          rw [hr]
          exact .wait (ch := ch) hr fun hH => ⟨⟨l, hl hH⟩, hdue⟩
        · exact .refl s
      · exact .refl s

theorem checkHead_acts {s : State} (hC : ch ∈ C) (hh : H → s.Held) : s.Acts H C (s.checkHead ch) :=
  settleList_acts hC _ s hh fun _ => rfl

theorem checkHeadAtEnd_acts {s : State} (hC : ch ∈ C) (hh : H → s.Held) : s.Acts H C (s.checkHeadAtEnd ch) := by
  unfold State.checkHeadAtEnd
  split
  · exact .refl s
  · next i l hl =>
    have hi : H → i ∈ (s.plan ch).records := fun _ => by rw [hl]; exact List.mem_cons_self
    split
    · exact .refl s
    · next r hr =>
      split
      · split
        · have h1 := dropHead_acts hC hh hi .missed
          exact h1.trans (checkHead_acts hC fun hH => acts_held h1 hH (hh hH))
        · next hfate =>
          have h1 : s.Acts H C (s.startHead ch i r) := startHead_acts hC (fun _ => hr) hi fun hH =>
            (hh hH).current_none (by rw [fate_start hfate]; rfl)
          exact h1.trans (checkHead_acts hC fun hH => acts_held h1 hH (hh hH))
        all_goals exact .refl s
      · exact checkHead_acts hC hh

theorem missAfterSafed_acts {s : State} (hC : ch ∈ C) (hh : H → s.Held) : s.Acts H C (s.missAfterSafed ch) := by
  unfold State.missAfterSafed
  split
  · exact checkHeadAtEnd_acts hC hh
  · exact .refl s

theorem missDueList_acts (hC : ch ∈ C) : ∀ (l : List SlotNo) (s : State), (H → s.Held) → (H → (s.plan ch).records = l) →
    s.Acts H C (missDueList ch l s)
  | [], s, _, _ => .refl s
  | i :: l, s, hh, hl => by
    have hi : H → i ∈ (s.plan ch).records := fun hH => by rw [hl hH]; exact List.mem_cons_self
    unfold missDueList
    split
    · exact .refl s
    · split
      · have h1 := dropHead_acts hC hh hi .missed
        exact h1.trans (missDueList_acts hC l _ (fun hH => acts_held h1 hH (hh hH)) fun hH => by
          rw [dropHead_plan]; exact leavePlan_records (hl hH) ((hh hH).planOnce ch))
      · exact .refl s

/-- Heads that leave one after the other. -/
theorem dropFold_acts (hC : ch ∈ C) (res : EndResult) : ∀ (front rest : List SlotNo) (s : State), (H → s.Held) →
    (H → (s.plan ch).records = front ++ rest) → s.Acts H C (front.foldl (fun s i => s.dropHead ch i res) s)
  | [], _, s, _, _ => .refl s
  | i :: front, rest, s, hh, hl => by
    have h1 := dropHead_acts hC hh (fun hH => by rw [hl hH]; exact List.mem_cons_self) res
    exact h1.trans (dropFold_acts hC res front rest _ (fun hH => acts_held h1 hH (hh hH)) fun hH => by
      rw [dropHead_plan]; exact leavePlan_records (hl hH) ((hh hH).planOnce ch))

theorem skipSpan_acts {s : State} (hC : ch ∈ C) (hh : H → s.Held) (t1 : Time) : s.Acts H C (s.skipSpan ch t1) := by
  have hspan : ∃ rest, (s.plan ch).records = (s.span ch t1).dropLast ++ rest := by
    obtain ⟨rest, h⟩ := (List.dropLast_prefix (s.span ch t1)).trans (List.takeWhile_prefix _)
    exact ⟨rest, h.symm⟩
  obtain ⟨rest, hspan⟩ := hspan
  unfold State.skipSpan
  split
  · exact .refl s
  · have h1 := dropFold_acts hC .missed (s.span ch t1).dropLast rest s hh fun _ => hspan
    exact h1.trans (checkHead_acts hC fun hH => acts_held h1 hH (hh hH))

/-! ### Cancelling -/

theorem cancelPlanned_acts {s : State} (hC : ch ∈ C) (hh : H → s.Held) {i : SlotNo} (hi : H → i ∈ (s.plan ch).records) :
    s.Acts H C (s.cancelPlanned ch i) := by
  have h1 := dropHead_acts hC hh hi .cancelled
  unfold State.cancelPlanned
  dsimp only
  split
  · exact h1.trans (checkHead_acts hC fun hH => acts_held h1 hH (hh hH))
  · exact h1

theorem freeUnstarted_modPlan (s : State) (ch : Channel) (f : Plan → Plan) (res : EndResult) (i : SlotNo) :
    (s.modPlan ch f).freeUnstarted res i = (s.freeUnstarted res i).modPlan ch f := by
  cases hr : s.record i with
  | none =>
    unfold State.freeUnstarted
    rw [modPlan_record, hr]
  | some r =>
    rw [freeUnstarted_eq_freed hr, freeUnstarted_eq_freed (s := s.modPlan ch f) hr, freed_modPlan]
    rfl

theorem modPlan_congr (s : State) {ch : Channel} {f g : Plan → Plan} (h : f (s.plan ch) = g (s.plan ch)) :
    s.modPlan ch f = s.modPlan ch g := by
  unfold State.modPlan; rw [h]

theorem modPlan_id (s : State) {ch : Channel} {f : Plan → Plan} (h : f (s.plan ch) = s.plan ch) : s.modPlan ch f = s := by
  unfold State.modPlan
  rw [h]
  unfold State.plan
  rw [setAt_getAt]

theorem modPlan_modPlan (s : State) (ch : Channel) (f g : Plan → Plan) :
    (s.modPlan ch f).modPlan ch g = s.modPlan ch fun p => g (f p) := by
  simp [State.modPlan, State.plan, getAt_setAt_self]

/-- Heads that leave one after the other, told as one change of the plan and one freeing of all. -/
theorem dropFold_filter (ch : Channel) (res : EndResult) : ∀ (l : List SlotNo) (s : State),
    l.foldl (fun s i => s.dropHead ch i res) s
      = (s.modPlan ch fun p => { p with records := p.records.filter (· ∉ l) }).freeAll res l
  | [], s => by
    rw [modPlan_id s (by simp)]; rfl
  | i :: l, s => by
    rw [List.foldl_cons, dropFold_filter ch res l]
    show (((s.leavePlan ch i).freeUnstarted res i).modPlan ch _).freeAll res l = _
    rw [← freeUnstarted_modPlan]
    unfold State.leavePlan
    rw [modPlan_modPlan]
    show _ = ((s.modPlan ch _).freeUnstarted res i).freeAll res l
    congr 3
    funext p
    simp only [List.filter_filter, List.mem_cons, not_or]
    congr 2
    funext j
    simp [Bool.and_comm]

theorem emptyPlan_eq (s : State) (ch : Channel) :
    s.emptyPlan ch = (s.plan ch).records.foldl (fun s i => s.dropHead ch i .cancelled) s := by
  rw [dropFold_filter]
  unfold State.emptyPlan
  rw [modPlan_congr s]
  simp

theorem emptyPlan_acts {s : State} (hC : ch ∈ C) (hh : H → s.Held) : s.Acts H C (s.emptyPlan ch) := by
  rw [emptyPlan_eq]
  exact dropFold_acts hC .cancelled _ [] s hh fun _ => (List.append_nil _).symm

theorem cancelAll_acts {s : State} (hC : ch ∈ C) (hh : H → s.Held) (current : Bool) : s.Acts H C (s.cancelAll ch current) := by
  have h1 := emptyPlan_acts hC hh
  unfold State.cancelAll
  split
  · exact h1.trans (cancelCurrent_acts hC fun hH => acts_held h1 hH (hh hH))
  · exact h1

/-- The cancel of a record is work at the record's channel. -/
theorem cancelRecord_acts {s : State} {i : SlotNo} {r : Record} (hC : r.channel ∈ C) (hh : H → s.Held)
    (hr : s.record i = some r) : s.Acts H C (s.cancelRecord i r) := by
  have hplan : r.state = .planned ∨ r.state = .waiting → H → i ∈ (s.plan r.channel).records := fun hst hH =>
    ((hh hH).mem_plan hr _).mpr ⟨rfl, hst⟩
  unfold State.cancelRecord
  split
  · next hst =>
    rw [freeUnstarted_eq_freed (s := s.unstage i) hr]
    exact .unstage _ (fun _ => hC) (fun _ => hr) fun hH => ((hh hH).mem_staging hr).mpr hst
  · next hst => exact cancelPlanned_acts hC hh (hplan (.inl hst))
  · next hst => exact cancelPlanned_acts hC hh (hplan (.inr hst))
  · exact cancelCurrent_acts hC hh

end Work

end Sys2Proof.Machine
end

section
/-!
PROOF. The events of the plans, the engines and the group as work on actions, each piece of work of one channel, or of the records
of one list, followed by the IDLE_WAIT watch.
-/
namespace Sys2Proof.Machine

/-! ### Work with the watch after it -/

/-- The work of one event or of several, one after the other: pieces of work that each free records of some channels, and after each
the watch for these channels (R125). Where a piece frees a record, it frees one of each of its channels. -/
inductive State.Blocks (H : Prop) : State → State → Prop
  | refl (s : State) : Blocks H s s
  | trans {s t u : State} (h : Blocks H s t) (k : Blocks H t u) : Blocks H s u
  | watched {C : List Channel} {m : Byte} {s t : State} (hn : Names m C) (h : s.Acts H C t)
      (hf : H → s.freeList.length < t.freeList.length →
        ∀ c ∈ C, ∃ i r, s.record i = some r ∧ r.channel = c ∧ i ∈ t.freeList) : Blocks H s (watch m s t)

theorem blocks_works {H : Prop} {s t : State} (h : s.Blocks H t) : s.Works t := by
  induction h with
  | refl s => exact .refl s
  | trans _ _ h k => exact h.trans k
  | watched _ h _ => exact (acts_works h).trans (watch_works _ _ _)

/-- Work with its watches keeps every record in its place. -/
theorem blocks_held {H : Prop} {s t : State} (h : s.Blocks H t) (hH : H) : s.Held → t.Held := by
  induction h with
  | refl s => exact id
  | trans _ _ h k => exact fun hs => k (h hs)
  | watched _ h _ => exact fun hs => addsReports_held (acts_held h hH hs) (watch_addsReports _ _ _)

/-! ### What work does to the pool -/

/-- The records of the pool in `t` are records of `s`, which may have gone on to another state; the ones that are gone are of
channels in `C`, and their slots are on the free list, which has grown by them. -/
structure State.Shrinks (C : List Channel) (s t : State) : Prop where
  records : ∀ i r', t.record i = some r' → ∃ r, s.record i = some r ∧ r.channel = r'.channel
  gone    : ∀ i r, s.record i = some r → t.record i = none → r.channel ∈ C
  grown   : s.freeList <+: t.freeList

theorem State.Shrinks.refl (C : List Channel) (s : State) : s.Shrinks C s :=
  ⟨fun _ r h => ⟨r, h, rfl⟩, fun _ _ h h' => (by rw [h] at h'; cases h'), List.prefix_rfl⟩

theorem State.Shrinks.trans {C : List Channel} {s t u : State} (h : s.Shrinks C t) (k : t.Shrinks C u) : s.Shrinks C u := by
  refine ⟨fun i r' hr' => ?_, fun i r hr hn => ?_, h.grown.trans k.grown⟩
  · obtain ⟨q, hq, e⟩ := k.records i r' hr'
    obtain ⟨r, hr, e'⟩ := h.records i q hq
    exact ⟨r, hr, e'.trans e⟩
  · cases ht : t.record i with
    | none => exact h.gone i r hr ht
    | some q =>
      obtain ⟨r0, hr0, e⟩ := h.records i q ht
      rw [hr] at hr0
      cases hr0
      exact e ▸ k.gone i q ht hn

theorem State.Shrinks.of_same {C : List Channel} {s t : State} (hs : t.slots = s.slots) (hf : t.freeList = s.freeList) :
    s.Shrinks C t := by
  have e : ∀ i, t.record i = s.record i := fun i => by simp only [State.record, State.slot, hs]
  exact ⟨fun i r h => ⟨r, e i ▸ h, rfl⟩, fun i r h h' => (by rw [e, h] at h'; cases h'), by rw [hf]⟩

/-- The freeing of one record. -/
theorem freed_shrinks {C : List Channel} {s : State} {i : SlotNo} {r : Record} (hr : s.record i = some r) (hC : r.channel ∈ C)
    (b : EndedBody) : s.Shrinks C (s.freed i r b) := by
  refine ⟨fun j r' h => ?_, fun j r' h h' => ?_, by rw [freed_freeList]; exact List.prefix_append _ _⟩
  · by_cases hj : j = i
    · subst hj; simp at h
    · rw [freed_record_ne _ _ _ hj] at h; exact ⟨r', h, rfl⟩
  · by_cases hj : j = i
    · subst hj
      rw [hr] at h
      cases h
      exact hC
    · rw [freed_record_ne _ _ _ hj, h] at h'; cases h'

/-- A record that goes on to another state in its slot. -/
theorem setRecord_shrinks {C : List Channel} {s : State} {i : SlotNo} {r q : Record} (hr : s.record i = some r)
    (hq : q.channel = r.channel) : s.Shrinks C (s.setRecord i q) := by
  refine ⟨fun j r' h => ?_, fun j r' h h' => ?_, List.prefix_rfl⟩
  · rw [setRecord_record] at h
    split at h
    · next hj =>
      subst hj
      cases h
      exact ⟨r, hr, hq.symm⟩
    · exact ⟨r', h, rfl⟩
  · rw [setRecord_record] at h'
    split at h'
    · cases h'
    · rw [h] at h'; cases h'

theorem addsReports_shrinks {C : List Channel} {s t : State} (h : s.AddsReports t) : s.Shrinks C t := by
  refine .of_same ?_ ?_ <;> rw [h.same]

/-- Work on actions allocates nothing and frees records of its channels only. -/
theorem acts_shrinks {C : List Channel} {H : Prop} {s t : State} (h : s.Acts H C t) (hH : H) : s.Held → s.Shrinks C t := by
  induction h with
  | refl s => exact fun _ => .refl C s
  | trans h _ ih ik => exact fun hs => (ih hs).trans (ik (acts_held h hH hs))
  | engine s ch f _ => exact fun _ => .of_same rfl rfl
  | plan s ch f _ => exact fun _ => .of_same rfl rfl
  | hand s b => exact fun _ => addsReports_shrinks (handOrdinary_addsReports s b)
  | @drop s ch i r b hc hr hi =>
    intro hs
    have hm : r.channel ∈ C := ((hs.mem_plan (hr hH) ch).mp (hi hH)).1 ▸ hc
    exact State.Shrinks.trans (t := s.leavePlan ch i) (.of_same rfl rfl) (freed_shrinks (s := s.leavePlan ch i) (hr hH) hm b)
  | @finish s ch run r f b hc hr hrun _ _ =>
    intro hs
    have hm : r.channel ∈ C := ((hs.runs (hr hH) ch).mp ⟨run, hrun, rfl⟩).1 ▸ hc
    exact State.Shrinks.trans (t := s.modEngine ch f) (.of_same rfl rfl) (freed_shrinks (s := s.modEngine ch f) (hr hH) hm b)
  | @start s ch i r hr _ _ =>
    intro _
    exact State.Shrinks.trans (setRecord_shrinks (q := { r with state := .current }) (hr hH) rfl) (.of_same rfl rfl)
  | wait hr _ => exact fun _ => setRecord_shrinks hr rfl
  | unlist s i _ => exact fun _ => .of_same rfl rfl
  | @unstage s i r b hc hr _ =>
    exact fun _ => State.Shrinks.trans (t := s.unstage i) (.of_same rfl rfl) (freed_shrinks (s := s.unstage i) (hr hH) (hc hH) b)
  | close s _ => exact fun _ => .of_same rfl rfl

/-- A slot that has come to the free list held a record before. -/
theorem exists_freed {C : List Channel} {s t : State} (hs : s.Held) (ht : t.Held) (h : s.Shrinks C t)
    (hl : s.freeList.length < t.freeList.length) : ∃ i r, s.record i = some r ∧ r.channel ∈ C ∧ i ∈ t.freeList := by
  obtain ⟨l, hl'⟩ := h.grown
  cases l with
  | nil => simp [← hl'] at hl
  | cons i l =>
    have hi : i ∈ t.freeList := by rw [← hl']; simp
    have hni : i ∉ s.freeList := by
      have hnd := ht.freeOnce
      rw [← hl', List.nodup_append] at hnd
      exact fun hm => hnd.2.2 i hm i List.mem_cons_self rfl
    cases hr : s.record i with
    | none => exact absurd ((hs.free i).mpr hr) hni
    | some r => exact ⟨i, r, hr, h.gone i r hr ((ht.free i).mp hi), hi⟩

section Work

variable {H : Prop} {ch : Channel}

/-- A piece of work of one channel with the watch after it. -/
theorem blocks_of_acts {s t : State} (h : s.Acts H [ch] t) (hh : H → s.Held) : s.Blocks H (watch (maskOf ch) s t) := by
  refine .watched (names_maskOf ch) h fun hH hl c hc => ?_
  obtain ⟨i, r, hr, hm, hi⟩ := exists_freed (hh hH) (acts_held h hH (hh hH)) (acts_shrinks h hH (hh hH)) hl
  exact ⟨i, r, hr, (List.mem_singleton.mp hm).trans (List.mem_singleton.mp hc).symm, hi⟩

/-- A piece of work that frees nothing needs no watch. -/
theorem blocks_of_idle {s t : State} (h : s.Acts H [] t) (hl : t.freeList = s.freeList) : s.Blocks H t := by
  have hw : watch 0 s t = t := watch_none 0 (by rw [hl]; exact lt_irrefl _)
  have hn : Names 0 [] := fun c => by simp
  exact hw ▸ State.Blocks.watched hn h fun _ _ c hc => by cases hc

/-! ### Events of the plans -/

theorem dueAtPlan_blocks {s : State} (hh : H → s.Held) (ch : Channel) : s.Blocks H (s.dueAtPlan ch) :=
  blocks_of_acts (checkHead_acts (List.mem_singleton_self ch) hh) hh

theorem takeEnd_acts {s : State} (hh : H → s.Held) (ch : Channel) : s.Acts H [ch] (s.takeEnd ch) := by
  unfold State.takeEnd
  split
  · have h1 : s.Acts H [ch] (s.modPlan ch fun p => { p with endHanded := false }) :=
      .plan s ch _ ⟨List.Sublist.refl _, fun _ => rfl, fun _ hl => hl, le_refl _⟩
    exact h1.trans (checkHeadAtEnd_acts (List.mem_singleton_self ch) fun hH => acts_held h1 hH (hh hH))
  · exact .refl s

theorem takeLoad_acts {s : State} (hh : H → s.Held) (ch : Channel) : s.Acts H [ch] (s.takeLoad ch) := by
  unfold State.takeLoad
  split
  · exact .refl s
  · next l t1 rest hl =>
    have hmem : ∀ x ∈ rest, x ∈ (s.plan ch).loads := fun x hx =>
      (List.dropWhile_suffix _).subset (show x ∈ s.openLoads ch by rw [hl]; exact List.mem_cons_of_mem _ hx)
    have h1 : s.Acts H [ch] (s.modPlan ch fun p => { p with loads := rest }) :=
      .plan s ch _ ⟨List.Sublist.refl _, fun _ => rfl, hmem, le_refl _⟩
    exact h1.trans (skipSpan_acts (List.mem_singleton_self ch) (fun hH => acts_held h1 hH (hh hH)) t1)

theorem dueBeforeLoad_blocks {s : State} (hh : H → s.Held) (ch : Channel) : s.Blocks H (s.dueBeforeLoad ch) := by
  unfold State.dueBeforeLoad
  split
  · exact .refl s
  · exact dueAtPlan_blocks hh ch

theorem loadAtPlan_blocks {s : State} (hh : H → s.Held) (ch : Channel) : s.Blocks H (s.loadAtPlan ch) := by
  have h1 := dueBeforeLoad_blocks hh ch
  have hh1 : H → (s.dueBeforeLoad ch).Held := fun hH => blocks_held h1 hH (hh hH)
  exact h1.trans (blocks_of_acts (takeLoad_acts hh1 ch) hh1)

theorem takeSettingAtPlan_acts {s : State} (hh : H → s.Held) (ch : Channel) : s.Acts H [ch] (s.takeSettingAtPlan ch) := by
  unfold State.takeSettingAtPlan
  split
  · have h1 : s.Acts H [ch] (s.modPlan ch fun p => { p with settings := p.settings - 1 }) :=
      .plan s ch _ ⟨List.Sublist.refl _, fun _ => rfl, fun _ hl => hl, Nat.sub_le _ _⟩
    exact h1.trans (missDueList_acts (List.mem_singleton_self ch) _ _ (fun hH => acts_held h1 hH (hh hH)) fun _ => by
      rw [modPlan_plan_self])
  · exact .refl s

theorem settingAtPlan_blocks {s : State} (hh : H → s.Held) (ch : Channel) : s.Blocks H (s.settingAtPlan ch) :=
  blocks_of_acts (takeSettingAtPlan_acts hh ch) hh

theorem takeOpenLoads_blocks (ch : Channel) : ∀ (n : Nat) {s : State}, (H → s.Held) → s.Blocks H (takeOpenLoads ch n s)
  | 0, _, _ => .refl _
  | n + 1, s, hh => by
    unfold takeOpenLoads
    split
    · exact .refl s
    · have h1 := loadAtPlan_blocks hh ch
      exact h1.trans (takeOpenLoads_blocks ch n fun hH => blocks_held h1 hH (hh hH))

theorem takeSettings_blocks (ch : Channel) : ∀ (n : Nat) {s : State}, (H → s.Held) → s.Blocks H (takeSettings ch n s)
  | 0, _, _ => .refl _
  | n + 1, _, hh =>
    have h1 := settingAtPlan_blocks hh ch
    h1.trans (takeSettings_blocks ch n fun hH => blocks_held h1 hH (hh hH))

theorem takePassed_blocks {s : State} (hh : H → s.Held) (ch : Channel) : s.Blocks H (s.takePassed ch) := by
  unfold State.takePassed
  split
  · exact dueAtPlan_blocks hh ch
  · exact .refl s

theorem settlePlan_blocks {s : State} (hh : H → s.Held) (ch : Channel) : s.Blocks H (s.settlePlan ch) := by
  have h1 := takeOpenLoads_blocks ch (s.plan ch).loads.length hh
  have hh1 : H → (takeOpenLoads ch (s.plan ch).loads.length s).Held := fun hH => blocks_held h1 hH (hh hH)
  have h2 := takeSettings_blocks ch ((takeOpenLoads ch (s.plan ch).loads.length s).plan ch).settings hh1
  exact (h1.trans h2).trans (takePassed_blocks (fun hH => blocks_held h2 hH (hh1 hH)) ch)

theorem settlePlans_blocks {s : State} (hh : H → s.Held) : s.Blocks H s.settlePlans := by
  unfold State.settlePlans
  generalize allChannels = l
  induction l generalizing s with
  | nil => exact .refl s
  | cons c l ih =>
    have h1 := settlePlan_blocks hh c
    exact h1.trans (ih fun hH => blocks_held h1 hH (hh hH))

/-! ### Events of the engines -/

theorem running_some {s : State} {run : Running} {r : Record} (h : s.running ch = some (run, r)) :
    (s.engine ch).current = some run ∧ s.record run.slot = some r := by
  unfold State.running at h
  cases hc : (s.engine ch).current with
  | none => rw [hc] at h; cases h
  | some run' =>
    simp only [hc] at h
    cases hr : s.record run'.slot with
    | none => rw [hr] at h; cases h
    | some r' =>
      rw [hr] at h
      cases h
      exact ⟨rfl, hr⟩

/-- The engine of a running action is busy. -/
theorem State.Held.busy_of_running {s : State} (hh : s.Held) {run : Running} {r : Record}
    (h : s.running ch = some (run, r)) : (s.engine ch).state.busy = true := by
  rw [← hh.busy, (running_some h).1]; rfl



variable {C : List Channel}

theorem takeWindow_acts (s : State) (ch : Channel) : s.Acts H C (s.takeWindow ch) := modProgress_acts s ch _

theorem pulseExpiry_acts {s : State} (hC : ch ∈ C) (hh : H → s.Held) : s.Acts H C (s.pulseExpiry ch) := by
  unfold State.pulseExpiry
  split
  · split
    · exact endNaturally_acts hC hh _
    · exact .refl s
  · exact .refl s

theorem trainExpiry_acts {s : State} (hC : ch ∈ C) (hh : H → s.Held) : s.Acts H C (s.trainExpiry ch) := by
  unfold State.trainExpiry
  split
  · split
    · split
      · exact enterRest_acts _ _ _
      · split
        · exact endNaturally_acts hC hh _
        · exact enterActive_acts _ _ _ _
      all_goals exact .refl s
    · exact .refl s
  · exact .refl s

theorem squareExpiry_acts (s : State) (ch : Channel) : s.Acts H C (s.squareExpiry ch) := by
  unfold State.squareExpiry
  split
  · split
    · split
      · exact enterRest_acts _ _ _
      · exact enterActive_acts _ _ _ _
      all_goals exact .refl s
    · exact .refl s
  · exact .refl s

theorem delayExpiry_acts (s : State) (ch : Channel) : s.Acts H C (s.delayExpiry ch) := by
  unfold State.delayExpiry
  split
  · split
    · exact enterActive_acts _ _ _ _
    · exact .refl s
  · exact .refl s

theorem beginFiring_acts {s : State} (hb : H → (s.engine ch).state.busy = true) (w d : Nat) :
    s.Acts H C (s.beginFiring ch w d) := by
  have h1 : s.Acts H C ((s.modProgress ch fun p => { p with edges := satInc p.edges }).setChanState ch .firing) :=
    (modProgress_acts s ch _).trans (setChanState_acts (fun hH => by rw [modProgress_state]; exact hb hH) rfl)
  unfold State.beginFiring
  dsimp only
  split
  · exact h1.trans (enterActive_acts _ _ _ _)
  · exact h1.trans (modProgress_acts _ _ _)

theorem dropHeldEdge_acts (s : State) (ch : Channel) : s.Acts H C (s.dropHeldEdge ch) := by
  unfold State.dropHeldEdge
  split
  · exact (modProgress_acts s ch _).trans (modEngine_acts _ _ rfl rfl)
  · exact .refl s

theorem afterFiring_acts {s : State} (hC : ch ∈ C) (hh : H → s.Held) (hb : H → (s.engine ch).state.busy = true)
    (w n d k : Nat) (x : Bool) : s.Acts H C (s.afterFiring ch w n d k x) := by
  have hdrop : s.Acts H C (s.dropHeldEdge ch) := dropHeldEdge_acts s ch
  have hhd : H → (s.dropHeldEdge ch).Held := fun hH => acts_held hdrop hH (hh hH)
  unfold State.afterFiring
  split
  · exact hdrop.trans (endNaturally_acts hC hhd _)
  · split
    · exact hdrop.trans (endNaturally_acts hC hhd _)
    · split
      · exact (modEngine_acts s ch rfl rfl).trans (beginFiring_acts (fun hH => by
          rw [modEngine_engine_self]; exact hb hH) w d)
      · exact (modProgress_acts s ch _).trans (setChanState_acts (fun hH => by rw [modProgress_state]; exact hb hH) rfl)

theorem pulseEnd_acts {s : State} (hC : ch ∈ C) (hh : H → s.Held) : s.Acts H C (s.pulseEnd ch) := by
  unfold State.pulseEnd
  split
  · next hrun =>
    split
    · have h1 : s.Acts H C (s.completeFiring ch) := (modProgress_acts s ch _).trans (modEngine_acts _ _ rfl rfl)
      refine h1.trans (afterFiring_acts hC (fun hH => acts_held h1 hH (hh hH)) (fun hH => ?_) _ _ _ _ _)
      unfold State.completeFiring
      rw [modEngine_engine_self]
      exact (congrArg _ (modProgress_state s ch _)).trans ((hh hH).busy_of_running hrun)
    · exact .refl s
  · exact .refl s

/-- The end of a window in LISTEN, and its expiry in another phase. -/
theorem windowTaken_acts {s : State} (hC : ch ∈ C) (hh : H → s.Held) (res : EndResult) :
    s.Acts H C ((s.takeWindow ch).endNaturally ch res) :=
  have h1 : s.Acts H C (s.takeWindow ch) := takeWindow_acts s ch
  h1.trans (endNaturally_acts hC (fun hH => acts_held h1 hH (hh hH)) _)

theorem armedWindow_acts {s : State} (hC : ch ∈ C) (hh : H → s.Held) : s.Acts H C (s.armedWindow ch) := by
  unfold State.armedWindow
  split
  · split
    · split
      · exact windowTaken_acts hC hh _
      · exact takeWindow_acts s ch
    · exact .refl s
  · exact .refl s

theorem countWindow_acts {s : State} (hC : ch ∈ C) (hh : H → s.Held) : s.Acts H C (s.countWindow ch) := by
  unfold State.countWindow
  split
  · split
    · split
      · exact windowTaken_acts hC hh _
      · exact takeWindow_acts s ch
    · exact .refl s
  · exact .refl s

theorem strobeExpiry_acts {s : State} (hC : ch ∈ C) (hh : H → s.Held) : s.Acts H C (s.strobeExpiry ch) := by
  unfold State.strobeExpiry
  split
  · split
    · exact endNaturally_acts hC hh _
    · exact .refl s
  · exact .refl s

theorem retrigger_acts (s : State) (ch : Channel) (w : Nat) (ph : Phase) (m : RetrigMode) :
    s.Acts H C (s.retrigger ch w ph m) := by
  unfold State.retrigger
  split
  · exact modProgress_acts _ _ _
  · split <;> exact modProgress_acts _ _ _
  · split
    · exact modProgress_acts _ _ _
    · exact modEngine_acts _ _ rfl rfl

theorem countEdge_acts {s : State} (hb : H → (s.engine ch).state.busy = true) (w n k : Nat) :
    s.Acts H C (s.countEdge ch w n k) := by
  unfold State.countEdge
  dsimp only
  split
  · exact ((modProgress_acts s ch _).trans (setChanState_acts (fun hH => by rw [modProgress_state]; exact hb hH)
      rfl)).trans (enterActive_acts _ _ _ _)
  · exact modProgress_acts s ch _

theorem edgeToAction_acts {s : State} (hb : H → (s.engine ch).state.busy = true) : s.Acts H C (s.edgeToAction ch) := by
  unfold State.edgeToAction
  split
  · split
    · exact beginFiring_acts hb _ _
    · exact retrigger_acts _ _ _ _ _
  · split
    · exact countEdge_acts hb _ _ _
    · exact modProgress_acts s ch _
  · exact .refl s

theorem takeEdge_acts (s : State) (ch : Channel) : s.Acts H C (s.takeEdge ch) := by
  cases hst : (s.engine ch).state <;> simp only [State.takeEdge, hst]
  case armed | firing => exact edgeToAction_acts fun _ => by rw [hst]; rfl
  all_goals exact modEngine_acts _ _ rfl rfl

/-- Taking a latch event at an engine, where what it does there is work on actions. -/
theorem takeSafeEvent_acts (s : State) (ch : Channel) (ev : SafeEvent) (f : State → State)
    (hf : ∀ rest, (s.modEngine ch fun e => { e with safeHanded := rest }).Acts H C
      (f (s.modEngine ch fun e => { e with safeHanded := rest }))) : s.Acts H C (s.takeSafeEvent ch ev f) := by
  unfold State.takeSafeEvent
  split
  · exact .refl s
  · split
    · exact (modEngine_acts s ch rfl rfl).trans (hf _)
    · exact .refl s

theorem settingAtEngine_acts {s : State} (hC : ch ∈ C) (hh : H → s.Held) : s.Acts H C (s.settingAtEngine ch) := by
  have busy : ∀ run, (s.engine ch).current = some run →
      s.Acts H C (((s.modEngine ch fun e => e.atSafeLevel .safed).freeCurrent .safed run).missAfterSafed ch) := fun run hrun =>
    have h1 := freeCurrent_acts hC hh hrun (f := fun e => e.atSafeLevel .safed) rfl (.inr rfl) .safed
    h1.trans (missAfterSafed_acts hC fun hH => acts_held h1 hH (hh hH))
  have idle : (s.engine ch).current = none → (H → (s.engine ch).state.busy = false) →
      s.Acts H C (s.modEngine ch fun e => e.atSafeLevel .safed) := fun hn hb =>
    .engine s ch _ fun hH => ⟨by rw [hn]; rfl, by rw [hb hH]; rfl, nofun⟩
  unfold State.settingAtEngine
  split
  · exact .refl s
  · exact .refl s
  all_goals
    dsimp only
    split
    · next hn => exact idle hn fun hH => by rw [← (hh hH).busy, hn]; rfl
    · next hrun => exact busy _ hrun

end Work

/-! ### The group -/

section Group

variable {H : Prop} {C : List Channel}

theorem freed_unstage (s : State) (j i : SlotNo) (r : Record) (b : EndedBody) :
    (s.unstage j).freed i r b = (s.freed i r b).unstage j := by
  unfold State.unstage
  rw [freed_withGroup, freed_group]

theorem freeUnstarted_unstage (s : State) (j : SlotNo) (res : EndResult) (i : SlotNo) :
    (s.unstage j).freeUnstarted res i = (s.freeUnstarted res i).unstage j := by
  cases hr : s.record i with
  | none =>
    unfold State.freeUnstarted
    rw [unstage_record, hr]
  | some r =>
    rw [freeUnstarted_eq_freed hr, freeUnstarted_eq_freed (s := s.unstage j) hr, freed_unstage]
    rfl

/-- Records that leave the staging list one after the other, told as one change of the list and one freeing of all. -/
theorem unstageFold_filter (res : EndResult) : ∀ (l : List SlotNo) (s : State),
    l.foldl (fun s i => (s.unstage i).freeUnstarted res i) s
      = { s.freeAll res l with group := s.group.map fun g => { g with staging := g.staging.filter (· ∉ l) } }
  | [], s => by
    have e : s.group.map (fun g => { g with staging := g.staging.filter (· ∉ ([] : List SlotNo)) }) = s.group := by
      cases s.group <;> simp
    rw [e]; rfl
  | i :: l, s => by
    have hg : (s.freeUnstarted res i).group = s.group := by
      cases hr : s.record i with
      | none => unfold State.freeUnstarted; rw [hr]
      | some r => rw [freeUnstarted_eq_freed hr, freed_group]
    have hu : ∀ (u : State) (k : List SlotNo), (u.unstage i).freeAll res k = (u.freeAll res k).unstage i := by
      intro u k
      induction k generalizing u with
      | nil => rfl
      | cons j k ih => exact (congrArg (State.freeAll · res k) (freeUnstarted_unstage u i res j)).trans (ih _)
    have e : (s.group.map fun g => { g with staging := g.staging.filter (· ≠ i) }).map
          (fun g => { g with staging := g.staging.filter (· ∉ l) })
        = s.group.map fun g => { g with staging := g.staging.filter (· ∉ i :: l) } := by
      cases s.group with
      | none => rfl
      | some g =>
        simp only [Option.map_some, List.filter_filter, List.mem_cons, not_or]
        congr 3
        funext j
        simp [Bool.and_comm]
    rw [List.foldl_cons, unstageFold_filter res l, freeUnstarted_unstage, hu, unstage_group, hg, e]
    rfl

theorem unstageFold_acts (res : EndResult) : ∀ (l : List SlotNo) (s : State), (H → s.Held) → (H → l.Nodup) →
    (H → ∀ i ∈ l, ∃ g, s.group = some g ∧ i ∈ g.staging) → (H → ∀ i ∈ l, ∀ r, s.record i = some r → r.channel ∈ C) →
    s.Acts H C (l.foldl (fun s i => (s.unstage i).freeUnstarted res i) s)
  | [], s, _, _, _, _ => .refl s
  | i :: l, s, hh, hd, hg, hC => by
    have h1 : s.Acts H C ((s.unstage i).freeUnstarted res i) := by
      cases hr : s.record i with
      | none =>
        have e : (s.unstage i).freeUnstarted res i = s.unstage i := by
          unfold State.freeUnstarted
          rw [unstage_record, hr]
        rw [e]
        refine .unlist s i fun hH g hgs hm => ?_
        obtain ⟨r, hr', _⟩ := (hh hH).staged_record hgs hm
        rw [hr] at hr'; cases hr'
      | some r =>
        rw [freeUnstarted_eq_freed (s := s.unstage i) hr]
        exact .unstage _ (fun hH => hC hH i List.mem_cons_self r hr) (fun _ => hr) fun hH => hg hH i List.mem_cons_self
    have hgrp : ((s.unstage i).freeUnstarted res i).group = (s.unstage i).group := by
      cases hr : (s.unstage i).record i with
      | none => unfold State.freeUnstarted; rw [hr]
      | some r => rw [freeUnstarted_eq_freed hr, freed_group]
    have hne : H → ∀ j ∈ l, j ≠ i := fun hH j hj e => (List.nodup_cons.mp (hd hH)).1 (e ▸ hj)
    refine h1.trans (unstageFold_acts res l _ (fun hH => acts_held h1 hH (hh hH))
      (fun hH => (List.nodup_cons.mp (hd hH)).2) (fun hH j hj => ?_) fun hH j hj r hr => ?_)
    · obtain ⟨g, hgs, hm⟩ := hg hH j (List.mem_cons_of_mem _ hj)
      refine ⟨{ g with staging := g.staging.filter (· ≠ i) }, ?_, ?_⟩
      · rw [hgrp, unstage_group, hgs]; rfl
      · simpa using ⟨hm, hne hH j hj⟩
    · obtain ⟨r0, hr0, e⟩ := (acts_shrinks h1 hH (hh hH)).records j r hr
      exact e ▸ hC hH j (List.mem_cons_of_mem _ hj) r0 hr0

theorem discardGroup_eq {s : State} {g : Group} (hg : s.group = some g) :
    s.discardGroup g
      = { g.staging.foldl (fun s i => (s.unstage i).freeUnstarted .discarded i) s with group := none } := by
  rw [unstageFold_filter, hg]
  rfl

/-- The discard of the group frees the staged records (R110). -/
theorem discardGroup_acts {s : State} {g : Group} (hh : H → s.Held) (hg : s.group = some g) :
    s.Acts H (s.channelsOf g.staging) (s.discardGroup g) := by
  have h1 := unstageFold_acts (C := s.channelsOf g.staging) .discarded g.staging s hh
    (fun hH => (hh hH).stagedOnce g hg) (fun _ i hi => ⟨g, hg, hi⟩) fun _ i hi r hr =>
      List.mem_filterMap.mpr ⟨i, hi, by rw [hr]; rfl⟩
  rw [discardGroup_eq hg]
  refine h1.trans (.close _ fun _ g' hg' => ?_)
  rw [unstageFold_filter, hg] at hg'
  cases hg'
  simp

/-- The slots of freed records stand on the free list. -/
theorem freedAll_mem_freeList (res : EndResult) {i : SlotNo} {r : Record} {is : List SlotNo} {s : State} (hi : i ∈ is)
    (hr : s.record i = some r) : i ∈ (s.freedAll res is).freeList := by
  induction is generalizing s with
  | nil => cases hi
  | cons j is ih =>
    cases hj : s.record j with
    | none =>
      rw [freedAll_cons_none hj]
      refine ih ((List.mem_cons.mp hi).resolve_left fun e => ?_) hr
      rw [← e, hr] at hj; cases hj
    | some q =>
      rw [freedAll_cons hj]
      by_cases he : i = j
      · refine freedAll_keeps (p := fun u => i ∈ u.freeList) res (fun u k x b h => ?_) is _ ?_
        · rw [freed_freeList]; exact List.mem_append_left _ h
        · rw [freed_freeList, he]; exact List.mem_append_right _ (List.mem_singleton_self j)
      · exact ih ((List.mem_cons.mp hi).resolve_left he) (by rw [freed_record_ne _ _ _ he, hr])

/-- The discard of the group, and the notice after it, with the watch for the channels of its records. -/
theorem discard_blocks {s t : State} {g : Group} (hh : H → s.Held) (hg : s.group = some g)
    (ht : (s.discardGroup g).Acts H (s.channelsOf g.staging) t) (hl : t.freeList = (s.discardGroup g).freeList) :
    s.Blocks H (watch (s.maskOfRecords g.staging) s t) := by
  refine .watched (names_maskOfRecords s g.staging) ((discardGroup_acts hh hg).trans ht) fun hH _ c hc => ?_
  obtain ⟨i, hi, hic⟩ := List.mem_filterMap.mp hc
  cases hr : s.record i with
  | none => rw [hr] at hic; cases hic
  | some r =>
    rw [hr] at hic
    cases hic
    refine ⟨i, r, hr, rfl, ?_⟩
    rw [hl]
    show i ∈ (s.freeAll .discarded g.staging).freeList
    rw [freeAll_eq_freedAll]
    exact freedAll_mem_freeList _ hi hr

end Group

end Sys2Proof.Machine
end

section
/-!
PROOF. Everything that one command can do to the part while it runs, as steps of few kinds: `Moves` are the steps at the blocks behind
the Control Link and the Dispatcher, `Does` adds the link and the taking of a request. An invariant that each kind of step keeps is
kept by every command.
-/
namespace Sys2Proof.Machine

/-! ### The steps of the blocks -/

/-- Settings, samples and counters change that no invariant reads. -/
def State.Settles (s t : State) : Prop :=
  t = { s with prescaler := t.prescaler, syncPrev := t.syncPrev, syncSampled := t.syncSampled, triggers := t.triggers,
               minLead := t.minLead, horizon := t.horizon, nextGroupId := t.nextGroupId, groupDefault := t.groupDefault,
               retryTime := t.retryTime, tx := t.tx, counters := t.counters }

/-- What only few commands do: move device time, allocate a record or a wait, drop acknowledged notices, empty the tables. -/
inductive Special where
  | clock
  | allocate
  | ack
  | restart

/-- One step, or several, at the blocks behind the link. The premises about places of records stand under `H`, as in `State.Acts`.
The special steps are made only where `A` holds of their sort, and a wait ends as CANCELLED only where `T` holds of its tag. -/
inductive State.Moves (H : Prop) (A : Special → Prop) (T : Nat → Prop) : State → State → Prop
  | refl (s : State) : Moves H A T s s
  | trans {s t u : State} (h : Moves H A T s t) (k : Moves H A T t u) : Moves H A T s u
  | settles {s t : State} (h : s.Settles t) : Moves H A T s t
  | blocks {s t : State} (h : s.Blocks H t) : Moves H A T s t
  | tick {s : State} (ha : A .clock) (pins : Pins) (hf : s.safenFall = false) : Moves H A T s (s.countTick pins)
  | setLatch (s : State) (c : SafeCause) : Moves H A T s (s.setLatch c)
  | fall (s : State) : Moves H A T s ({ s with safenFall := false }.setLatch .line)
  | clearLatch {s : State} (hs : s.safenSample = true) (h : ∀ ch, (s.plan ch).settings = 0) : Moves H A T s s.clearLatch
  | configure {s : State} {ch : Channel} {f : Engine → Engine} (h : s.channelInUse ch = false)
      (hc : (f (s.engine ch)).current = (s.engine ch).current) (hb : (f (s.engine ch)).state.busy = false) :
      Moves H A T s (s.modEngine ch f)
  | load {s : State} {arm : SyncArm} (ha : A .clock) (res : EndResult) (b : DoneBody) (h : s.syncArm = some arm)
      (hv : s.deviceTime.toNat < arm.value.toNat) :
      Moves H A T s (({ s with syncArm := none }.forwardLoad arm.value).completeTag arm.tag res b)
  | disarm {s : State} {arm : SyncArm} {g : Nat} (res : EndResult) (b : DoneBody) (h : s.syncArm = some arm)
      (hg : g = arm.tag ∨ ∃ e ∈ s.tagsOpen, e.tag = g ∧ e.subject = .sync) :
      Moves H A T s ({ s with syncArm := none }.completeTag g res b)
  | unsnap {s : State} {sc : Scheduled} {g : Nat} (res : EndResult) (b : DoneBody) (h : s.snapshot = some sc)
      (hg : g = sc.tag ∨ ∃ e ∈ s.tagsOpen, e.tag = g ∧ ∃ m, e.subject = .snapshot m) :
      Moves H A T s ({ s with snapshot := none }.completeTag g res b)
  | arm {s : State} (v : Time) (pol : SyncPolarity) (hf : s.tagsFull = false) (hn : s.syncArm = none) :
      Moves H A T s { s.allocTag .sync with syncArm := some { value := v, pol := pol, tag := s.tagToGive } }
  | waitIdle {s : State} (ha : A .allocate) (mask : Byte) (hf : s.tagsFull = false) : Moves H A T s (s.allocTag (.idleWait mask))
  | snap {s : State} (mask : Byte) (time : Time) (hf : s.tagsFull = false) (hn : s.snapshot = none) :
      Moves H A T s { s.allocTag (.snapshot mask) with
        snapshot := some { mask := mask, time := time, tag := s.tagToGive, due := none } }
  | snapNow {s : State} (mask : Byte) (b : DoneBody) (hf : s.tagsFull = false) (hn : s.snapshot = none) :
      Moves H A T s ((s.allocTag (.snapshot mask)).completeTag s.tagToGive .captured b)
  | endWait {s : State} {e : OpenTag} {mask : Byte} (b : DoneBody) (ht : T e.tag) (he : e ∈ s.tagsOpen)
      (hs : e.subject = .idleWait mask) : Moves H A T s (s.completeTag e.tag .cancelled b)
  | given {s : State} {q : ScheduleFields} {ch : Channel} {start : Time} {i : SlotNo} {free : List SlotNo} (ha : A .allocate)
      (hf : s.freeList = i :: free) (ht : q.tagged = true → s.tagsOpen.length + s.tagsWaiting.length < 16)
      (hl : (s.plan ch).records.length < 64) (ho : (s.engine ch).state ≠ .off) (hs : s.deviceTime.toNat ≤ start.toNat) :
      Moves H A T s ((s.allocated q ch start .planned i free).enterPlan ch i)
  | staged {s : State} {q : ScheduleFields} {ch : Channel} {start : Time} {i : SlotNo} {free : List SlotNo} {g : Group} (ha : A .allocate)
      (hf : s.freeList = i :: free) (ht : q.tagged = true → s.tagsOpen.length + s.tagsWaiting.length < 16)
      (hg : s.group = some g) (hl : g.staging.length < 32) (ho : (s.engine ch).state ≠ .off) :
      Moves H A T s { s.allocated q ch start .staged i free with group := some { g with staging := g.staging ++ [i] } }
  | begin {s : State} (id timer : Nat) (h : s.group = none) :
      Moves H A T s { s with group := some { id := id, staging := [], timer := timer } }
  | commit {s : State} {i : SlotNo} {r : Record} (start : Time) (hr : s.record i = some r)
      (hi : H → ∃ g, s.group = some g ∧ i ∈ g.staging) (hl : (s.plan r.channel).records.length < 64)
      (hs : H → s.deviceTime.toNat ≤ start.toNat) :
      Moves H A T s (((s.unstage i).setRecord i { r with start := start, state := .planned }).enterPlan r.channel i)
  | send {s : State} {n : Notice} (h : s.offered = some n) : Moves H A T s (s.beginNotice n)
  | ack {s : State} {n k : Nat} (ha : A .ack) (h : s.ackCount n = some k) :
      Moves H A T s ({ s with notices := s.notices.drop k, expiries := 0 }.refill).retryAfterAck
  | retry (s : State) : Moves H A T s s.retryExpiry
  | linkDown (s : State) : Moves H A T s s.noticesAtLinkReset
  | restart (s : State) (ha : A .restart) : Moves H A T s s.restartBlocks

/-! ### The steps of the link -/

/-- The link takes or gives a byte or a frame: only its own queues, counters and states change, and with a request appended the stall
is over (R154). -/
structure State.Links (s t : State) : Prop where
  same    : t = { s with rxQueue := t.rxQueue, replies := t.replies, cache := t.cache, asm := t.asm, lowSpan := t.lowSpan,
                         linkOpen := t.linkOpen, tx := t.tx, counters := t.counters, stall := t.stall, expiries := t.expiries }
  receive : s.rxQueue.length ≤ 4 → t.rxQueue.length ≤ 4
  reply   : s.replies.length ≤ 4 → t.replies.length ≤ 4
  cache   : s.cache.length ≤ 4 → t.cache.length ≤ 4
  stall   : t.stall = s.stall ∧ t.expiries = s.expiries ∨ t.stall = false ∧ t.expiries = 0

theorem State.Links.refl (s : State) : s.Links s := ⟨rfl, id, id, id, .inl ⟨rfl, rfl⟩⟩

theorem State.Links.trans {s t u : State} (h : s.Links t) (k : t.Links u) : s.Links u := by
  refine ⟨by rw [k.same, h.same], k.receive ∘ h.receive, k.reply ∘ h.reply, k.cache ∘ h.cache, ?_⟩
  rcases k.stall with ⟨a, b⟩ | ⟨a, b⟩
  · rw [a, b]; exact h.stall
  · exact .inr ⟨a, b⟩

/-- What one command does while the part runs: a step of the link and then of the blocks, or a request taken from the head of the
Receive Queue, carried out and answered (R171). -/
inductive State.Does (H : Prop) (A : Special → Prop) (T : Nat → Prop) (s : State) : State → Prop
  | link {t u : State} (h : s.Links t) (k : t.Moves H A T u) : Does H A T s u
  | request {rq : Request} {rest : List Request} {u : State} (resp : Response) (hq : s.rxQueue = rq :: rest)
      (hl : s.replies.length < 4) (k : State.Moves H A T { s with rxQueue := rest } u) : Does H A T s (u.answer rq resp)

/-- The premises of places are about the state before the command, so they hold behind the link's own change. -/
theorem links_held {s t : State} (h : s.Links t) (hs : s.Held) : t.Held := by
  rw [h.same]
  exact hs.congr rfl rfl (fun c => rfl) rfl fun c => .refl _

variable {H : Prop} {A : Special → Prop} {T : Nat → Prop}

theorem does_of_moves {s t : State} (h : s.Moves H A T t) : s.Does H A T t := .link (.refl s) h

theorem does_refl (s : State) : s.Does H A T s := does_of_moves (.refl s)

theorem moves_of_acts {s t : State} {ch : Channel} (h : s.Acts H [ch] t) (hh : H → s.Held) :
    s.Moves H A T (watch (maskOf ch) s t) := .blocks (blocks_of_acts h hh)

/-- An engine's work that frees nothing. -/
theorem moves_of_idle {s t : State} (h : s.Acts H [] t) (hl : t.freeList = s.freeList) : s.Moves H A T t :=
  .blocks (blocks_of_idle h hl)

/-- A list of steps. -/
theorem foldl_links {α : Type} {f : State → α → State} (hf : ∀ (s : State) (a : α), s.Links (f s a)) :
    ∀ (l : List α) (s : State), s.Links (l.foldl f s)
  | [], s => .refl s
  | a :: l, s => (hf s a).trans (foldl_links hf l (f s a))

/-! ### Requests -/

/-- Where the head is taken, it is the head of the Receive Queue, and the Reply Queue has room (R171). -/
theorem takeHead_cases (s : State) (p : Request → Bool) (f : State → Request → State) :
    s.takeHead p f = s ∨ ∃ rq rest, s.rxQueue = rq :: rest ∧ s.replies.length < 4 ∧ p rq = true ∧
      s.takeHead p f = f { s with rxQueue := rest } rq := by
  unfold State.takeHead
  cases hq : s.rxQueue with
  | nil => exact .inl rfl
  | cons rq rest =>
    by_cases h : s.replies.length < Config.linkCap ∧ p rq = true
    · exact .inr ⟨rq, rest, rfl, h.1, h.2, if_pos h⟩
    · exact .inl (if_neg h)

theorem carryOut_does {s : State} {rq : Request} {rest : List Request} (hq : s.rxQueue = rq :: rest)
    (hl : s.replies.length < 4) (len : Nat) {h : List Byte → State → Response × State}
    (k : rq.fields.length + 3 = len → State.Moves H A T { s with rxQueue := rest } (h rq.fields { s with rxQueue := rest }).2) :
    s.Does H A T (carryOut len h { s with rxQueue := rest } rq) := by
  unfold carryOut
  split
  · next e => exact .request _ hq hl (k e)
  · exact .request _ hq hl (.refl _)

/-- A request does what its handler does. -/
theorem takeRequest_does {s : State} (hh : H → s.Held) (kind : Byte) (len : Nat) {h : List Byte → State → Response × State}
    (k : ∀ rq rest, s.rxQueue = rq :: rest → rq.fields.length + 3 = len → ∀ u : State, (H → u.Held) → u.Moves H A T (h rq.fields u).2) :
    s.Does H A T (s.takeRequest kind len h) := by
  unfold State.takeRequest
  rcases takeHead_cases s (s.isKind kind) (carryOut len h) with e | ⟨rq, rest, hq, hl, _, e⟩
  · rw [e]; exact does_refl s
  · rw [e]
    exact carryOut_does hq hl len fun hlen => (k rq rest hq hlen _ fun hH => (hh hH).congr rfl rfl (fun c => rfl) rfl fun c => .refl _)

/-! ### The Time Base, the latch and the Snapshot Unit -/

theorem takeSyncEdge_moves (ha : A .clock) (s : State) (dir : SyncPolarity) : s.Moves H A T (s.takeSyncEdge dir) := by
  unfold State.takeSyncEdge
  split
  · exact .refl s
  · next arm harm =>
    split
    · dsimp only
      split
      · next hv => exact .load ha _ _ harm hv
      · exact .disarm _ _ harm (.inl rfl)
    · exact .refl s

theorem syncEdge_moves (ha : A .clock) (s : State) (dir : SyncPolarity) : s.Moves H A T (s.syncEdge dir) := by
  unfold State.syncEdge
  split
  · split
    · exact .trans (.settles (t := { s with syncSampled := none }) rfl) (takeSyncEdge_moves ha _ dir)
    · exact .refl s
  · split
    · exact .trans (.settles (t := { s with syncPrev := some (syncLevel dir) }) rfl) (takeSyncEdge_moves ha _ dir)
    · exact .refl s

theorem takeCapture_moves (s : State) : s.Moves H A T s.takeCapture := by
  unfold State.takeCapture
  split
  · exact .refl s
  · next sc hsc =>
    split
    · exact .refl s
    · exact .unsnap _ _ hsc (.inl rfl)

theorem takeSafenFall_moves (s : State) : s.Moves H A T s.takeSafenFall := by
  unfold State.takeSafenFall
  split
  · exact .fall s
  · exact .refl s

theorem setLatch_latch (s : State) (c : SafeCause) : (s.setLatch c).latch = true := by
  unfold State.setLatch
  split
  · assumption
  · show ({ s with latch := true, cause := c }.handOrdinary _).latch = true
    rw [(handOrdinary_addsReports _ _).same]

theorem setLatch_safen (s : State) (c : SafeCause) :
    (s.setLatch c).safenSample = s.safenSample ∧ (s.setLatch c).safenFall = s.safenFall := by
  cases hl : s.latch with
  | true =>
    have e : s.setLatch c = s := by unfold State.setLatch; rw [hl]; rfl
    rw [e]; exact ⟨rfl, rfl⟩
  | false => constructor <;> rw [(setLatch_sets hl c).same]

theorem takeSafenFall_fall (s : State) : s.takeSafenFall.safenFall = false := by
  unfold State.takeSafenFall
  split
  · rw [(setLatch_safen _ _).2]
  · next h => simpa using h

theorem tick_moves (ha : A .clock) (s : State) (pins : Pins) : s.Moves H A T (s.tick pins) := by
  have h1 : s.Moves H A T (s.syncSampled.elim s s.syncEdge) := by
    cases s.syncSampled with
    | none => exact .refl s
    | some d => exact syncEdge_moves ha s d
  exact (h1.trans (takeSafenFall_moves _)).trans (.tick ha pins (takeSafenFall_fall _))

theorem takeFilterExpiry_eq (s : State) (ch : Channel) :
    s.takeFilterExpiry ch = (s.setTrigger ch (s.trigger ch).takeExpiry.1).modEngine ch fun e =>
      { e with edgesHanded := e.edgesHanded + edgesOf e.config.polarity (s.trigger ch).takeExpiry.2 } := rfl

theorem configure_eq (s : State) (ch : Channel) (cfg : ChanConfig) :
    s.configure ch cfg = ((s.takeFilterExpiry ch).setTrigger ch
        (((s.takeFilterExpiry ch).trigger ch).configure cfg.filter.toNat).1).modEngine ch fun e =>
      { e.configure cfg s.latch with
        edgesHanded := e.edgesHanded +
          edgesOf cfg.polarity (((s.takeFilterExpiry ch).trigger ch).configure cfg.filter.toNat).2 } := rfl

theorem engineConfigure_current (e : Engine) (cfg : ChanConfig) (latch : Bool) :
    (e.configure cfg latch).current = e.current := by
  unfold Engine.configure
  dsimp only
  split <;> rfl

/-- A channel that is not busy is not made busy by its configuration (R57). -/
theorem engineConfigure_idle {e : Engine} (h : e.state.busy = false) (cfg : ChanConfig) (latch : Bool) :
    (e.configure cfg latch).state.busy = false := by
  unfold Engine.configure
  dsimp only
  split
  case h_2 => cases latch <;> rfl
  all_goals first | rfl | (next hs => rw [hs] at h; cases h) | (next hs _ => rw [hs] at h; cases h) | exact h

theorem takeFilterExpiry_moves (s : State) (ch : Channel) : s.Moves H A T (s.takeFilterExpiry ch) := by
  have h1 : s.Moves H A T (s.setTrigger ch (s.trigger ch).takeExpiry.1) := .settles rfl
  rw [takeFilterExpiry_eq]
  exact h1.trans (moves_of_idle (modEngine_acts _ ch rfl rfl) rfl)

/-- The configuration of a channel not in use takes effect there and leaves the others alone (R56, R57). -/
theorem configure_moves {s : State} {ch : Channel} (h : s.channelInUse ch = false) (cfg : ChanConfig) :
    s.Moves H A T (s.configure ch cfg) := by
  have hstate : ((s.takeFilterExpiry ch).engine ch).state = (s.engine ch).state := by
    rw [takeFilterExpiry_eq, modEngine_engine_self]; rfl
  have hbusy : (s.engine ch).state.busy = false := by
    unfold State.channelInUse at h
    simp only [Bool.or_eq_false_iff] at h
    exact h.1.1
  have hin : ((s.takeFilterExpiry ch).setTrigger ch
      (((s.takeFilterExpiry ch).trigger ch).configure cfg.filter.toNat).1).channelInUse ch = false := by
    have e : ∀ u : State, (u.engine ch).state = (s.engine ch).state → u.plans = s.plans → u.group = s.group →
        u.slots = s.slots → u.channelInUse ch = s.channelInUse ch := by
      intro u h1 h2 h3 h4
      simp only [State.channelInUse, State.stagedOn, State.plan, State.record, State.slot, h1, h2, h3, h4]
    rw [e]
    · exact h
    · rw [setTrigger_engine, hstate]
    all_goals rfl
  rw [configure_eq]
  refine ((takeFilterExpiry_moves s ch).trans (.settles (t := (s.takeFilterExpiry ch).setTrigger ch
    (((s.takeFilterExpiry ch).trigger ch).configure cfg.filter.toNat).1) rfl)).trans (.configure hin ?_ ?_)
  · rw [setTrigger_engine]
    exact engineConfigure_current _ cfg _
  · rw [setTrigger_engine]
    exact engineConfigure_idle (hstate ▸ hbusy) cfg _

/-! ### The release -/

theorem takeSafeEvent_moves {s : State} {ch : Channel} {ev : SafeEvent} {f : State → State} (hh : H → s.Held)
    (hf : ∀ u : State, (H → u.Held) → u.Moves H A T (f u)) : s.Moves H A T (s.takeSafeEvent ch ev f) := by
  unfold State.takeSafeEvent
  split
  · exact .refl s
  · next rest _ =>
    split
    · have h1 : s.Acts H [] (s.modEngine ch fun en => { en with safeHanded := rest }) := modEngine_acts s ch rfl rfl
      exact .trans (moves_of_idle h1 rfl) (hf _ fun hH => acts_held h1 hH (hh hH))
    · exact .refl s

theorem watch_engine (m : Byte) (b s : State) (c : Channel) : (watch m b s).engine c = s.engine c := by
  rw [(watch_addsReports m b s).same]; rfl

/-- Work on a SAFED channel's heads only drops them: the engine is as it was. -/
theorem settleList_safed {ch : Channel} : ∀ (l : List SlotNo) (s : State), (s.engine ch).state = .safed →
    (settleList ch l s).engine ch = s.engine ch
  | [], _, _ => rfl
  | i :: l, s, hs => by
    have hd : ∀ res, (s.dropHead ch i res).engine ch = s.engine ch := fun res => by
      unfold State.dropHead State.freeUnstarted
      split
      · rfl
      · rw [freeWith_eq_freed, freed_engine]; rfl
    have hfate : ∀ p, s.fate ch p = .miss := fun p => by
      unfold State.fate
      split
      · rfl
      · rw [hs]
    unfold settleList
    split
    · rfl
    · split
      · rw [hfate]
        exact (settleList_safed l _ (by rw [hd]; exact hs)).trans (hd _)
      · rfl

theorem takePassed_safed {s : State} {ch : Channel} (hs : (s.engine ch).state = .safed) :
    (s.takePassed ch).engine ch = s.engine ch := by
  unfold State.takePassed
  split
  · unfold State.dueAtPlan
    rw [watch_engine]
    exact settleList_safed _ s hs
  · rfl

theorem releaseAtEngine_moves {s : State} (hh : H → s.Held) (ch : Channel) : s.Moves H A T (s.releaseAtEngine ch) := by
  unfold State.releaseAtEngine
  split
  · next hs =>
    have h1 := takePassed_blocks hh ch
    have hh1 : H → (s.takePassed ch).Held := fun hH => blocks_held h1 hH (hh hH)
    have h2 : (s.takePassed ch).Acts H [] ((s.takePassed ch).modEngine ch fun e =>
        { e with state := .idle, restLevel := e.config.safeLevel }) :=
      .engine _ ch _ fun _ => ⟨rfl, by rw [takePassed_safed hs, hs]; rfl, nofun⟩
    exact .trans (.trans (.blocks h1) (moves_of_idle h2 rfl))
      (.blocks (dueAtPlan_blocks (fun hH => acts_held h2 hH (hh1 hH)) ch))
  · exact .refl s

section Settings

/-! What the release reads of the plans: the latch settings that they have still to take. -/

theorem watch_plan (m : Byte) (b s : State) (c : Channel) : (watch m b s).plan c = s.plan c := by
  rw [(watch_addsReports m b s).same]; rfl

/-- Work on actions hands no latch setting to a plan. -/
theorem acts_settings {C : List Channel} {s t : State} (h : s.Acts H C t) (c : Channel) :
    (t.plan c).settings ≤ (s.plan c).settings := by
  induction h with
  | refl s => exact le_refl _
  | trans _ _ h k => exact k.trans h
  | plan s ch f h =>
    rw [modPlan_plan]
    split
    · next e => rw [e]; exact h.settings
    · exact le_refl _
  | hand s b => rw [(handOrdinary_addsReports s b).same]; exact le_refl _
  | @drop s ch i r b _ _ _ =>
    rw [freed_plan]
    unfold State.leavePlan
    rw [modPlan_plan]
    split
    · next e => rw [e]
    · exact le_refl _
  | @start s ch i r _ _ _ =>
    show ((s.leavePlan ch i).plan c).settings ≤ _
    unfold State.leavePlan
    rw [modPlan_plan]
    split
    · next e => rw [e]
    · exact le_refl _
  | finish b _ _ _ _ _ => rw [freed_plan]; exact le_refl _
  | unstage b _ _ _ => rw [freed_plan]; exact le_refl _
  | engine | wait | unlist | close => exact le_refl _

theorem blocks_settings {s t : State} (h : s.Blocks H t) (c : Channel) : (t.plan c).settings ≤ (s.plan c).settings := by
  induction h with
  | refl s => exact le_refl _
  | trans _ _ h k => exact k.trans h
  | watched _ h _ => rw [watch_plan]; exact acts_settings h c

/-- A plan takes one latch setting at a time. -/
theorem settingAtPlan_settings (s : State) (ch : Channel) :
    ((s.settingAtPlan ch).plan ch).settings ≤ (s.plan ch).settings - 1 := by
  unfold State.settingAtPlan
  rw [watch_plan]
  unfold State.takeSettingAtPlan
  split
  · have h := acts_settings (missDueList_acts (H := False) (List.mem_singleton_self ch) (s.plan ch).records
      (s.modPlan ch fun p => { p with settings := p.settings - 1 }) nofun nofun) ch
    rwa [modPlan_plan_self] at h
  · omega

theorem takeSettings_settings (ch : Channel) : ∀ (n : Nat) (s : State), (s.plan ch).settings ≤ n →
    ((takeSettings ch n s).plan ch).settings = 0
  | 0, _, h => Nat.le_zero.mp h
  | n + 1, s, h => takeSettings_settings ch n (s.settingAtPlan ch) (by
      have := settingAtPlan_settings s ch
      omega)

theorem settlePlan_settings (s : State) (ch : Channel) : ((s.settlePlan ch).plan ch).settings = 0 := by
  have h := blocks_settings (takePassed_blocks (H := False) (s := takeSettings ch
    ((takeOpenLoads ch (s.plan ch).loads.length s).plan ch).settings (takeOpenLoads ch (s.plan ch).loads.length s)) nofun ch) ch
  rw [takeSettings_settings ch _ _ (le_refl _)] at h
  exact Nat.le_zero.mp h

/-- With what it has outstanding taken, no plan has a latch setting to take. -/
theorem settlePlans_settings (s : State) (c : Channel) : (s.settlePlans.plan c).settings = 0 := by
  have key : ∀ (l : List Channel) (s : State), c ∈ l ∨ (s.plan c).settings = 0 →
      ((l.foldl (fun s ch => s.settlePlan ch) s).plan c).settings = 0 := by
    intro l
    induction l with
    | nil => exact fun s h => h.resolve_left (by simp)
    | cons ch l ih =>
      intro s h
      refine ih (s.settlePlan ch) ?_
      by_cases hc : c = ch
      · exact .inr (hc ▸ settlePlan_settings s c)
      · rcases h with h | h
        · exact .inl ((List.mem_cons.mp h).resolve_left hc)
        · exact .inr (Nat.le_zero.mp (h ▸ blocks_settings (settlePlan_blocks (H := False) nofun ch) c))
  exact key allChannels s (.inl (mem_allChannels c))

end Settings

theorem releaseSafe_moves {s : State} (hh : H → s.Held) : s.Moves H A T s.releaseSafe.2 := by
  unfold State.releaseSafe
  split
  · exact .refl s
  · next hs =>
    split
    · have h1 := settlePlans_blocks hh
      refine .trans (.blocks h1) (.clearLatch ?_ (settlePlans_settings s))
      rw [(blocks_works h1).same]
      simpa using hs
    · exact .refl s

end Sys2Proof.Machine
end

section
/-!
PROOF. Every command, as steps of the kinds of `Moves` and `Does`: the requests one by one, then the dispatch.
-/
namespace Sys2Proof.Machine

variable {H : Prop} {A : Special → Prop} {T : Nat → Prop}

/-! ### Configuration and reading -/

theorem readStatus_moves (s : State) (fs : List Byte) : s.Moves H A T (s.readStatus fs).2 := by
  unfold State.readStatus
  split
  · exact .refl s
  · split
    · exact .settles rfl
    · exact .refl s

theorem setGlobal_moves (s : State) (fs : List Byte) : s.Moves H A T (s.setGlobal fs).2 := by
  unfold State.setGlobal
  dsimp only
  split
  · exact .refl s
  · split
    · exact .settles rfl
    · exact .refl s

theorem setChannel_moves (s : State) (fs : List Byte) : s.Moves H A T (s.setChannel fs).2 := by
  unfold State.setChannel
  split
  · split
    · exact .refl s
    · split
      · exact .refl s
      · next hin => exact configure_moves (by simpa using hin) _
  · exact .refl s

theorem queryChannel_moves (s : State) (fs : List Byte) : s.Moves H A T (s.queryChannel fs).2 := by
  unfold State.queryChannel
  split
  · exact .refl s
  · split
    · exact .refl s
    · next ch _ =>
      dsimp only
      split
      · exact moves_of_idle (modEngine_acts s ch rfl rfl) rfl
      · exact .refl s

/-! ### Actions -/

/-- An allocation that succeeds takes the head of the free list, with room in the Tag Table where a tag is asked for (R18). -/
theorem allocate_cases {s s1 : State} {q : ScheduleFields} {ch : Channel} {start : Time} {st : RecState} {i : SlotNo}
    {tag : Option Nat} (h : s.allocate q ch start st = .ok (i, tag, s1)) :
    ∃ free, s.freeList = i :: free ∧ (q.tagged = true → s.tagsOpen.length + s.tagsWaiting.length < 16) ∧
      s1 = s.allocated q ch start st i free := by
  cases hf : s.freeList with
  | nil =>
    unfold State.allocate at h
    rw [hf] at h
    cases h
  | cons j free =>
    by_cases hroom : q.tagged = true → s.tagsOpen.length + s.tagsWaiting.length < 16
    · rw [allocate_eq hf hroom] at h
      cases h
      exact ⟨free, rfl, hroom, rfl⟩
    · unfold State.allocate at h
      rw [hf] at h
      have hfull : (q.tagged && s.tagsFull) = true := by
        simp only [Classical.not_imp, Nat.not_lt] at hroom
        rw [hroom.1]
        exact decide_eq_true hroom.2
      simp only [hfull, if_true] at h
      cases h

/-- The start that a direct SCHEDULE resolves to is not in the past (R37). -/
theorem directStart_ge {s : State} {start at_ : Time} (h : s.directStart start = .ok at_) :
    s.deviceTime.toNat ≤ at_.toNat := by
  unfold State.directStart at h
  dsimp only at h
  split at h
  · split at h
    · cases h
    · next hfar =>
      cases h
      rw [BitVec.toNat_ofNat]
      unfold maxTime at hfar
      omega
  · split at h
    · cases h
    · next hearly =>
      split at h
      · cases h
      · cases h
        omega

theorem admitDirect_moves (ha : A .allocate) {s : State} (q : ScheduleFields) {ch : Channel} (ho : (s.engine ch).state ≠ .off) :
    s.Moves H A T (s.admitDirect q ch).2 := by
  unfold State.admitDirect
  split
  · exact .refl s
  · next start hstart =>
    split
    · exact .refl s
    · next hl =>
      split
      · exact .refl s
      · next hal =>
        obtain ⟨free, hf, ht, rfl⟩ := allocate_cases hal
        exact .given ha hf ht (Nat.not_le.mp hl) ho (directStart_ge hstart)

theorem stage_moves (ha : A .allocate) {s : State} (q : ScheduleFields) {ch : Channel} (ho : (s.engine ch).state ≠ .off) :
    s.Moves H A T (s.stage q ch).2 := by
  unfold State.stage
  split
  · exact .refl s
  · next g hg =>
    split
    · exact .refl s
    · next hl =>
      split
      · exact .refl s
      · split
        · exact .refl s
        · next hal =>
          obtain ⟨free, hf, ht, rfl⟩ := allocate_cases hal
          exact .staged ha hf ht hg (Nat.not_le.mp hl) ho

theorem doSchedule_moves (ha : A .allocate) (s : State) (fs : List Byte) : s.Moves H A T (s.doSchedule fs).2 := by
  unfold State.doSchedule
  split
  · exact .refl s
  · split
    · exact .refl s
    · split
      · exact .refl s
      · next ho =>
        split
        · exact stage_moves ha _ ho
        · exact admitDirect_moves ha _ ho

theorem lookup_record {s : State} {h : Handle} {i : SlotNo} {r : Record} (hl : s.lookup h = some (i, r)) :
    s.record i = some r := by
  unfold State.lookup at hl
  split at hl
  · cases hr : s.record (handleSlot h) with
    | none => rw [hr] at hl; cases hl
    | some r' =>
      rw [hr] at hl
      cases hl
      exact hr
  · cases hl

theorem cancelRecord_moves {s : State} (hh : H → s.Held) {i : SlotNo} {r : Record} (hr : s.record i = some r) :
    s.Moves H A T (watch (maskOf r.channel) s (s.cancelRecord i r)) :=
  moves_of_acts (cancelRecord_acts (List.mem_singleton_self _) hh hr) hh

theorem doCancel_moves {s : State} (hh : H → s.Held) (fs : List Byte) : s.Moves H A T (s.doCancel fs).2 := by
  unfold State.doCancel
  split
  · exact .refl s
  · next hl => exact cancelRecord_moves hh (lookup_record hl)

theorem doCancelChannel_moves {s : State} (hh : H → s.Held) (fs : List Byte) : s.Moves H A T (s.doCancelChannel fs).2 := by
  unfold State.doCancelChannel
  split
  · exact .refl s
  · split
    · exact .refl s
    · next ch _ => exact moves_of_acts (cancelAll_acts (List.mem_singleton_self ch) hh _) hh

/-! ### Groups -/

theorem groupBegin_moves (s : State) (fs : List Byte) : s.Moves H A T (s.groupBegin fs).2 := by
  unfold State.groupBegin
  dsimp only
  split
  · exact .refl s
  · split
    · exact .refl s
    · next hg =>
      refine .trans (.settles (t := { s with nextGroupId := if s.nextGroupId < 255 then s.nextGroupId + 1 else 1 }) rfl)
        (.begin _ _ ?_)
      simpa using hg

/-- One record of a commit: it leaves the staging list for its plan (R109). -/
def State.commitStep (s : State) (i : SlotNo) : State := (s.unstage i).commitRecord i

theorem enterPlan_unstage (s : State) (ch : Channel) (j i : SlotNo) :
    (s.unstage j).enterPlan ch i = (s.enterPlan ch i).unstage j := by
  have e : ∀ l, (s.unstage j).insertInto i l = s.insertInto i l := fun l =>
    insertInto_congr (s := s.unstage j) (t := s) rfl fun _ _ => rfl
  unfold State.enterPlan
  simp only [e]
  rfl

theorem commitRecord_unstage (s : State) (j i : SlotNo) : (s.unstage j).commitRecord i = (s.commitRecord i).unstage j := by
  cases hr : s.record i with
  | none => rw [commitRecord_none hr, commitRecord_none (s := s.unstage j) hr]
  | some r =>
    rw [commitRecord_some hr, commitRecord_some (s := s.unstage j) hr, ← enterPlan_unstage]
    rfl

theorem commitRecord_group (s : State) (i : SlotNo) : (s.commitRecord i).group = s.group := by
  rw [commitRecord_same]

theorem commitFold_group : ∀ (l : List SlotNo) (s : State), (l.foldl State.commitRecord s).group = s.group
  | [], _ => rfl
  | i :: l, s => (commitFold_group l _).trans (commitRecord_group s i)

/-- The commit of the list, told with the records leaving the staging list one by one. -/
theorem commitStep_fold : ∀ (l : List SlotNo) (s : State), l.foldl State.commitStep s
    = { l.foldl State.commitRecord s with
        group := s.group.map fun g => { g with staging := g.staging.filter (· ∉ l) } }
  | [], s => by
    have e : s.group.map (fun g => { g with staging := g.staging.filter (· ∉ ([] : List SlotNo)) }) = s.group := by
      cases s.group <;> simp
    rw [e]; rfl
  | i :: l, s => by
    have hu : ∀ (k : List SlotNo) (u : State),
        k.foldl State.commitRecord (u.unstage i) = (k.foldl State.commitRecord u).unstage i := by
      intro k
      induction k with
      | nil => exact fun _ => rfl
      | cons j k ih => exact fun u => (congrArg (k.foldl State.commitRecord) (commitRecord_unstage u i j)).trans (ih _)
    have e : (s.group.map fun g => { g with staging := g.staging.filter (· ≠ i) }).map
          (fun g => { g with staging := g.staging.filter (· ∉ l) })
        = s.group.map fun g => { g with staging := g.staging.filter (· ∉ i :: l) } := by
      cases s.group with
      | none => rfl
      | some g =>
        simp only [Option.map_some, List.filter_filter, List.mem_cons, not_or]
        congr 3
        funext j
        simp [Bool.and_comm]
    rw [List.foldl_cons, commitStep_fold l]
    unfold State.commitStep
    rw [commitRecord_unstage, hu, unstage_group, commitRecord_group, e]
    rfl

theorem commitGroup_eq {s : State} {g : Group} (hg : s.group = some g) :
    s.commitGroup g = { g.staging.foldl State.commitStep s with group := none } := by
  rw [commitStep_fold, hg]; rfl

/-- A record that passes its checks has room in its plan and a start that is not in the past (R107, R109). -/
theorem commitCheck_none {s : State} {r : Record} {k : Nat} (h : s.commitCheck r k = none) :
    (s.plan r.channel).records.length + k < 64 ∧
      s.deviceTime.toNat ≤ (if r.start.toNat = 0 then BitVec.ofNat 48 (s.deviceTime.toNat + s.minLead) else r.start).toNat := by
  unfold State.commitCheck at h
  dsimp only at h
  have hmax : maxTime = 2 ^ 48 - 1 := rfl
  have hcap : Config.planCap = 64 := rfl
  split at h
  · cases h
  · next hearly =>
    split at h
    · cases h
    · split at h
      · cases h
      · next hlimit =>
        split at h
        · cases h
        · next hfull =>
          refine ⟨by omega, ?_⟩
          split
          · rw [BitVec.toNat_ofNat]; omega
          · omega

/-- What the records of the list find in the state `u` that the commit has come to from `s`: the times of `s`, plans longer by the
records already inserted, the channels of `s`, and, where every record was in its place, the rest of the list still staged. -/
structure State.CommitRuns (H : Prop) (s u : State) (earlier : List Channel) (l : List SlotNo) : Prop where
  time     : u.deviceTime = s.deviceTime
  lead     : u.minLead = s.minLead
  plans    : ∀ c, (u.plan c).records.length = (s.plan c).records.length + earlier.count c
  channels : ∀ j, (u.record j).map (·.channel) = (s.record j).map (·.channel)
  held     : H → u.Held
  once     : H → l.Nodup
  staged   : H → ∀ j ∈ l, ∃ g, u.group = some g ∧ j ∈ g.staging
  records  : H → ∀ j ∈ l, u.record j = s.record j

/-- One record's insertion, in the words of `Moves.commit`. -/
theorem commitStep_some {u : State} {i : SlotNo} {r : Record} (hr : u.record i = some r) :
    u.commitStep i = ((u.unstage i).setRecord i { r with
      start := if r.start.toNat = 0 then BitVec.ofNat 48 (u.deviceTime.toNat + u.minLead) else r.start
      state := .planned }).enterPlan r.channel i := by
  unfold State.commitStep State.commitRecord
  rw [unstage_record, hr]
  rfl

theorem commitStep_none {u : State} {i : SlotNo} (hr : u.record i = none) : u.commitStep i = u.unstage i :=
  commitRecord_none (s := u.unstage i) hr

theorem unstage_staged {u : State} {i j : SlotNo} (hj : j ≠ i) (h : ∃ g, u.group = some g ∧ j ∈ g.staging) :
    ∃ g, (u.unstage i).group = some g ∧ j ∈ g.staging := by
  obtain ⟨g, hg, hm⟩ := h
  exact ⟨{ g with staging := g.staging.filter (· ≠ i) }, by rw [unstage_group, hg]; rfl, by simpa using ⟨hm, hj⟩⟩

/-- A commit inserts one record before the next (R109). -/
theorem commitFold_moves {s : State} : ∀ (l : List SlotNo) (earlier : List Channel) (u : State),
    s.commitFailure l earlier = none → s.CommitRuns H u earlier l →
    u.Moves H A T (l.foldl State.commitStep u) ∧ (H → (l.foldl State.commitStep u).Held)
  | [], _, u, _, hu => ⟨.refl u, hu.held⟩
  | i :: l, earlier, u, hpass, hu => by
    have hne : H → ∀ j ∈ l, j ≠ i := fun hH j hj e => (List.nodup_cons.mp (hu.once hH)).1 (e ▸ hj)
    have honce : H → l.Nodup := fun hH => (List.nodup_cons.mp (hu.once hH)).2
    have hstaged : H → ∀ j ∈ l, ∃ g, (u.unstage i).group = some g ∧ j ∈ g.staging := fun hH j hj =>
      unstage_staged (hne hH j hj) (hu.staged hH j (List.mem_cons_of_mem _ hj))
    rw [List.foldl_cons]
    unfold State.commitFailure at hpass
    have hch := hu.channels i
    cases hs : s.record i with
    | none =>
      have hr : u.record i = none := by
        rw [hs] at hch
        simpa using hch
      rw [hs] at hpass
      have hidle : u.Acts H [] (u.unstage i) := .unlist u i fun hH g hg hm => by
        obtain ⟨r, hr', _⟩ := (hu.held hH).staged_record hg hm
        rw [hr] at hr'; cases hr'
      rw [commitStep_none hr]
      obtain ⟨h1, h2⟩ := commitFold_moves l earlier (u.unstage i) hpass
        ⟨hu.time, hu.lead, hu.plans, hu.channels, fun hH => acts_held hidle hH (hu.held hH), honce, hstaged,
          fun hH j hj => hu.records hH j (List.mem_cons_of_mem _ hj)⟩
      exact ⟨.trans (moves_of_idle hidle rfl) h1, h2⟩
    | some r0 =>
      obtain ⟨r, hr, hrc⟩ : ∃ r, u.record i = some r ∧ r.channel = r0.channel := by
        rw [hs] at hch
        cases hr : u.record i with
        | none => rw [hr] at hch; cases hch
        | some r => rw [hr] at hch; exact ⟨r, rfl, Option.some.inj hch⟩
      rw [hs] at hpass
      dsimp only at hpass
      cases hck : s.commitCheck r0 (earlier.count r0.channel) with
      | some st => rw [hck] at hpass; cases hpass
      | none =>
        rw [hck] at hpass
        obtain ⟨hlen, hstart⟩ := commitCheck_none hck
        have hlen' : (u.plan r.channel).records.length < 64 := by rw [hrc, hu.plans]; exact hlen
        have hstart' : H → u.deviceTime.toNat ≤
            (if r.start.toNat = 0 then BitVec.ofNat 48 (u.deviceTime.toNat + u.minLead) else r.start).toNat := fun hH => by
          have e : r = r0 := by
            have := hu.records hH i List.mem_cons_self
            rw [hr, hs] at this
            exact Option.some.inj this
          rw [e, hu.time, hu.lead]
          exact hstart
        have hstep : u.Moves H A T (u.commitStep i) := by
          rw [commitStep_some hr]
          exact .commit _ hr (fun hH => hu.staged hH i List.mem_cons_self) hlen' hstart'
        have hheld : H → (u.commitStep i).Held := fun hH => by
          obtain ⟨g, hg, hm⟩ := hu.staged hH i List.mem_cons_self
          rw [commitStep_some hr]
          exact ((hu.held hH).leaveGroup hg hm).enterPlan (r := { r with
            start := if r.start.toNat = 0 then BitVec.ofNat 48 (u.deviceTime.toNat + u.minLead) else r.start
            state := .planned }) rfl fun ho => (hu.held hH).off _ ho i r hr rfl
        have hrecord : ∀ j, j ≠ i → (u.commitStep i).record j = u.record j := fun j hj => by
          rw [commitStep_some hr, enterPlan_record, setRecord_record, if_neg hj]; rfl
        obtain ⟨h1, h2⟩ := commitFold_moves l (r0.channel :: earlier) (u.commitStep i) hpass
          { time := by rw [commitStep_some hr]; exact hu.time
            lead := by rw [commitStep_some hr]; exact hu.lead
            plans := fun c => by
              have hlen := fun k : State => (insertInto_perm k i (u.plan r.channel).records).length_eq
              rw [commitStep_some hr, State.enterPlan, modPlan_plan, List.count_cons, ← hrc]
              split
              · next e =>
                rw [e]
                simpa [hu.plans, Nat.add_assoc] using hlen _
              · next e =>
                have : (r.channel == c) = false := by simpa using Ne.symm e
                simpa [this] using hu.plans c
            channels := fun j => by
              by_cases hj : j = i
              · subst hj
                rw [commitStep_some hr, enterPlan_record, setRecord_record_self, hs]
                exact congrArg some hrc
              · rw [hrecord j hj]; exact hu.channels j
            held := hheld
            once := honce
            staged := fun hH j hj => by rw [commitStep_some hr]; exact hstaged hH j hj
            records := fun hH j hj => by
              rw [hrecord j (hne hH j hj)]; exact hu.records hH j (List.mem_cons_of_mem _ hj) }
        exact ⟨hstep.trans h1, h2⟩

theorem groupCommit_moves {s : State} (hh : H → s.Held) : s.Moves H A T s.groupCommit.2 := by
  unfold State.groupCommit
  split
  · exact .refl s
  · next g hg =>
    split
    · exact .refl s
    · next hpass =>
      obtain ⟨h1, _⟩ := commitFold_moves (H := H) (A := A) (T := T) g.staging [] s hpass
        ⟨rfl, rfl, fun c => rfl, fun j => rfl, hh, fun hH => (hh hH).stagedOnce g hg, fun _ j hj => ⟨g, hg, hj⟩,
          fun _ j _ => rfl⟩
      dsimp only
      rw [commitGroup_eq hg]
      refine h1.trans (moves_of_idle (.close _ fun _ g' hg' => ?_) rfl)
      rw [commitStep_fold, hg] at hg'
      cases hg'
      simp

theorem groupAbort_moves {s : State} (hh : H → s.Held) : s.Moves H A T s.groupAbort.2 := by
  unfold State.groupAbort
  split
  · exact .refl s
  · next hg => exact .blocks (discard_blocks hh hg (.refl _) rfl)

theorem expireGroup_moves {s : State} (hh : H → s.Held) {g : Group} (hg : s.group = some g) (cause : GroupCause) :
    s.Moves H A T (watch (s.maskOfRecords g.staging) s (s.expireGroup g cause)) := by
  refine .blocks (discard_blocks hh hg (.hand _ _) ?_)
  unfold State.expireGroup
  rw [(handOrdinary_addsReports _ _).same]

/-! ### Tags -/

theorem doSnapshot_moves (s : State) (fs : List Byte) : s.Moves H A T (s.doSnapshot fs).2 := by
  unfold State.doSnapshot
  dsimp only
  split
  · exact .refl s
  · split
    · exact .refl s
    · next hn =>
      split
      · exact .refl s
      · split
        · exact .refl s
        · split
          · exact .refl s
          · next hf =>
            dsimp only
            split
            · exact .snapNow _ _ (by simpa using hf) (by simpa using hn)
            · exact .snap _ _ (by simpa using hf) (by simpa using hn)

theorem waitIdle_moves (ha : A .allocate) (s : State) (fs : List Byte) : s.Moves H A T (s.waitIdle fs).2 := by
  unfold State.waitIdle
  dsimp only
  split_ifs with h1 h2
  · exact .refl s
  · exact .refl s
  · exact .waitIdle ha _ (by simpa using h2)

theorem armSync_moves (s : State) (fs : List Byte) : s.Moves H A T (s.armSync fs).2 := by
  unfold State.armSync
  split
  · exact .refl s
  · split_ifs with h1 h2
    · exact .refl s
    · exact .refl s
    · exact .arm _ _ (by simpa using h2) (by simpa using h1)

/-- The owner of a tag's subject ends it (R122). -/
theorem cancelSubject_moves {s : State} (hh : H → s.Held) {e : OpenTag} (he : e ∈ s.tagsOpen) (ht : T e.tag) :
    s.Moves H A T (s.cancelSubject e) := by
  unfold State.cancelSubject
  split
  · split
    · exact .refl s
    · next hl => exact cancelRecord_moves hh (lookup_record hl)
  · next hs =>
    unfold State.cancelArm
    split
    · exact .refl s
    · next ha => exact .disarm _ _ ha (.inr ⟨e, he, rfl, hs⟩)
  · next mask hs => exact .endWait _ ht he hs
  · next m hs =>
    unfold State.cancelSnapshot
    split
    · exact .refl s
    · next hsc => exact .unsnap _ _ hsc (.inr ⟨e, he, rfl, m, hs⟩)

end Sys2Proof.Machine
end

section
/-!
PROOF. The link and the dispatch: every command of a running part is one of the kinds of `Does`.
-/
namespace Sys2Proof.Machine

variable {H : Prop} {A : Special → Prop} {T : Nat → Prop}

/-! ### Requests of the Tag Table and the Notice Queue -/

theorem doCancelTag_moves {s : State} (hh : H → s.Held) {fs : List Byte} (ht : T (field fs 0 1)) :
    s.Moves H A T (s.doCancelTag fs).2 := by
  unfold State.doCancelTag
  dsimp only
  split
  · next e he =>
    have htag : e.tag = field fs 0 1 := by simpa using List.find?_some he
    exact cancelSubject_moves hh (List.mem_of_find?_eq_some he) (htag ▸ ht)
  · split <;> exact .refl s

theorem noticeAck_moves (ha : A .ack) (s : State) (fs : List Byte) : s.Moves H A T (s.noticeAck fs).2 := by
  unfold State.noticeAck
  split
  · exact .refl s
  · next hk => exact .ack ha hk

/-! ### The link -/

theorem takeFrame_links (s : State) (body : List Byte) : s.Links (s.takeFrame body) := by
  unfold State.takeFrame
  split
  · split
    · exact ⟨rfl, id, id, id, .inl ⟨rfl, rfl⟩⟩
    · split
      · exact .refl s
      · split
        · exact ⟨rfl, id, id, id, .inl ⟨rfl, rfl⟩⟩
        · next hroom =>
          refine ⟨rfl, fun _ => ?_, id, id, .inr ⟨rfl, rfl⟩⟩
          have h4 : Config.linkCap = 4 := rfl
          show (s.rxQueue ++ [_]).length ≤ 4
          rw [List.length_append, List.length_singleton]
          omega
  · exact .refl s

theorem discardFrame_links (s : State) (count : Counters → Counters) : s.Links (s.discardFrame count) :=
  ⟨rfl, id, id, id, .inl ⟨rfl, rfl⟩⟩

/-- The assembler and the low span alone. -/
theorem assembler_links (s : State) (a : Assembler) (low : Bool) : s.Links { s with asm := a, lowSpan := low } :=
  ⟨rfl, id, id, id, .inl ⟨rfl, rfl⟩⟩

theorem takeGoodByte_links (s : State) (b : Byte) : s.Links (s.takeGoodByte b) := by
  unfold State.takeGoodByte
  split
  · split
    · exact assembler_links s _ _
    · exact .refl s
  · split
    · exact assembler_links s _ _
    · exact discardFrame_links _ _
  · split
    · exact assembler_links s _ _
    · exact assembler_links s _ _
  · exact assembler_links s _ _
  · unfold State.checkFrame
    split
    · exact (assembler_links s .hunt s.lowSpan).trans (takeFrame_links _ _)
    · exact discardFrame_links _ _

theorem takeByte_links (s : State) (rx : RxByte) : s.Links (s.takeByte rx) := by
  unfold State.takeByte
  split
  · exact (assembler_links s s.asm false).trans (takeGoodByte_links _ _)
  · exact (assembler_links s s.asm true).trans (discardFrame_links _ _)

theorem does_of_links {s t : State} (h : s.Links t) : s.Does H A T t := .link h (.refl t)

/-- The link's own part of a link reset (R168). -/
def State.linkCleared (s : State) : State :=
  { s with asm := .hunt, lowSpan := false, rxQueue := [], replies := [], cache := [], linkOpen := false }

theorem linkCleared_links (s : State) : s.Links s.linkCleared :=
  ⟨rfl, fun _ => Nat.zero_le _, fun _ => Nat.zero_le _, fun _ => Nat.zero_le _, .inl ⟨rfl, rfl⟩⟩

theorem linkReset_does {s : State} (hh : H → s.Held) : s.Does H A T s.linkReset := by
  have hh' : H → s.linkCleared.noticesAtLinkReset.Held := fun hH =>
    (hh hH).congr rfl rfl (fun c => rfl) rfl fun c => .refl _
  refine .link (linkCleared_links s) (.trans (.linkDown _) ?_)
  show State.Moves H A T s.linkCleared.noticesAtLinkReset (match s.linkCleared.noticesAtLinkReset.group with
    | none => s.linkCleared.noticesAtLinkReset
    | some g => watch (s.linkCleared.noticesAtLinkReset.maskOfRecords g.staging) s.linkCleared.noticesAtLinkReset
        (s.linkCleared.noticesAtLinkReset.expireGroup g .link))
  split
  · exact .refl _
  · next hg => exact expireGroup_moves hh' hg .link

/-- The line is given a reply. -/
theorem beginReply_links {s : State} {r : Reply} {rest : List Reply} (h : s.replies = r :: rest) :
    s.Links (s.beginReply r rest) := by
  refine ⟨rfl, id, fun hl => ?_, id, .inl ⟨rfl, rfl⟩⟩
  rw [h] at hl
  exact Nat.le_of_succ_le hl

theorem arbiterChoice_does {s u : State} (h : u.Links s) : u.Does H A T s.arbiterChoice := by
  unfold State.arbiterChoice
  split
  · next hr => exact does_of_links (h.trans (beginReply_links hr))
  · split
    · next hn => exact .link h (.send hn)
    · exact does_of_links h

/-! ### The Dispatcher -/

theorem replyFromCache_does (s : State) : s.Does H A T (s.takeHead (fun rq => (s.cached rq).isSome) fun s1 rq =>
    match s1.cached rq with
    | none => s1
    | some r => { s1 with replies := s1.replies ++ [r] }) := by
  rcases takeHead_cases s (fun rq => (s.cached rq).isSome) fun s1 rq =>
    match s1.cached rq with
    | none => s1
    | some r => { s1 with replies := s1.replies ++ [r] } with e | ⟨rq, rest, hq, hl, _, e⟩
  · rw [e]; exact does_refl s
  · rw [e]
    have hrx : s.rxQueue.length ≤ 4 → rest.length ≤ 4 := fun h => by
      rw [hq] at h; exact Nat.le_of_succ_le h
    split
    · exact does_of_links ⟨rfl, hrx, id, id, .inl ⟨rfl, rfl⟩⟩
    · refine does_of_links ⟨rfl, hrx, fun _ => ?_, id, .inl ⟨rfl, rfl⟩⟩
      show (s.replies ++ [_]).length ≤ 4
      rw [List.length_append, List.length_singleton]
      omega

theorem badKind_does (s : State) (p : Request → Bool) :
    s.Does H A T (s.takeHead p fun s1 rq => s1.answer rq (bare .badKind)) := by
  rcases takeHead_cases s p fun s1 rq => s1.answer rq (bare .badKind) with e | ⟨rq, rest, hq, hl, _, e⟩
  · rw [e]; exact does_refl s
  · rw [e]; exact .request _ hq hl (.refl _)

theorem schedule_does (ha : A .allocate) (s : State) (p : Request → Bool) :
    s.Does H A T (s.takeHead p (carryOut 32 fun fs s => s.doSchedule fs)) := by
  rcases takeHead_cases s p (carryOut 32 fun fs s => s.doSchedule fs) with e | ⟨rq, rest, hq, hl, _, e⟩
  · rw [e]; exact does_refl s
  · rw [e]; exact carryOut_does hq hl 32 fun _ => doSchedule_moves ha _ _

theorem restart_answer (s : State) (rq : Request) (resp : Response) :
    (s.answer rq resp).restartBlocks = s.restartBlocks.answer rq resp := by
  cases h : s.safenSample <;>
    simp only [State.restartBlocks, State.latchAtRestart, State.answer, h, if_true, Bool.false_eq_true, if_false] <;> rfl

/-- The restart reaches the blocks behind the queues, so the reply may as well be given after it. -/
theorem restart_does (ha : A .restart) (s : State) : s.Does H A T (s.takeHead (s.isKind 0x7F) fun s rq =>
    if rq.fields.length + 3 = 3 then (s.answer rq (bare .ok)).restartBlocks else s.answer rq (bare .badLength)) := by
  rcases takeHead_cases s (s.isKind 0x7F) fun s rq =>
    if rq.fields.length + 3 = 3 then (s.answer rq (bare .ok)).restartBlocks else s.answer rq (bare .badLength)
    with e | ⟨rq, rest, hq, hl, _, e⟩
  · rw [e]; exact does_refl s
  · rw [e]
    split
    · have hc : (State.answer { s with rxQueue := rest } rq (bare .ok)).restartBlocks
          = (State.restartBlocks { s with rxQueue := rest }).answer rq (bare .ok) := restart_answer _ rq _
      rw [hc]
      exact .request _ hq hl (.restart _ ha)
    · exact .request _ hq hl (.refl _)

/-! ### Engine work that frees nothing -/

theorem squareExpiry_freeList (s : State) (ch : Channel) : (s.squareExpiry ch).freeList = s.freeList := by
  unfold State.squareExpiry
  split
  · split
    · split <;> rfl
    · rfl
  · rfl

theorem delayExpiry_freeList (s : State) (ch : Channel) : (s.delayExpiry ch).freeList = s.freeList := by
  unfold State.delayExpiry
  split
  · split <;> rfl
  · rfl

theorem beginFiring_freeList (s : State) (ch : Channel) (w d : Nat) : (s.beginFiring ch w d).freeList = s.freeList := by
  unfold State.beginFiring
  dsimp only
  split <;> rfl

theorem retrigger_freeList (s : State) (ch : Channel) (w : Nat) (ph : Phase) (m : RetrigMode) :
    (s.retrigger ch w ph m).freeList = s.freeList := by
  unfold State.retrigger
  split
  · rfl
  all_goals split <;> rfl

theorem takeEdge_freeList (s : State) (ch : Channel) : (s.takeEdge ch).freeList = s.freeList := by
  have hact : (s.edgeToAction ch).freeList = s.freeList := by
    unfold State.edgeToAction
    split
    · split
      · exact beginFiring_freeList _ _ _ _
      · exact retrigger_freeList _ _ _ _ _
    · split
      · unfold State.countEdge
        dsimp only
        split <;> rfl
      · rfl
    · rfl
  unfold State.takeEdge
  split <;> first | rfl | exact hact

/-! ### Every command -/

theorem running_next {f : State → State} {s t : State} (hr : s.inReset = false) (h : whileRunning f s = .next t) : f s = t := by
  rw [whileRunning_running f hr] at h
  cases h
  rfl

/-- The commands that a special step belongs to. -/
def special (c : Instr) : Special → Prop
  | .clock => (∃ p, c = .tick p) ∨ ∃ d, c = .syncEdge d
  | .allocate => c = .schedule ∨ c = .stagingSchedule ∨ c = .waitIdle
  | .ack => c = .noticeAck
  | .restart => c = .restart

/-- The command is a CANCEL_TAG, and the request at the head of the Receive Queue names the tag. -/
def State.cancels (s : State) (c : Instr) (g : Nat) : Prop :=
  c = .cancelTag ∧ ∃ rq rest, s.rxQueue = rq :: rest ∧ rq.fields.length = 1 ∧ field rq.fields 0 1 = g

/-- A command of the running part is made of the steps of the link and the blocks. -/
theorem exec_does {c : Instr} {s t : State} (hr : s.inReset = false) (hp : c ≠ .powerOnReset) (h : exec c s = .next t)
    (hh : H → s.Held) : s.Does H (special c) (s.cancels c) t := by
  have one : ∀ {ch : Channel} {u : State}, s.Acts H [ch] u → s.Does H (special c) (s.cancels c) (watch (maskOf ch) s u) :=
    fun k => does_of_moves (moves_of_acts k hh)
  have mem := fun ch : Channel => List.mem_singleton_self ch
  cases c with unfold exec at h
  | tick pins => exact running_next hr h ▸ does_of_moves (tick_moves (A := special _) (.inl ⟨pins, rfl⟩) s pins)
  | syncEdge dir => exact running_next hr h ▸ does_of_moves (syncEdge_moves (A := special _) (.inr ⟨dir, rfl⟩) s dir)
  | skippedSpanRule ch => exact running_next hr h ▸ does_of_moves (.blocks (loadAtPlan_blocks hh ch))
  | headDue ch => exact running_next hr h ▸ does_of_moves (.blocks (dueAtPlan_blocks hh ch))
  | channelEnd ch => exact running_next hr h ▸ one (takeEnd_acts hh ch)
  | pulseExpiry ch => exact running_next hr h ▸ one (pulseExpiry_acts (mem ch) hh)
  | trainPhaseExpiry ch => exact running_next hr h ▸ one (trainExpiry_acts (mem ch) hh)
  | squarePhaseExpiry ch =>
    have k := squareExpiry_acts (H := H) (C := []) s ch
    exact running_next hr h ▸ does_of_moves (moves_of_idle k (squareExpiry_freeList s ch))
  | delayExpiry ch =>
    have k := delayExpiry_acts (H := H) (C := []) s ch
    exact running_next hr h ▸ does_of_moves (moves_of_idle k (delayExpiry_freeList s ch))
  | pulseEnd ch => exact running_next hr h ▸ one (pulseEnd_acts (mem ch) hh)
  | strobeExpiry ch => exact running_next hr h ▸ one (strobeExpiry_acts (mem ch) hh)
  | armedWindowExpiry ch => exact running_next hr h ▸ one (armedWindow_acts (mem ch) hh)
  | countWindowExpiry ch => exact running_next hr h ▸ one (countWindow_acts (mem ch) hh)
  | filterTimerExpiry ch => exact running_next hr h ▸ does_of_moves (takeFilterExpiry_moves s ch)
  | edge ch =>
    refine running_next hr h ▸ does_of_moves ?_
    split
    · have k : s.Acts H [] (s.modEngine ch fun e => { e with edgesHanded := e.edgesHanded - 1 }) :=
        modEngine_acts s ch rfl rfl
      exact moves_of_idle (k.trans (takeEdge_acts _ ch)) (takeEdge_freeList _ ch)
    · exact .refl s
  | snapshotCapture => exact running_next hr h ▸ does_of_moves (takeCapture_moves s)
  | safenFallingEdge => exact running_next hr h ▸ does_of_moves (takeSafenFall_moves s)
  | safeSettingAtEngine ch =>
    refine running_next hr h ▸ one (takeSafeEvent_acts s ch _ _ fun rest => ?_)
    exact settingAtEngine_acts (mem ch) fun hH => modEngine_held (hh hH) ch ⟨rfl, rfl, id⟩
  | safeSettingAtPlan ch => exact running_next hr h ▸ does_of_moves (.blocks (settingAtPlan_blocks hh ch))
  | safeReleaseAtEngine ch =>
    exact running_next hr h ▸ does_of_moves (takeSafeEvent_moves hh fun u hu => releaseAtEngine_moves hu ch)
  | groupTimerExpiry =>
    refine running_next hr h ▸ does_of_moves ?_
    split
    · exact .refl s
    · next hg =>
      split
      · exact expireGroup_moves hh hg _
      · exact .refl s
  | retryTimerExpiry =>
    refine running_next hr h ▸ does_of_moves ?_
    split
    · exact .retry s
    · exact .refl s
  | gapTimerExpiry =>
    refine running_next hr h ▸ does_of_links ?_
    split
    · exact discardFrame_links s _
    · exact .refl s
  | requestFrameReceived bytes => exact running_next hr h ▸ does_of_links (foldl_links takeByte_links bytes s)
  | linkReset =>
    refine running_next hr h ▸ ?_
    split
    · exact linkReset_does hh
    · exact does_refl s
  | replyFromCache => exact running_next hr h ▸ replyFromCache_does s
  | badKind => exact running_next hr h ▸ badKind_does s _
  | replySend =>
    refine running_next hr h ▸ does_of_links ?_
    split
    · next hrep => exact beginReply_links hrep
    · exact .refl s
  | noticeSend =>
    refine running_next hr h ▸ does_of_moves ?_
    split
    · next hn => exact .send hn
    · exact .refl s
  | identify => exact running_next hr h ▸ takeRequest_does hh _ _ fun _ _ _ _ u _ => .refl u
  | readStatus => exact running_next hr h ▸ takeRequest_does hh _ _ fun _ _ _ _ u _ => readStatus_moves u _
  | readTime => exact running_next hr h ▸ takeRequest_does hh _ _ fun _ _ _ _ u _ => .refl u
  | setGlobal => exact running_next hr h ▸ takeRequest_does hh _ _ fun _ _ _ _ u _ => setGlobal_moves u _
  | setChannel => exact running_next hr h ▸ takeRequest_does hh _ _ fun _ _ _ _ u _ => setChannel_moves u _
  | readConfig => exact running_next hr h ▸ takeRequest_does hh _ _ fun _ _ _ _ u _ => .refl u
  | schedule => exact running_next hr h ▸ schedule_does (A := special _) (.inl rfl) s _
  | stagingSchedule => exact running_next hr h ▸ schedule_does (A := special _) (.inr (.inl rfl)) s _
  | cancel => exact running_next hr h ▸ takeRequest_does hh _ _ fun _ _ _ _ _ hu => doCancel_moves hu _
  | cancelChannel => exact running_next hr h ▸ takeRequest_does hh _ _ fun _ _ _ _ _ hu => doCancelChannel_moves hu _
  | queryAction =>
    refine running_next hr h ▸ takeRequest_does hh _ _ fun _ _ _ _ u _ => ?_
    split <;> exact .refl u
  | queryChannel => exact running_next hr h ▸ takeRequest_does hh _ _ fun _ _ _ _ u _ => queryChannel_moves u _
  | groupBegin => exact running_next hr h ▸ takeRequest_does hh _ _ fun _ _ _ _ u _ => groupBegin_moves u _
  | groupCommit => exact running_next hr h ▸ takeRequest_does hh _ _ fun _ _ _ _ _ hu => groupCommit_moves hu
  | groupAbort => exact running_next hr h ▸ takeRequest_does hh _ _ fun _ _ _ _ _ hu => groupAbort_moves hu
  | snapshot => exact running_next hr h ▸ takeRequest_does hh _ _ fun _ _ _ _ u _ => doSnapshot_moves u _
  | waitIdle => exact running_next hr h ▸ takeRequest_does hh _ _ fun _ _ _ _ u _ => waitIdle_moves (A := special _) (.inr (.inr rfl)) u _
  | armSync => exact running_next hr h ▸ takeRequest_does hh _ _ fun _ _ _ _ u _ => armSync_moves u _
  | cancelTag =>
    exact running_next hr h ▸ takeRequest_does hh _ _ fun rq rest hq hlen _ hu =>
      doCancelTag_moves hu ⟨rfl, rq, rest, hq, Nat.add_right_cancel hlen, rfl⟩
  | noticeAck => exact running_next hr h ▸ takeRequest_does hh _ _ fun _ _ _ _ u _ => noticeAck_moves (A := special _) rfl u _
  | enterSafe => exact running_next hr h ▸ takeRequest_does hh _ _ fun _ _ _ _ u _ => .setLatch u _
  | releaseSafe => exact running_next hr h ▸ takeRequest_does hh _ _ fun _ _ _ _ _ hu => releaseSafe_moves hu
  | restart => exact running_next hr h ▸ restart_does (A := special _) rfl s
  | powerOnReset => exact absurd rfl hp
  | resetRelease b x =>
    unfold execResetRelease at h
    rw [hr] at h
    cases h
    exact does_refl s
  | byteReceived rx => exact running_next hr h ▸ does_of_links (takeByte_links s rx)
  | frameTransmitted =>
    refine running_next hr h ▸ ?_
    split
    · exact arbiterChoice_does (s := { s with tx := none }) ⟨rfl, id, id, id, .inl ⟨rfl, rfl⟩⟩
    · exact does_refl s

end Sys2Proof.Machine
end

section
/-!
PROOF. Every step keeps every record in its place (O57, first part), by the kinds of steps of `Moves`.
-/
namespace Sys2Proof.Machine

/-! ### From commands to steps -/

/-- Held in reset, only the release changes anything (R186). -/
theorem exec_inReset {c : Instr} {s : State} (h : s.inReset = true) (hp : c ≠ .powerOnReset)
    (hr : ∀ b x, c ≠ .resetRelease b x) : exec c s = .next s := by
  cases c
  case powerOnReset => exact absurd rfl hp
  case resetRelease b x => exact absurd rfl (hr b x)
  all_goals
    unfold exec
    exact whileRunning_held _ h

/-- A property that the kinds of steps keep, and that holds in reset and at the release, is kept by every step. `H` may be asked for
where the property gives every record its place. -/
theorem step_keeps {H : Prop} {P : State → Prop} (hH : ∀ s, P s → H → s.Held) (hpend : ∀ (s : State) l, P s → P { s with pending := l })
    (hheld : ∀ l, P (State.held l)) (hrel : ∀ b x l, P (State.released b x l))
    (hdo : ∀ (A : Special → Prop) (T : Nat → Prop) (s t : State), P s → s.Does H A T t → P t)
    {s t : State} (hs : P s) (h : step s = .next t) : P t := by
  unfold step at h
  split at h
  · cases h; exact hs
  · next c rest _ =>
    have hu := hpend s rest hs
    generalize { s with pending := rest } = u at h hu
    by_cases hp : c = .powerOnReset
    · subst hp
      cases h
      exact hheld _
    · cases hr : u.inReset with
      | false => exact hdo _ _ u t hu (exec_does hr hp h fun k => hH u hu k)
      | true =>
        by_cases hx : ∃ b x, c = .resetRelease b x
        · obtain ⟨b, x, rfl⟩ := hx
          unfold exec execResetRelease at h
          rw [hr] at h
          cases h
          exact hrel b x _
        · rw [exec_inReset hr hp fun b x e => hx ⟨b, x, e⟩] at h
          cases h
          exact hu

/-- The reply to a request is a change of the link's own queues. -/
theorem pop_links {s : State} {rq : Request} {rest : List Request} (hq : s.rxQueue = rq :: rest) :
    s.Links { s with rxQueue := rest } :=
  ⟨rfl, fun h => by rw [hq] at h; exact Nat.le_of_succ_le h, id, id, .inl ⟨rfl, rfl⟩⟩

theorem cachePush_length {cache : List Reply} (h : cache.length ≤ 4) (r : Reply) : (cachePush cache r).length ≤ 4 := by
  have h4 : Config.linkCap = 4 := rfl
  unfold cachePush
  split
  · rw [List.length_append, List.length_drop, List.length_singleton]; omega
  · rw [List.length_append, List.length_singleton]; omega

theorem answer_links {s : State} (hl : s.replies.length < 4) (rq : Request) (resp : Response) : s.Links (s.answer rq resp) := by
  refine ⟨rfl, id, fun _ => ?_, fun hc => ?_, .inl ⟨rfl, rfl⟩⟩
  · show (s.replies ++ [_]).length ≤ 4
    rw [List.length_append, List.length_singleton]
    omega
  · show (if rq.seq = 0 then s.cache else cachePush s.cache _).length ≤ 4
    split
    · exact hc
    · exact cachePush_length hc _

/-! ### What the steps at the notices leave -/

/-- Only the Notice Queue, its timers and the waiting completions change. -/
def State.Renotes (s t : State) : Prop :=
  t = { s with notices := t.notices, nextNumber := t.nextNumber, tagsWaiting := t.tagsWaiting, lossCount := t.lossCount,
               retryTimer := t.retryTimer, expiries := t.expiries, stall := t.stall, tx := t.tx }

theorem State.Renotes.trans {s t u : State} (h : s.Renotes t) (k : t.Renotes u) : s.Renotes u := by
  unfold State.Renotes at *
  rw [k, h]

theorem beginNotice_renotes (s : State) (n : Notice) : s.Renotes (s.beginNotice n) := by
  unfold State.beginNotice State.Renotes
  dsimp only
  split <;> rfl

theorem appendWaiting_renotes : ∀ (l : List WaitingTag) (s : State), s.Renotes (appendWaiting l s)
  | [], _ => rfl
  | w :: l, s => by
    unfold appendWaiting
    split
    · have h1 : s.Renotes (State.appendNotice { s with tagsWaiting := l } (.done w.tag w.result w.body)) := rfl
      exact h1.trans (appendWaiting_renotes l _)
    · rfl

theorem appendLoss_renotes (s : State) : s.Renotes s.appendLoss := by
  unfold State.appendLoss
  split <;> rfl

theorem ack_renotes (s : State) (k : Nat) :
    s.Renotes ({ s with notices := s.notices.drop k, expiries := 0 }.refill).retryAfterAck := by

  have h2 : ∀ u : State, u.Renotes u.retryAfterAck := fun u => by
    unfold State.retryAfterAck
    split <;> rfl
  exact ((State.Renotes.trans (t := { s with notices := s.notices.drop k, expiries := 0 }) rfl
    (appendWaiting_renotes _ _)).trans (appendLoss_renotes _)).trans (h2 _)

theorem renotes_held {s t : State} (h : s.Renotes t) (hs : s.Held) : t.Held := by
  rw [h]
  exact hs.congr rfl rfl (fun _ => rfl) rfl fun _ => .refl _

/-- The queues of commands, requests and replies are as they were, and the part is in reset or runs as it did. -/
structure State.SameQueues (s t : State) : Prop where
  pending : t.pending = s.pending
  inReset : t.inReset = s.inReset
  receive : t.rxQueue = s.rxQueue
  reply   : t.replies = s.replies
  cache   : t.cache = s.cache

theorem State.SameQueues.trans {s t u : State} (h : s.SameQueues t) (k : t.SameQueues u) : s.SameQueues u :=
  ⟨k.pending.trans h.pending, k.inReset.trans h.inReset, k.receive.trans h.receive, k.reply.trans h.reply,
    k.cache.trans h.cache⟩

theorem addsReports_sameQueues {s t : State} (h : s.AddsReports t) : s.SameQueues t := by
  constructor <;> rw [h.same]

theorem renotes_sameQueues {s t : State} (h : s.Renotes t) : s.SameQueues t := by
  constructor <;> rw [h]

theorem setLatch_sameQueues (s : State) (c : SafeCause) : s.SameQueues (s.setLatch c) := by
  cases hl : s.latch with
  | true =>
    have e : s.setLatch c = s := by unfold State.setLatch; rw [hl]; rfl
    rw [e]; exact ⟨rfl, rfl, rfl, rfl, rfl⟩
  | false => constructor <;> rw [(setLatch_sets hl c).same]

theorem latchAtRestart_sameQueues (s : State) : s.SameQueues s.latchAtRestart := by
  unfold State.latchAtRestart
  split <;> exact ⟨rfl, rfl, rfl, rfl, rfl⟩

/-- The steps at the blocks leave the queues of commands, requests and replies alone. -/
theorem moves_sameQueues {H : Prop} {A : Special → Prop} {T : Nat → Prop} {s t : State} (h : s.Moves H A T t) : s.SameQueues t := by
  have same : ∀ {u : State}, u.SameQueues u := ⟨rfl, rfl, rfl, rfl, rfl⟩
  have done : ∀ {u v : State} {g res b}, u.SameQueues v → u.SameQueues (v.completeTag g res b) := fun k =>
    k.trans (addsReports_sameQueues (completeTag_addsReports _ _ _ _))
  induction h with
  | refl s => exact same
  | trans _ _ h k => exact h.trans k
  | settles h => constructor <;> rw [h]
  | blocks h => constructor <;> rw [(blocks_works h).same]
  | tick _ pins _ => exact ⟨rfl, rfl, rfl, rfl, rfl⟩
  | setLatch s c => exact setLatch_sameQueues s c
  | fall s => exact State.SameQueues.trans (t := { s with safenFall := false }) ⟨rfl, rfl, rfl, rfl, rfl⟩ (setLatch_sameQueues _ _)
  | clearLatch _ _ => exact ⟨rfl, rfl, rfl, rfl, rfl⟩
  | configure _ _ _ => exact ⟨rfl, rfl, rfl, rfl, rfl⟩
  | load _ _ _ _ _ => exact done ⟨rfl, rfl, rfl, rfl, rfl⟩
  | disarm _ _ _ _ => exact done ⟨rfl, rfl, rfl, rfl, rfl⟩
  | unsnap _ _ _ _ => exact done ⟨rfl, rfl, rfl, rfl, rfl⟩
  | snapNow _ _ _ _ => exact done ⟨rfl, rfl, rfl, rfl, rfl⟩
  | endWait _ _ _ _ => exact done same
  | arm | waitIdle | snap | given | staged | begin | commit => exact ⟨rfl, rfl, rfl, rfl, rfl⟩
  | send _ => exact renotes_sameQueues (beginNotice_renotes _ _)
  | ack _ _ => exact renotes_sameQueues (ack_renotes _ _)
  | retry s => exact ⟨rfl, rfl, rfl, rfl, rfl⟩
  | linkDown s => exact ⟨rfl, rfl, rfl, rfl, rfl⟩
  | restart s _ =>
    obtain ⟨h1, h2, h3, h4, h5⟩ := latchAtRestart_sameQueues s
    exact ⟨h1, h2, h3, h4, h5⟩

/-! ### The single kinds of steps -/

theorem countTick_held {s : State} (hs : s.Held) (pins : Pins) : (s.countTick pins).Held := by
  have heng : ∀ c, (s.countTick pins).engine c
      = tickEngine (s.engine c) (tickTrigger (s.engine c).config (pins.trg.getLsbD c.val) (s.trigger c)).2 := fun c => getAt_tab8 _ c
  refine hs.congr rfl rfl (fun c => rfl) ?_ fun c => ?_
  · have e : (s.countTick pins).group = s.group.map fun g => { g with timer := g.timer - 1 } := rfl
    rw [e]
    cases s.group <;> rfl
  · rw [heng]
    refine ⟨?_, rfl, id⟩
    unfold tickEngine Engine.closeInterval
    cases (s.engine c).current <;> rfl

/-- What the setting of the latch leaves of the places. -/
theorem setLatch_held {s : State} (hs : s.Held) (c : SafeCause) : (s.setLatch c).Held := by
  cases hl : s.latch with
  | true =>
    have e : s.setLatch c = s := by unfold State.setLatch; rw [hl]; rfl
    rw [e]; exact hs
  | false =>
    have k := setLatch_sets hl c
    refine hs.congr (by rw [k.same]) (by rw [k.same]) (fun ch => by rw [k.plans]) (by rw [k.same]) fun ch => ?_
    rw [k.engines]
    exact ⟨rfl, rfl, id⟩

theorem clearLatch_held {s : State} (hs : s.Held) : s.clearLatch.Held := by
  have heng : ∀ c, s.clearLatch.engine c = { s.engine c with safeHanded := (s.engine c).safeHanded ++ [.release] } :=
    fun c => getAt_tab8 _ c
  refine hs.congr rfl rfl (fun _ => rfl) rfl fun c => ?_
  rw [heng]
  exact ⟨rfl, rfl, id⟩

/-- No record names a channel that is not in use (R56). -/
theorem unused_channel {s : State} (hs : s.Held) {ch : Channel} (h : s.channelInUse ch = false) :
    (s.engine ch).state.busy = false ∧ ∀ i r, s.record i = some r → r.channel ≠ ch := by
  unfold State.channelInUse at h
  simp only [Bool.or_eq_false_iff, Bool.not_eq_false'] at h
  obtain ⟨⟨hb, hp⟩, hg⟩ := h
  refine ⟨hb, fun i r hr hc => ?_⟩
  have hplan := hs.mem_plan hr ch
  have hnil : (s.plan ch).records = [] := by simpa using hp
  cases hst : r.state with
  | planned => rw [hnil, hst] at hplan; simp [hc] at hplan
  | waiting => rw [hnil, hst] at hplan; simp [hc] at hplan
  | current =>
    obtain ⟨run, hrun, _⟩ := (hs.runs hr ch).mpr ⟨hc, hst⟩
    have := hs.busy ch
    rw [hrun, hb] at this
    cases this
  | staged =>
    obtain ⟨g, hgs, hm⟩ := (hs.mem_staging hr).mpr hst
    unfold State.stagedOn at hg
    rw [hgs] at hg
    have : (g.staging.any fun i => (s.record i).any fun r => decide (r.channel = ch)) = true :=
      List.any_eq_true.mpr ⟨i, hm, by rw [hr]; simpa using hc⟩
    exact absurd (this.symm.trans hg) (by decide)

theorem configure_held {s : State} (hs : s.Held) {ch : Channel} {f : Engine → Engine} (h : s.channelInUse ch = false)
    (hc : (f (s.engine ch)).current = (s.engine ch).current) (hb : (f (s.engine ch)).state.busy = false) :
    (s.modEngine ch f).Held := by
  obtain ⟨hbusy, hnone⟩ := unused_channel hs h
  refine ⟨hs.freeOnce, hs.free, hs.generation, hs.planOnce, hs.planned, hs.stagedOnce, hs.staged, fun c i => ?_, fun c => ?_,
    fun c ho i r hr => ?_⟩
  · rw [modEngine_engine, modEngine_record, ← hs.current]
    split
    · next e => rw [hc, e]
    · rfl
  · rw [modEngine_engine]
    split
    · rw [hc, hb, ← hbusy, hs.busy]
    · exact hs.busy c
  · rw [modEngine_engine] at ho
    split at ho
    · next e => exact e ▸ hnone i r hr
    · exact hs.off c ho i r hr

/-- Tags, the arm and the snapshot are no places of records. -/
theorem tags_held {s t : State}
    (h : t = { s with tagsOpen := t.tagsOpen, tagsWaiting := t.tagsWaiting, nextTag := t.nextTag, syncArm := t.syncArm,
                      snapshot := t.snapshot, notices := t.notices, nextNumber := t.nextNumber }) (hs : s.Held) : t.Held := by
  rw [h]
  exact hs.congr rfl rfl (fun _ => rfl) rfl fun _ => .refl _

theorem completeTag_held {s : State} (hs : s.Held) (g : Nat) (res : EndResult) (b : DoneBody) : (s.completeTag g res b).Held :=
  addsReports_held hs (completeTag_addsReports s g res b)

theorem forwardLoad_held {s : State} (hs : s.Held) (v : Time) : (s.forwardLoad v).Held := by
  have hplan : ∀ c, ((s.forwardLoad v).plan c).records = (s.plan c).records := fun c => by
    have e : (s.forwardLoad v).plan c = { s.plan c with loads := s.openLoads c ++ [(s.deviceTime, v)] } := getAt_tab8 _ c
    rw [e]
  exact hs.congr rfl rfl hplan rfl fun _ => .refl _

/-- The record of an allocation. -/
def ScheduleFields.record (q : ScheduleFields) (ch : Channel) (start : Time) (st : RecState) (tag : Option Nat) : Record :=
  { channel := ch, params := q.params, start := start, policy := q.policy, report := q.report, tag := tag, state := st }

theorem enterPlan_records (s : State) (ch : Channel) (i : SlotNo) (c : Channel) :
    ((s.enterPlan ch i).plan c).records
      = if c = ch then s.insertInto i (s.plan ch).records else (s.plan c).records := by
  unfold State.enterPlan
  rw [modPlan_plan]
  split <;> rfl

theorem given_held {s : State} (hs : s.Held) {q : ScheduleFields} {ch : Channel} {start : Time} {i : SlotNo} {free : List SlotNo}
    (hf : s.freeList = i :: free) (ho : (s.engine ch).state ≠ .off) :
    ((s.allocated q ch start .planned i free).enterPlan ch i).Held := by
  have h1 := (hs.leavePool hf).enterPlan (r := q.record ch start .planned (if q.tagged then some s.tagToGive else none)) rfl ho
  generalize hu : State.setRecord { s with freeList := free } i
    (q.record ch start .planned (if q.tagged then some s.tagToGive else none)) = u at h1
  have e : ∀ l, (s.allocated q ch start .planned i free).insertInto i l = u.insertInto i l :=
    fun l => insertInto_congr (by rw [← hu]; rfl) fun _ _ => by rw [← hu]; rfl
  have hplans : u.plans = s.plans := by rw [← hu]; rfl
  refine h1.congr (by rw [← hu]; rfl) (by rw [← hu]; rfl) (fun c => ?_) (by rw [← hu]; rfl) fun c => ?_
  · rw [enterPlan_records, show (q.record ch start .planned _).channel = ch from rfl, enterPlan_records, e]
    simp only [State.plan, hplans]
    rfl
  · rw [← hu]; exact .refl _

theorem staged_held {s : State} (hs : s.Held) {q : ScheduleFields} {ch : Channel} {start : Time} {i : SlotNo}
    {free : List SlotNo} {g : Group} (hf : s.freeList = i :: free) (hg : s.group = some g) (ho : (s.engine ch).state ≠ .off) :
    State.Held { s.allocated q ch start .staged i free with group := some { g with staging := g.staging ++ [i] } } :=
  State.Held.congr ((hs.leavePool hf).enterGroup
    (r := q.record ch start .staged (if q.tagged then some s.tagToGive else none)) rfl hg ho) rfl rfl (fun _ => rfl) rfl
    fun _ => .refl _

theorem begin_held {s : State} (hs : s.Held) (id timer : Nat) (h : s.group = none) :
    State.Held { s with group := some { id := id, staging := [], timer := timer } } := by
  refine ⟨hs.freeOnce, hs.free, hs.generation, hs.planOnce, hs.planned, fun g hg => ?_, fun i => ?_, hs.current, hs.busy, hs.off⟩
  · cases hg; exact List.nodup_nil
  · show _ ↔ ∃ r, s.record i = some r ∧ r.state = .staged
    rw [← hs.staged, h]
    simp

theorem commit_held {s : State} (hs : s.Held) {i : SlotNo} {r : Record} (start : Time) (hr : s.record i = some r)
    (hi : ∃ g, s.group = some g ∧ i ∈ g.staging) :
    (((s.unstage i).setRecord i { r with start := start, state := .planned }).enterPlan r.channel i).Held := by
  obtain ⟨g, hg, hm⟩ := hi
  exact (hs.leaveGroup hg hm).enterPlan (r := { r with start := start, state := .planned }) rfl fun ho => hs.off _ ho i r hr rfl

/-- After a restart every slot is FREE (R32). -/
theorem restart_held {s : State} (hs : s.Held) : s.restartBlocks.Held := by
  have hslot : ∀ i, s.restartBlocks.slot i = (s.slot i).takenBack := fun i => getAt_mapAt _ _ i
  have hrec : ∀ i, s.restartBlocks.record i = none := fun i => by
    unfold State.record
    rw [hslot]
    unfold Slot.takenBack
    split
    · assumption
    · rfl
  have hplan : ∀ c, s.restartBlocks.plan c = Plan.powerOn := fun c => getAt_tab8 _ c
  have heng : ∀ c, (s.restartBlocks.engine c).current = none ∧ (s.restartBlocks.engine c).state.busy = false := fun c => by
    have e : s.restartBlocks.engine c = (s.engine c).atRestart s.latchAtRestart.latch := getAt_tab8 _ c
    rw [e]
    cases hoff : decide ((s.engine c).state = .off) <;> simp only [decide_eq_true_eq, decide_eq_false_iff_not] at hoff
    · unfold Engine.atRestart
      rw [if_neg hoff]
      refine ⟨rfl, ?_⟩
      show ChanState.busy (if s.latchAtRestart.latch then .safed else .idle) = false
      split <;> rfl
    · unfold Engine.atRestart
      rw [if_pos hoff]
      exact ⟨rfl, rfl⟩
  have hfree : s.restartBlocks.freeList = s.freeList ++ s.slotsInUse := rfl
  have hmem : ∀ i, i ∈ s.slotsInUse ↔ s.record i ≠ none := fun i => by
    unfold State.slotsInUse
    simp [Option.isSome_iff_ne_none]
  refine ⟨?_, fun i => ?_, fun i => ?_, fun c => ?_, fun c i => ?_, fun g hg => ?_, fun i => ?_, fun c i => ?_, fun c => ?_,
    fun c _ i r hr => ?_⟩
  · rw [hfree, List.nodup_append]
    refine ⟨hs.freeOnce, (List.nodup_finRange 256).filter _, fun a ha b hb e => ?_⟩
    exact (hmem b).mp hb (e ▸ (hs.free a).mp ha)
  · rw [hfree, List.mem_append, hmem, hs.free, hrec]
    simp [em]
  · rw [hslot]
    have := hs.generation i
    unfold Slot.takenBack genAfter
    split
    · exact this
    · dsimp only; split <;> omega
  · rw [hplan]; exact List.nodup_nil
  · rw [hplan, hrec]; simp [Plan.powerOn]
  · cases hg
  · rw [hrec]
    constructor
    · rintro ⟨g, hg, _⟩; cases hg
    · rintro ⟨r, hr, _⟩; cases hr
  · rw [hrec, (heng c).1]; simp
  · rw [(heng c).1, (heng c).2]; rfl
  · rw [hrec] at hr; cases hr

/-! ### All steps -/

theorem moves_held {H : Prop} {A : Special → Prop} {T : Nat → Prop} {s t : State} (h : s.Moves H A T t) (hH : H) : s.Held → t.Held := by
  induction h with
  | refl s => exact id
  | trans _ _ h k => exact fun hs => k (h hs)
  | settles h => exact fun hs => by rw [h]; exact hs.congr rfl rfl (fun _ => rfl) rfl fun _ => .refl _
  | blocks h => exact blocks_held h hH
  | tick _ pins _ => exact fun hs => countTick_held hs pins
  | setLatch s c => exact fun hs => setLatch_held hs c
  | fall s =>
    exact fun hs => setLatch_held (s := { s with safenFall := false })
      (hs.congr rfl rfl (fun _ => rfl) rfl fun _ => .refl _) .line
  | clearLatch _ _ => exact clearLatch_held
  | configure h hc hb => exact fun hs => configure_held hs h hc hb
  | load _ res b h hv =>
    exact fun hs => completeTag_held (forwardLoad_held (tags_held rfl hs) _) _ res b
  | disarm res b h _ => exact fun hs => completeTag_held (tags_held rfl hs) _ res b
  | unsnap res b h _ => exact fun hs => completeTag_held (tags_held rfl hs) _ res b
  | arm v pol _ _ => exact tags_held rfl
  | waitIdle _ mask _ => exact tags_held rfl
  | snap mask time _ _ => exact tags_held rfl
  | snapNow mask b _ _ => exact fun hs => completeTag_held (tags_held rfl hs) _ _ b
  | endWait b _ _ _ => exact fun hs => completeTag_held hs _ _ b
  | given _ hf _ _ ho _ => exact fun hs => given_held hs hf ho
  | staged _ hf _ hg _ ho => exact fun hs => staged_held hs hf hg ho
  | begin id timer h => exact fun hs => begin_held hs id timer h
  | commit start hr hi _ _ => exact fun hs => commit_held hs start hr (hi hH)
  | send _ => exact renotes_held (beginNotice_renotes _ _)
  | ack _ _ => exact renotes_held (ack_renotes _ _)
  | retry s => exact renotes_held rfl
  | linkDown s => exact renotes_held rfl
  | restart s _ => exact restart_held

/-- A command keeps what the link's own changes keep and the steps of the blocks keep. -/
theorem does_keeps {H : Prop} {A : Special → Prop} {T : Nat → Prop} {P : State → Prop} (hl : ∀ {s t : State}, s.Links t → P s → P t)
    (hm : ∀ {s t : State}, s.Moves H A T t → P s → P t) {s t : State} (h : s.Does H A T t) (hs : P s) : P t := by
  cases h with
  | link h k => exact hm k (hl h hs)
  | @request rq rest u resp hq hroom k =>
    have hu : P u := hm k (hl (pop_links hq) hs)
    have hsame : u.replies = s.replies := (moves_sameQueues k).reply
    exact hl (answer_links (by rw [hsame]; exact hroom) rq resp) hu

end Sys2Proof.Machine
end

section
/-!
PROOF. Every step keeps the plans in order and the latch with the line (O57).
-/
namespace Sys2Proof.Machine

/-! ### The plans -/

theorem startOf_congr {s t : State} {i : SlotNo} (h : t.record i = s.record i) : t.startOf i = s.startOf i := by
  unfold State.startOf; rw [h]

/-- A step that only takes records out of plans, lets time go on and hands nothing from a later time. -/
theorem plansKept_of_sublist {s t : State} (hs : s.PlansKept) (hp : ∀ c, (t.plan c).records.Sublist (s.plan c).records)
    (hr : ∀ c, ∀ i ∈ (t.plan c).records, t.record i = s.record i)
    (hw : ∀ i r, t.record i = some r → r.state = .waiting → s.record i = some r)
    (ht : s.deviceTime.toNat ≤ t.deviceTime.toNat)
    (hl : ∀ c, ∀ l ∈ (t.plan c).loads, l ∈ (s.plan c).loads ∨ l.1.toNat ≤ t.deviceTime.toNat)
    (hset : t.latch = false → ∀ c, (t.plan c).settings = 0) : t.PlansKept := by
  refine ⟨fun c => ?_, fun c i hi r hri => ?_, fun i r hri hst => ?_, fun c l hm => ?_, hset⟩
  · have e : (t.plan c).records.map t.startOf = (t.plan c).records.map s.startOf :=
      List.map_congr_left fun i hi => startOf_congr (hr c i hi)
    rw [e]
    exact (hs.order c).sublist ((hp c).map _)
  · rw [hr c i (List.mem_of_mem_tail hi)] at hri
    exact hs.waiting c i ((hp c).tail.subset hi) r hri
  · exact (hs.reached i r (hw i r hri hst) hst).trans ht
  · rcases hl c l hm with h | h
    · exact (hs.loads c l h).trans ht
    · exact h

/-- A step that leaves the records, the plans' lists and the time alone. -/
theorem plansKept_of_same {s t : State} (hs : s.PlansKept) (hslots : t.slots = s.slots)
    (hp : ∀ c, (t.plan c).records = (s.plan c).records) (ht : t.deviceTime = s.deviceTime)
    (hl : ∀ c, ∀ l ∈ (t.plan c).loads, l ∈ (s.plan c).loads) (hset : t.latch = false → ∀ c, (t.plan c).settings = 0) :
    t.PlansKept := by
  have hrec : ∀ i, t.record i = s.record i := fun i => by simp only [State.record, State.slot, hslots]
  exact plansKept_of_sublist hs (fun c => by rw [hp]) (fun _ i _ => hrec i) (fun i r h _ => hrec i ▸ h) (by rw [ht])
    (fun c l h => .inl (hl c l h)) hset

/-- The state differs from a good one in nothing that the plans' order reads. -/
theorem plansKept_congr {s t : State} (hs : s.PlansKept) (hslots : t.slots = s.slots) (hp : t.plans = s.plans)
    (ht : t.deviceTime = s.deviceTime) (hl : t.latch = s.latch) : t.PlansKept := by
  have e : ∀ c, t.plan c = s.plan c := fun c => by simp only [State.plan, hp]
  exact plansKept_of_same hs hslots (fun c => by rw [e]) ht (fun c l h => e c ▸ h) fun h c => by
    rw [e]; exact hs.settings (hl ▸ h) c

theorem addsReports_plansKept {s t : State} (hs : s.PlansKept) (h : s.AddsReports t) : t.PlansKept := by
  rw [h.same]
  exact plansKept_congr hs rfl rfl rfl rfl

/-- A plan's own change. -/
theorem modPlan_plansKept {H : Prop} (hH : H) {s : State} (hs : s.PlansKept) {ch : Channel} {f : Plan → Plan}
    (h : (s.plan ch).Eases H (f (s.plan ch))) : (s.modPlan ch f).PlansKept := by
  have hplan : ∀ c, (s.modPlan ch f).plan c = if c = ch then f (s.plan ch) else s.plan c := fun c => modPlan_plan s ch c f
  refine plansKept_of_same hs rfl (fun c => ?_) rfl (fun c l hl => ?_) fun hlatch c => ?_
  · rw [hplan]
    split
    · next e => rw [h.kept hH, e]
    · rfl
  · rw [hplan] at hl
    split at hl
    · next e => exact e ▸ h.loads l hl
    · exact hl
  · rw [hplan]
    split
    · exact Nat.le_zero.mp (hs.settings hlatch ch ▸ h.settings)
    · exact hs.settings hlatch c

theorem leavePlan_plan (s : State) (ch : Channel) (i : SlotNo) (c : Channel) :
    (s.leavePlan ch i).plan c
      = if c = ch then { s.plan ch with records := (s.plan ch).records.filter (· ≠ i) } else s.plan c := modPlan_plan _ _ _ _

/-- A record leaves its plan, and what becomes of it is no WAITING record. -/
theorem leaves_plansKept {s t : State} (hs : s.PlansKept) (hh : s.Held) {ch : Channel} {i : SlotNo}
    (hi : i ∈ (s.plan ch).records) (hp : t.plans = (s.leavePlan ch i).plans) (ht : t.deviceTime = s.deviceTime)
    (hl : t.latch = s.latch) (hr : ∀ j, j ≠ i → t.record j = s.record j)
    (hw : ∀ r, t.record i = some r → r.state ≠ .waiting) : t.PlansKept := by
  have hplan : ∀ c, t.plan c = (s.leavePlan ch i).plan c := fun c => by simp only [State.plan, hp]
  have hnot : ∀ c, i ∉ ((s.leavePlan ch i).plan c).records := (hh.leavePlan hi).notPlanned
  refine plansKept_of_sublist hs (fun c => ?_) (fun c j hj => hr j fun e => ?_) (fun j r hj hst => ?_) (by rw [ht])
    (fun c l hm => .inl ?_) fun hlatch c => ?_
  · rw [hplan, leavePlan_plan]
    split
    · next e => rw [e]; exact List.filter_sublist
    · exact List.Sublist.refl _
  · rw [hplan] at hj; exact hnot c (e ▸ hj)
  · by_cases e : j = i
    · subst e; exact absurd hst (hw r hj)
    · rw [← hr j e]; exact hj
  · rw [hplan, leavePlan_plan] at hm
    split at hm
    · next e => exact e ▸ hm
    · exact hm
  · rw [hplan, leavePlan_plan]
    split
    · exact hs.settings (hl ▸ hlatch) ch
    · exact hs.settings (hl ▸ hlatch) c

/-- A record that is in no plan is freed. -/
theorem freed_plansKept {s : State} (hs : s.PlansKept) {i : SlotNo} (hi : ∀ c, i ∉ (s.plan c).records) (r : Record)
    (b : EndedBody) : (s.freed i r b).PlansKept := by
  have hplan : ∀ c, (s.freed i r b).plan c = s.plan c := freed_plan s i r b
  refine plansKept_of_sublist hs (fun c => by rw [hplan]) (fun c j hj => ?_) (fun j q hj _ => ?_) (by rw [freed_deviceTime])
    (fun c l hm => .inl (hplan c ▸ hm)) fun hlatch c => ?_
  · rw [hplan] at hj
    exact freed_record_ne _ _ _ fun e => hi c (e ▸ hj)
  · by_cases e : j = i
    · subst e; simp at hj
    · rwa [freed_record_ne _ _ _ e] at hj
  · rw [freed_latch] at hlatch
    rw [hplan]; exact hs.settings hlatch c

/-- Device time as the plan has taken it is not ahead of device time (R49). -/
theorem planTime_le {s : State} (hs : s.PlansKept) (ch : Channel) : (s.planTime ch).toNat ≤ s.deviceTime.toNat := by
  unfold State.planTime
  split
  · exact le_refl _
  · next l rest hl =>
    exact hs.loads ch _ ((List.dropWhile_suffix _).subset (show _ ∈ s.openLoads ch by rw [hl]; exact List.mem_cons_self))

/-- A due head that becomes WAITING. -/
theorem waits_plansKept {s : State} (hs : s.PlansKept) (hh : s.Held) {ch : Channel} {i : SlotNo} {rest : List SlotNo}
    {r : Record} (hr : s.record i = some r) (hl : (s.plan ch).records = i :: rest) (hdue : s.isDue ch r = true) :
    (s.setRecord i { r with state := .waiting }).PlansKept := by
  have hne : ∀ j, j ≠ i → (s.setRecord i { r with state := .waiting }).record j = s.record j := fun j hj => by
    rw [setRecord_record, if_neg hj]
  have hstart : ∀ j, (s.setRecord i { r with state := .waiting }).startOf j = s.startOf j := fun j => by
    by_cases hj : j = i
    · subst hj
      unfold State.startOf
      rw [setRecord_record_self, hr]
      rfl
    · exact startOf_congr (hne j hj)
  have htail : ∀ c, i ∉ (s.plan c).records.tail := fun c hm => by
    have hc := ((hh.mem_plan hr c).mp (List.mem_of_mem_tail hm)).1
    have hc' := ((hh.mem_plan hr ch).mp (by rw [hl]; exact List.mem_cons_self)).1
    have hn := hh.planOnce ch
    rw [hl, List.nodup_cons] at hn
    rw [← hc, hc', hl] at hm
    exact hn.1 hm
  refine ⟨fun c => ?_, fun c j hj q hq => ?_, fun j q hq hst => ?_, hs.loads, hs.settings⟩
  · rw [setRecord_plan, List.map_congr_left fun j _ => hstart j]
    exact hs.order c
  · rw [hne j fun e => htail c (e ▸ hj)] at hq
    exact hs.waiting c j hj q hq
  · by_cases hj : j = i
    · subst hj
      rw [setRecord_record_self] at hq
      cases hq
      exact (of_decide_eq_true hdue).trans (planTime_le hs ch)
    · rw [hne j hj] at hq; exact hs.reached j q hq hst

/-- A PLANNED record whose start is not in the past enters a plan behind every WAITING one (R34). -/
theorem enters_plansKept {s u : State} (hs : s.PlansKept) (hh : s.Held) (hp : u.plans = s.plans) (ht : u.deviceTime = s.deviceTime)
    (hl : u.latch = s.latch) {i : SlotNo} {r : Record} (hr : u.record i = some r) (hst : r.state = .planned)
    (hother : ∀ j, j ≠ i → u.record j = s.record j) (hi : ∀ c, i ∉ (s.plan c).records)
    (hstart : s.deviceTime.toNat ≤ r.start.toNat) (ch : Channel) : (u.enterPlan ch i).PlansKept := by
  have hplan : ∀ c, u.plan c = s.plan c := fun c => by simp only [State.plan, hp]
  have hrec : ∀ c, ∀ j ∈ (s.plan c).records, u.record j = s.record j := fun c j hj => hother j fun e => hi c (e ▸ hj)
  have hfull : ∀ c, (u.enterPlan ch i).plan c
      = if c = ch then { u.plan ch with records := u.insertInto i (u.plan ch).records } else u.plan c := fun c =>
    modPlan_plan _ _ _ _
  have horder : ∀ c, u.InOrder (u.plan c).records := fun c => by
    unfold State.InOrder
    rw [hplan, List.map_congr_left fun j hj => startOf_congr (hrec c j hj)]
    exact hs.order c
  refine ⟨fun c => ?_, fun c j hj q hq => ?_, fun j q hq hw => ?_, fun c l hm => ?_, fun hlatch c => ?_⟩
  · rw [enterPlan_records, show (u.enterPlan ch i).startOf = u.startOf from rfl]
    split
    · exact insertInto_inOrder i (horder ch)
    · exact horder c
  · rw [enterPlan_record] at hq
    rw [enterPlan_records] at hj
    by_cases hji : j = i
    · subst hji
      rw [hr] at hq
      cases hq
      exact hst
    rw [hother j hji] at hq
    split at hj
    · obtain ⟨before, after, hba, hins, _, hafter⟩ := insertInto_split u i (u.plan ch).records
      rw [hins] at hj
      rw [hplan] at hba
      cases before with
      | cons b bs =>
        refine hs.waiting ch j ?_ q hq
        rw [hba]
        simp only [List.cons_append, List.tail_cons, List.mem_append, List.mem_cons] at hj ⊢
        exact hj.imp_right fun h => h.resolve_left hji
      | nil =>
        rw [List.nil_append] at hba
        rw [List.nil_append, List.tail_cons] at hj
        cases hafter' : after with
        | nil => rw [hafter'] at hj; cases hj
        | cons a as =>
          rw [hafter'] at hj
          rcases List.mem_cons.mp hj with rfl | hj
          · have hlater : u.startOf i < u.startOf j := hafter j (by rw [hafter']; rfl)
            have hmem : j ∈ (s.plan ch).records := by rw [hba, hafter']; exact List.mem_cons_self
            have h1 : u.startOf i = r.start.toNat := by unfold State.startOf; rw [hr]; rfl
            have h2 : u.startOf j = q.start.toNat := by
              unfold State.startOf; rw [hrec ch j hmem, hq]; rfl
            rcases ((hh.mem_plan hq ch).mp hmem).2 with hqs | hqs
            · exact hqs
            · have := hs.reached j q hq hqs
              omega
          · exact hs.waiting ch j (by rw [hba, hafter']; exact hj) q hq
    · rw [hplan] at hj
      exact hs.waiting c j hj q hq
  · rw [enterPlan_record] at hq
    by_cases hji : j = i
    · subst hji
      rw [hr] at hq
      cases hq
      rw [hst] at hw
      cases hw
    · rw [hother j hji] at hq
      rw [enterPlan_deviceTime, ht]
      exact hs.reached j q hq hw
  · rw [enterPlan_deviceTime, ht]
    rw [hfull] at hm
    split at hm
    · rw [hplan] at hm; exact hs.loads ch l hm
    · rw [hplan] at hm; exact hs.loads c l hm
  · have hlatch' : s.latch = false := hl ▸ hlatch
    rw [hfull]
    split
    · show (u.plan ch).settings = 0
      rw [hplan]; exact hs.settings hlatch' ch
    · rw [hplan]; exact hs.settings hlatch' c

/-! ### All work -/

theorem acts_plansKept {C : List Channel} {H : Prop} {s t : State} (h : s.Acts H C t) (hH : H) :
    s.Held → s.PlansKept → t.PlansKept := by
  induction h with
  | refl s => exact fun _ hs => hs
  | trans h _ ih ik => exact fun hh hs => ik (acts_held h hH hh) (ih hh hs)
  | engine s ch f _ => exact fun _ hs => plansKept_congr hs rfl rfl rfl rfl
  | plan s ch f h => exact fun _ hs => modPlan_plansKept hH hs h
  | hand s b => exact fun _ hs => addsReports_plansKept hs (handOrdinary_addsReports s b)
  | drop b _ hr hi =>
    intro hh hs
    exact leaves_plansKept hs hh (hi hH) (by rw [freed_plans]) (by rw [freed_deviceTime]; rfl) (by rw [freed_latch]; rfl)
      (fun j hj => freed_record_ne _ _ _ hj) fun r hr' => by simp at hr'
  | @finish s ch run r f b _ hr hrun hf hst =>
    intro hh hs
    refine freed_plansKept (s := s.modEngine ch f) (plansKept_congr hs rfl rfl rfl rfl) (hh.leaveEngine hrun hf ?_ ?_).notPlanned _ b
    · rcases hst with e | e <;> rw [e] <;> rfl
    · rcases hst with e | e <;> rw [e] <;> exact nofun
  | @start s ch i r hr hi _ =>
    intro hh hs
    have hrec : ∀ j, ((s.leavePlan ch i).startAction ch i r).record j
        = if j = i then some { r with state := .current } else s.record j := fun j => setRecord_record _ _ _ _
    refine leaves_plansKept hs hh (hi hH) rfl rfl rfl (fun j hj => by rw [hrec, if_neg hj]) fun q hq => ?_
    rw [hrec, if_pos rfl] at hq
    cases hq
    exact nofun
  | wait hr h =>
    intro hh hs
    obtain ⟨⟨rest, hl⟩, _, hdue⟩ := h hH
    exact waits_plansKept hs hh hr hl hdue
  | unlist s i _ => exact fun _ hs => plansKept_congr hs rfl rfl rfl rfl
  | @unstage s i r b _ hr hi =>
    intro hh hs
    obtain ⟨g, hg, hm⟩ := hi hH
    exact freed_plansKept (s := s.unstage i) (plansKept_congr hs rfl rfl rfl rfl) (hh.leaveGroup hg hm).notPlanned _ b
  | close s _ => exact fun _ hs => plansKept_congr hs rfl rfl rfl rfl

theorem blocks_plansKept {H : Prop} {s t : State} (h : s.Blocks H t) (hH : H) : s.Held → s.PlansKept → t.PlansKept := by
  induction h with
  | refl s => exact fun _ hs => hs
  | trans h _ ih ik => exact fun hh hs => ik (blocks_held h hH hh) (ih hh hs)
  | watched _ h _ => exact fun hh hs => addsReports_plansKept (acts_plansKept h hH hh hs) (watch_addsReports _ _ _)

theorem timeAfterTick_ge (t : Time) : t.toNat ≤ (timeAfterTick t).toNat := by
  unfold timeAfterTick
  have hmax : maxTime = 2 ^ 48 - 1 := rfl
  split
  · rw [BitVec.toNat_ofNat]; omega
  · exact le_refl _

theorem setLatch_plansKept {s : State} (hs : s.PlansKept) (c : SafeCause) : (s.setLatch c).PlansKept := by
  cases hl : s.latch with
  | true =>
    have e : s.setLatch c = s := by unfold State.setLatch; rw [hl]; rfl
    rw [e]; exact hs
  | false =>
    have k := setLatch_sets hl c
    refine plansKept_of_same hs (by rw [k.same]) (fun ch => by rw [k.plans]) (by rw [k.same]) (fun ch l hm => ?_) fun hlatch => ?_
    · rw [k.plans] at hm; exact hm
    · rw [setLatch_latch] at hlatch; cases hlatch

theorem forwardLoad_plansKept {s : State} (hs : s.PlansKept) {v : Time} (hv : s.deviceTime.toNat < v.toNat) :
    (s.forwardLoad v).PlansKept := by
  have hplan : ∀ c, (s.forwardLoad v).plan c = { s.plan c with loads := s.openLoads c ++ [(s.deviceTime, v)] } :=
    fun c => getAt_tab8 _ c
  refine plansKept_of_sublist hs (fun c => by rw [hplan]) (fun _ _ _ => rfl) (fun _ _ h _ => h) hv.le (fun c l hm => ?_)
    fun hlatch c => by rw [hplan]; exact hs.settings hlatch c
  rw [hplan, List.mem_append, List.mem_singleton] at hm
  rcases hm with h | rfl
  · exact .inl ((List.dropWhile_suffix _).subset h)
  · exact .inr hv.le

/-- The tags, the arm, the snapshot and the queues are not read by the plans' order. -/
theorem tags_plansKept {s t : State}
    (h : t = { s with tagsOpen := t.tagsOpen, tagsWaiting := t.tagsWaiting, nextTag := t.nextTag, syncArm := t.syncArm,
                      snapshot := t.snapshot, notices := t.notices, nextNumber := t.nextNumber }) (hs : s.PlansKept) :
    t.PlansKept := by
  rw [h]; exact plansKept_congr hs rfl rfl rfl rfl

theorem completeTag_plansKept {s : State} (hs : s.PlansKept) (g : Nat) (res : EndResult) (b : DoneBody) :
    (s.completeTag g res b).PlansKept := addsReports_plansKept hs (completeTag_addsReports s g res b)

theorem renotes_plansKept {s t : State} (h : s.Renotes t) (hs : s.PlansKept) : t.PlansKept := by
  rw [h]; exact plansKept_congr hs rfl rfl rfl rfl

/-- An allocated record that is staged is in no plan. -/
theorem staged_plansKept {s t : State} (hs : s.PlansKept) {i : SlotNo} {r : Record} (hp : t.plans = s.plans)
    (ht : t.deviceTime = s.deviceTime) (hl : t.latch = s.latch) (hr : t.record i = some r) (hst : r.state = .staged)
    (hother : ∀ j, j ≠ i → t.record j = s.record j) (hi : ∀ c, i ∉ (s.plan c).records) : t.PlansKept := by
  have hplan : ∀ c, t.plan c = s.plan c := fun c => by simp only [State.plan, hp]
  refine plansKept_of_sublist hs (fun c => by rw [hplan]) (fun c j hj => hother j fun e => hi c ?_) (fun j q hq hw => ?_)
    (by rw [ht]) (fun c l hm => .inl (hplan c ▸ hm)) fun hlatch c => by rw [hplan]; exact hs.settings (hl ▸ hlatch) c
  · rw [← e, ← hplan]; exact hj
  · by_cases e : j = i
    · subst e
      rw [hr] at hq
      cases hq
      rw [hst] at hw
      cases hw
    · rw [← hother j e]; exact hq

theorem allocated_record (s : State) (q : ScheduleFields) (ch : Channel) (start : Time) (st : RecState) (i : SlotNo)
    (free : List SlotNo) (j : SlotNo) : (s.allocated q ch start st i free).record j
      = if j = i then some (q.record ch start st (if q.tagged then some s.tagToGive else none)) else s.record j := by
  simp only [State.record, State.slot, State.allocated, getAt_setAt]
  split <;> rfl

/-- A slot of the free list is in no plan. -/
theorem free_not_planned {s : State} (hh : s.Held) {i : SlotNo} {free : List SlotNo} (hf : s.freeList = i :: free) (c : Channel) :
    i ∉ (s.plan c).records := fun hm => by
  obtain ⟨r, hr, _⟩ := hh.plan_record hm
  exact hh.not_free hr (by rw [hf]; exact List.mem_cons_self)

/-- Every kind of step keeps the plans in order. -/
theorem moves_plansKept {H : Prop} {A : Special → Prop} {T : Nat → Prop} {s t : State} (h : s.Moves H A T t) (hH : H) :
    s.Held → s.PlansKept → t.PlansKept := by
  induction h with
  | refl s => exact fun _ hs => hs
  | trans h _ ih ik => exact fun hh hs => ik (moves_held h hH hh) (ih hh hs)
  | settles h => exact fun _ hs => by rw [h]; exact plansKept_congr hs rfl rfl rfl rfl
  | blocks h => exact blocks_plansKept h hH
  | @tick s _ pins _ =>
    exact fun _ hs => plansKept_of_sublist hs (fun _ => List.Sublist.refl _) (fun _ _ _ => rfl) (fun _ _ h _ => h)
      (timeAfterTick_ge s.deviceTime) (fun _ _ h => .inl h) hs.settings
  | setLatch s c => exact fun _ hs => setLatch_plansKept hs c
  | fall s => exact fun _ hs => setLatch_plansKept (s := { s with safenFall := false }) (plansKept_congr hs rfl rfl rfl rfl) .line
  | clearLatch _ h => exact fun _ hs => plansKept_of_same hs rfl (fun _ => rfl) rfl (fun _ _ h => h) fun _ => h
  | configure _ _ _ => exact fun _ hs => plansKept_congr hs rfl rfl rfl rfl
  | @load s arm _ res b _ hv =>
    exact fun _ hs => completeTag_plansKept (forwardLoad_plansKept (s := { s with syncArm := none }) (tags_plansKept rfl hs) hv) _ res b
  | disarm res b _ _ => exact fun _ hs => completeTag_plansKept (tags_plansKept rfl hs) _ res b
  | unsnap res b _ _ => exact fun _ hs => completeTag_plansKept (tags_plansKept rfl hs) _ res b
  | arm v pol _ _ => exact fun _ => tags_plansKept rfl
  | waitIdle _ mask _ => exact fun _ => tags_plansKept rfl
  | snap mask time _ _ => exact fun _ => tags_plansKept rfl
  | snapNow mask b _ _ => exact fun _ hs => completeTag_plansKept (tags_plansKept rfl hs) _ _ b
  | endWait b _ _ _ => exact fun _ hs => completeTag_plansKept hs _ _ b
  | @given s q ch start i free _ hf _ _ _ hst =>
    exact fun hh hs => enters_plansKept (u := s.allocated q ch start .planned i free) hs hh rfl rfl rfl
      (by rw [allocated_record, if_pos rfl]) rfl
      (fun j hj => by rw [allocated_record, if_neg hj]) (free_not_planned hh hf) hst _
  | @staged s q ch start i free g _ hf _ _ _ _ =>
    refine fun hh hs => staged_plansKept hs (i := i) rfl rfl rfl
      (r := q.record ch start .staged (if q.tagged then some s.tagToGive else none)) ?_ rfl (fun j hj => ?_)
      (free_not_planned hh hf)
    · exact (allocated_record s q ch start .staged i free i).trans (if_pos rfl)
    · exact (allocated_record s q ch start .staged i free j).trans (if_neg hj)
  | begin _ _ _ => exact fun _ hs => plansKept_congr hs rfl rfl rfl rfl
  | @commit s i r start hr hi _ hst =>
    intro hh hs
    obtain ⟨g, hg, hm⟩ := hi hH
    exact enters_plansKept (u := (s.unstage i).setRecord i { r with start := start, state := .planned }) hs hh rfl rfl rfl (setRecord_record_self _ _ _) rfl
      (fun j hj => by rw [setRecord_record, if_neg hj]; rfl) (hh.leaveGroup hg hm).notPlanned (hst hH) _
  | send _ => exact fun _ => renotes_plansKept (beginNotice_renotes _ _)
  | ack _ _ => exact fun _ => renotes_plansKept (ack_renotes _ _)
  | retry s => exact fun _ => renotes_plansKept rfl
  | linkDown s => exact fun _ => renotes_plansKept rfl
  | restart s _ =>
    intro hh _
    have hplan : ∀ c, s.restartBlocks.plan c = Plan.powerOn := fun c => getAt_tab8 _ c
    have hr := restart_held hh
    refine ⟨fun c => by rw [hplan]; exact List.Pairwise.nil, fun c i hi => ?_, fun i r hri hst => ?_, fun c l hl => ?_,
      fun _ c => by rw [hplan]; rfl⟩
    · rw [hplan] at hi; cases hi
    · have := (hr.mem_plan hri r.channel).mpr ⟨rfl, .inr hst⟩
      rw [hplan] at this
      cases this
    · rw [hplan] at hl; cases hl

/-! ### The line -/

theorem lineKept_congr {s t : State} (hs : s.LineKept) (h1 : t.safenSample = s.safenSample) (h2 : t.latch = s.latch)
    (h3 : t.safenFall = s.safenFall) : t.LineKept := by
  unfold State.LineKept at *
  rw [h1, h2, h3]; exact hs

theorem addsReports_lineKept {s t : State} (h : s.AddsReports t) (hs : s.LineKept) : t.LineKept :=
  lineKept_congr hs (by rw [h.same]) (by rw [h.same]) (by rw [h.same])

theorem renotes_lineKept {s t : State} (h : s.Renotes t) (hs : s.LineKept) : t.LineKept :=
  lineKept_congr hs (by rw [h]) (by rw [h]) (by rw [h])

theorem setLatch_lineKept (s : State) (c : SafeCause) : (s.setLatch c).LineKept := fun _ => .inl (setLatch_latch s c)

theorem latchAtRestart_lineKept (s : State) : s.latchAtRestart.LineKept := by
  unfold State.LineKept State.latchAtRestart
  split
  · next h => exact fun h' => by rw [show s.safenSample = false from h'] at h; cases h
  · exact fun _ => .inl rfl

/-- Every kind of step keeps the latch with the line. -/
theorem moves_lineKept {H : Prop} {A : Special → Prop} {T : Nat → Prop} {s t : State} (h : s.Moves H A T t) : s.LineKept → t.LineKept := by
  have done : ∀ {u v : State} {g res b}, (u.LineKept → v.LineKept) → u.LineKept → (v.completeTag g res b).LineKept :=
    fun k hs => addsReports_lineKept (completeTag_addsReports _ _ _ _) (k hs)
  have same : ∀ {u : State}, u.LineKept → u.LineKept := id
  induction h with
  | refl s => exact id
  | trans _ _ ih ik => exact ik ∘ ih
  | settles h => exact fun hs => lineKept_congr hs (by rw [h]) (by rw [h]) (by rw [h])
  | blocks h =>
    have k := (blocks_works h).same
    exact fun hs => lineKept_congr hs (by rw [k]) (by rw [k]) (by rw [k])
  | @tick s _ pins hf =>
    intro hs h
    cases hsample : s.safenSample with
    | true =>
      refine .inr ?_
      show (s.safenSample && !pins.safen) = true
      rw [hsample, show pins.safen = false from h]
      rfl
    | false =>
      rcases hs hsample with h' | h'
      · exact .inl h'
      · rw [hf] at h'; cases h'
  | setLatch s c => exact fun _ => setLatch_lineKept s c
  | fall s => exact fun _ => setLatch_lineKept _ _
  | @clearLatch s h _ => exact fun _ h' => by rw [show s.safenSample = false from h'] at h; cases h
  | configure | arm | waitIdle | snap | given | staged | begin | commit => exact same
  | load _ _ _ _ _ => exact done fun hs => lineKept_congr hs rfl rfl rfl
  | disarm _ _ _ _ => exact done fun hs => lineKept_congr hs rfl rfl rfl
  | unsnap _ _ _ _ => exact done fun hs => lineKept_congr hs rfl rfl rfl
  | snapNow _ _ _ _ => exact done fun hs => lineKept_congr hs rfl rfl rfl
  | endWait _ _ _ _ => exact done same
  | send _ => exact renotes_lineKept (beginNotice_renotes _ _)
  | ack _ _ => exact renotes_lineKept (ack_renotes _ _)
  | retry s => exact same
  | linkDown s => exact same
  | restart s _ => exact fun _ => latchAtRestart_lineKept s

/-! ### Reset and release -/

/-- No record in use, nothing planned, staged or running, and no setting that holds the channels: the tables of the part at
reset and at release. -/
structure State.Blank (s : State) : Prop where
  free : s.freeList = List.finRange 256
  slot : ∀ i, s.slot i = Slot.powerOn
  plan : ∀ c, s.plan c = Plan.powerOn
  engine : ∀ c, s.engine c = Engine.powerOn
  group : s.group = none

theorem held_blank (l : List Instr) : (State.held l).Blank where
  free := by simp only [State.held]
  slot i := by simp only [State.held, State.slot, getAt_replicate]
  plan c := by simp only [State.held, State.plan, getAt_replicate]
  engine c := by simp only [State.held, State.engine, getAt_replicate]
  group := by simp only [State.held]

theorem released_blank (b : BitVec 2) (x : Bool) (l : List Instr) : (State.released b x l).Blank where
  free := by simp only [State.released, State.held]
  slot i := by simp only [State.released, State.held, State.slot, getAt_replicate]
  plan c := by simp only [State.released, State.held, State.plan, getAt_replicate]
  engine c := by simp only [State.released, State.held, State.engine, getAt_replicate]
  group := by simp only [State.released, State.held]

theorem State.Blank.record {s : State} (h : s.Blank) (i : SlotNo) : s.record i = none := by
  unfold State.record
  rw [h.slot]
  rfl

theorem State.Blank.held {s : State} (h : s.Blank) : s.Held := by
  refine ⟨by rw [h.free]; exact List.nodup_finRange 256, fun i => ?_, fun i => ?_, fun c => ?_, fun c i => ?_,
    fun g hg => ?_, fun i => ?_, fun c i => ?_, fun c => ?_, fun c _ i r hr => ?_⟩
  · rw [h.record, h.free]; exact iff_of_true (List.mem_finRange i) rfl
  · rw [h.slot]; decide
  · rw [h.plan]; exact List.nodup_nil
  · rw [h.plan, h.record]; simp [Plan.powerOn]
  · rw [h.group] at hg; cases hg
  · rw [h.record, h.group]; simp
  · rw [h.engine, h.record]; simp [Engine.powerOn]
  · rw [h.engine]; rfl
  · rw [h.record] at hr; cases hr

theorem State.Blank.plansKept {s : State} (h : s.Blank) : s.PlansKept := by
  refine ⟨fun c => by rw [h.plan]; exact List.Pairwise.nil, fun c i hi => ?_, fun i r hr => ?_, fun c x hx => ?_,
    fun _ c => by rw [h.plan]; rfl⟩
  · rw [h.plan] at hi; cases hi
  · rw [h.record] at hr; cases hr
  · rw [h.plan] at hx; cases hx

theorem held_lineKept (l : List Instr) : (State.held l).LineKept := fun h => absurd h Bool.noConfusion

theorem released_lineKept (b : BitVec 2) (x : Bool) (l : List Instr) : (State.released b x l).LineKept := by
  intro h
  refine .inl ?_
  change (!x) = true
  rw [show x = false from h]
  rfl

theorem links_plansKept {s t : State} (h : s.Links t) (hs : s.PlansKept) : t.PlansKept :=
  plansKept_congr hs (by rw [h.same]) (by rw [h.same]) (by rw [h.same]) (by rw [h.same])

theorem links_lineKept {s t : State} (h : s.Links t) (hs : s.LineKept) : t.LineKept :=
  lineKept_congr hs (by rw [h.same]) (by rw [h.same]) (by rw [h.same])

theorem step_held {s t : State} (hs : s.Held) (h : step s = .next t) : t.Held :=
  step_keeps (H := True) (P := State.Held) (fun _ hs _ => hs)
    (fun _ _ hs => hs.congr rfl rfl (fun _ => rfl) rfl fun _ => .refl _) (fun l => (held_blank l).held)
    (fun b x l => (released_blank b x l).held)
    (fun _ _ _ _ hs hd => does_keeps links_held (fun k hs => moves_held k trivial hs) hd hs) hs h

theorem step_plansKept {s t : State} (hh : s.Held) (hs : s.PlansKept) (h : step s = .next t) : t.PlansKept := by
  have key : t.Held ∧ t.PlansKept :=
    step_keeps (H := True) (P := fun s => s.Held ∧ s.PlansKept) (fun _ hs _ => hs.1)
      (fun _ _ hs => ⟨hs.1.congr rfl rfl (fun _ => rfl) rfl fun _ => .refl _, plansKept_congr hs.2 rfl rfl rfl rfl⟩)
      (fun l => ⟨(held_blank l).held, (held_blank l).plansKept⟩)
      (fun b x l => ⟨(released_blank b x l).held, (released_blank b x l).plansKept⟩)
      (fun _ _ _ _ hs hd => does_keeps (P := fun s => s.Held ∧ s.PlansKept)
        (fun k hs => ⟨links_held k hs.1, links_plansKept k hs.2⟩)
        (fun k hs => ⟨moves_held k trivial hs.1, moves_plansKept k trivial hs.1 hs.2⟩) hd hs) ⟨hh, hs⟩ h
  exact key.2

theorem step_lineKept {s t : State} (hs : s.LineKept) (h : step s = .next t) : t.LineKept :=
  step_keeps (H := False) (P := State.LineKept) (fun _ _ h => h.elim) (fun _ _ hs => lineKept_congr hs rfl rfl rfl)
    held_lineKept released_lineKept (fun _ _ _ _ hs hd => does_keeps links_lineKept moves_lineKept hd hs) hs h

/-- Settles O57: every command is a chain of steps of few kinds (`exec_does`), and each kind keeps every record in its place, the
plans in order and the latch with the line. -/
theorem stepsKeepEveryRecordHeld : Obligations.StepsKeepEveryRecordHeld := by
  unfold Obligations.StepsKeepEveryRecordHeld
  exact ⟨fun _ _ => step_held, fun _ _ => step_plansKept, fun _ _ => step_lineKept⟩

end Sys2Proof.Machine
end

section
/-!
PROOF. Every step keeps the Notice Queue in order (O59): the numbers run on, the sent notices are a front, the retry timer runs with
them, and nothing waits while there is room.
-/
namespace Sys2Proof.Machine

/-! ### Lists of notices -/

theorem numbered_of_map_eq : ∀ {l l' : List Notice} {next : Nat}, l'.map (·.number) = l.map (·.number) → numbered l next →
    numbered l' next
  | [], [], _, _, h => h
  | [], _ :: _, _, e, _ => by cases e
  | [n], [n'], _, e, h => by
    have e1 : n'.number = n.number := by simpa using e
    unfold numbered at h ⊢
    rw [e1]; exact h
  | [_], [], _, e, _ => by cases e
  | [_], _ :: _ :: _, _, e, _ => by simp at e
  | _ :: _ :: _, [], _, e, _ => by cases e
  | _ :: _ :: _, [_], _, e, _ => by simp at e
  | n :: m :: l, n' :: m' :: l', _, e, h => by
    simp only [List.map_cons, List.cons.injEq] at e
    obtain ⟨e1, e2, e3⟩ := e
    obtain ⟨h1, h2, h3, h4⟩ := h
    refine ⟨e1 ▸ h1, e1 ▸ h2, by rw [e1, e2]; exact h3, numbered_of_map_eq (l := m :: l) ?_ h4⟩
    simp only [List.map_cons, e2, e3]

theorem numbered_append {b : NoticeBody} {next : Nat} (hn : 1 ≤ next ∧ next ≤ 65535) : ∀ {l : List Notice}, numbered l next →
    numbered (l ++ [{ number := next, body := b, sent := false }]) (numberAfter next)
  | [], _ => ⟨hn.1, hn.2, rfl⟩
  | [_], h => ⟨h.1, h.2.1, h.2.2, hn.1, hn.2, rfl⟩
  | _ :: _ :: _, h => ⟨h.1, h.2.1, h.2.2.1, numbered_append hn h.2.2.2⟩

theorem numbered_drop {next : Nat} : ∀ (k : Nat) {l : List Notice}, numbered l next → numbered (l.drop k) next
  | 0, _, h => h
  | _ + 1, [], h => h
  | _ + 1, [_], _ => by rw [List.drop_succ_cons, List.drop_nil]; trivial
  | k + 1, _ :: _ :: _, h => numbered_drop k h.2.2.2

theorem numberAfter_range {n : Nat} (h : 1 ≤ n ∧ n ≤ 65535) : 1 ≤ numberAfter n ∧ numberAfter n ≤ 65535 := by
  unfold numberAfter
  split <;> omega

/-- The sent notices are the first `k`. -/
def SentFront (k : Nat) (l : List Notice) : Prop := l.map (·.sent) = List.replicate k true ++ List.replicate (l.length - k) false

theorem SentFront.le {k : Nat} {l : List Notice} (h : SentFront k l) : k ≤ l.length := by
  have := congrArg List.length h
  simp only [List.length_map, List.length_append, List.length_replicate] at this
  omega

theorem SentFront.countP {k : Nat} {l : List Notice} (h : SentFront k l) : l.countP (·.sent) = k := by
  have e : l.countP (·.sent) = (l.map (·.sent)).countP id := by rw [List.countP_map]; rfl
  rw [e, h, List.countP_append, List.countP_replicate, List.countP_replicate]
  simp

theorem SentFront.any {k : Nat} {l : List Notice} (h : SentFront k l) : l.any (·.sent) = decide (0 < k) := by
  have e : l.any (·.sent) = (l.map (·.sent)).any id := by rw [List.any_map]; rfl
  rw [e, h]
  cases k <;> simp

theorem SentFront.append {k : Nat} {l : List Notice} (h : SentFront k l) {n : Notice} (hn : n.sent = false) :
    SentFront k (l ++ [n]) := by
  have hle := h.le
  unfold SentFront at h ⊢
  rw [List.map_append, h, List.length_append, List.length_singleton, Nat.sub_add_comm hle, List.replicate_succ', List.append_assoc,
    List.map_singleton, hn]

theorem SentFront.drop {k : Nat} {l : List Notice} (h : SentFront k l) (j : Nat) : SentFront (k - j) (l.drop j) := by
  have hle := h.le
  unfold SentFront at h ⊢
  rw [List.map_drop, h, List.drop_append, List.drop_replicate, List.drop_replicate, List.length_replicate, List.length_drop]
  congr 2
  omega

theorem sentFront_unsent {l : List Notice} (h : ∀ n ∈ l, n.sent = false) : SentFront 0 l := by
  unfold SentFront
  rw [List.replicate_zero, List.nil_append, Nat.sub_zero, List.eq_replicate_iff]
  refine ⟨List.length_map _, fun b hb => ?_⟩
  obtain ⟨n, hn, rfl⟩ := List.mem_map.mp hb
  exact h n hn

/-- Marking the oldest unsent notice makes the sent front one longer. -/
theorem SentFront.mark : ∀ {k : Nat} {l : List Notice}, SentFront k l → k < l.length → SentFront (k + 1) (markOldestUnsent l) ∧
    (markOldestUnsent l).map (·.number) = l.map (·.number) ∧ (markOldestUnsent l).length = l.length
  | _, [], _, hk => by cases hk
  | 0, n :: l, h, _ => by
    unfold SentFront at h
    simp only [List.map_cons, List.replicate_zero, List.nil_append, List.length_cons, Nat.sub_zero, List.replicate_succ,
      List.cons.injEq] at h
    have e : markOldestUnsent (n :: l) = { n with sent := true } :: l := by
      unfold markOldestUnsent
      rw [h.1]; rfl
    rw [e]
    refine ⟨?_, rfl, rfl⟩
    unfold SentFront
    simp [h.2]
  | k + 1, n :: l, h, hk => by
    unfold SentFront at h
    simp only [List.map_cons, List.replicate_succ, List.cons_append, List.length_cons, Nat.add_sub_add_right, List.cons.injEq] at h
    have e : markOldestUnsent (n :: l) = n :: markOldestUnsent l := by
      rw [markOldestUnsent, if_pos h.1]
    obtain ⟨h1, h2, h3⟩ := SentFront.mark (k := k) (l := l) h.2 (by simpa using hk)
    rw [e]
    refine ⟨?_, by rw [List.map_cons, List.map_cons, h2], by rw [List.length_cons, List.length_cons, h3]⟩
    unfold SentFront at h1 ⊢
    simp [h1, h.1, List.replicate_succ]

/-! ### The queue without what waits for a place, and without the timer -/

/-- What a step keeps of the queue while places are being filled: all of `NoticesKept` but the retry timer and that nothing waits
while there is room. -/
structure State.QueueKept (s : State) : Prop where
  bound    : s.notices.length ≤ 32
  numbers  : numbered s.notices s.nextNumber
  next     : 1 ≤ s.nextNumber ∧ s.nextNumber ≤ 65535
  window   : ∃ k, k ≤ 4 ∧ SentFront k s.notices
  expiries : s.expiries ≤ 8
  stall    : s.stall = decide (s.expiries = 8)
  stalled  : s.stall = true → ∀ n ∈ s.notices, n.sent = false

theorem State.NoticesKept.queue {s : State} (h : s.NoticesKept) : s.QueueKept :=
  ⟨h.bound, h.numbers, h.next, h.window, h.expiries, h.stall, h.stalled⟩

theorem State.QueueKept.kept {s : State} (h : s.QueueKept) (hw : s.tagsWaiting ≠ [] → s.notices.length = 32)
    (hl : 0 < s.lossCount → s.notices.length = 32) (ht : s.retryTimer.isSome = s.notices.any (·.sent)) : s.NoticesKept :=
  ⟨h.bound, h.numbers, h.next, h.window, hw, hl, ht, h.expiries, h.stall, h.stalled⟩

theorem queueKept_congr {s t : State} (h : s.QueueKept) (hn : t.notices = s.notices) (hx : t.nextNumber = s.nextNumber)
    (hs : t.stall = s.stall ∧ t.expiries = s.expiries ∨ t.stall = false ∧ t.expiries = 0) : t.QueueKept := by
  obtain ⟨h1, h2, h3, h4, h5, h6, h7⟩ := h
  rcases hs with ⟨e1, e2⟩ | ⟨e1, e2⟩
  · exact ⟨hn ▸ h1, by rw [hn, hx]; exact h2, hx ▸ h3, hn ▸ h4, e2 ▸ h5, by rw [e1, e2]; exact h6, by rw [e1, hn]; exact h7⟩
  · exact ⟨hn ▸ h1, by rw [hn, hx]; exact h2, hx ▸ h3, hn ▸ h4, by rw [e2]; exact Nat.zero_le _, by rw [e1, e2]; rfl,
      fun hs => by rw [e1] at hs; cases hs⟩

theorem noticesKept_congr {s t : State} (h : s.NoticesKept) (hn : t.notices = s.notices) (hx : t.nextNumber = s.nextNumber)
    (hw : t.tagsWaiting = s.tagsWaiting) (hl : t.lossCount = s.lossCount) (ht : t.retryTimer.isSome = s.retryTimer.isSome)
    (hs : t.stall = s.stall ∧ t.expiries = s.expiries ∨ t.stall = false ∧ t.expiries = 0) : t.NoticesKept := by
  refine (queueKept_congr h.queue hn hx hs).kept ?_ ?_ ?_
  · rw [hw, hn]; exact h.waiting
  · rw [hl, hn]; exact h.loss
  · rw [ht, hn]; exact h.timer

theorem noticeRoom_iff (s : State) : s.noticeRoom = true ↔ s.notices.length < 32 := by
  unfold State.noticeRoom Config.noticeCap
  exact decide_eq_true_iff

theorem appendNotice_queueKept {s : State} (h : s.QueueKept) (hr : s.notices.length < 32) (b : NoticeBody) :
    (s.appendNotice b).QueueKept := by
  obtain ⟨k, hk, hw⟩ := h.window
  refine ⟨?_, numbered_append h.next h.numbers, numberAfter_range h.next, ⟨k, hk, hw.append rfl⟩, h.expiries, h.stall,
    fun hs n hn => ?_⟩
  · show (s.notices ++ [_]).length ≤ 32
    rw [List.length_append, List.length_singleton]; omega
  · rcases List.mem_append.mp hn with hn | hn
    · exact h.stalled hs n hn
    · rw [List.mem_singleton.mp hn]

theorem appendNotice_timer {s : State} (h : s.retryTimer.isSome = s.notices.any (·.sent)) (b : NoticeBody) :
    (s.appendNotice b).retryTimer.isSome = (s.appendNotice b).notices.any (·.sent) := by
  show s.retryTimer.isSome = (s.notices ++ [_]).any _
  rw [h, List.any_append]
  simp

/-- With room and nothing lost, a notice is appended in order. -/
theorem appendNotice_noticesKept {s : State} (h : s.NoticesKept) (hr : s.notices.length < 32) (b : NoticeBody) :
    (s.appendNotice b).NoticesKept :=
  (appendNotice_queueKept h.queue hr b).kept (fun hw => absurd (h.waiting hw) (by omega))
    (fun hl => absurd (h.loss hl) (by omega)) (appendNotice_timer h.timer b)

theorem handOrdinary_noticesKept {s : State} (h : s.NoticesKept) (b : NoticeBody) : (s.handOrdinary b).NoticesKept := by
  unfold State.handOrdinary
  split
  · next hr => exact appendNotice_noticesKept h ((noticeRoom_iff s).mp hr) b
  · next hr =>
    have hfull : s.notices.length = 32 := Nat.le_antisymm h.bound (by rw [noticeRoom_iff] at hr; omega)
    exact (queueKept_congr (t := { s with lossCount := satInc s.lossCount }) h.queue rfl rfl (.inl ⟨rfl, rfl⟩)).kept
      (fun _ => hfull) (fun _ => hfull) h.timer

theorem completeTag_noticesKept {s : State} (h : s.NoticesKept) (g : Nat) (res : EndResult) (b : DoneBody) :
    (s.completeTag g res b).NoticesKept := by
  unfold State.completeTag
  split
  · dsimp only
    have h1 : State.NoticesKept { s with tagsOpen := s.tagsOpen.filter (·.tag ≠ g) } :=
      noticesKept_congr h rfl rfl rfl rfl rfl (.inl ⟨rfl, rfl⟩)
    split
    · next hr =>
      rw [Bool.and_eq_true] at hr
      exact appendNotice_noticesKept h1 ((noticeRoom_iff s).mp hr.2) _
    · next hr =>
      have hfull : s.notices.length = 32 := by
        by_cases hw : s.tagsWaiting = []
        · rw [hw] at hr
          have hroom : ¬ s.notices.length < 32 := fun k => hr (by rw [(noticeRoom_iff s).mpr k]; rfl)
          exact Nat.le_antisymm h.bound (by omega)
        · exact h.waiting hw
      exact State.QueueKept.kept (queueKept_congr h1.queue rfl rfl (.inl ⟨rfl, rfl⟩)) (fun _ => hfull) h1.loss h1.timer
  · exact h

/-- Work on actions only hands on notices and completions. -/
theorem works_noticesKept {s t : State} (h : s.Works t) : s.NoticesKept → t.NoticesKept := by
  induction h with
  | work h => intro hs; exact noticesKept_congr hs (by rw [h]) (by rw [h]) (by rw [h]) (by rw [h]) (by rw [h]) (.inl (by rw [h]; exact ⟨rfl, rfl⟩))
  | hand s b => exact fun hs => handOrdinary_noticesKept hs b
  | complete s g res b => exact fun hs => completeTag_noticesKept hs g res b
  | trans _ _ h k => exact k ∘ h

/-! ### The steps at the queue -/

theorem setLatch_noticesKept {s : State} (h : s.NoticesKept) (c : SafeCause) : (s.setLatch c).NoticesKept := by
  unfold State.setLatch
  split
  · exact h
  · have h1 : State.NoticesKept { s with latch := true, cause := c } := noticesKept_congr h rfl rfl rfl rfl rfl (.inl ⟨rfl, rfl⟩)
    exact noticesKept_congr (handOrdinary_noticesKept h1 _) rfl rfl rfl rfl rfl (.inl ⟨rfl, rfl⟩)

theorem unsendAll_queueKept {s : State} (h : s.QueueKept) {e : Nat} {st : Bool} (he : e ≤ 8) (hst : st = decide (e = 8)) :
    State.QueueKept { s.unsendAll with retryTimer := none, expiries := e, stall := st } := by
  have hlen : s.unsendAll.notices.length = s.notices.length := List.length_map _
  have hsent : ∀ n ∈ s.unsendAll.notices, n.sent = false := by
    intro n hn
    obtain ⟨m, _, rfl⟩ := List.mem_map.mp hn
    rfl
  refine ⟨hlen.trans_le h.bound, ?_, h.next, ⟨0, Nat.zero_le _, sentFront_unsent hsent⟩, he, hst, fun _ => hsent⟩
  refine numbered_of_map_eq ?_ h.numbers
  show (s.notices.map _).map _ = _
  rw [List.map_map]
  rfl

/-- With every notice unsent and the timer stopped, the queue is in order. -/
theorem unsendAll_noticesKept {s : State} (h : s.NoticesKept) {e : Nat} {st : Bool} (he : e ≤ 8) (hst : st = decide (e = 8)) :
    State.NoticesKept { s.unsendAll with retryTimer := none, expiries := e, stall := st } := by
  have hlen : s.unsendAll.notices.length = s.notices.length := List.length_map _
  refine (unsendAll_queueKept h.queue he hst).kept (fun hw => hlen.trans (h.waiting hw)) (fun hl => hlen.trans (h.loss hl)) ?_
  show false = (s.notices.map _).any _
  rw [List.any_map]
  exact (List.any_eq_false.mpr fun _ _ => Bool.false_ne_true).symm

theorem retryExpiry_noticesKept {s : State} (h : s.NoticesKept) : s.retryExpiry.NoticesKept := by
  refine unsendAll_noticesKept (e := min (s.expiries + 1) 8) (st := s.stall || decide (8 ≤ s.expiries + 1)) h (by omega) ?_
  rw [h.stall, ← Bool.decide_or]
  have := h.expiries
  exact decide_eq_decide.mpr (by omega)

theorem offered_some {s : State} {n : Notice} (h : s.offered = some n) :
    s.stall = false ∧ s.sentCount < 4 ∧ n ∈ s.notices ∧ n.sent = false := by
  unfold State.offered at h
  split at h
  · next hc =>
    simp only [Bool.and_eq_true, Bool.not_eq_true', decide_eq_true_eq] at hc
    obtain ⟨⟨_, hstall⟩, hcount⟩ := hc
    exact ⟨hstall, hcount, List.mem_of_find?_eq_some h, by simpa using List.find?_some h⟩
  · cases h

theorem beginNotice_eq (s : State) (n : Notice) : s.beginNotice n = { s with
    notices := markOldestUnsent s.notices, tx := some (frameOf (noticeBytes n))
    retryTimer := if s.sentCount = 0 then some (s.retryTime * Config.ticksPerMs) else s.retryTimer } := by
  unfold State.beginNotice
  dsimp only
  split <;> rfl

theorem beginNotice_noticesKept {s : State} {n : Notice} (h : s.NoticesKept) (ho : s.offered = some n) :
    (s.beginNotice n).NoticesKept := by
  obtain ⟨hstall, hcount, hmem, hsent⟩ := offered_some ho
  obtain ⟨k, hk, hw⟩ := h.queue.window
  have hk4 : k < 4 := by rw [← hw.countP]; exact hcount
  have hlt : k < s.notices.length := by
    refine lt_of_le_of_ne hw.le fun e => ?_
    have hall : s.notices.countP (·.sent) = s.notices.length := by rw [hw.countP, e]
    rw [List.countP_eq_length.mp hall n hmem] at hsent
    cases hsent
  obtain ⟨hw', hnum, hlen⟩ := hw.mark hlt
  rw [beginNotice_eq]
  refine State.QueueKept.kept ⟨hlen.trans_le h.bound, numbered_of_map_eq hnum h.numbers, h.next, ⟨k + 1, hk4, hw'⟩, h.expiries,
    h.stall, fun hs => absurd (hs.symm.trans hstall) Bool.noConfusion⟩ (fun hs => hlen.trans (h.waiting hs))
    (fun hs => hlen.trans (h.loss hs)) ?_
  show Option.isSome (if s.sentCount = 0 then _ else s.retryTimer) = (markOldestUnsent s.notices).any _
  rw [hw'.any, decide_eq_true (Nat.succ_pos k)]
  split
  · rfl
  · next hz =>
    have hc : s.sentCount = k := hw.countP
    rw [h.timer, hw.any]
    exact decide_eq_true (by omega)

/-! ### NOTICE_ACK -/

theorem ackCount_some {s : State} {n k : Nat} (h : s.ackCount n = some k) : ∃ x ∈ s.notices, x.sent = true := by
  unfold State.ackCount at h
  obtain ⟨i, hi, _⟩ := Option.map_eq_some_iff.mp h
  obtain ⟨hlt, hp, _⟩ := List.findIdx?_eq_some_iff_getElem.mp hi
  rw [Bool.and_eq_true] at hp
  exact ⟨_, List.getElem_mem hlt, hp.2⟩

theorem dropped_queueKept {s : State} (h : s.NoticesKept) (hs : s.stall = false) (k : Nat) :
    State.QueueKept { s with notices := s.notices.drop k, expiries := 0 } := by
  obtain ⟨j, hj, hw⟩ := h.queue.window
  refine ⟨?_, numbered_drop k h.numbers, h.next, ⟨j - k, by omega, hw.drop k⟩, Nat.zero_le _, hs, fun e => ?_⟩
  · exact (List.length_drop ▸ Nat.sub_le _ _ : (s.notices.drop k).length ≤ s.notices.length).trans h.bound
  · exact absurd (e.symm.trans hs) Bool.noConfusion

theorem appendWaiting_queueKept : ∀ (l : List WaitingTag) {s : State}, s.tagsWaiting = l → s.QueueKept →
    (appendWaiting l s).QueueKept ∧ ((appendWaiting l s).tagsWaiting ≠ [] → (appendWaiting l s).notices.length = 32)
  | [], _, hw, h => ⟨h, fun k => absurd hw k⟩
  | w :: l, s, _, h => by
    unfold appendWaiting
    split
    · next hr =>
      have h1 : State.QueueKept { s with tagsWaiting := l } := queueKept_congr h rfl rfl (.inl ⟨rfl, rfl⟩)
      exact appendWaiting_queueKept l rfl (appendNotice_queueKept h1 ((noticeRoom_iff s).mp hr) _)
    · next hr =>
      exact ⟨h, fun _ => Nat.le_antisymm h.bound (by rw [noticeRoom_iff] at hr; omega)⟩

/-- After the refill nothing waits while there is room (R149). -/
theorem refill_queueKept {s : State} (h : s.QueueKept) :
    s.refill.QueueKept ∧ (s.refill.tagsWaiting ≠ [] → s.refill.notices.length = 32) ∧
      (0 < s.refill.lossCount → s.refill.notices.length = 32) := by
  obtain ⟨h1, h2⟩ := appendWaiting_queueKept s.tagsWaiting rfl h
  unfold State.refill State.appendLoss
  generalize appendWaiting s.tagsWaiting s = u at h1 h2
  split
  · next hr =>
    rw [Bool.and_eq_true] at hr
    have hroom := (noticeRoom_iff u).mp hr.1
    refine ⟨queueKept_congr (appendNotice_queueKept h1 hroom _) rfl rfl (.inl ⟨rfl, rfl⟩), fun hw => ?_, fun hl => ?_⟩
    · exact absurd (h2 hw) (by omega)
    · exact absurd hl (Nat.lt_irrefl 0)
  · next hr =>
    refine ⟨h1, h2, fun hl => Nat.le_antisymm h1.bound ?_⟩
    by_contra hlt
    exact hr (by rw [Bool.and_eq_true]; exact ⟨(noticeRoom_iff u).mpr (by omega), decide_eq_true hl⟩)

theorem retryAfterAck_noticesKept {s : State} (h : s.QueueKept) (hw : s.tagsWaiting ≠ [] → s.notices.length = 32)
    (hl : 0 < s.lossCount → s.notices.length = 32) : s.retryAfterAck.NoticesKept := by
  obtain ⟨k, _, hk⟩ := h.window
  have hc : s.sentCount = k := hk.countP
  unfold State.retryAfterAck
  split
  · next h0 =>
    refine State.QueueKept.kept (queueKept_congr h rfl rfl (.inl ⟨rfl, rfl⟩)) hw hl ?_
    show false = s.notices.any _
    rw [hk.any]
    exact (decide_eq_false (by omega)).symm
  · next h0 =>
    refine State.QueueKept.kept (s := s.startRetry) (queueKept_congr h rfl rfl (.inl ⟨rfl, rfl⟩)) hw hl ?_
    show true = s.notices.any _
    rw [hk.any]
    exact (decide_eq_true (by omega)).symm

theorem ack_noticesKept {s : State} {n k : Nat} (h : s.NoticesKept) (ha : s.ackCount n = some k) :
    (({ s with notices := s.notices.drop k, expiries := 0 }.refill).retryAfterAck).NoticesKept := by
  obtain ⟨x, hx, hsent⟩ := ackCount_some ha
  have hs : s.stall = false := by
    by_contra hs
    exact absurd (hsent.symm.trans (h.stalled (by simpa using hs) x hx)) Bool.noConfusion
  obtain ⟨h1, h2, h3⟩ := refill_queueKept (dropped_queueKept h hs k)
  exact retryAfterAck_noticesKept h1 h2 h3

/-! ### A queue with the one notice of a start -/

/-- The queue of a part that has just started or restarted holds one notice, unsent. -/
theorem single_noticesKept {s : State} {k : Nat} {b : NoticeBody} (hk : 1 ≤ k ∧ k ≤ 65535)
    (hn : s.notices = [{ number := k, body := b, sent := false }]) (hx : s.nextNumber = numberAfter k) (hw : s.tagsWaiting = [])
    (hl : s.lossCount = 0) (ht : s.retryTimer = none) (he : s.expiries = 0) (hs : s.stall = false) : s.NoticesKept := by
  have hsent : ∀ n ∈ s.notices, n.sent = false := by rw [hn]; intro n h; rw [List.mem_singleton.mp h]
  refine ⟨by rw [hn, List.length_singleton]; omega, by rw [hn, hx]; exact ⟨hk.1, hk.2, rfl⟩, hx ▸ numberAfter_range hk,
    ⟨0, Nat.zero_le _, sentFront_unsent hsent⟩, fun h => absurd hw h, fun h => by omega, by rw [ht, hn]; rfl, by omega,
    by rw [hs, he]; rfl, fun _ => hsent⟩

theorem held_noticesKept (l : List Instr) : (State.held l).NoticesKept where
  bound := by simp [State.held]
  numbers := by simp [State.held, numbered]
  next := by simp [State.held]
  window := ⟨0, by simp [State.held]⟩
  waiting := by simp [State.held]
  loss := by simp [State.held]
  timer := by simp [State.held]
  expiries := by simp [State.held]
  stall := by simp [State.held]
  stalled := by simp [State.held]

theorem released_noticesKept (b : BitVec 2) (x : Bool) (l : List Instr) : (State.released b x l).NoticesKept :=
  single_noticesKept (k := 1) (b := .restarted .powerOn 0 (!x)) (by decide) (by simp only [State.released]) (by simp only [State.released]; rfl)
    (by simp only [State.released, State.held]) (by simp only [State.released, State.held])
    (by simp only [State.released, State.held]) (by simp only [State.released, State.held])
    (by simp only [State.released, State.held])

/-! ### Every step -/

variable {H : Prop} {A : Special → Prop} {T : Nat → Prop}

theorem moves_noticesKept {s t : State} (h : s.Moves H A T t) : s.NoticesKept → t.NoticesKept := by
  have keep : ∀ {u v : State}, v.notices = u.notices → v.nextNumber = u.nextNumber → v.tagsWaiting = u.tagsWaiting →
      v.lossCount = u.lossCount → v.retryTimer = u.retryTimer → v.stall = u.stall → v.expiries = u.expiries →
      u.NoticesKept → v.NoticesKept := fun h1 h2 h3 h4 h5 h6 h7 hu =>
    noticesKept_congr hu h1 h2 h3 h4 (by rw [h5]) (.inl ⟨h6, h7⟩)
  have done : ∀ {u v : State} {g res b}, (u.NoticesKept → v.NoticesKept) → u.NoticesKept → (v.completeTag g res b).NoticesKept :=
    fun k hu => completeTag_noticesKept (k hu) _ _ _
  induction h with
  | refl s => exact id
  | trans _ _ h k => exact k ∘ h
  | settles h => rw [h]; exact keep rfl rfl rfl rfl rfl rfl rfl
  | blocks h => exact works_noticesKept (blocks_works h)
  | tick _ pins _ =>
    refine fun hs => noticesKept_congr hs rfl rfl rfl rfl ?_ (.inl ⟨rfl, rfl⟩)
    show (Option.map _ _).isSome = _
    rw [Option.isSome_map]
  | setLatch s c => exact fun hs => setLatch_noticesKept hs c
  | fall s =>
    intro hs
    have h1 : State.NoticesKept { s with safenFall := false } := noticesKept_congr hs rfl rfl rfl rfl rfl (.inl ⟨rfl, rfl⟩)
    exact setLatch_noticesKept h1 _
  | clearLatch _ _ | configure _ _ _ | arm _ _ _ _ | waitIdle _ _ _ | snap _ _ _ _ | given _ _ _ _ _ _ | staged _ _ _ _ _ _
  | begin _ _ _ | commit _ _ _ _ _ => exact keep rfl rfl rfl rfl rfl rfl rfl
  | load _ _ _ _ _ | disarm _ _ _ _ | unsnap _ _ _ _ | snapNow _ _ _ _ =>
    exact done (keep rfl rfl rfl rfl rfl rfl rfl)
  | endWait _ _ _ _ => exact done id
  | send h => exact fun hs => beginNotice_noticesKept hs h
  | ack _ h => exact fun hs => ack_noticesKept hs h
  | retry s => exact retryExpiry_noticesKept
  | linkDown s => exact fun hs => unsendAll_noticesKept hs (Nat.zero_le _) rfl
  | restart s _ => exact fun hs => single_noticesKept hs.next rfl rfl rfl rfl rfl rfl rfl

theorem links_noticesKept {s t : State} (h : s.Links t) (hs : s.NoticesKept) : t.NoticesKept :=
  noticesKept_congr hs (by rw [h.same]) (by rw [h.same]) (by rw [h.same]) (by rw [h.same]) (by rw [h.same]) h.stall

/-- Settles O59: work on actions reaches the queue only by appending or counting a loss, and each step at the queue itself keeps it
in order. -/
theorem stepsKeepTheNoticesInOrder : Obligations.StepsKeepTheNoticesInOrder := by
  unfold Obligations.StepsKeepTheNoticesInOrder
  intro s t hs h
  exact step_keeps (H := False) (P := State.NoticesKept) (fun _ _ h => h.elim)
    (fun _ _ hs => noticesKept_congr hs rfl rfl rfl rfl rfl (.inl ⟨rfl, rfl⟩)) held_noticesKept released_noticesKept
    (fun _ _ _ _ hs hd => does_keeps links_noticesKept moves_noticesKept hd hs) hs h

end Sys2Proof.Machine
end

section
/-!
PROOF. The tag that an allocation gives (O43), and that every step keeps the queues and tables within their capacities (O58, first
part).
-/
namespace Sys2Proof.Machine

/-! ### The next free tag -/

/-- The value `k` places after `n` in the cycle 1 to 255. -/
def tagAt (n k : Nat) : Nat := (n - 1 + k) % 255 + 1

theorem tagAt_zero {n : Nat} (h : 1 ≤ n ∧ n ≤ 255) : tagAt n 0 = n := by unfold tagAt; omega

theorem tagAt_tagAfter {n : Nat} (h : 1 ≤ n ∧ n ≤ 255) (k : Nat) : tagAt (tagAfter n) k = tagAt n (k + 1) := by
  unfold tagAt tagAfter
  split <;> omega

theorem tagAfter_range {n : Nat} (h : 1 ≤ n ∧ n ≤ 255) : 1 ≤ tagAfter n ∧ tagAfter n ≤ 255 := by
  unfold tagAfter
  split <;> omega

/-- The search passes over held values only, and ends at one that is free or with its fuel. -/
theorem freeTagFrom_spec (held : List Nat) : ∀ (fuel : Nat) {n : Nat}, 1 ≤ n ∧ n ≤ 255 →
    ∃ k ≤ fuel, freeTagFrom held fuel n = tagAt n k ∧ (∀ j < k, tagAt n j ∈ held) ∧ (k < fuel → freeTagFrom held fuel n ∉ held)
  | 0, n, h => ⟨0, le_refl 0, (tagAt_zero h).symm, fun j hj => absurd hj (Nat.not_lt_zero j), fun hk => absurd hk (Nat.lt_irrefl 0)⟩
  | fuel + 1, n, h => by
    unfold freeTagFrom
    split
    · next hn =>
      obtain ⟨k, hk, hv, hp, hfree⟩ := freeTagFrom_spec held fuel (tagAfter_range h)
      refine ⟨k + 1, Nat.succ_le_succ hk, hv.trans (tagAt_tagAfter h k), fun j hj => ?_, fun hlt => hfree (by omega)⟩
      cases j with
      | zero => rw [tagAt_zero h]; exact hn
      | succ j => rw [← tagAt_tagAfter h]; exact hp j (by omega)
    · next hn => exact ⟨0, Nat.zero_le _, (tagAt_zero h).symm, fun j hj => absurd hj (Nat.not_lt_zero j), fun _ => hn⟩

/-- Fewer than 16 held values do not fill 16 places of the cycle. -/
theorem passed_lt {held : List Nat} {n k : Nat} (hl : held.length < 16) (h : ∀ j < k, tagAt n j ∈ held) : k < 16 := by
  by_contra hk
  have hnd : ((List.range 16).map (tagAt n)).Nodup := by
    refine List.Nodup.map_on (fun a ha b hb e => ?_) List.nodup_range
    rw [List.mem_range] at ha hb
    unfold tagAt at e
    omega
  have hsub : (List.range 16).map (tagAt n) ⊆ held := by
    intro x hx
    obtain ⟨j, hj, rfl⟩ := List.mem_map.mp hx
    rw [List.mem_range] at hj
    exact h j (by omega)
  have hle := (hnd.subperm hsub).length_le
  rw [List.length_map, List.length_range] at hle
  omega

theorem tagsHeld_length (s : State) : s.tagsHeld.length = s.tagsOpen.length + s.tagsWaiting.length := by
  simp [State.tagsHeld]

theorem tagToGive_spec {s : State} (hn : 1 ≤ s.nextTag ∧ s.nextTag ≤ 255) (hl : s.tagsOpen.length + s.tagsWaiting.length < 16) :
    s.tagToGive ∉ s.tagsHeld ∧ ∃ k, s.tagToGive = tagAt s.nextTag k ∧ ∀ j < k, tagAt s.nextTag j ∈ s.tagsHeld := by
  obtain ⟨k, _, hv, hp, hfree⟩ := freeTagFrom_spec s.tagsHeld 255 hn
  have hk := passed_lt (by rw [tagsHeld_length]; exact hl) hp
  exact ⟨hfree (by omega), k, hv, hp⟩

theorem tagToGive_range {s : State} (hn : 1 ≤ s.nextTag ∧ s.nextTag ≤ 255) (hl : s.tagsOpen.length + s.tagsWaiting.length < 16) :
    1 ≤ s.tagToGive ∧ s.tagToGive ≤ 255 := by
  obtain ⟨_, k, hv, _⟩ := tagToGive_spec hn hl
  rw [hv]
  unfold tagAt
  omega

theorem mem_tagsHeld {s : State} {g : Nat} :
    g ∈ s.tagsHeld ↔ (∃ e ∈ s.tagsOpen, e.tag = g) ∨ ∃ e ∈ s.tagsWaiting, e.tag = g := by
  unfold State.tagsHeld
  rw [List.mem_append, List.mem_map, List.mem_map]

/-- Settles O43: the search from the next value on passes over held values only, and there are fewer than 16. -/
theorem tagsAreGivenInTheirCycle : Obligations.TagsAreGivenInTheirCycle := by
  unfold Obligations.TagsAreGivenInTheirCycle
  intro s h1 h2 hl
  obtain ⟨hfree, k, hv, hp⟩ := tagToGive_spec ⟨h1, h2⟩ hl
  exact ⟨fun h => hfree (mem_tagsHeld.mpr h), k, hv, fun j hj => mem_tagsHeld.mp (hp j hj)⟩

/-! ### The number of tags in use -/

theorem completeTag_total (s : State) (g : Nat) (res : EndResult) (b : DoneBody) :
    (s.completeTag g res b).tagsOpen.length + (s.completeTag g res b).tagsWaiting.length
      ≤ s.tagsOpen.length + s.tagsWaiting.length := by
  unfold State.completeTag
  split
  · next hany =>
    have hlt : (s.tagsOpen.filter (·.tag ≠ g)).length < s.tagsOpen.length := by
      obtain ⟨e, he, hg⟩ := List.any_eq_true.mp hany
      exact List.length_filter_lt_length_iff_exists.mpr ⟨e, he, by simpa using hg⟩
    dsimp only
    split
    · exact Nat.add_le_add_right hlt.le _
    · show _ + (s.tagsWaiting ++ [_]).length ≤ _
      have hone : (s.tagsWaiting ++ [({ tag := g, result := res, body := b } : WaitingTag)]).length = s.tagsWaiting.length + 1 :=
        List.length_append
      calc _ = (s.tagsOpen.filter (·.tag ≠ g)).length + (s.tagsWaiting.length + 1) := congrArg (_ + ·) hone
        _ ≤ _ := by omega
  · exact le_refl _

theorem works_total {s t : State} (h : s.Works t) :
    t.tagsOpen.length + t.tagsWaiting.length ≤ s.tagsOpen.length + s.tagsWaiting.length := by
  induction h with
  | work h => rw [h]
  | hand s b => unfold State.handOrdinary; split <;> exact le_refl _
  | complete s g res b => exact completeTag_total s g res b
  | trans _ _ h k => exact k.trans h

/-! ### Plans and the staging list -/

/-- Plans and staging list are within their capacities. -/
structure State.PlansFit (s : State) : Prop where
  plans   : ∀ ch, (s.plan ch).records.length ≤ 64
  staging : ∀ g, s.group = some g → g.staging.length ≤ 32

theorem State.PlansFit.congr {s t : State} (h : s.PlansFit) (hp : ∀ ch, (t.plan ch).records = (s.plan ch).records)
    (hg : t.group.map (·.staging) = s.group.map (·.staging)) : t.PlansFit := by
  refine ⟨fun ch => by rw [hp]; exact h.plans ch, fun g ht => ?_⟩
  rw [ht, Option.map_some] at hg
  obtain ⟨g', hs, e⟩ := Option.map_eq_some_iff.mp hg.symm
  rw [← e]
  exact h.staging g' hs

theorem State.PlansFit.modPlan {s : State} (h : s.PlansFit) (ch : Channel) {f : Plan → Plan}
    (hf : (f (s.plan ch)).records.length ≤ 64) : (s.modPlan ch f).PlansFit := by
  refine ⟨fun c => ?_, h.staging⟩
  rw [modPlan_plan]
  split
  · exact hf
  · exact h.plans c

theorem leavePlan_plansFit {s : State} (h : s.PlansFit) (ch : Channel) (i : SlotNo) : (s.leavePlan ch i).PlansFit :=
  h.modPlan ch ((List.length_filter_le _ _).trans (h.plans ch))

theorem enterPlan_plansFit {s : State} (h : s.PlansFit) {ch : Channel} (hl : (s.plan ch).records.length < 64) (i : SlotNo) :
    (s.enterPlan ch i).PlansFit :=
  h.modPlan ch (by rw [(insertInto_perm s i _).length_eq]; exact hl)

theorem unstage_plansFit {s : State} (h : s.PlansFit) (i : SlotNo) : (s.unstage i).PlansFit := by
  refine ⟨h.plans, fun g hg => ?_⟩
  obtain ⟨g', hs, rfl⟩ := Option.map_eq_some_iff.mp hg
  exact (List.length_filter_le _ _).trans (h.staging g' hs)

theorem addsReports_plansFit {s t : State} (h : s.AddsReports t) (hs : s.PlansFit) : t.PlansFit :=
  hs.congr (fun _ => by rw [h.same]; rfl) (by rw [h.same])

theorem freed_plansFit {s : State} (h : s.PlansFit) (i : SlotNo) (r : Record) (b : EndedBody) : (s.freed i r b).PlansFit :=
  addsReports_plansFit (freed_addsReports s i r b) (h.congr (fun _ => rfl) rfl)

variable {H : Prop} {A : Special → Prop} {T : Nat → Prop}

theorem acts_plansFit {C : List Channel} {s t : State} (h : s.Acts H C t) : s.PlansFit → t.PlansFit := by
  induction h with
  | refl s => exact id
  | trans _ _ h k => exact k ∘ h
  | engine s ch f _ => exact fun hs => hs.congr (fun _ => rfl) rfl
  | plan s ch f h => exact fun hs => hs.modPlan ch (h.records.length_le.trans (hs.plans ch))
  | hand s b => exact addsReports_plansFit (handOrdinary_addsReports s b)
  | drop b _ _ _ => exact fun hs => freed_plansFit (leavePlan_plansFit hs _ _) _ _ b
  | @finish s ch run r f b _ _ _ _ _ =>
    exact fun hs => freed_plansFit (s := s.modEngine ch f) (hs.congr (fun _ => rfl) rfl) _ _ b
  | start _ _ _ => exact fun hs => (leavePlan_plansFit hs _ _).congr (fun _ => rfl) rfl
  | wait _ _ => exact fun hs => hs.congr (fun _ => rfl) rfl
  | unlist s i _ => exact fun hs => unstage_plansFit hs i
  | unstage b _ _ _ => exact fun hs => freed_plansFit (unstage_plansFit hs _) _ _ b
  | close s _ => exact fun hs => ⟨hs.plans, fun g hg => by cases hg⟩

theorem blocks_plansFit {s t : State} (h : s.Blocks H t) : s.PlansFit → t.PlansFit := by
  induction h with
  | refl s => exact id
  | trans _ _ h k => exact k ∘ h
  | watched _ h _ => exact fun hs => addsReports_plansFit (watch_addsReports _ _ _) (acts_plansFit h hs)

theorem setLatch_plansFit {s : State} (h : s.PlansFit) (c : SafeCause) : (s.setLatch c).PlansFit := by
  cases hl : s.latch with
  | true =>
    have e : s.setLatch c = s := by unfold State.setLatch; rw [hl]; rfl
    rw [e]; exact h
  | false => exact h.congr (fun ch => by rw [(setLatch_sets hl c).plans]) (by rw [(setLatch_sets hl c).same])

theorem forwardLoad_plansFit {s : State} (h : s.PlansFit) (v : Time) : (s.forwardLoad v).PlansFit := by
  have hplan : ∀ c, (s.forwardLoad v).plan c = { s.plan c with loads := s.openLoads c ++ [(s.deviceTime, v)] } :=
    fun c => getAt_tab8 _ c
  exact h.congr (fun c => by rw [hplan]) rfl

theorem empty_plansFit {s : State} (hp : ∀ ch, s.plan ch = Plan.powerOn) (hg : s.group = none) : s.PlansFit :=
  ⟨fun ch => by rw [hp]; exact Nat.zero_le _, fun g h => by rw [hg] at h; cases h⟩

/-- Every kind of step keeps plans and staging list within their capacities: a record enters only where there is room. -/
theorem moves_plansFit {s t : State} (h : s.Moves H A T t) : s.PlansFit → t.PlansFit := by
  have done : ∀ {u v : State} {g res b}, (u.PlansFit → v.PlansFit) → u.PlansFit → (v.completeTag g res b).PlansFit :=
    fun k hu => addsReports_plansFit (completeTag_addsReports _ _ _ _) (k hu)
  induction h with
  | refl s => exact id
  | trans _ _ h k => exact k ∘ h
  | settles h => rw [h]; exact fun hs => hs.congr (fun _ => rfl) rfl
  | blocks h => exact blocks_plansFit h
  | @tick s _ pins _ =>
    refine fun hs => hs.congr (fun _ => rfl) ?_
    show Option.map _ (Option.map _ s.group) = _
    cases s.group <;> rfl
  | setLatch s c => exact fun hs => setLatch_plansFit hs c
  | fall s =>
    intro hs
    have h1 : State.PlansFit { s with safenFall := false } := hs.congr (fun _ => rfl) rfl
    exact setLatch_plansFit h1 _
  | clearLatch _ _ | configure _ _ _ | arm _ _ _ _ | waitIdle _ _ _ | snap _ _ _ _ | retry _ | linkDown _ =>
    exact fun hs => hs.congr (fun _ => rfl) rfl
  | @load s arm _ _ _ _ _ =>
    exact done fun hs => forwardLoad_plansFit (s := { s with syncArm := none }) (hs.congr (fun _ => rfl) rfl) _
  | disarm _ _ _ _ | unsnap _ _ _ _ | snapNow _ _ _ _ => exact done fun hs => hs.congr (fun _ => rfl) rfl
  | endWait _ _ _ _ => exact done id
  | @given s q ch start i free _ _ _ hl _ _ =>
    exact fun hs => enterPlan_plansFit (s := s.allocated q ch start .planned i free) (hs.congr (fun _ => rfl) rfl) hl i
  | staged _ _ _ hg hl _ =>
    refine fun hs => ⟨hs.plans, fun g' e => ?_⟩
    cases e
    rw [List.length_append, List.length_singleton]
    exact hl
  | begin _ _ _ => exact fun hs => ⟨hs.plans, fun g' e => by cases e; exact Nat.zero_le _⟩
  | @commit s i r start _ _ hl _ =>
    intro hs
    have h1 : State.PlansFit ((s.unstage i).setRecord i { r with start := start, state := .planned }) :=
      (unstage_plansFit hs i).congr (fun _ => rfl) rfl
    exact enterPlan_plansFit h1 hl i
  | send _ => exact fun hs => hs.congr (fun _ => by rw [beginNotice_renotes]; rfl) (by rw [beginNotice_renotes])
  | ack _ _ => exact fun hs => hs.congr (fun _ => by rw [ack_renotes]; rfl) (by rw [ack_renotes])
  | restart s _ => exact fun _ => empty_plansFit (fun c => getAt_tab8 _ c) rfl

/-! ### Every step -/

theorem allocTag_total {s : State} (hf : s.tagsFull = false) (subject : TagSubject) :
    (s.allocTag subject).tagsOpen.length + (s.allocTag subject).tagsWaiting.length ≤ 16 := by
  show (s.tagsOpen ++ [_]).length + s.tagsWaiting.length ≤ 16
  have h : ¬ 16 ≤ s.tagsOpen.length + s.tagsWaiting.length := of_decide_eq_false hf
  rw [List.length_append, List.length_singleton]
  omega

theorem allocated_total {s : State} {q : ScheduleFields} (ch : Channel) (start : Time) (st : RecState) (i : SlotNo)
    (free : List SlotNo) (ht : q.tagged = true → s.tagsOpen.length + s.tagsWaiting.length < 16)
    (h : s.tagsOpen.length + s.tagsWaiting.length ≤ 16) :
    (s.allocated q ch start st i free).tagsOpen.length + (s.allocated q ch start st i free).tagsWaiting.length ≤ 16 := by
  show (if q.tagged then _ else s.tagsOpen).length + s.tagsWaiting.length ≤ 16
  split
  · next hq =>
    have := ht hq
    rw [List.length_append, List.length_singleton]
    omega
  · exact h

theorem setLatch_total (s : State) (c : SafeCause) : (s.setLatch c).tagsOpen.length + (s.setLatch c).tagsWaiting.length
    = s.tagsOpen.length + s.tagsWaiting.length := by
  cases hl : s.latch with
  | true =>
    have e : s.setLatch c = s := by unfold State.setLatch; rw [hl]; rfl
    rw [e]
  | false => rw [(setLatch_sets hl c).same]

theorem appendWaiting_total : ∀ (l : List WaitingTag) (s : State), s.tagsWaiting = l →
    (appendWaiting l s).tagsOpen.length + (appendWaiting l s).tagsWaiting.length ≤ s.tagsOpen.length + s.tagsWaiting.length
  | [], _, _ => le_refl _
  | w :: l, s, hw => by
    unfold appendWaiting
    split
    · have h := appendWaiting_total l (State.appendNotice { s with tagsWaiting := l } (.done w.tag w.result w.body)) rfl
      refine h.trans (Nat.add_le_add_left ?_ _)
      rw [hw]
      exact Nat.le_succ _
    · exact le_refl _

theorem refill_total (s : State) :
    s.refill.tagsOpen.length + s.refill.tagsWaiting.length ≤ s.tagsOpen.length + s.tagsWaiting.length := by
  refine le_trans (le_of_eq ?_) (appendWaiting_total s.tagsWaiting s rfl)
  unfold State.refill State.appendLoss
  split <;> rfl

theorem retryAfterAck_total (s : State) : s.retryAfterAck.tagsOpen.length + s.retryAfterAck.tagsWaiting.length
    = s.tagsOpen.length + s.tagsWaiting.length := by
  unfold State.retryAfterAck
  split <;> rfl

theorem moves_total {s t : State} (h : s.Moves H A T t) :
    s.tagsOpen.length + s.tagsWaiting.length ≤ 16 → t.tagsOpen.length + t.tagsWaiting.length ≤ 16 := by
  have done : ∀ {u v : State} {g res b}, (u.tagsOpen.length + u.tagsWaiting.length ≤ 16 → v.tagsOpen.length + v.tagsWaiting.length ≤ 16) →
      u.tagsOpen.length + u.tagsWaiting.length ≤ 16 →
      (v.completeTag g res b).tagsOpen.length + (v.completeTag g res b).tagsWaiting.length ≤ 16 :=
    fun k hu => (completeTag_total _ _ _ _).trans (k hu)
  induction h with
  | refl s => exact id
  | trans _ _ h k => exact k ∘ h
  | settles h => rw [h]; exact id
  | blocks h => exact (works_total (blocks_works h)).trans
  | tick _ _ _ | clearLatch _ _ | configure _ _ _ | begin _ _ _ | commit _ _ _ _ _ | retry _ | linkDown _ => exact id
  | setLatch s c => rw [setLatch_total]; exact id
  | fall s => rw [setLatch_total]; exact id
  | load _ _ _ _ _ | disarm _ _ _ _ | unsnap _ _ _ _ => exact done id
  | arm _ _ hf _ | waitIdle _ _ hf | snap _ _ hf _ => exact fun _ => allocTag_total hf _
  | snapNow _ _ hf _ => exact done fun _ => allocTag_total hf _
  | endWait _ _ _ _ => exact done id
  | @given s q ch start i free _ _ ht _ _ _ => exact allocated_total ch start .planned i free ht
  | @staged s q ch start i free g _ _ ht _ _ _ => exact allocated_total ch start .staged i free ht
  | send _ => rw [beginNotice_eq]; exact id
  | @ack s n k _ _ =>
    rw [retryAfterAck_total]
    exact (refill_total { s with notices := s.notices.drop k, expiries := 0 }).trans
  | restart s _ => exact fun _ => Nat.zero_le _

theorem State.Bounded.plansFit {s : State} (h : s.Bounded) : s.PlansFit := ⟨h.plans, h.staging⟩

theorem blank_bounded {s : State} (h : s.Blank) (hr : s.rxQueue = []) (hp : s.replies = []) (hc : s.cache = [])
    (ho : s.tagsOpen = []) (hw : s.tagsWaiting = []) : s.Bounded := by
  obtain ⟨hplans, hstaging⟩ := empty_plansFit h.plan h.group
  refine ⟨?_, ?_, ?_, ?_, hplans, hstaging⟩
  · rw [hr]; exact Nat.zero_le _
  · rw [hp]; exact Nat.zero_le _
  · rw [hc]; exact Nat.zero_le _
  · rw [ho, hw]; exact Nat.zero_le _

theorem held_bounded (l : List Instr) : (State.held l).Bounded :=
  blank_bounded (held_blank l) (by simp only [State.held]) (by simp only [State.held]) (by simp only [State.held])
    (by simp only [State.held]) (by simp only [State.held])

theorem released_bounded (b : BitVec 2) (x : Bool) (l : List Instr) : (State.released b x l).Bounded :=
  blank_bounded (released_blank b x l) (by simp only [State.released, State.held]) (by simp only [State.released, State.held])
    (by simp only [State.released, State.held]) (by simp only [State.released, State.held])
    (by simp only [State.released, State.held])

theorem links_bounded {s t : State} (h : s.Links t) (hs : s.Bounded) : t.Bounded := by
  refine ⟨h.receive hs.receive, h.reply hs.reply, h.cache hs.cache, ?_, fun ch => ?_, fun g hg => ?_⟩
  · rw [h.same]; exact hs.tags
  · rw [h.same]; exact hs.plans ch
  · rw [h.same] at hg; exact hs.staging g hg

theorem moves_bounded {s t : State} (h : s.Moves H A T t) (hs : s.Bounded) : t.Bounded := by
  obtain ⟨hplans, hstaging⟩ := moves_plansFit h hs.plansFit
  have k := moves_sameQueues h
  exact ⟨by rw [k.receive]; exact hs.receive, by rw [k.reply]; exact hs.reply, by rw [k.cache]; exact hs.cache,
    moves_total h hs.tags, hplans, hstaging⟩

theorem step_bounded {s t : State} (hs : s.Bounded) (h : step s = .next t) : t.Bounded :=
  step_keeps (H := False) (P := State.Bounded) (fun _ _ h => h.elim)
    (fun _ _ hs => ⟨hs.receive, hs.reply, hs.cache, hs.tags, hs.plans, hs.staging⟩) held_bounded released_bounded
    (fun _ _ _ _ hs hd => does_keeps links_bounded moves_bounded hd hs) hs h

end Sys2Proof.Machine
end

section
/-!
PROOF. Every step keeps the Tag Table as R117 describes it (O58, second part): an entry goes with the record, the arm or the snapshot
that bears its tag.
-/
namespace Sys2Proof.Machine

/-! ### What bears a tag -/

/-- The part bears a tag for a subject: the record in use with that handle, the sync arm, the scheduled snapshot. A wait is borne by
its entry alone. -/
def State.Bears (s : State) : TagSubject → Nat → Prop
  | .action h, g => ∃ i r, s.record i = some r ∧ s.handle i = h ∧ r.tag = some g
  | .sync, g => ∃ arm, s.syncArm = some arm ∧ arm.tag = g
  | .snapshot m, g => ∃ sc, s.snapshot = some sc ∧ sc.tag = g ∧ sc.mask = m
  | .idleWait _, _ => False

/-- A subject other than a wait. -/
def TagSubject.Borne (b : TagSubject) : Prop := ∀ m, b ≠ .idleWait m

/-- The Tag Table as R117 describes it, but that the subject of the entry with a tag of `P` is gone. -/
structure State.TagsBut (s : State) (P : Nat → Prop) : Prop where
  distinct : s.tagsHeld.Nodup
  range    : ∀ g ∈ s.tagsHeld, 1 ≤ g ∧ g ≤ 255
  next     : 1 ≤ s.nextTag ∧ s.nextTag ≤ 255
  entries  : ∀ e ∈ s.tagsOpen, ¬ P e.tag → e.subject.Borne → s.Bears e.subject e.tag
  bears    : ∀ b g, s.Bears b g → ¬ P g ∧ { tag := g, subject := b } ∈ s.tagsOpen

theorem tagsKept_iff (s : State) : s.TagsKept ↔ s.TagsBut fun _ => False := by
  have entry : ∀ {e : OpenTag} {g : Nat} {b : TagSubject}, e.tag = g → e.subject = b → e = { tag := g, subject := b } := by
    rintro ⟨_, _⟩ _ _ rfl rfl; rfl
  constructor
  · intro h
    refine ⟨h.distinct, h.range, h.next, fun e he _ hb => ?_, fun b g hb => ⟨id, ?_⟩⟩
    · cases hs : e.subject with
      | action k =>
        obtain ⟨i, r, hr, hk, ht⟩ := h.actions e he k hs
        exact ⟨i, r, hr, hk, ht⟩
      | sync => exact h.arm e he hs
      | idleWait m => exact absurd hs (hb m)
      | snapshot m => exact h.snapshot e he m hs
    · cases b with
      | action k =>
        obtain ⟨i, r, hr, rfl, ht⟩ := hb
        obtain ⟨e, he, h1, h2⟩ := h.records i r g hr ht
        exact entry h1 h2 ▸ he
      | sync =>
        obtain ⟨arm, ha, rfl⟩ := hb
        obtain ⟨e, he, h1, h2⟩ := h.armed arm ha
        exact entry h1 h2 ▸ he
      | idleWait m => exact hb.elim
      | snapshot m =>
        obtain ⟨sc, ha, rfl, rfl⟩ := hb
        obtain ⟨e, he, h1, h2⟩ := h.scheduled sc ha
        exact entry h1 h2 ▸ he
  · intro h
    have bears : ∀ e ∈ s.tagsOpen, ∀ b, e.subject = b → b.Borne → s.Bears b e.tag := fun e he b hs hb =>
      hs ▸ h.entries e he id (hs ▸ hb)
    refine ⟨h.distinct, h.range, h.next, fun e he k hs => ?_, fun i r g hr ht => ?_, fun e he hs => ?_, fun arm ha => ?_,
      fun e he m hs => ?_, fun sc ha => ?_⟩
    · exact bears e he _ hs nofun
    · exact ⟨_, (h.bears (.action (s.handle i)) g ⟨i, r, hr, rfl, ht⟩).2, rfl, rfl⟩
    · exact bears e he _ hs nofun
    · exact ⟨_, (h.bears .sync arm.tag ⟨arm, ha, rfl⟩).2, rfl, rfl⟩
    · exact bears e he _ hs nofun
    · exact ⟨_, (h.bears (.snapshot sc.mask) sc.tag ⟨sc, ha, rfl, rfl⟩).2, rfl, rfl⟩

/-- An OPEN tag has one entry. -/
theorem entry_unique {s : State} (h : s.tagsHeld.Nodup) {e e' : OpenTag} (he : e ∈ s.tagsOpen) (he' : e' ∈ s.tagsOpen)
    (ht : e.tag = e'.tag) : e = e' :=
  List.inj_on_of_nodup_map (List.Nodup.of_append_left h) he he' ht

variable {P : Nat → Prop}

theorem State.TagsBut.of_iff {s : State} {Q : Nat → Prop} (h : s.TagsBut P) (hp : ∀ g, Q g ↔ P g) : s.TagsBut Q :=
  (funext fun g => propext (hp g) : Q = P) ▸ h

theorem State.TagsBut.fewer {s t : State} (h : s.TagsBut P) (ho : t.tagsOpen = s.tagsOpen) (hw : t.tagsWaiting.Sublist s.tagsWaiting)
    (hn : t.nextTag = s.nextTag) (hb : ∀ b g, t.Bears b g ↔ s.Bears b g) : t.TagsBut P := by
  have hh : t.tagsHeld.Sublist s.tagsHeld := by
    unfold State.tagsHeld
    rw [ho]
    exact (hw.map _).append_left _
  refine ⟨h.distinct.sublist hh, fun g hg => h.range g (hh.subset hg), hn ▸ h.next, fun e he hp hbo => ?_, fun b g hg => ?_⟩
  · exact (hb _ _).mpr (h.entries e (ho ▸ he) hp hbo)
  · exact ho ▸ h.bears b g ((hb b g).mp hg)

theorem State.TagsBut.congr {s t : State} (h : s.TagsBut P) (ho : t.tagsOpen = s.tagsOpen) (hw : t.tagsWaiting = s.tagsWaiting)
    (hn : t.nextTag = s.nextTag) (hb : ∀ b g, t.Bears b g ↔ s.Bears b g) : t.TagsBut P :=
  h.fewer ho (hw ▸ List.Sublist.refl _) hn hb

/-- The bearer of an entry goes. -/
theorem State.TagsBut.dropped {s t : State} (h : s.TagsBut fun _ => False) {b : TagSubject} {g : Nat}
    (he : { tag := g, subject := b } ∈ s.tagsOpen) (ho : t.tagsOpen = s.tagsOpen) (hw : t.tagsWaiting = s.tagsWaiting)
    (hn : t.nextTag = s.nextTag) (hle : ∀ b' g', t.Bears b' g' → s.Bears b' g') (hno : ¬ t.Bears b g)
    (hge : ∀ b' g', g' ≠ g → s.Bears b' g' → t.Bears b' g') : t.TagsBut (· = g) := by
  have hh : t.tagsHeld = s.tagsHeld := by unfold State.tagsHeld; rw [ho, hw]
  refine ⟨hh ▸ h.distinct, hh ▸ h.range, hn ▸ h.next, fun e' he' hp hbo => ?_, fun b' g' hg => ⟨fun e => ?_, ?_⟩⟩
  · exact hge _ _ hp (h.entries e' (ho ▸ he') id hbo)
  · subst e
    have := entry_unique h.distinct (h.bears b' g' (hle _ _ hg)).2 he rfl
    cases this
    exact hno hg
  · exact ho ▸ (h.bears b' g' (hle _ _ hg)).2

/-- The entry of a wait may end: nothing bears its tag. -/
theorem State.TagsBut.wait {s : State} (h : s.TagsBut fun _ => False) {e : OpenTag} {m : Byte} (he : e ∈ s.tagsOpen)
    (hs : e.subject = .idleWait m) : s.TagsBut (· = e.tag) := by
  have he' : { tag := e.tag, subject := .idleWait m } ∈ s.tagsOpen := by rw [← hs]; exact he
  exact h.dropped he' rfl rfl rfl (fun _ _ => id) id fun _ _ _ => id

theorem appendNotice_tagsBut {s : State} (h : s.TagsBut P) (b : NoticeBody) : (s.appendNotice b).TagsBut P :=
  h.congr rfl rfl rfl fun b _ => by cases b <;> rfl

theorem nodup_moved {a b : List Nat} {g : Nat} (h : (a ++ b).Nodup) (hg : g ∈ a) : (a.filter (· ≠ g) ++ (b ++ [g])).Nodup := by
  obtain ⟨ha, hb, hd⟩ := List.nodup_append.mp h
  refine List.nodup_append.mpr ⟨ha.filter _, List.nodup_append.mpr ⟨hb, List.nodup_singleton g, ?_⟩, ?_⟩
  · rintro x hx y hy rfl
    exact hd g hg x hx (List.mem_singleton.mp hy).symm
  · rintro x hx y hy rfl
    obtain ⟨hxa, hxg⟩ := List.mem_filter.mp hx
    rcases List.mem_append.mp hy with hy | hy
    · exact hd x hxa x hy rfl
    · exact of_decide_eq_true hxg (List.mem_singleton.mp hy)

/-- The entry whose bearer is gone leaves, and its tag is given back or waits. -/
theorem State.TagsBut.closed {s t : State} {g : Nat} (h : s.TagsBut (· = g)) (ho : t.tagsOpen = s.tagsOpen.filter (·.tag ≠ g))
    (hd : t.tagsHeld.Nodup) (hsub : t.tagsHeld ⊆ s.tagsHeld) (hn : t.nextTag = s.nextTag) (hb : ∀ b g, t.Bears b g ↔ s.Bears b g) :
    t.TagsBut fun _ => False := by
  have hmem : ∀ {e : OpenTag}, e ∈ t.tagsOpen ↔ e ∈ s.tagsOpen ∧ e.tag ≠ g := by simp [ho]
  refine ⟨hd, fun g' hg' => h.range g' (hsub hg'), hn ▸ h.next, fun e he _ hbo => ?_, fun b' g' hg => ⟨id, ?_⟩⟩
  · obtain ⟨hin, hne⟩ := hmem.mp he
    exact (hb _ _).mpr (h.entries e hin hne hbo)
  · obtain ⟨hne, hin⟩ := h.bears b' g' ((hb _ _).mp hg)
    exact hmem.mpr ⟨hin, hne⟩

/-- A completion takes the entry whose bearer is gone (R119). -/
theorem completeTag_tagsKept {s : State} {g : Nat} (h : s.TagsBut (· = g)) (res : EndResult) (b : DoneBody) :
    (s.completeTag g res b).TagsBut fun _ => False := by
  unfold State.completeTag
  split
  · next hany =>
    have hg : g ∈ s.tagsOpen.map (·.tag) := by
      obtain ⟨e, he, hg⟩ := List.any_eq_true.mp hany
      exact List.mem_map.mpr ⟨e, he, by simpa using hg⟩
    have hsub : (s.tagsOpen.filter (·.tag ≠ g)).map (·.tag) = (s.tagsOpen.map (·.tag)).filter (· ≠ g) := by
      rw [List.filter_map]; rfl
    have hle : ((s.tagsOpen.filter (·.tag ≠ g)).map (·.tag) ++ s.tagsWaiting.map (·.tag)).Sublist s.tagsHeld :=
      (List.filter_sublist.map _).append_right _
    dsimp only
    split
    · exact h.closed (t := State.appendNotice { s with tagsOpen := s.tagsOpen.filter (·.tag ≠ g) } _) rfl (h.distinct.sublist hle)
        hle.subset rfl fun b _ => by cases b <;> rfl
    · have hheld : State.tagsHeld { s with
            tagsOpen := s.tagsOpen.filter (·.tag ≠ g), tagsWaiting := s.tagsWaiting ++ [{ tag := g, result := res, body := b }] }
          = (s.tagsOpen.map (·.tag)).filter (· ≠ g) ++ (s.tagsWaiting.map (·.tag) ++ [g]) := by
        rw [← hsub]
        exact congrArg (_ ++ ·) List.map_append
      refine h.closed rfl (hheld ▸ nodup_moved h.distinct hg) (hheld ▸ ?_) rfl fun b _ => by cases b <;> rfl
      intro x hx
      simp only [List.mem_append, List.mem_filter, List.mem_singleton] at hx
      rcases hx with hx | hx | rfl
      · exact List.mem_append_left _ hx.1
      · exact List.mem_append_right _ hx
      · exact List.mem_append_left _ hg
  · next hany =>
    have hno : ∀ e ∈ s.tagsOpen, e.tag ≠ g := fun e he hg => hany (List.any_eq_true.mpr ⟨e, he, by simpa using hg⟩)
    exact ⟨h.distinct, h.range, h.next, fun e he _ => h.entries e he (hno e he), fun b' g' hb => ⟨id, (h.bears b' g' hb).2⟩⟩

/-! ### A record goes, or is filled -/

theorem handle_slot (s : State) (i : SlotNo) : handleSlot (s.handle i) = i := by
  refine Fin.ext ?_
  show (handleOf (s.slot i).gen i).toNat % 256 = i.val
  unfold handleOf
  rw [BitVec.toNat_ofNat]
  omega

theorem noticed_slotFreed (s : State) (i : SlotNo) (b : NoticeBody) : (s.slotFreed i).noticed b = (s.noticed b).slotFreed i := by
  unfold State.noticed
  by_cases h : s.notices.length < 32
  · rw [if_pos h]; exact if_pos h
  · rw [if_neg h]; exact if_neg h

theorem withDone_slotFreed (s : State) (i : SlotNo) (g : Nat) (res : EndResult) (b : DoneBody) :
    (s.slotFreed i).withDone g res b = (s.withDone g res b).slotFreed i := by
  unfold State.withDone
  by_cases h : s.TagOpen g
  · by_cases hr : s.tagsWaiting = [] ∧ s.notices.length < 32
    · rw [if_neg (not_not_intro h), if_pos hr]
      exact (if_neg (not_not_intro h)).trans (if_pos hr)
    · rw [if_neg (not_not_intro h), if_neg hr]
      exact (if_neg (not_not_intro h)).trans (if_neg hr)
  · rw [if_pos h]; exact if_pos h

/-- The reports of a freeing are the same whether the slot is released before or after them. -/
theorem reportEnd_slotFreed (s : State) (i : SlotNo) (r : Record) (b : EndedBody) :
    (s.slotFreed i).reportEnd r b = s.freed i r b := by
  have h1 : (if r.report then (s.slotFreed i).noticed (.ended b) else s.slotFreed i)
      = (if r.report then s.noticed (.ended b) else s).slotFreed i := by
    rw [noticed_slotFreed]
    split <;> rfl
  rw [freed_eq_release]
  unfold State.reportEnd
  cases r.tag with
  | none => exact h1
  | some g =>
    rw [h1]
    exact withDone_slotFreed _ i g _ _

theorem slotFreed_record (s : State) (i j : SlotNo) : (s.slotFreed i).record j = if j = i then none else s.record j := by
  simp only [State.record, State.slot, State.slotFreed, getAt_setAt]
  split <;> rfl

theorem slotFreed_handle {s : State} {i j : SlotNo} (h : j ≠ i) : (s.slotFreed i).handle j = s.handle j := by
  simp only [State.handle, State.slot, State.slotFreed, getAt_setAt, if_neg h]

theorem slotFreed_bears {s : State} {i : SlotNo} {b : TagSubject} {g : Nat} : (s.slotFreed i).Bears b g ↔
    match b with
    | .action h => ∃ j r, j ≠ i ∧ s.record j = some r ∧ s.handle j = h ∧ r.tag = some g
    | b => s.Bears b g := by
  cases b with
  | action h =>
    constructor
    · rintro ⟨j, r, hr, hh, ht⟩
      rw [slotFreed_record] at hr
      split at hr
      · cases hr
      · next hj => exact ⟨j, r, hj, hr, (slotFreed_handle hj).symm.trans hh, ht⟩
    · rintro ⟨j, r, hj, hr, hh, ht⟩
      exact ⟨j, r, by rw [slotFreed_record, if_neg hj]; exact hr, (slotFreed_handle hj).trans hh, ht⟩
  | sync | idleWait _ | snapshot _ => exact Iff.rfl

theorem reportEnd_tagsKept {s : State} {r : Record} (b : EndedBody) (h : s.TagsBut fun g => r.tag = some g) :
    (s.reportEnd r b).TagsBut fun _ => False := by
  have h1 : (if r.report then s.noticed (.ended b) else s).TagsBut fun g => r.tag = some g := by
    split
    · unfold State.noticed
      split <;> exact h.congr rfl rfl rfl fun b _ => by cases b <;> rfl
    · exact h
  unfold State.reportEnd
  split
  · next hn => exact h1.of_iff fun g => by simp [hn]
  · next g hg =>
    rw [← completeTag_eq_withDone]
    exact completeTag_tagsKept (h1.of_iff fun g' => by rw [hg, Option.some_inj, eq_comm]) _ _

/-- A record that is freed takes its tag with it. -/
theorem freed_tagsKept {s : State} (h : s.TagsBut fun _ => False) {i : SlotNo} {r : Record} (hr : s.record i = some r) (b : EndedBody) :
    (s.freed i r b).TagsBut fun _ => False := by
  rw [← reportEnd_slotFreed]
  refine reportEnd_tagsKept b ?_
  cases ht : r.tag with
  | none =>
    refine State.TagsBut.of_iff (P := fun _ => False) ?_ fun g => by simp
    refine h.congr rfl rfl rfl fun b g => ?_
    rw [slotFreed_bears]
    cases b with
    | action k =>
      constructor
      · rintro ⟨j, r', _, h'⟩; exact ⟨j, r', h'⟩
      · rintro ⟨j, r', hr', h1, h2⟩
        refine ⟨j, r', ?_, hr', h1, h2⟩
        rintro rfl
        rw [hr] at hr'; cases hr'
        rw [ht] at h2; cases h2
    | sync | idleWait _ | snapshot _ => rfl
  | some g =>
    have hent := (h.bears (.action (s.handle i)) g ⟨i, r, hr, rfl, ht⟩).2
    have hd : (s.slotFreed i).TagsBut (· = g) := by
      refine h.dropped hent rfl rfl rfl (fun b' g' hb => ?_) (fun hb => ?_) fun b' g' hg hb => ?_
      · rw [slotFreed_bears] at hb
        cases b' with
        | action k => obtain ⟨j, r', _, h'⟩ := hb; exact ⟨j, r', h'⟩
        | sync | idleWait _ | snapshot _ => exact hb
      · obtain ⟨j, r', hj, _, hk, _⟩ := slotFreed_bears.mp hb
        exact hj (by rw [← handle_slot s j, hk, handle_slot])
      · rw [slotFreed_bears]
        cases b' with
        | action k =>
          obtain ⟨j, r', hr', h1, h2⟩ := hb
          refine ⟨j, r', ?_, hr', h1, h2⟩
          rintro rfl
          rw [hr] at hr'; cases hr'
          rw [ht] at h2
          exact hg (Option.some.inj h2).symm
        | sync | idleWait _ | snapshot _ => exact hb
    exact hd.of_iff fun g' => by rw [Option.some_inj, eq_comm]

theorem setRecord_bears {s : State} {i : SlotNo} {r q : Record} (hr : s.record i = some r) (hq : q.tag = r.tag) (b : TagSubject)
    (g : Nat) : (s.setRecord i q).Bears b g ↔ s.Bears b g := by
  have hh : ∀ j, (s.setRecord i q).handle j = s.handle j := fun j => by
    unfold State.handle
    rw [setRecord_slot]
    split
    · next e => rw [e]
    · rfl
  cases b with
  | action k =>
    constructor
    · rintro ⟨j, r', hr', h1, h2⟩
      rw [setRecord_record] at hr'
      rw [hh] at h1
      split at hr'
      · next e => cases hr'; exact ⟨i, r, hr, e ▸ h1, hq ▸ h2⟩
      · exact ⟨j, r', hr', h1, h2⟩
    · rintro ⟨j, r', hr', h1, h2⟩
      by_cases e : j = i
      · subst e
        rw [hr] at hr'; cases hr'
        exact ⟨j, q, setRecord_record_self s j q, by rw [hh]; exact h1, hq.trans h2⟩
      · exact ⟨j, r', by rw [setRecord_record, if_neg e]; exact hr', by rw [hh]; exact h1, h2⟩
  | sync | idleWait _ | snapshot _ => rfl

/-! ### A tag is given -/

/-- A new entry, whose tag nothing bears yet. -/
theorem allocTag_tagsBut {s : State} (h : s.TagsBut fun _ => False) (hf : s.tagsOpen.length + s.tagsWaiting.length < 16)
    (b : TagSubject) : (s.allocTag b).TagsBut (· = s.tagToGive) := by
  obtain ⟨hfree, -⟩ := tagToGive_spec h.next hf
  have hrange := tagToGive_range h.next hf
  have hmem : ∀ g, g ∈ (s.allocTag b).tagsHeld ↔ g ∈ s.tagsHeld ∨ g = s.tagToGive := fun g => by
    simp only [State.tagsHeld, State.allocTag, List.map_append, List.mem_append, List.map_cons, List.map_nil, List.mem_singleton]
    tauto
  have hb : ∀ b' g, (s.allocTag b).Bears b' g ↔ s.Bears b' g := fun b' _ => by cases b' <;> rfl
  refine ⟨?_, fun g hg => ?_, tagAfter_range hrange, fun e he hp hbo => ?_, fun b' g hg => ?_⟩
  · have e : (s.allocTag b).tagsHeld = s.tagsOpen.map (·.tag) ++ s.tagToGive :: s.tagsWaiting.map (·.tag) := by
      simp [State.tagsHeld, State.allocTag]
    rw [e]
    exact (List.perm_middle.nodup_iff).mpr (List.nodup_cons.mpr ⟨hfree, h.distinct⟩)
  · rcases (hmem g).mp hg with hg | rfl
    · exact h.range g hg
    · exact hrange
  · refine (hb _ _).mpr (h.entries e ?_ id hbo)
    rcases List.mem_append.mp he with he | he
    · exact he
    · rw [List.mem_singleton.mp he] at hp
      exact absurd rfl hp
  · have hin := (h.bears b' g ((hb _ _).mp hg)).2
    exact ⟨fun e => hfree (e ▸ mem_tagsHeld.mpr (.inl ⟨_, hin, rfl⟩)), List.mem_append_left _ hin⟩

/-- The subject of the new entry is there. -/
theorem State.TagsBut.borne {s t : State} {b : TagSubject} {g : Nat} (h : s.TagsBut (· = g))
    (he : { tag := g, subject := b } ∈ s.tagsOpen) (ho : t.tagsOpen = s.tagsOpen) (hw : t.tagsWaiting = s.tagsWaiting)
    (hn : t.nextTag = s.nextTag) (hb : ∀ b' g', t.Bears b' g' ↔ s.Bears b' g' ∨ b.Borne ∧ b' = b ∧ g' = g) :
    t.TagsBut fun _ => False := by
  have hh : t.tagsHeld = s.tagsHeld := by unfold State.tagsHeld; rw [ho, hw]
  refine ⟨hh ▸ h.distinct, hh ▸ h.range, hn ▸ h.next, fun e' he' _ hbo => ?_, fun b' g' hg => ⟨id, ?_⟩⟩
  · rw [ho] at he'
    rw [hb]
    by_cases hg : e'.tag = g
    · have e : e' = _ := entry_unique h.distinct he' he hg
      rw [e] at hbo ⊢
      exact .inr ⟨hbo, rfl, rfl⟩
    · exact .inl (h.entries e' he' hg hbo)
  · rw [ho]
    rcases (hb b' g').mp hg with hg | ⟨_, rfl, rfl⟩
    · exact (h.bears b' g' hg).2
    · exact he

theorem tagsFull_lt {s : State} (h : s.tagsFull = false) : s.tagsOpen.length + s.tagsWaiting.length < 16 :=
  Nat.lt_of_not_le (of_decide_eq_false h)

theorem mem_allocTag (s : State) (b : TagSubject) : { tag := s.tagToGive, subject := b } ∈ (s.allocTag b).tagsOpen :=
  List.mem_append_right _ (List.mem_singleton.mpr rfl)

theorem allocated_handle (s : State) (q : ScheduleFields) (ch : Channel) (start : Time) (st : RecState) (i : SlotNo)
    (free : List SlotNo) (j : SlotNo) : (s.allocated q ch start st i free).handle j = s.handle j := by
  simp only [State.handle, State.slot, State.allocated, getAt_setAt]
  split
  · next e => rw [e]
  · rfl

theorem allocated_tagsKept {s : State} (h : s.TagsBut fun _ => False) {q : ScheduleFields} {i : SlotNo} {free : List SlotNo}
    (hr : s.record i = none) (ht : q.tagged = true → s.tagsOpen.length + s.tagsWaiting.length < 16) (ch : Channel) (start : Time)
    (st : RecState) : (s.allocated q ch start st i free).TagsBut fun _ => False := by
  have hact : ∀ k g, (s.allocated q ch start st i free).Bears (.action k) g
      ↔ s.Bears (.action k) g ∨ s.handle i = k ∧ q.tagged = true ∧ g = s.tagToGive := by
    intro k g
    constructor
    · rintro ⟨j, r, hj, hk, htag⟩
      rw [allocated_record] at hj
      rw [allocated_handle] at hk
      split at hj
      · next e =>
        cases hj
        subst e
        have htag : (if q.tagged then some s.tagToGive else none) = some g := htag
        split at htag
        · next hq => exact .inr ⟨hk, hq, (Option.some.inj htag).symm⟩
        · cases htag
      · exact .inl ⟨j, r, hj, hk, htag⟩
    · rintro (⟨j, r, hj, hk, htag⟩ | ⟨hk, hq, rfl⟩)
      · refine ⟨j, r, ?_, by rw [allocated_handle]; exact hk, htag⟩
        rw [allocated_record, if_neg (fun e => ?_)]
        · exact hj
        · rw [e, hr] at hj; cases hj
      · refine ⟨i, _, by rw [allocated_record, if_pos rfl], by rw [allocated_handle]; exact hk, ?_⟩
        show (if q.tagged then some s.tagToGive else none) = _
        rw [if_pos hq]
  cases hq : q.tagged with
  | false =>
    refine h.congr ?_ rfl ?_ fun b g => ?_
    · show (if q.tagged then _ else s.tagsOpen) = _
      rw [hq]; rfl
    · show (if q.tagged then _ else s.nextTag) = _
      rw [hq]; rfl
    · cases b with
      | action k => rw [hact, hq]; simp
      | sync | idleWait _ | snapshot _ => rfl
  | true =>
    refine (allocTag_tagsBut h (ht hq) (.action (s.handle i))).borne (mem_allocTag s _) ?_ rfl ?_ fun b g => ?_
    · show (if q.tagged then _ else s.tagsOpen) = _
      rw [hq]; rfl
    · show (if q.tagged then _ else s.nextTag) = _
      rw [hq]; rfl
    · cases b with
      | action k =>
        rw [hact, hq]
        have hb : (TagSubject.action (s.handle i)).Borne := nofun
        simp only [hb, true_and, TagSubject.action.injEq, eq_comm (a := s.handle i)]
        rfl
      | sync | idleWait _ | snapshot _ => exact (or_iff_left (by simp)).symm

/-! ### Work on actions -/

variable {H : Prop} {A : Special → Prop} {T : Nat → Prop}

/-- What the Tag Table has to know of the scheduled snapshot. -/
def Scheduled.mark (sc : Scheduled) : Nat × Byte := (sc.tag, sc.mask)

/-- What bears tags is as it was. -/
theorem tagsKept_frame {s t : State} (h : s.TagsBut P) (hs : t.slots = s.slots) (ha : t.syncArm = s.syncArm)
    (hp : t.snapshot.map Scheduled.mark = s.snapshot.map Scheduled.mark) (ho : t.tagsOpen = s.tagsOpen)
    (hw : t.tagsWaiting = s.tagsWaiting) (hn : t.nextTag = s.nextTag) : t.TagsBut P := by
  refine h.congr ho hw hn fun b g => ?_
  cases b with
  | action k => simp only [State.Bears, State.record, State.handle, State.slot, hs]
  | sync => simp only [State.Bears, ha]
  | idleWait m => exact Iff.rfl
  | snapshot m =>
    have hb : ∀ u : State, u.Bears (.snapshot m) g ↔ u.snapshot.map Scheduled.mark = some (g, m) := fun u => by
      simp [State.Bears, Scheduled.mark, Option.map_eq_some_iff]
    rw [hb, hb, hp]

theorem atTick_mark (sc : Scheduled) (t : Time) : (sc.atTick t).mark = sc.mark := by
  unfold Scheduled.atTick
  split <;> rfl

theorem atLoad_mark (sc : Scheduled) (v : Time) : (sc.atLoad v).mark = sc.mark := by
  unfold Scheduled.atLoad
  split <;> rfl

theorem map_mark {f : Scheduled → Scheduled} (hf : ∀ sc, (f sc).mark = sc.mark) (o : Option Scheduled) :
    (o.map f).map Scheduled.mark = o.map Scheduled.mark := by
  rw [Option.map_map]
  congr 1
  exact funext hf

theorem setRecord_tagsKept {s : State} (h : s.TagsBut P) {i : SlotNo} {r q : Record} (hr : s.record i = some r) (hq : q.tag = r.tag) :
    (s.setRecord i q).TagsBut P :=
  h.congr rfl rfl rfl (setRecord_bears hr hq)

theorem handOrdinary_tagsKept {s : State} (h : s.TagsBut P) (b : NoticeBody) : (s.handOrdinary b).TagsBut P := by
  unfold State.handOrdinary
  split <;> exact tagsKept_frame h rfl rfl rfl rfl rfl rfl

theorem acts_tagsKept {C : List Channel} {s t : State} (h : s.Acts H C t) (hH : H) :
    (s.TagsBut fun _ => False) → t.TagsBut fun _ => False := by
  induction h with
  | refl s => exact id
  | trans _ _ h k => exact k ∘ h
  | engine s ch f _ => exact fun hs => tagsKept_frame hs rfl rfl rfl rfl rfl rfl
  | plan s ch f _ => exact fun hs => tagsKept_frame hs rfl rfl rfl rfl rfl rfl
  | hand s b => exact fun hs => handOrdinary_tagsKept hs b
  | @drop s ch i r b _ hr _ =>
    exact fun hs => freed_tagsKept (s := s.leavePlan ch i) (tagsKept_frame hs rfl rfl rfl rfl rfl rfl) (hr hH) b
  | @finish s ch run r f b _ hr _ _ _ =>
    exact fun hs => freed_tagsKept (s := s.modEngine ch f) (tagsKept_frame hs rfl rfl rfl rfl rfl rfl) (hr hH) b
  | @start s ch i r hr _ _ =>
    intro hs
    have h1 : State.TagsBut ((s.leavePlan ch i).setRecord i { r with state := .current }) fun _ => False :=
      setRecord_tagsKept (s := s.leavePlan ch i) (tagsKept_frame hs rfl rfl rfl rfl rfl rfl) (hr hH) rfl
    exact tagsKept_frame h1 rfl rfl rfl rfl rfl rfl
  | wait hr _ => exact fun hs => setRecord_tagsKept hs hr rfl
  | unlist s i _ => exact fun hs => tagsKept_frame hs rfl rfl rfl rfl rfl rfl
  | @unstage s i r b _ hr _ =>
    exact fun hs => freed_tagsKept (s := s.unstage i) (tagsKept_frame hs rfl rfl rfl rfl rfl rfl) (hr hH) b
  | close s _ => exact fun hs => tagsKept_frame hs rfl rfl rfl rfl rfl rfl

/-- The watch ends waits only, and each by its own entry; `es` are entries that are still OPEN, each once. -/
theorem watchEntries_tagsKept (m : Byte) : ∀ (es : List OpenTag) {s : State}, es.Nodup → (∀ e ∈ es, e ∈ s.tagsOpen) →
    (s.TagsBut fun _ => False) → (watchEntries m es s).TagsBut fun _ => False
  | [], _, _, _, h => h
  | e :: es, s, hnd, hin, h => by
    obtain ⟨hne, hnd'⟩ := List.nodup_cons.mp hnd
    have hin' : ∀ x ∈ es, x ∈ s.tagsOpen := fun x hx => hin x (List.mem_cons_of_mem _ hx)
    unfold watchEntries
    split
    · next mask hm =>
      split
      · have he := hin e List.mem_cons_self
        refine watchEntries_tagsKept m es hnd' (fun x hx => ?_) (completeTag_tagsKept (h.wait he hm) _ _)
        rw [completeTag_eq_withDone]
        refine withDone_other (hin' x hx) (fun ht => ?_) _ _
        exact hne (entry_unique h.distinct (hin' x hx) he ht ▸ hx)
      · exact watchEntries_tagsKept m es hnd' hin' h
    all_goals exact watchEntries_tagsKept m es hnd' hin' h

theorem watch_tagsKept {t : State} (h : t.TagsBut fun _ => False) (m : Byte) (s : State) : (watch m s t).TagsBut fun _ => False := by
  unfold watch
  split
  · exact watchEntries_tagsKept m _ (List.Nodup.of_map _ (List.Nodup.of_append_left h.distinct)) (fun _ => id) h
  · exact h

theorem blocks_tagsKept {s t : State} (h : s.Blocks H t) (hH : H) : (s.TagsBut fun _ => False) → t.TagsBut fun _ => False := by
  induction h with
  | refl s => exact id
  | trans _ _ h k => exact k ∘ h
  | watched _ h _ => exact fun hs => watch_tagsKept (acts_tagsKept h hH hs) _ _

/-! ### The other steps -/

theorem setLatch_tagsKept {s : State} (h : s.TagsBut P) (c : SafeCause) : (s.setLatch c).TagsBut P := by
  unfold State.setLatch
  split
  · exact h
  · have h1 : State.TagsBut { s with latch := true, cause := c } P := tagsKept_frame h rfl rfl rfl rfl rfl rfl
    exact tagsKept_frame (handOrdinary_tagsKept h1 _) rfl rfl rfl rfl rfl rfl

/-- The sync arm goes. -/
theorem disarmed_tagsBut {s : State} (h : s.TagsBut fun _ => False) {arm : SyncArm} (ha : s.syncArm = some arm) :
    State.TagsBut { s with syncArm := none } (· = arm.tag) := by
  have hno : ∀ g, ¬ State.Bears { s with syncArm := none } .sync g := by rintro g ⟨a, e, _⟩; cases e
  refine h.dropped (h.bears .sync arm.tag ⟨arm, ha, rfl⟩).2 rfl rfl rfl (fun b g hb => ?_) (hno _) fun b g hg hb => ?_
  · cases b with
    | sync => exact absurd hb (hno g)
    | action _ | idleWait _ | snapshot _ => exact hb
  · cases b with
    | sync =>
      obtain ⟨a, e, hag⟩ := hb
      rw [ha] at e; cases e
      exact absurd hag.symm hg
    | action _ | idleWait _ | snapshot _ => exact hb

theorem unsnapped_tagsBut {s : State} (h : s.TagsBut fun _ => False) {sc : Scheduled} (hsc : s.snapshot = some sc) :
    State.TagsBut { s with snapshot := none } (· = sc.tag) := by
  have hno : ∀ m g, ¬ State.Bears { s with snapshot := none } (.snapshot m) g := by rintro m g ⟨a, e, _⟩; cases e
  refine h.dropped (h.bears (.snapshot sc.mask) sc.tag ⟨sc, hsc, rfl, rfl⟩).2 rfl rfl rfl (fun b g hb => ?_) (hno _ _)
    fun b g hg hb => ?_
  · cases b with
    | snapshot m => exact absurd hb (hno m g)
    | action _ | sync | idleWait _ => exact hb
  · cases b with
    | snapshot m =>
      obtain ⟨a, e, hag, _⟩ := hb
      rw [hsc] at e; cases e
      exact absurd hag.symm hg
    | action _ | sync | idleWait _ => exact hb

theorem armed_tagsKept {s : State} (h : s.TagsBut fun _ => False) (hf : s.tagsFull = false) (hn : s.syncArm = none) (v : Time)
    (pol : SyncPolarity) : State.TagsBut { s.allocTag .sync with syncArm := some { value := v, pol := pol, tag := s.tagToGive } }
      fun _ => False := by
  refine (allocTag_tagsBut h (tagsFull_lt hf) .sync).borne (mem_allocTag s _) rfl rfl rfl fun b g => ?_
  cases b with
  | sync =>
    have hb : TagSubject.sync.Borne := nofun
    constructor
    · rintro ⟨arm, e, hg⟩; cases e; exact .inr ⟨hb, rfl, hg.symm⟩
    · rintro (⟨arm, e, _⟩ | ⟨_, _, rfl⟩)
      · exact absurd (hn.symm.trans e) nofun
      · exact ⟨_, rfl, rfl⟩
  | action _ | idleWait _ | snapshot _ => exact (or_iff_left (by simp)).symm

theorem snapped_tagsKept {s : State} (h : s.TagsBut fun _ => False) (hf : s.tagsFull = false) (hn : s.snapshot = none) (mask : Byte)
    (time : Time) : State.TagsBut { s.allocTag (.snapshot mask) with
      snapshot := some { mask := mask, time := time, tag := s.tagToGive, due := none } } fun _ => False := by
  refine (allocTag_tagsBut h (tagsFull_lt hf) (.snapshot mask)).borne (mem_allocTag s _) rfl rfl rfl fun b g => ?_
  cases b with
  | snapshot m =>
    have hb : (TagSubject.snapshot mask).Borne := nofun
    constructor
    · rintro ⟨sc, e, hg, hm⟩; cases e; exact .inr ⟨hb, by rw [← hm], hg.symm⟩
    · rintro (⟨sc, e, _⟩ | ⟨_, e, rfl⟩)
      · exact absurd (hn.symm.trans e) nofun
      · cases e; exact ⟨_, rfl, rfl, rfl⟩
  | action _ | idleWait _ | sync => exact (or_iff_left (by simp)).symm

theorem waiting_tagsKept {s : State} (h : s.TagsBut fun _ => False) (hf : s.tagsFull = false) (mask : Byte) :
    (s.allocTag (.idleWait mask)).TagsBut fun _ => False := by
  refine (allocTag_tagsBut h (tagsFull_lt hf) (.idleWait mask)).borne (mem_allocTag s _) rfl rfl rfl fun b g => ?_
  exact (or_iff_left fun k => k.1 mask rfl).symm

/-- No tag is held and nothing bears one. -/
theorem empty_tagsKept {s : State} (ho : s.tagsOpen = []) (hw : s.tagsWaiting = []) (hn : s.nextTag = 1)
    (hr : ∀ i, s.record i = none) (ha : s.syncArm = none) (hp : s.snapshot = none) : s.TagsBut fun _ => False := by
  have hh : s.tagsHeld = [] := by unfold State.tagsHeld; rw [ho, hw]; rfl
  refine ⟨hh ▸ List.nodup_nil, fun g hg => ?_, by rw [hn]; decide, fun e he => ?_, fun b g hb => ?_⟩
  · rw [hh] at hg; cases hg
  · rw [ho] at he; cases he
  · cases b with
    | action k => obtain ⟨i, r, h, _⟩ := hb; rw [hr] at h; cases h
    | sync => obtain ⟨a, h, _⟩ := hb; rw [ha] at h; cases h
    | idleWait m => exact hb.elim
    | snapshot m => obtain ⟨a, h, _⟩ := hb; rw [hp] at h; cases h

theorem takenBack_record (s : State) (i : SlotNo) : s.restartBlocks.record i = none := by
  have e : s.restartBlocks.slot i = (s.slot i).takenBack := getAt_mapAt _ _ _
  unfold State.record
  rw [e]
  unfold Slot.takenBack
  split
  · next h => exact h
  · rfl

theorem appendWaiting_tagsKept : ∀ (l : List WaitingTag) {s : State}, s.tagsWaiting = l → s.TagsBut P →
    (appendWaiting l s).TagsBut P
  | [], _, _, h => h
  | w :: l, s, hw, h => by
    unfold appendWaiting
    split
    · have h1 : State.TagsBut { s with tagsWaiting := l } P :=
        h.fewer rfl (by rw [hw]; exact List.sublist_cons_self w l) rfl fun b _ => by cases b <;> rfl
      exact appendWaiting_tagsKept l rfl (appendNotice_tagsBut h1 _)
    · exact h

theorem ack_tagsKept {s : State} (h : s.TagsBut P) (k : Nat) :
    (({ s with notices := s.notices.drop k, expiries := 0 }.refill).retryAfterAck).TagsBut P := by
  have h1 : State.TagsBut { s with notices := s.notices.drop k, expiries := 0 } P := tagsKept_frame h rfl rfl rfl rfl rfl rfl
  have h2 := appendWaiting_tagsKept _ rfl h1
  have h3 : State.TagsBut (State.refill { s with notices := s.notices.drop k, expiries := 0 }) P := by
    unfold State.refill State.appendLoss
    split
    · exact tagsKept_frame h2 rfl rfl rfl rfl rfl rfl
    · exact h2
  unfold State.retryAfterAck
  split <;> exact tagsKept_frame h3 rfl rfl rfl rfl rfl rfl

theorem countTick_tagsKept {s : State} (h : s.TagsBut P) (pins : Pins) : (s.countTick pins).TagsBut P := by
  refine tagsKept_frame h rfl rfl ?_ rfl rfl rfl
  show Option.map _ (if _ then s.snapshot.map _ else s.snapshot) = _
  split
  · exact map_mark (fun sc => atTick_mark sc _) _
  · rfl

/-- Every kind of step keeps the Tag Table. -/
theorem moves_tagsKept {s t : State} (h : s.Moves H A T t) (hH : H) : s.Held → (s.TagsBut fun _ => False) →
    t.TagsBut fun _ => False := by
  have frame : ∀ {u v : State}, v.slots = u.slots → v.syncArm = u.syncArm → v.snapshot = u.snapshot → v.tagsOpen = u.tagsOpen →
      v.tagsWaiting = u.tagsWaiting → v.nextTag = u.nextTag → u.Held → (u.TagsBut fun _ => False) → v.TagsBut fun _ => False :=
    fun h1 h2 h3 h4 h5 h6 _ hs => tagsKept_frame hs h1 h2 (by rw [h3]) h4 h5 h6
  induction h with
  | refl s => exact fun _ => id
  | trans h _ ih ik => exact fun hh hs => ik (moves_held h hH hh) (ih hh hs)
  | settles h => rw [h]; exact frame rfl rfl rfl rfl rfl rfl
  | blocks h => exact fun _ => blocks_tagsKept h hH
  | tick _ pins _ => exact fun _ hs => countTick_tagsKept hs pins
  | clearLatch _ _ | configure _ _ _ | begin _ _ _ | retry _ | linkDown _ => exact frame rfl rfl rfl rfl rfl rfl
  | setLatch s c => exact fun _ hs => setLatch_tagsKept hs c
  | fall s =>
    intro _ hs
    have h1 : State.TagsBut { s with safenFall := false } fun _ => False := tagsKept_frame hs rfl rfl rfl rfl rfl rfl
    exact setLatch_tagsKept h1 _
  | @load s arm _ res b ha _ =>
    intro _ hs
    have h1 : State.TagsBut ({ s with syncArm := none }.forwardLoad arm.value) (· = arm.tag) :=
      tagsKept_frame (disarmed_tagsBut hs ha) rfl rfl (map_mark (fun sc => atLoad_mark sc _) _) rfl rfl rfl
    exact completeTag_tagsKept h1 res b
  | @disarm s arm g res b ha hg =>
    intro _ hs
    have e : g = arm.tag := by
      rcases hg with hg | ⟨e, he, rfl, hsub⟩
      · exact hg
      · obtain ⟨a, ha', hat⟩ := hsub ▸ hs.entries e he id (hsub ▸ nofun)
        rw [ha] at ha'; cases ha'
        exact hat.symm
    subst e
    exact completeTag_tagsKept (disarmed_tagsBut hs ha) res b
  | @unsnap s sc g res b ha hg =>
    intro _ hs
    have e : g = sc.tag := by
      rcases hg with hg | ⟨e, he, rfl, m, hsub⟩
      · exact hg
      · obtain ⟨a, ha', hat, _⟩ := hsub ▸ hs.entries e he id (hsub ▸ nofun)
        rw [ha] at ha'; cases ha'
        exact hat.symm
    subst e
    exact completeTag_tagsKept (unsnapped_tagsBut hs ha) res b
  | arm v pol hf hn => exact fun _ hs => armed_tagsKept hs hf hn v pol
  | waitIdle _ mask hf => exact fun _ hs => waiting_tagsKept hs hf mask
  | snap mask time hf hn => exact fun _ hs => snapped_tagsKept hs hf hn mask time
  | snapNow mask b hf _ => exact fun _ hs => completeTag_tagsKept (allocTag_tagsBut hs (tagsFull_lt hf) _) _ b
  | endWait b _ he hm => exact fun _ hs => completeTag_tagsKept (hs.wait he hm) _ b
  | @given s q ch start i free _ hf ht _ _ _ =>
    intro hh hs
    have hr : s.record i = none := (hh.free i).mp (by rw [hf]; exact List.mem_cons_self)
    exact tagsKept_frame (allocated_tagsKept (free := free) hs hr ht ch start .planned) rfl rfl rfl rfl rfl rfl
  | @staged s q ch start i free g _ hf ht _ _ _ =>
    intro hh hs
    have hr : s.record i = none := (hh.free i).mp (by rw [hf]; exact List.mem_cons_self)
    exact tagsKept_frame (allocated_tagsKept (free := free) hs hr ht ch start .staged) rfl rfl rfl rfl rfl rfl
  | @commit s i r start hr _ _ _ =>
    intro _ hs
    have h1 : State.TagsBut ((s.unstage i).setRecord i { r with start := start, state := .planned }) fun _ => False :=
      setRecord_tagsKept (s := s.unstage i) (tagsKept_frame hs rfl rfl rfl rfl rfl rfl) hr rfl
    exact tagsKept_frame h1 rfl rfl rfl rfl rfl rfl
  | send _ => rw [beginNotice_eq]; exact frame rfl rfl rfl rfl rfl rfl
  | ack _ _ => exact fun _ hs => ack_tagsKept hs _
  | restart s _ => exact fun _ _ => empty_tagsKept rfl rfl rfl (takenBack_record s) rfl rfl

/-! ### Every step -/

theorem held_tagsKept (l : List Instr) : (State.held l).TagsBut fun _ => False :=
  empty_tagsKept (by simp only [State.held]) (by simp only [State.held]) (by simp only [State.held]) (held_blank l).record
    (by simp only [State.held]) (by simp only [State.held])

theorem released_tagsKept (b : BitVec 2) (x : Bool) (l : List Instr) : (State.released b x l).TagsBut fun _ => False :=
  empty_tagsKept (by simp only [State.released, State.held]) (by simp only [State.released, State.held])
    (by simp only [State.released, State.held]) (released_blank b x l).record (by simp only [State.released, State.held])
    (by simp only [State.released, State.held])

theorem links_tagsKept {s t : State} (h : s.Links t) (hs : s.TagsBut P) : t.TagsBut P :=
  tagsKept_frame hs (by rw [h.same]) (by rw [h.same]) (by rw [h.same]) (by rw [h.same]) (by rw [h.same]) (by rw [h.same])

theorem step_tagsKept {s t : State} (hh : s.Held) (hs : s.TagsKept) (h : step s = .next t) : t.TagsKept := by
  have key : t.Held ∧ t.TagsBut fun _ => False :=
    step_keeps (H := True) (P := fun s => s.Held ∧ s.TagsBut fun _ => False) (fun _ hs _ => hs.1)
      (fun _ _ hs => ⟨hs.1.congr rfl rfl (fun _ => rfl) rfl fun _ => .refl _, tagsKept_frame hs.2 rfl rfl rfl rfl rfl rfl⟩)
      (fun l => ⟨(held_blank l).held, held_tagsKept l⟩) (fun b x l => ⟨(released_blank b x l).held, released_tagsKept b x l⟩)
      (fun _ _ _ _ hs hd => does_keeps (P := fun s => s.Held ∧ s.TagsBut fun _ => False)
        (fun k hs => ⟨links_held k hs.1, links_tagsKept k hs.2⟩)
        (fun k hs => ⟨moves_held k trivial hs.1, moves_tagsKept k trivial hs.1 hs.2⟩) hd hs) ⟨hh, (tagsKept_iff s).mp hs⟩ h
  exact (tagsKept_iff t).mpr key.2

/-- Settles O58: what enters a queue or a table has found room there, and an entry of the Tag Table goes with what bears its tag. -/
theorem stepsKeepTheCapacities : Obligations.StepsKeepTheCapacities := by
  unfold Obligations.StepsKeepTheCapacities
  exact ⟨fun _ _ => step_bounded, fun _ _ => step_tagsKept⟩

/-- Settles O56: the tables are blank, the queues empty, and the one notice is RESTARTED. -/
theorem theInvariantsHoldAtReset : Obligations.TheInvariantsHoldAtReset := by
  unfold Obligations.TheInvariantsHoldAtReset
  exact ⟨(released_blank _ _ _).held, (released_blank _ _ _).plansKept, released_lineKept _ _ _, released_bounded _ _ _,
    (tagsKept_iff _).mpr (released_tagsKept _ _ _), released_noticesKept _ _ _⟩

end Sys2Proof.Machine
end

section
/-!
PROOF. The machine as a whole: the step (O1), that every command answers (O2), the values at reset and release (O3, O4).
-/
namespace Sys2Proof.Machine

/-- Settles O1: both by the definition of the step. -/
theorem stepTakesTheFrontCommand : Obligations.StepTakesTheFrontCommand := by
  unfold Obligations.StepTakesTheFrontCommand
  refine ⟨fun c s => rfl, fun s h => ?_⟩
  unfold step
  rw [h]

theorem exec_next (c : Instr) (s : State) : ∃ t, exec c s = .next t := by
  have run : ∀ f : State → State, ∃ t, whileRunning f s = .next t := fun f =>
    let ⟨t, h, _⟩ := whileRunning_next f s
    ⟨t, h⟩
  cases c
  case powerOnReset => exact ⟨_, rfl⟩
  case resetRelease => exact ⟨_, rfl⟩
  all_goals
    unfold exec
    exact run _

theorem does_pending {H : Prop} {A : Special → Prop} {T : Nat → Prop} {s t : State} (h : s.Does H A T t) : t.pending = s.pending := by
  cases h with
  | link h k => rw [(moves_sameQueues k).pending, h.same]
  | request _ _ _ k => exact (moves_sameQueues k).pending

theorem exec_pending {c : Instr} {s t : State} (h : exec c s = .next t) : t.pending = s.pending := by
  by_cases hp : c = .powerOnReset
  · subst hp; cases h; rfl
  · cases hr : s.inReset with
    | false => exact does_pending (exec_does (H := False) hr hp h False.elim)
    | true =>
      by_cases hx : ∃ b x, c = .resetRelease b x
      · obtain ⟨b, x, rfl⟩ := hx
        unfold exec execResetRelease at h
        rw [hr] at h
        cases h
        rfl
      · rw [exec_inReset hr hp fun b x e => hx ⟨b, x, e⟩] at h
        cases h; rfl

/-- Settles O2: every command is one of a few kinds of changes, none of which touches the queue of commands. -/
theorem everyCommandAnswersAndKeepsTheQueue : Obligations.EveryCommandAnswersAndKeepsTheQueue := by
  unfold Obligations.EveryCommandAnswersAndKeepsTheQueue
  refine ⟨fun c s => ?_, fun c s => exec_inReset⟩
  obtain ⟨t, h⟩ := exec_next c s
  exact ⟨t, h, exec_pending h⟩

/-- Settles O3: field by field. -/
theorem resetLeavesThePowerOnValues : Obligations.ResetLeavesThePowerOnValues := by
  unfold Obligations.ResetLeavesThePowerOnValues
  have hb : State.reset.Blank := released_blank 0 true []
  have hg : ∀ ch, State.reset.trigger ch = Trigger.powerOn := fun ch => by
    simp only [State.reset, State.released, State.held, State.trigger, getAt_replicate]
  dsimp only
  refine ⟨rfl, rfl, rfl, rfl, rfl, rfl, hb.free, hb.slot, fun ch => by rw [hb.plan]; rfl, rfl, rfl, fun ch => ?_, fun ch => ?_,
    rfl, rfl, rfl, rfl, rfl, rfl, rfl, rfl, rfl, rfl, rfl, rfl, rfl, rfl, rfl, rfl, rfl, rfl, rfl, rfl, rfl, rfl, rfl, rfl, rfl, rfl, rfl, rfl⟩
  · rw [hb.engine]; exact ⟨rfl, rfl, rfl, rfl, rfl, rfl, rfl, rfl⟩
  · rw [hg]; exact ⟨rfl, rfl⟩

/-- Settles O4: by the definitions of reset and release. -/
theorem powerOnResetHoldsAndReleaseStarts : Obligations.PowerOnResetHoldsAndReleaseStarts := by
  unfold Obligations.PowerOnResetHoldsAndReleaseStarts
  refine ⟨fun s => rfl, fun l => ⟨rfl, rfl⟩, fun b x s => ⟨fun h => ?_, fun h => ?_, rfl, rfl⟩⟩
  · unfold exec execResetRelease
    rw [h]; rfl
  · unfold exec execResetRelease
    rw [h]; rfl

end Sys2Proof.Machine
end

section
/-!
PROOF. The tick (O5 to O9), and the SYNC edges and captures (O11, O12).
-/
namespace Sys2Proof.Machine

/-! ### The tick -/

theorem tick_next {s : State} (h : s.inReset = false) (pins : Pins) : exec (.tick pins) s = .next (s.tick pins) := by
  unfold exec
  exact whileRunning_running _ h

/-- With nothing sampled left to take, the tick only counts and samples. -/
theorem tick_settled {s : State} (hr : s.inReset = false) (hi : s.syncSampled = none) (hf : s.safenFall = false) (pins : Pins) :
    exec (.tick pins) s = .next (s.countTick pins) := by
  have e : s.takeSamples = s := by
    unfold State.takeSamples State.takeSafenFall
    rw [hi, Option.elim_none, hf]
    rfl
  rw [tick_next hr, State.tick, e]

theorem timeAfterTick_toNat (t : Time) : (timeAfterTick t).toNat = min (t.toNat + 1) (2 ^ 48 - 1) := by
  have hm : maxTime = 2 ^ 48 - 1 := rfl
  have ht := t.isLt
  unfold timeAfterTick
  split
  · rw [BitVec.toNat_ofNat]; omega
  · omega

theorem toTickEdge_zero : ∀ p : Fin 16, toTickEdge 16 p = 0 := by decide

theorem sampledEdge_rising (prev : Option Bool) (x : Bool) : sampledEdge prev x = some .rising ↔ prev = some false ∧ x = true := by
  cases prev with
  | none => simp [sampledEdge]
  | some l => cases l <;> cases x <;> decide

theorem sampledEdge_falling (prev : Option Bool) (x : Bool) : sampledEdge prev x = some .falling ↔ prev = some true ∧ x = false := by
  cases prev with
  | none => simp [sampledEdge]
  | some l => cases l <;> cases x <;> decide

/-- A tick at the limit hands on no new device time. -/
theorem countTick_snapshot (s : State) (pins : Pins) :
    (s.snapshot = none → (s.countTick pins).snapshot = none) ∧
    (∀ sc, s.snapshot = some sc → sc.due ≠ none → (s.countTick pins).snapshot = some sc) ∧
    (∀ sc, s.snapshot = some sc → sc.due = none → (s.countTick pins).snapshot = some { sc with
      due := if s.deviceTime.toNat < 2 ^ 48 - 1 ∧ sc.time.toNat = s.deviceTime.toNat + 1 then some ((s.countTick pins).deviceTime, false)
        else none }) := by
  have hsnap : (s.countTick pins).snapshot
      = if s.deviceTime.toNat < maxTime then s.snapshot.map (·.atTick (timeAfterTick s.deviceTime)) else s.snapshot := rfl
  have htime : (s.countTick pins).deviceTime = timeAfterTick s.deviceTime := rfl
  have hm : maxTime = 2 ^ 48 - 1 := rfl
  rw [hsnap, htime]
  refine ⟨fun h => ?_, fun sc h hd => ?_, fun sc h hd => ?_⟩
  · rw [h]; split <;> rfl
  · have hno : ¬ (sc.due = none ∧ sc.time = timeAfterTick s.deviceTime) := fun k => hd k.1
    rw [h, Option.map_some, Scheduled.atTick, if_neg hno, ite_self]
  · rw [h, Option.map_some, Scheduled.atTick]
    have hiff : sc.time = timeAfterTick s.deviceTime ↔ sc.time.toNat = min (s.deviceTime.toNat + 1) (2 ^ 48 - 1) := by
      rw [← timeAfterTick_toNat]
      exact ⟨congrArg _, BitVec.eq_of_toNat_eq⟩
    by_cases hlt : s.deviceTime.toNat < maxTime
    · have hmin : min (s.deviceTime.toNat + 1) (2 ^ 48 - 1) = s.deviceTime.toNat + 1 := by omega
      rw [hmin] at hiff
      rw [if_pos hlt]
      by_cases ht : sc.time.toNat = s.deviceTime.toNat + 1
      · rw [if_pos ⟨hd, hiff.mpr ht⟩, if_pos ⟨hm ▸ hlt, ht⟩]
      · rw [if_neg fun k => ht (hiff.mp k.2), if_neg fun k => ht k.2, ← hd]
    · have hno : ¬ (s.deviceTime.toNat < 2 ^ 48 - 1 ∧ sc.time.toNat = s.deviceTime.toNat + 1) := fun k => hlt (by omega)
      rw [if_neg hlt, if_neg hno, ← hd]

/-- Settles O5: by the equation of the tick, field by field. -/
theorem tickAdvancesTimeSamplesAndCounts : Obligations.TickAdvancesTimeSamplesAndCounts := by
  unfold Obligations.TickAdvancesTimeSamplesAndCounts
  refine ⟨fun pins s hr hi hf => ⟨_, tick_settled hr hi hf pins, timeAfterTick_toNat _, toTickEdge_zero _, rfl,
    sampledEdge_rising _ _, sampledEdge_falling _ _, rfl, ?_, rfl⟩, fun pins s hr hi hf => ⟨_, tick_settled hr hi hf pins, rfl, rfl, ?_⟩⟩
  · show (s.safenSample && !pins.safen) = true ↔ _
    rw [Bool.and_eq_true, Bool.not_eq_true']
  · obtain ⟨h1, h2, h3⟩ := countTick_snapshot s pins
    exact ⟨h1, h2, h3, rfl⟩

theorem countTick_engine (s : State) (pins : Pins) (ch : Channel) : (s.countTick pins).engine ch
    = tickEngine (s.engine ch) (tickTrigger (s.engine ch).config (pins.trg.getLsbD ch.val) (s.trigger ch)).2 := getAt_tab8 _ ch

theorem countTick_trigger (s : State) (pins : Pins) (ch : Channel) : (s.countTick pins).trigger ch
    = (tickTrigger (s.engine ch).config (pins.trg.getLsbD ch.val) (s.trigger ch)).1 := getAt_tab8 _ ch

/-- Settles O6: the engine of a tick closes its interval. -/
theorem tickClosesTheIntervalAtTheEngines : Obligations.TickClosesTheIntervalAtTheEngines := by
  unfold Obligations.TickClosesTheIntervalAtTheEngines
  intro pins s ch hr hi hf
  refine ⟨_, tick_settled hr hi hf pins, ?_⟩
  rw [countTick_engine]
  have hpulses : ∀ p : Progress, p.closeInterval (s.engine ch).changePending = { p with
      pulses := if p.activeBegan = true ∧ (s.engine ch).changePending = true then satInc p.pulses else p.pulses
      activeBegan := false
      phaseRemaining := p.phaseRemaining.map (· - 1)
      windowRemaining := p.windowRemaining.map (· - 1)
      windowDue := p.windowDue || decide (p.windowRemaining = some 1) } := fun p => by
    simp only [Progress.closeInterval, Bool.and_eq_true]
    rfl
  unfold tickEngine Engine.closeInterval
  simp only [hpulses]

theorem edgesOf_some (pol : TrigPolarity) (x : Bool) :
    edgesOf pol (some x) = if pol = .both ∨ (pol = .rising ∧ x = true) ∨ (pol = .falling ∧ x = false) then 1 else 0 := by
  cases pol <;> cases x <;> rfl

/-- Without an expiry to take, a tick takes the new sample. -/
theorem tickTrigger_sample {t : Trigger} (h : t.filterTimer ≠ some 0) (cfg : ChanConfig) (x : Bool) : tickTrigger cfg x t
    = ((t.takeSample cfg.filter.toNat x).1, edgesOf cfg.polarity (t.takeSample cfg.filter.toNat x).2) := by
  have e : t.takeExpiry = (t, none) := if_neg h
  unfold tickTrigger
  rw [e]
  simp [edgesOf]

/-- Settles O7: the sample against the filtered level, and the timer. -/
theorem tickFiltersATriggerInput : Obligations.TickFiltersATriggerInput := by
  unfold Obligations.TickFiltersATriggerInput
  intro pins s ch hr hi hf ht
  refine ⟨_, tick_settled hr hi hf pins, ?_⟩
  have hedges : ((s.countTick pins).engine ch).edgesHanded = (s.engine ch).edgesHanded
      + (tickTrigger (s.engine ch).config (pins.trg.getLsbD ch.val) (s.trigger ch)).2 := by rw [countTick_engine]; rfl
  dsimp only
  rw [hedges, countTick_trigger, tickTrigger_sample ht]
  generalize s.trigger ch = g at ht
  generalize (s.engine ch).config = cfg
  generalize pins.trg.getLsbD ch.val = x
  have hzero : cfg.filter.toNat = 0 ↔ cfg.filter = 0 := by
    rw [← BitVec.toNat_inj]; rfl
  unfold Trigger.takeSample
  refine ⟨fun h => ?_, fun h => ?_, fun h hz => ?_, fun h hz hn => ?_, fun n h hz hn => ?_⟩
  · rw [h]; exact ⟨rfl, rfl⟩
  · rw [h]; dsimp only; rw [if_pos rfl]; exact ⟨rfl, rfl⟩
  · have hx : ¬ x = !x := by cases x <;> decide
    rw [h]; dsimp only; rw [if_neg hx, if_pos (hzero.mpr hz)]
    exact ⟨rfl, by rw [edgesOf_some]⟩
  · have hx : ¬ x = !x := by cases x <;> decide
    rw [h]; dsimp only; rw [if_neg hx, if_neg fun k => hz (hzero.mp k), hn]
    exact ⟨rfl, rfl⟩
  · have hx : ¬ x = !x := by cases x <;> decide
    rw [h]; dsimp only; rw [if_neg hx, if_neg fun k => hz (hzero.mp k), hn]
    exact ⟨rfl, rfl⟩

/-! ### Outstanding events -/

theorem takeSyncEdge_sampled {s : State} (d : SyncPolarity) : (s.takeSyncEdge d).syncSampled = s.syncSampled := by
  unfold State.takeSyncEdge
  split
  · rfl
  · split
    · dsimp only
      split
      · rw [(completeTag_addsReports _ _ _ _).same]; rfl
      · rw [(completeTag_addsReports _ _ _ _).same]
    · rfl

theorem syncEdge_sampled {s : State} {d : SyncPolarity} (h : s.syncSampled = some d) :
    s.syncEdge d = { s with syncSampled := none }.takeSyncEdge d := by
  unfold State.syncEdge
  rw [h]
  exact if_pos rfl

theorem moves_inReset {H : Prop} {A : Special → Prop} {T : Nat → Prop} {s t : State} (h : s.Moves H A T t) : t.inReset = s.inReset :=
  (moves_sameQueues h).inReset

theorem setLatch_syncSampled (s : State) (c : SafeCause) : (s.setLatch c).syncSampled = s.syncSampled := by
  unfold State.setLatch
  split
  · rfl
  · show ({ s with latch := true, cause := c }.handOrdinary _).syncSampled = _
    rw [(handOrdinary_addsReports _ _).same]

theorem takeExpiry_timer (t : Trigger) : t.takeExpiry.1.filterTimer ≠ some 0 := by
  unfold Trigger.takeExpiry
  split
  · exact nofun
  · assumption

/-- Without an expiry to take, the taking changes nothing. -/
theorem takeFilterExpiry_none {s : State} {ch : Channel} (h : (s.trigger ch).filterTimer ≠ some 0) : s.takeFilterExpiry ch = s := by
  have e : (s.trigger ch).takeExpiry = (s.trigger ch, none) := if_neg h
  have ht : setAt s.triggers ch (s.trigger ch) = s.triggers := setAt_getAt _ _
  have he : setAt s.engines ch (s.engine ch) = s.engines := setAt_getAt _ _
  rw [takeFilterExpiry_eq, e]
  show { s with triggers := setAt s.triggers ch (s.trigger ch), engines := setAt s.engines ch (s.engine ch) } = s
  rw [ht, he]

/-- A filter expiry that is taken first leaves the tick what it would have made of it. -/
theorem takeFilterExpiry_countTick (s : State) (ch : Channel) (pins : Pins) :
    (s.takeFilterExpiry ch).countTick pins = s.countTick pins := by
  have hengine : ∀ c, ((s.takeFilterExpiry ch).engine c) = if c = ch then
      { s.engine ch with
        edgesHanded := (s.engine ch).edgesHanded + edgesOf (s.engine ch).config.polarity (s.trigger ch).takeExpiry.2 } else s.engine c := fun c => by
    rw [takeFilterExpiry_eq, modEngine_engine]; rfl
  have htrigger : ∀ c, (s.takeFilterExpiry ch).trigger c = if c = ch then (s.trigger ch).takeExpiry.1 else s.trigger c := fun c => by
    rw [takeFilterExpiry_eq]
    exact setTrigger_trigger s ch c _
  have htwice : ∀ t : Trigger, t.takeExpiry.1.takeExpiry = (t.takeExpiry.1, none) := fun t => if_neg (takeExpiry_timer t)
  have hE : ((s.takeFilterExpiry ch).countTick pins).engines = (s.countTick pins).engines := by
    refine table_ext fun c => ?_
    show ((s.takeFilterExpiry ch).countTick pins).engine c = (s.countTick pins).engine c
    rw [countTick_engine, countTick_engine, hengine, htrigger]
    by_cases h : c = ch
    · subst h
      rw [if_pos rfl, if_pos rfl]
      simp only [tickEngine, tickTrigger, htwice, Engine.closeInterval, edgesOf, Nat.zero_add, Nat.add_assoc]
    · rw [if_neg h, if_neg h]
  have hT : ((s.takeFilterExpiry ch).countTick pins).triggers = (s.countTick pins).triggers := by
    refine table_ext fun c => ?_
    show ((s.takeFilterExpiry ch).countTick pins).trigger c = (s.countTick pins).trigger c
    rw [countTick_trigger, countTick_trigger, hengine, htrigger]
    by_cases h : c = ch
    · subst h
      rw [if_pos rfl, if_pos rfl]
      simp only [tickTrigger, htwice]
    · rw [if_neg h, if_neg h]
  have hsame : (s.takeFilterExpiry ch).countTick pins = { s.countTick pins with
      engines := ((s.takeFilterExpiry ch).countTick pins).engines
      triggers := ((s.takeFilterExpiry ch).countTick pins).triggers } := rfl
  rw [hsame, hE, hT]

/-- Settles O8: the tick begins with exactly these takings, in this order. -/
theorem tickTakesOutstandingEventsFirst : Obligations.TickTakesOutstandingEventsFirst := by
  unfold Obligations.TickTakesOutstandingEventsFirst
  intro pins s hr
  have run : ∀ {u : State}, State.Moves False (fun _ => True) (fun _ => False) s u → u.inReset = false := fun k => (moves_inReset k).trans hr
  refine ⟨fun d hd => ?_, fun hi hf => ?_, fun ch hi hf ht => ?_⟩
  · have hu : (s.syncEdge d).syncSampled = none := by rw [syncEdge_sampled hd, takeSyncEdge_sampled]
    refine ⟨s.syncEdge d, by unfold exec; exact whileRunning_running _ hr, hu, ?_⟩
    rw [tick_next hr, tick_next (run (syncEdge_moves trivial s d))]
    unfold State.tick State.takeSamples
    rw [hd, hu]
    rfl
  · have hu : s.takeSafenFall.safenFall = false := takeSafenFall_fall s
    have hs : s.takeSafenFall.syncSampled = none := by
      unfold State.takeSafenFall
      rw [if_pos hf, setLatch_syncSampled]
      exact hi
    refine ⟨s.takeSafenFall, by unfold exec; exact whileRunning_running _ hr, hu, ?_⟩
    rw [tick_settled (run (takeSafenFall_moves s)) hs hu, tick_next hr, State.tick, State.takeSamples, hi]
    rfl
  · refine ⟨s.takeFilterExpiry ch, by unfold exec; exact whileRunning_running _ hr, ?_, ?_⟩
    · rw [takeFilterExpiry_eq]
      show ((s.setTrigger ch _).trigger ch).filterTimer = none
      rw [setTrigger_trigger_self, Trigger.takeExpiry, if_pos ht]
    · rw [tick_settled hr hi hf, tick_settled (s := s.takeFilterExpiry ch) hr hi hf, takeFilterExpiry_countTick]

/-- Settles O9: by the equation of the taking of an expiry. -/
theorem filterTimerExpiryMakesTheTransition : Obligations.FilterTimerExpiryMakesTheTransition := by
  unfold Obligations.FilterTimerExpiryMakesTheTransition
  intro s ch hr
  have run : exec (.filterTimerExpiry ch) s = .next (s.takeFilterExpiry ch) := by
    unfold exec
    exact whileRunning_running _ hr
  refine ⟨fun h => ?_, fun h => ?_⟩
  · have e : (s.trigger ch).takeExpiry = ({ s.trigger ch with filtered := some (s.trigger ch).sample, filterTimer := none },
        some (s.trigger ch).sample) := if_pos h
    rw [run, takeFilterExpiry_eq, e, ← edgesOf_some]
    rfl
  · rw [run, takeFilterExpiry_none h]

/-! ### SYNC edges -/

theorem syncEdge_next {s : State} (h : s.inReset = false) (d : SyncPolarity) : exec (.syncEdge d) s = .next (s.syncEdge d) := by
  unfold exec
  exact whileRunning_running _ h

theorem takeSyncEdge_other {s : State} {d : SyncPolarity} (h : ∀ arm, s.syncArm = some arm → arm.pol ≠ d) : s.takeSyncEdge d = s := by
  unfold State.takeSyncEdge
  split
  · rfl
  · next arm harm => exact if_neg (h arm harm)

theorem takeSyncEdge_armed {s : State} {arm : SyncArm} (h : s.syncArm = some arm) : s.takeSyncEdge arm.pol =
    if s.deviceTime.toNat < arm.value.toNat then
      ({ s with syncArm := none }.forwardLoad arm.value).withDone arm.tag .applied (.sync arm.value arm.pol s.deviceTime arm.value)
    else { s with syncArm := none }.withDone arm.tag .rejected (.sync arm.value arm.pol s.deviceTime s.deviceTime) := by
  unfold State.takeSyncEdge
  rw [h]
  dsimp only
  rw [if_pos rfl, completeTag_eq_withDone, completeTag_eq_withDone]

theorem atLoad_eq (sc : Scheduled) (v : Time) : sc.atLoad v
    = { sc with due := if sc.due = none ∧ sc.time.toNat ≤ v.toNat then some (v, true) else sc.due } := by
  unfold Scheduled.atLoad
  split <;> rfl

/-- The level before an edge and the level after it. -/
theorem syncLevel_eq (d : SyncPolarity) : (!syncLevel d) = decide (d = .falling) ∧ syncLevel d = decide (d = .rising) := by
  cases d <;> decide

/-- Settles O11: by the case of the SYNC edge at the Time Base, and by where the edge comes from. -/
theorem syncEdgeLoadsOrRejectsTheArm : Obligations.SyncEdgeLoadsOrRejectsTheArm := by
  unfold Obligations.SyncEdgeLoadsOrRejectsTheArm
  refine ⟨fun s arm hr hs ha _ => ?_, fun s d hr => ⟨fun hs hno => ?_, fun hs hp => ?_, fun hs hp => ?_⟩⟩
  · have e : exec (.syncEdge arm.pol) s = .next ({ s with syncSampled := none }.takeSyncEdge arm.pol) := by
      rw [syncEdge_next hr, syncEdge_sampled hs]
    rw [takeSyncEdge_armed (s := { s with syncSampled := none }) ha] at e
    refine ⟨fun hlt => ?_, fun hle => ?_⟩
    · rw [e, if_pos hlt]
      simp only [← atLoad_eq]
      rfl
    · rw [e, if_neg (not_lt.mpr hle)]
  · rw [syncEdge_next hr, syncEdge_sampled hs, takeSyncEdge_other (s := { s with syncSampled := none }) hno]
  · obtain ⟨h1, h2⟩ := syncLevel_eq d
    have e : s.syncEdge d = { s with syncPrev := some (syncLevel d) }.takeSyncEdge d := by
      unfold State.syncEdge
      rw [hs]
      exact if_pos (by rw [h1]; exact hp)
    have hnone : { s with syncPrev := some (syncLevel d) } = { s with syncSampled := none, syncPrev := some (syncLevel d) } := by
      rw [← hs]
    have e' : exec (.syncEdge d) { s with syncSampled := some d, syncPrev := some (decide (d = SyncPolarity.rising)) }
        = .next ({ s with syncSampled := none, syncPrev := some (decide (d = SyncPolarity.rising)) }.takeSyncEdge d) :=
      (syncEdge_next (s := { s with syncSampled := some d, syncPrev := some (decide (d = .rising)) }) hr d).trans
        (congrArg _ (syncEdge_sampled rfl))
    rw [syncEdge_next hr, e', e, hnone, h2]
  · rw [syncEdge_next hr]
    unfold State.syncEdge
    split
    · next d' hd => exact congrArg _ (if_neg fun e => hs (hd.trans (congrArg some e)))
    · next hd =>
      refine congrArg _ (if_neg ?_)
      rw [(syncLevel_eq d).1]
      exact hp.resolve_left (not_not_intro hd)

/-- Settles O12: a due capture is taken as it is recorded, channel by channel. -/
theorem snapshotCaptureCompletesTheTag : Obligations.SnapshotCaptureCompletesTheTag := by
  unfold Obligations.SnapshotCaptureCompletesTheTag
  intro s hr
  have run : exec .snapshotCapture s = .next s.takeCapture := by
    unfold exec
    exact whileRunning_running _ hr
  refine ⟨fun sc time late hs hd _ => ⟨s.capture sc.mask, ?_, ?_, fun rec hrec => ?_⟩, fun h => ?_⟩
  · rw [run, ← completeTag_eq_withDone]
    unfold State.takeCapture
    rw [hs]
    dsimp only
    rw [hd]
  · unfold State.capture
    rw [List.map_map]
    exact List.map_id _
  · obtain ⟨c, _, rfl⟩ := List.mem_map.mp hrec
    refine ⟨rfl, rfl, rfl, rfl, rfl, fun h => ?_, fun running h => ?_⟩
    · have h : (s.engine c).current = none := h
      simp only [State.channelRecord, h, Option.map_none, Option.elim_none, and_self]
    · have h : (s.engine c).current = some running := h
      simp only [State.channelRecord, h, Option.map_some, Option.elim_some, and_self]
  · rw [run]
    unfold State.takeCapture
    cases hs : s.snapshot with
    | none => rfl
    | some sc => simp only [h sc hs]

/-! ### Device time -/

theorem setLatch_deviceTime (s : State) (c : SafeCause) : (s.setLatch c).deviceTime = s.deviceTime := by
  unfold State.setLatch
  split
  · rfl
  · show ({ s with latch := true, cause := c }.handOrdinary _).deviceTime = _
    rw [(handOrdinary_addsReports _ _).same]

/-- The device time of `s` is not after that of `t`, and the same where no step of the clock is made. -/
def State.ClockRuns (clock : Prop) (s t : State) : Prop :=
  s.deviceTime.toNat ≤ t.deviceTime.toNat ∧ (¬ clock → t.deviceTime = s.deviceTime)

theorem clockRuns_of_eq {clock : Prop} {s t : State} (h : t.deviceTime = s.deviceTime) : s.ClockRuns clock t :=
  ⟨by rw [h], fun _ => h⟩

theorem completeTag_deviceTime (s : State) (g : Nat) (res : EndResult) (b : DoneBody) :
    (s.completeTag g res b).deviceTime = s.deviceTime := by rw [(completeTag_addsReports s g res b).same]

theorem latchAtRestart_deviceTime (s : State) : s.latchAtRestart.deviceTime = s.deviceTime := by
  unfold State.latchAtRestart
  split <;> rfl

theorem moves_clockRuns {H : Prop} {A : Special → Prop} {T : Nat → Prop} {s t : State} (h : s.Moves H A T t) :
    s.ClockRuns (A .clock) t := by
  have same : ∀ {u v : State}, v.deviceTime = u.deviceTime → u.ClockRuns (A .clock) v := clockRuns_of_eq
  have done : ∀ {u v : State} {g res b}, v.deviceTime = u.deviceTime → u.ClockRuns (A .clock) (v.completeTag g res b) :=
    fun k => clockRuns_of_eq ((completeTag_deviceTime _ _ _ _).trans k)
  induction h with
  | refl s => exact same rfl
  | trans _ _ h k => exact ⟨h.1.trans k.1, fun hn => (k.2 hn).trans (h.2 hn)⟩
  | settles h => exact same (by rw [h])
  | blocks h => exact same (blocks_works h).deviceTime
  | tick ha _ _ => exact ⟨timeAfterTick_ge _, fun hn => absurd ha hn⟩
  | setLatch s c => exact same (setLatch_deviceTime s c)
  | fall s => exact same (setLatch_deviceTime _ _)
  | @load s arm ha _ _ _ hv =>
    refine ⟨?_, fun hn => absurd ha hn⟩
    rw [completeTag_deviceTime]
    exact hv.le
  | clearLatch _ _ | configure _ _ _ | arm _ _ _ _ | waitIdle _ _ _ | snap _ _ _ _ | given _ _ _ _ _ _ | staged _ _ _ _ _ _
  | begin _ _ _ | commit _ _ _ _ _ | retry _ | linkDown _ => exact same rfl
  | disarm _ _ _ _ | unsnap _ _ _ _ | snapNow _ _ _ _ | endWait _ _ _ _ => exact done rfl
  | send _ => exact same (by rw [beginNotice_renotes])
  | ack _ _ => exact same (by rw [ack_renotes])
  | restart s _ => exact same (latchAtRestart_deviceTime s)

theorem does_clockRuns {H : Prop} {A : Special → Prop} {T : Nat → Prop} {s t : State} (h : s.Does H A T t) :
    s.ClockRuns (A .clock) t := by
  cases h with
  | @link t u h k =>
    have e : t.deviceTime = s.deviceTime := by rw [h.same]
    obtain ⟨h1, h2⟩ := moves_clockRuns k
    exact ⟨e ▸ h1, e ▸ h2⟩
  | request _ _ _ k =>
    obtain ⟨h1, h2⟩ := moves_clockRuns k
    exact ⟨h1, h2⟩

/-- Settles O10: only the tick and the load of a SYNC edge are steps of the clock, and neither turns it back. -/
theorem deviceTimeMovesOnlyAtTicksAndLoads : Obligations.DeviceTimeMovesOnlyAtTicksAndLoads := by
  unfold Obligations.DeviceTimeMovesOnlyAtTicksAndLoads
  intro c s t hr hp h
  obtain ⟨h1, h2⟩ := does_clockRuns (exec_does (H := False) hr hp h False.elim)
  refine ⟨h1, fun ht hs => h2 ?_⟩
  rintro (⟨p, rfl⟩ | ⟨d, rfl⟩)
  · exact ht p rfl
  · exact hs d rfl

end Sys2Proof.Machine
end

section
/-!
PROOF. The IDLE_WAIT watch over a whole command (O60): a wait stays OPEN until a freeing leaves all its channels quiet, and ends in
that event.
-/
namespace Sys2Proof.Machine

/-! ### Quiet channels -/

/-- With every record in its place, a channel is quiet when no record in use names it. -/
theorem quiet_iff_unused {s : State} (h : s.Held) (ch : Channel) : s.Quiet ch ↔ ∀ i r, s.record i = some r → r.channel ≠ ch := by
  have hbusy := h.busy ch
  rw [← quiet_iff]
  unfold State.quiet
  constructor
  · intro hq i r hr hc
    have hcur : r.state = .current → (s.engine ch).state.busy = true := fun hst => by
      obtain ⟨run, hrun, _⟩ := (h.runs hr ch).mpr ⟨hc, hst⟩
      rw [← hbusy, hrun]; rfl
    have hidle : ((s.plan ch).records.isEmpty && !s.stagedOn ch) = true → (s.engine ch).state.busy = false → False := by
      intro hp hb
      rw [Bool.and_eq_true, Bool.not_eq_true'] at hp
      have hused : s.channelInUse ch = false := by unfold State.channelInUse; rw [hb, hp.1, hp.2]; rfl
      exact (unused_channel h hused).2 i r hr hc
    cases hs : (s.engine ch).state with
    | off => exact h.off ch hs i r hr hc
    | idle => rw [hs] at hq hidle; exact hidle hq rfl
    | safed => rw [hs] at hq hidle; exact hidle hq rfl
    | running => rw [hs] at hq; cases hq
    | armed => rw [hs] at hq; cases hq
    | firing => rw [hs] at hq; cases hq
  · intro hn
    have hempty : ((s.plan ch).records.isEmpty && !s.stagedOn ch) = true := by
      have hp : (s.plan ch).records = [] := by
        rw [List.eq_nil_iff_forall_not_mem]
        intro i hi
        obtain ⟨r, hr, hc, _⟩ := (h.planned ch i).mp hi
        exact hn i r hr hc
      have hg : s.stagedOn ch = false := by
        unfold State.stagedOn
        split
        · rfl
        · next g hg =>
          rw [List.any_eq_false]
          intro i hi k
          obtain ⟨r, hr, hc⟩ := (Option.any_eq_true _ _).mp k
          exact hn i r hr (of_decide_eq_true hc)
      rw [hp, hg]; rfl
    have hnone : (s.engine ch).state.busy = false := by
      rw [← hbusy]
      cases hc : (s.engine ch).current with
      | none => rfl
      | some run =>
        obtain ⟨r, hr, hch, _⟩ := (h.current ch run.slot).mp ⟨run, hc, rfl⟩
        exact absurd hch (hn run.slot r hr)
    cases hs : (s.engine ch).state with
    | off => rfl
    | idle => exact hempty
    | safed => exact hempty
    | running => rw [hs] at hnone; cases hnone
    | armed => rw [hs] at hnone; cases hnone
    | firing => rw [hs] at hnone; cases hnone

/-- Since `s`, a record of a channel that the mask selects was freed, and no record in use names such a channel. -/
def State.Cleared (s : State) (mask : Byte) (t : State) : Prop :=
  (∃ i r, s.record i = some r ∧ mask.getLsbD r.channel.val = true ∧ t.record i = none) ∧
    ∀ i r, t.record i = some r → mask.getLsbD r.channel.val = false

theorem cleared_iff {s t : State} (ht : t.Held) (mask : Byte) :
    s.Cleared mask t ↔ (∃ i r, s.record i = some r ∧ mask.getLsbD r.channel.val = true ∧ i ∈ t.freeList) ∧
      ∀ ch : Channel, mask.getLsbD ch.val = true → t.Quiet ch := by
  unfold State.Cleared
  simp only [ht.free, quiet_iff_unused ht]
  refine and_congr_right fun _ => ⟨fun h ch hc i r hr e => ?_, fun h i r hr => ?_⟩
  · rw [← e, h i r hr] at hc; cases hc
  · by_contra hm
    exact h r.channel (by simpa using hm) i r hr rfl

/-- The DONE of a completion is queued or waits. -/
def State.Reported (s : State) (g : Nat) (res : EndResult) (b : DoneBody) : Prop :=
  (∃ n ∈ s.notices, n.body = .done g res b) ∨ { tag := g, result := res, body := b } ∈ s.tagsWaiting

theorem State.Reported.mono {s t : State} {g : Nat} {res : EndResult} {b : DoneBody} (h : s.Reported g res b)
    (hn : ∀ n ∈ s.notices, ∃ n' ∈ t.notices, n'.body = n.body) (hw : s.tagsWaiting ⊆ t.tagsWaiting) : t.Reported g res b := by
  rcases h with ⟨n, hm, hb⟩ | h
  · obtain ⟨n', hm', e⟩ := hn n hm
    exact .inl ⟨n', hm', e.trans hb⟩
  · exact .inr (hw h)

theorem State.AddsReports.reported {s t : State} (h : s.AddsReports t) {g : Nat} {res : EndResult} {b : DoneBody}
    (hr : s.Reported g res b) : t.Reported g res b :=
  hr.mono (fun n hn => ⟨n, h.notices.subset hn, rfl⟩) h.waiting.subset

/-! ### The watch and one wait -/

theorem waitsEnded_ends {s : State} {chs : List Channel} {e : OpenTag} {m : Byte} (hm : e.subject = .idleWait m)
    (h : (∃ ch ∈ chs, m.getLsbD ch.val = true) ∧ ∀ ch : Channel, m.getLsbD ch.val = true → s.Quiet ch) (es : List OpenTag) :
    waitsEnded chs (e :: es) s = waitsEnded chs es (s.withDone e.tag .idle (.idleWait m s.deviceTime)) := by
  conv_lhs => unfold waitsEnded
  simp only [hm]
  rw [if_pos h]

/-- A wait that the watch does not end stays OPEN. -/
theorem waitsEnded_keeps {chs : List Channel} {e : OpenTag} : ∀ {es : List OpenTag} {s : State}, e ∈ s.tagsOpen →
    (∀ x ∈ es, s.Ends chs x → x.tag ≠ e.tag) → e ∈ (waitsEnded chs es s).tagsOpen
  | [], _, he, _ => he
  | x :: es, s, he, h => by
    obtain ⟨h1, h2⟩ := waitsEnded_cons s chs x es
    by_cases hx : s.Ends chs x
    · obtain ⟨m, e1⟩ := h1 hx
      rw [e1]
      refine waitsEnded_keeps (withDone_other he (h x List.mem_cons_self hx).symm _ _) fun y hy hends => ?_
      exact h y (List.mem_cons_of_mem _ hy) ((ends_addsReports (withDone_addsReports _ _ _ _) chs y).mp hends)
    · rw [h2 hx]
      exact waitsEnded_keeps he fun y hy => h y (List.mem_cons_of_mem _ hy)

/-- A wait that the watch ends is reported with the device time. -/
theorem waitsEnded_reports {chs : List Channel} {e : OpenTag} {m : Byte} (hm : e.subject = .idleWait m) :
    ∀ {es : List OpenTag} {s : State}, e ∈ es → e ∈ s.tagsOpen → s.Ends chs e → (∀ x ∈ es, x.tag = e.tag → x = e) →
      (waitsEnded chs es s).Reported e.tag .idle (.idleWait m s.deviceTime)
  | [], _, hin, _, _, _ => by cases hin
  | x :: es, s, hin, he, hends, hu => by
    by_cases hxe : x = e
    · subst hxe
      obtain ⟨m', hm', hq⟩ := hends
      obtain rfl : m' = m := by rw [hm] at hm'; cases hm'; rfl
      rw [waitsEnded_ends hm hq]
      exact (waitsEnded_addsReports chs es _).reported (withDone_done s x.tag .idle _ ⟨x, he, rfl⟩).2
    · have hin' : e ∈ es := (List.mem_cons.mp hin).resolve_left (Ne.symm hxe)
      have hu' : ∀ y ∈ es, y.tag = e.tag → y = e := fun y hy => hu y (List.mem_cons_of_mem _ hy)
      obtain ⟨h1, h2⟩ := waitsEnded_cons s chs x es
      by_cases hx : s.Ends chs x
      · obtain ⟨m', e1⟩ := h1 hx
        have hadd := withDone_addsReports s x.tag .idle (.idleWait m' s.deviceTime)
        have hne : e.tag ≠ x.tag := fun k => hxe (hu x List.mem_cons_self k.symm)
        have key := waitsEnded_reports hm hin' (withDone_other he hne _ _) ((ends_addsReports hadd chs e).mpr hends) hu'
        rw [e1]
        rw [show (s.withDone x.tag .idle (.idleWait m' s.deviceTime)).deviceTime = s.deviceTime by rw [hadd.same]] at key
        exact key
      · rw [h2 hx]
        exact waitsEnded_reports hm hin' he hends hu'

theorem watched_wait {s : State} (h : s.TagsBut fun _ => False) {e : OpenTag} {m : Byte} (he : e ∈ s.tagsOpen)
    (hm : e.subject = .idleWait m) (chs : List Channel) :
    (s.Ends chs e → e ∉ (s.watched chs).tagsOpen ∧ (s.watched chs).Reported e.tag .idle (.idleWait m s.deviceTime)) ∧
    (¬ s.Ends chs e → e ∈ (s.watched chs).tagsOpen) := by
  have hu : ∀ x ∈ s.tagsOpen, x.tag = e.tag → x = e := fun x hx ht => entry_unique h.distinct hx he ht
  refine ⟨fun hends => ⟨fun k => (watched_open k).2 hends, waitsEnded_reports hm he he hends hu⟩, fun hn => ?_⟩
  exact waitsEnded_keeps he fun x hx hends ht => hn (hu x hx ht ▸ hends)

/-! ### What work on actions leaves of the waits -/

theorem works_reports {s t : State} (h : s.Works t) :
    t.tagsOpen.Sublist s.tagsOpen ∧ s.notices <+: t.notices ∧ s.tagsWaiting <+: t.tagsWaiting := by
  have adds : ∀ {u v : State}, u.AddsReports v → v.tagsOpen.Sublist u.tagsOpen ∧ u.notices <+: v.notices ∧ u.tagsWaiting <+: v.tagsWaiting :=
    fun k => ⟨k.opened, k.notices, k.waiting⟩
  induction h with
  | work h => rw [h]; exact ⟨List.Sublist.refl _, List.prefix_rfl, List.prefix_rfl⟩
  | hand s b => exact adds (handOrdinary_addsReports s b)
  | complete s g res b => exact adds (completeTag_addsReports s g res b)
  | trans _ _ h k => exact ⟨k.1.trans h.1, h.2.1.trans k.2.1, h.2.2.trans k.2.2⟩

theorem works_reported {s t : State} (h : s.Works t) {g : Nat} {res : EndResult} {b : DoneBody} (hr : s.Reported g res b) :
    t.Reported g res b :=
  hr.mono (fun n hn => ⟨n, (works_reports h).2.1.subset hn, rfl⟩) (works_reports h).2.2.subset

section Wait

variable {e : OpenTag} {m : Byte}

/-- A wait has its tag for itself. -/
theorem wait_tag_ne {s : State} (h : s.TagsBut fun _ => False) (he : e ∈ s.tagsOpen) (hm : e.subject = .idleWait m) {b : TagSubject}
    {g : Nat} (hb : s.Bears b g) : e.tag ≠ g := by
  rintro rfl
  have := entry_unique h.distinct he (h.bears b e.tag hb).2 rfl
  rw [this] at hm
  cases hm
  exact hb

theorem completeTag_keeps {s : State} (he : e ∈ s.tagsOpen) {g : Nat} (hg : e.tag ≠ g) (res : EndResult) (b : DoneBody) :
    e ∈ (s.completeTag g res b).tagsOpen := by
  rw [completeTag_eq_withDone]
  exact withDone_other he hg res b

theorem freed_keeps {s : State} (h : s.TagsBut fun _ => False) (he : e ∈ s.tagsOpen) (hm : e.subject = .idleWait m) {i : SlotNo}
    {r : Record} (hr : s.record i = some r) (b : EndedBody) : e ∈ (s.freed i r b).tagsOpen := by
  have h1 : ∀ c, e ∈ (s.noticed c).tagsOpen := fun c => by unfold State.noticed; split <;> exact he
  have h2 : e ∈ (if r.report then s.noticed (.ended b) else s).tagsOpen := by
    split
    · exact h1 _
    · exact he
  rw [freed_eq_release]
  show e ∈ (s.reportEnd r b).tagsOpen
  unfold State.reportEnd
  split
  · exact h2
  · next g hg => exact withDone_other h2 (wait_tag_ne h he hm (b := .action (s.handle i)) ⟨i, r, hr, rfl, hg⟩) _ _

/-- Work on actions ends no wait. -/
theorem acts_keepsWait {H : Prop} {C : List Channel} {s t : State} (h : s.Acts H C t) (hH : H) (hm : e.subject = .idleWait m) :
    (s.TagsBut fun _ => False) → e ∈ s.tagsOpen → e ∈ t.tagsOpen := by
  induction h with
  | refl s => exact fun _ => id
  | trans h _ ih ik => exact fun hs he => ik (acts_tagsKept h hH hs) (ih hs he)
  | hand s b =>
    intro _ he
    unfold State.handOrdinary
    split <;> exact he
  | @drop s ch i r b _ hr _ =>
    exact fun hs he => freed_keeps (s := s.leavePlan ch i) (tagsKept_frame hs rfl rfl rfl rfl rfl rfl) he hm (hr hH) b
  | @finish s ch run r f b _ hr _ _ _ =>
    exact fun hs he => freed_keeps (s := s.modEngine ch f) (tagsKept_frame hs rfl rfl rfl rfl rfl rfl) he hm (hr hH) b
  | @unstage s i r b _ hr _ =>
    exact fun hs he => freed_keeps (s := s.unstage i) (tagsKept_frame hs rfl rfl rfl rfl rfl rfl) he hm (hr hH) b
  | engine | plan | start | wait | unlist | close => exact fun _ => id

/-! ### One wait over a chain of steps -/

/-- The state of one wait of `s` in a later state `t` of the same command: it is OPEN until its channels are cleared, and then its DONE
is reported. -/
structure State.Awaits (s : State) (e : OpenTag) (m : Byte) (t : State) : Prop where
  held    : t.Held
  tags    : t.TagsBut fun _ => False
  records : ∀ i r, t.record i = some r → ∃ r0, s.record i = some r0 ∧ r0.channel = r.channel
  time    : t.deviceTime = s.deviceTime
  waits   : ¬ s.Cleared m t → e ∈ t.tagsOpen
  done    : s.Cleared m t → e ∉ t.tagsOpen ∧ t.Reported e.tag .idle (.idleWait m s.deviceTime)

theorem cleared_congr {s t u : State} (h : ∀ i, (u.record i).map (·.channel) = (t.record i).map (·.channel)) :
    s.Cleared m u ↔ s.Cleared m t := by
  have hnone : ∀ i, u.record i = none ↔ t.record i = none := fun i => by
    rw [← Option.map_eq_none_iff (f := (·.channel)), h, Option.map_eq_none_iff]
  have hall : ∀ v : State, (∀ i r, v.record i = some r → m.getLsbD r.channel.val = false) ↔
      ∀ i c, (v.record i).map (·.channel) = some c → m.getLsbD c.val = false := fun v => by
    simp only [Option.map_eq_some_iff, forall_exists_index, and_imp, forall_apply_eq_imp_iff₂]
  unfold State.Cleared
  rw [hall u, hall t]
  simp only [hnone, h]

/-- A step that frees nothing and leaves the wait as it is. -/
theorem State.Awaits.frame {s t u : State} (h : s.Awaits e m t) (hh : u.Held) (hg : u.TagsBut fun _ => False)
    (hr : ∀ i, (u.record i).map (·.channel) = (t.record i).map (·.channel)) (ht : u.deviceTime = t.deviceTime)
    (ho : e ∈ u.tagsOpen ↔ e ∈ t.tagsOpen) (hn : ∀ n ∈ t.notices, ∃ n' ∈ u.notices, n'.body = n.body)
    (hw : t.tagsWaiting ⊆ u.tagsWaiting) : s.Awaits e m u := by
  refine ⟨hh, hg, fun i r hi => ?_, ht.trans h.time, fun hc => ?_, fun hc => ?_⟩
  · have k := hr i
    rw [hi] at k
    obtain ⟨r', hr', e'⟩ := Option.map_eq_some_iff.mp k.symm
    obtain ⟨r0, h0, e0⟩ := h.records i r' hr'
    exact ⟨r0, h0, e0.trans e'⟩
  · exact ho.mpr (h.waits fun k => hc ((cleared_congr hr).mpr k))
  · obtain ⟨h1, h2⟩ := h.done ((cleared_congr hr).mp hc)
    exact ⟨fun k => h1 (ho.mp k), h2.mono hn hw⟩

/-- A piece of work that frees records of the channels `C`, and the watch for them after it. -/
theorem State.Awaits.watched {H : Prop} {C : List Channel} {c : Byte} {s t u : State} (h : s.Awaits e m t)
    (hm : e.subject = .idleWait m) (hH : H) (hn : Names c C) (k : t.Acts H C u)
    (hf : t.freeList.length < u.freeList.length → ∀ ch ∈ C, ∃ i r, t.record i = some r ∧ r.channel = ch ∧ i ∈ u.freeList) :
    s.Awaits e m (watch c t u) := by
  have hu : u.Held := acts_held k hH h.held
  have hgu : u.TagsBut fun _ => False := acts_tagsKept k hH h.tags
  have hsh := acts_shrinks k hH h.held
  have hworks := acts_works k
  have hadd := watch_addsReports c t u
  have hrec : ∀ i, (watch c t u).record i = u.record i := fun i => by rw [hadd.same]; rfl
  have hclear : s.Cleared m (watch c t u) ↔ s.Cleared m u := cleared_congr fun i => by rw [hrec]
  have htu : s.Cleared m t → s.Cleared m u := by
    rintro ⟨⟨i, r, hi, hc, hnone⟩, hall⟩
    refine ⟨⟨i, r, hi, hc, ?_⟩, fun j q hj => ?_⟩
    · cases hi' : u.record i with
      | none => rfl
      | some q =>
        obtain ⟨q0, h0, _⟩ := hsh.records i q hi'
        rw [hnone] at h0; cases h0
    · obtain ⟨q0, h0, e0⟩ := hsh.records j q hj
      exact e0 ▸ hall j q0 h0
  have htime : u.deviceTime = s.deviceTime := hworks.deviceTime.trans h.time
  refine ⟨addsReports_held hu hadd, watch_tagsKept hgu c t, fun i r hi => ?_, ?_, fun hc => ?_, fun hc => ?_⟩
  · rw [hrec] at hi
    obtain ⟨q, hq, e1⟩ := hsh.records i r hi
    obtain ⟨r0, h0, e0⟩ := h.records i q hq
    exact ⟨r0, h0, e0.trans e1⟩
  · rw [hadd.same]; exact htime
  all_goals rw [hclear] at hc
  · have hopen : e ∈ u.tagsOpen := acts_keepsWait k hH hm h.tags (h.waits fun k => hc (htu k))
    by_cases hl : t.freeList.length < u.freeList.length
    · rw [watch_grown hn hl]
      refine (watched_wait hgu hopen hm C).2 ?_
      rintro ⟨m', hm', ⟨ch, hch, hsel⟩, hq⟩
      obtain rfl : m' = m := by rw [hm] at hm'; cases hm'; rfl
      obtain ⟨i, r, hi, rfl, hfree⟩ := hf hl ch hch
      obtain ⟨r0, h0, e0⟩ := h.records i r hi
      exact hc ((cleared_iff hu m').mpr ⟨⟨i, r0, h0, e0 ▸ hsel, hfree⟩, hq⟩)
    · rw [watch_none c hl]; exact hopen
  · by_cases hct : s.Cleared m t
    · obtain ⟨h1, h2⟩ := h.done hct
      exact ⟨fun k' => h1 ((works_reports hworks).1.subset (hadd.opened.subset k')), hadd.reported (works_reported hworks h2)⟩
    · have hopen : e ∈ u.tagsOpen := acts_keepsWait k hH hm h.tags (h.waits hct)
      obtain ⟨⟨i, r, hi, hsel, hnone⟩, hall⟩ := hc
      have hgone : ∃ j q, t.record j = some q ∧ m.getLsbD q.channel.val = true ∧ u.record j = none := by
        by_cases hti : t.record i = none
        · have hex : ∃ j q, t.record j = some q ∧ m.getLsbD q.channel.val = true := by
            by_contra hno
            refine hct ⟨⟨i, r, hi, hsel, hti⟩, fun j q hj => ?_⟩
            by_contra hq
            exact hno ⟨j, q, hj, by simpa using hq⟩
          obtain ⟨j, q, hj, hq⟩ := hex
          refine ⟨j, q, hj, hq, ?_⟩
          cases hu' : u.record j with
          | none => rfl
          | some q' =>
            obtain ⟨q0, h0, e0⟩ := hsh.records j q' hu'
            rw [hj] at h0; cases h0
            rw [e0, hall j q' hu'] at hq; cases hq
        · obtain ⟨q, hq⟩ := Option.ne_none_iff_exists'.mp hti
          obtain ⟨r0, h0, e0⟩ := h.records i q hq
          rw [hi] at h0; cases h0
          exact ⟨i, q, hq, e0 ▸ hsel, hnone⟩
      obtain ⟨j, q, hj, hq, hjn⟩ := hgone
      have hl : t.freeList.length < u.freeList.length := by
        obtain ⟨l, hl⟩ := hsh.grown
        have hin : j ∈ u.freeList := (hu.free j).mpr hjn
        have hnot : j ∉ t.freeList := h.held.not_free hj
        rw [← hl] at hin ⊢
        rw [List.length_append]
        have := List.length_pos_of_mem ((List.mem_append.mp hin).resolve_left hnot)
        omega
      have hends : u.Ends C e := by
        refine ⟨m, hm, ⟨q.channel, hsh.gone j q hj hjn, hq⟩, fun ch hch => ?_⟩
        rw [quiet_iff_unused hu]
        rintro i' r' hi' rfl
        rw [hall i' r' hi'] at hch; cases hch
      rw [watch_grown hn hl, ← htime]
      exact (watched_wait hgu hopen hm C).1 hends

theorem blocks_awaits {H : Prop} {s t u : State} (k : t.Blocks H u) (hH : H) (hm : e.subject = .idleWait m) :
    s.Awaits e m t → s.Awaits e m u := by
  induction k with
  | refl => exact id
  | trans _ _ h k => exact k ∘ h
  | watched hn k hf => exact fun h => h.watched hm hH hn k (hf hH)

theorem setLatch_notices (s : State) (c : SafeCause) : s.notices <+: (s.setLatch c).notices := by
  unfold State.setLatch
  split
  · exact List.prefix_rfl
  · exact (handOrdinary_addsReports { s with latch := true, cause := c } _).notices

theorem setLatch_tables (s : State) (c : SafeCause) : (s.setLatch c).slots = s.slots ∧ (s.setLatch c).tagsOpen = s.tagsOpen ∧
    (s.setLatch c).tagsWaiting = s.tagsWaiting := by
  unfold State.setLatch State.handOrdinary
  split
  · exact ⟨rfl, rfl, rfl⟩
  · dsimp only
    split <;> exact ⟨rfl, rfl, rfl⟩

theorem markOldestUnsent_body {l : List Notice} {n : Notice} (h : n ∈ l) : ∃ n' ∈ markOldestUnsent l, n'.body = n.body := by
  induction l with
  | nil => cases h
  | cons x l ih =>
    rw [markOldestUnsent]
    split
    · rcases List.mem_cons.mp h with rfl | h
      · exact ⟨n, List.mem_cons_self, rfl⟩
      · obtain ⟨n', hn', e⟩ := ih h
        exact ⟨n', List.mem_cons_of_mem _ hn', e⟩
    · rcases List.mem_cons.mp h with rfl | h
      · exact ⟨_, List.mem_cons_self, rfl⟩
      · exact ⟨n, List.mem_cons_of_mem _ h, rfl⟩

theorem unsendAll_body {s : State} {n : Notice} (h : n ∈ s.notices) : ∃ n' ∈ s.unsendAll.notices, n'.body = n.body :=
  ⟨_, List.mem_map.mpr ⟨n, h, rfl⟩, rfl⟩

theorem wait_mem_allocTag {s : State} (hm : e.subject = .idleWait m) {b : TagSubject} (hb : b.Borne) :
    e ∈ (s.allocTag b).tagsOpen ↔ e ∈ s.tagsOpen := by
  refine ⟨fun h => (List.mem_append.mp h).resolve_right fun k => ?_, fun h => List.mem_append_left _ h⟩
  rw [List.mem_singleton.mp k] at hm
  exact hb m hm

/-- No step of a command that is not special: the wait is kept, or ends when its channels are cleared. -/
theorem moves_awaits {H : Prop} {A : Special → Prop} {T : Nat → Prop} {s t u : State} (k : t.Moves H A T u) (hH : H)
    (hA : ∀ x, ¬ A x) (hT : ¬ T e.tag) (hm : e.subject = .idleWait m) : s.Awaits e m t → s.Awaits e m u := by
  have self : ∀ {v : State}, ∀ n ∈ v.notices, ∃ n' ∈ v.notices, n'.body = n.body := fun n hn => ⟨n, hn, rfl⟩
  have step : ∀ {v w : State}, v.Moves H A T w → s.Awaits e m v →
      (∀ i, (w.record i).map (·.channel) = (v.record i).map (·.channel)) → w.deviceTime = v.deviceTime →
      (e ∈ w.tagsOpen ↔ e ∈ v.tagsOpen) → (∀ n ∈ v.notices, ∃ n' ∈ w.notices, n'.body = n.body) →
      v.tagsWaiting ⊆ w.tagsWaiting → s.Awaits e m w := fun k' h h1 h2 h3 h4 h5 =>
    h.frame (moves_held k' hH h.held) (moves_tagsKept k' hH h.held h.tags) h1 h2 h3 h4 h5
  have plain : ∀ {v w : State}, v.Moves H A T w → (∀ i, (w.record i).map (·.channel) = (v.record i).map (·.channel)) →
      w.deviceTime = v.deviceTime → w.tagsOpen = v.tagsOpen → v.notices <+: w.notices → w.tagsWaiting = v.tagsWaiting →
      s.Awaits e m v → s.Awaits e m w := fun k' h1 h2 h3 h4 h5 h =>
    step k' h h1 h2 (by rw [h3]) (fun n hn => ⟨n, h4.subset hn, rfl⟩) (by rw [h5]; exact List.Subset.refl _)
  have done : ∀ {v v1 : State} {g : Nat} {res : EndResult} {b : DoneBody}, v.Moves H A T (v1.completeTag g res b) →
      s.Awaits e m v → (∀ i, v1.record i = v.record i) → v1.deviceTime = v.deviceTime → (e ∈ v1.tagsOpen ↔ e ∈ v.tagsOpen) →
      v1.notices = v.notices → v1.tagsWaiting = v.tagsWaiting → (e ∈ v.tagsOpen → e.tag ≠ g) →
      s.Awaits e m (v1.completeTag g res b) := by
    intro v v1 g res b k' h h1 h2 h3 h4 h5 hne
    have hadd := completeTag_addsReports v1 g res b
    refine step k' h (fun i => ?_) ?_ ⟨fun he => h3.mp (hadd.opened.subset he), fun he => completeTag_keeps (h3.mpr he) (hne he) res b⟩
      (fun n hn => ⟨n, hadd.notices.subset (h4 ▸ hn), rfl⟩) (h5 ▸ hadd.waiting.subset)
    · rw [← h1, hadd.same]; rfl
    · rw [← h2, hadd.same]
  have latch : ∀ {v : State} (c : SafeCause), s.Awaits e m v → s.Awaits e m (v.setLatch c) := by
    intro v c h
    obtain ⟨h1, h2, h3⟩ := setLatch_tables v c
    exact plain (.setLatch v c) (fun _ => by simp only [State.record, State.slot, h1]) (setLatch_deviceTime v c) h2
      (setLatch_notices v c) h3 h
  induction k with
  | refl => exact id
  | trans _ _ h k => exact k ∘ h
  | settles h => exact plain (.settles h) (fun _ => by rw [h]; rfl) (by rw [h]) (by rw [h]) (by rw [h]) (by rw [h])
  | blocks h => exact blocks_awaits h hH hm
  | tick ha _ _ => exact absurd ha (hA _)
  | setLatch v c => exact latch c
  | fall v =>
    intro h
    have h1 : s.Awaits e m { v with safenFall := false } :=
      h.frame (h.held.congr rfl rfl (fun _ => rfl) rfl fun _ => .refl _) (tagsKept_frame h.tags rfl rfl rfl rfl rfl rfl) (fun _ => rfl)
        rfl Iff.rfl self (List.Subset.refl _)
    exact latch .line h1
  | clearLatch h1 h2 => exact plain (.clearLatch h1 h2) (fun _ => rfl) rfl rfl List.prefix_rfl rfl
  | configure h1 h2 h3 => exact plain (.configure h1 h2 h3) (fun _ => rfl) rfl rfl List.prefix_rfl rfl
  | load ha _ _ _ _ => exact absurd ha (hA _)
  | disarm res b ha hg =>
    refine fun h => done (.disarm res b ha hg) h (fun _ => rfl) rfl Iff.rfl rfl rfl fun he => ?_
    rcases hg with rfl | ⟨e', he', rfl, hs⟩
    · exact wait_tag_ne h.tags he hm (b := .sync) ⟨_, ha, rfl⟩
    · exact fun k => absurd ((congrArg OpenTag.subject (entry_unique h.tags.distinct he he' k)).symm.trans hm) (hs ▸ nofun)
  | unsnap res b ha hg =>
    refine fun h => done (.unsnap res b ha hg) h (fun _ => rfl) rfl Iff.rfl rfl rfl fun he => ?_
    rcases hg with rfl | ⟨e', he', rfl, m', hs⟩
    · exact wait_tag_ne h.tags he hm (b := .snapshot _) ⟨_, ha, rfl, rfl⟩
    · exact fun k => absurd ((congrArg OpenTag.subject (entry_unique h.tags.distinct he he' k)).symm.trans hm) (hs ▸ nofun)
  | arm v pol hf hn =>
    exact fun h => step (.arm v pol hf hn) h (fun _ => rfl) rfl (wait_mem_allocTag hm nofun) self (List.Subset.refl _)
  | waitIdle ha _ _ => exact absurd ha (hA _)
  | snap mask time hf hn =>
    exact fun h => step (.snap mask time hf hn) h (fun _ => rfl) rfl (wait_mem_allocTag hm nofun) self (List.Subset.refl _)
  | snapNow mask b hf hn =>
    intro h
    refine done (.snapNow mask b hf hn) h (fun _ => rfl) rfl (wait_mem_allocTag hm nofun) rfl rfl fun he k => ?_
    exact (tagToGive_spec h.tags.next (tagsFull_lt hf)).1 (k ▸ mem_tagsHeld.mpr (.inl ⟨e, he, rfl⟩))
  | endWait b ht he hs =>
    refine fun h => done (.endWait b ht he hs) h (fun _ => rfl) rfl Iff.rfl rfl rfl fun _ k => hT (k ▸ ht)
  | given ha _ _ _ _ _ => exact absurd ha (hA _)
  | staged ha _ _ _ _ _ => exact absurd ha (hA _)
  | begin id timer h => exact plain (.begin id timer h) (fun _ => rfl) rfl rfl List.prefix_rfl rfl
  | @commit v i r start hr hi hl hs =>
    refine plain (.commit start hr hi hl hs) (fun j => ?_) rfl rfl List.prefix_rfl rfl
    show (((v.unstage i).setRecord i { r with start := start, state := .planned }).record j).map (·.channel) = _
    rw [setRecord_record]
    split
    · next e => rw [e, hr]; rfl
    · rfl
  | @send v n hn =>
    intro h
    refine step (.send hn) h (fun _ => ?_) ?_ ?_ ?_ ?_ <;> rw [beginNotice_eq]
    · rfl
    · exact fun _ => markOldestUnsent_body
    · exact List.Subset.refl _
  | ack ha _ => exact absurd ha (hA _)
  | retry v => exact fun h => step (.retry v) h (fun _ => rfl) rfl Iff.rfl (fun _ => unsendAll_body) (List.Subset.refl _)
  | linkDown v => exact fun h => step (.linkDown v) h (fun _ => rfl) rfl Iff.rfl (fun _ => unsendAll_body) (List.Subset.refl _)
  | restart v ha => exact absurd ha (hA _)

theorem links_awaits {s t u : State} (h : s.Awaits e m t) (k : t.Links u) : s.Awaits e m u :=
  h.frame (links_held k h.held) (links_tagsKept k h.tags) (fun _ => by rw [k.same]; rfl) (by rw [k.same]) (by rw [k.same])
    (fun n hn => ⟨n, by rw [k.same]; exact hn, rfl⟩) (by rw [k.same]; exact List.Subset.refl _)

theorem does_awaits {H : Prop} {A : Special → Prop} {T : Nat → Prop} {s t u : State} (k : t.Does H A T u) (hH : H)
    (hA : ∀ x, ¬ A x) (hT : ¬ T e.tag) (hm : e.subject = .idleWait m) (h : s.Awaits e m t) : s.Awaits e m u := by
  cases k with
  | link k1 k2 => exact moves_awaits k2 hH hA hT hm (links_awaits h k1)
  | @request rq rest v resp hq hl k =>
    have h1 := moves_awaits k hH hA hT hm (links_awaits h (pop_links hq))
    have hroom : v.replies.length < 4 := by rw [(moves_sameQueues k).reply]; exact hl
    exact links_awaits h1 (answer_links hroom rq resp)

/-! ### The special commands free nothing -/

/-- The free list has not grown, and the wait is OPEN. -/
def State.StillAwaits (s : State) (e : OpenTag) (t : State) : Prop := t.freeList ⊆ s.freeList ∧ e ∈ t.tagsOpen

theorem request_stillAwaits {s : State} (p : Request → Bool) (len : Nat) {f : List Byte → State → Response × State} (he : e ∈ s.tagsOpen)
    (hf : ∀ fs rest, s.StillAwaits e (f fs { s with rxQueue := rest }).2) : s.StillAwaits e (s.takeHead p (carryOut len f)) := by
  have self : s.StillAwaits e s := ⟨List.Subset.refl _, he⟩
  rcases takeHead_cases s p (carryOut len f) with e | ⟨rq, rest, _, _, _, e⟩
  · rw [e]; exact self
  · rw [e]
    unfold carryOut
    split
    · exact hf rq.fields rest
    · exact self

theorem setLatch_freeList (s : State) (c : SafeCause) : (s.setLatch c).freeList = s.freeList := by
  unfold State.setLatch State.handOrdinary
  split
  · rfl
  · dsimp only
    split <;> rfl

theorem syncEdge_stillAwaits {s : State} (hg : s.TagsBut fun _ => False) (he : e ∈ s.tagsOpen) (hm : e.subject = .idleWait m)
    (d : SyncPolarity) : s.StillAwaits e (s.syncEdge d) := by
  have take : ∀ u : State, u.freeList = s.freeList → u.tagsOpen = s.tagsOpen → u.syncArm = s.syncArm →
      s.StillAwaits e (u.takeSyncEdge d) := by
    intro u hf ho ha
    unfold State.takeSyncEdge
    split
    · exact ⟨by rw [hf]; exact List.Subset.refl _, ho ▸ he⟩
    · next arm harm =>
      have hne : e.tag ≠ arm.tag := wait_tag_ne hg he hm (b := .sync) ⟨arm, ha ▸ harm, rfl⟩
      have done : ∀ (v : State) (res : EndResult) (b : DoneBody), v.freeList = u.freeList → v.tagsOpen = u.tagsOpen →
          s.StillAwaits e (v.completeTag arm.tag res b) := fun v res b h1 h2 => by
        refine ⟨?_, completeTag_keeps (by rw [h2, ho]; exact he) hne res b⟩
        rw [(completeTag_addsReports v arm.tag res b).same, ← hf, ← h1]
        exact List.Subset.refl _
      split
      · dsimp only
        split
        · exact done _ _ _ rfl rfl
        · exact done _ _ _ rfl rfl
      · exact ⟨by rw [hf]; exact List.Subset.refl _, ho ▸ he⟩
  have self : s.StillAwaits e s := ⟨List.Subset.refl _, he⟩
  unfold State.syncEdge
  split
  · split
    · exact take _ rfl rfl rfl
    · exact self
  · split
    · exact take _ rfl rfl rfl
    · exact self

theorem tick_stillAwaits {s : State} (hg : s.TagsBut fun _ => False) (he : e ∈ s.tagsOpen) (hm : e.subject = .idleWait m)
    (pins : Pins) : s.StillAwaits e (s.tick pins) := by
  have h1 : s.StillAwaits e (s.syncSampled.elim s s.syncEdge) := by
    cases s.syncSampled with
    | none => exact ⟨List.Subset.refl _, he⟩
    | some d => exact syncEdge_stillAwaits hg he hm d
  have h2 : ∀ u : State, s.StillAwaits e u → s.StillAwaits e u.takeSafenFall := by
    intro u hu
    unfold State.takeSafenFall
    split
    · exact ⟨by rw [setLatch_freeList]; exact hu.1, by rw [(setLatch_tables _ _).2.1]; exact hu.2⟩
    · exact hu
  exact h2 _ h1

theorem noticeAck_stillAwaits {s : State} (he : e ∈ s.tagsOpen) (fs : List Byte) (rest : List Request) :
    s.StillAwaits e (State.noticeAck { s with rxQueue := rest } fs).2 := by
  unfold State.noticeAck
  split
  · exact ⟨List.Subset.refl _, he⟩
  · show s.StillAwaits e (State.retryAfterAck _)
    rw [ack_renotes]
    exact ⟨List.Subset.refl _, he⟩

theorem waitIdle_stillAwaits {s : State} (he : e ∈ s.tagsOpen) (fs : List Byte) (rest : List Request) :
    s.StillAwaits e (State.waitIdle { s with rxQueue := rest } fs).2 := by
  unfold State.waitIdle
  dsimp only
  split_ifs
  · exact ⟨List.Subset.refl _, he⟩
  · exact ⟨List.Subset.refl _, he⟩
  · exact ⟨List.Subset.refl _, List.mem_append_left _ he⟩

theorem allocated_stillAwaits {s u : State} (hu : s.StillAwaits e u) (q : ScheduleFields) (ch : Channel) (start : Time) (st : RecState)
    {i : SlotNo} {free : List SlotNo} (hf : u.freeList = i :: free) : s.StillAwaits e (u.allocated q ch start st i free) := by
  refine ⟨fun j hj => hu.1 (hf ▸ List.mem_cons_of_mem i hj), ?_⟩
  show e ∈ if q.tagged then _ else u.tagsOpen
  split
  · exact List.mem_append_left _ hu.2
  · exact hu.2

theorem admitDirect_stillAwaits {s u : State} (hu : s.StillAwaits e u) (q : ScheduleFields) (ch : Channel) :
    s.StillAwaits e (u.admitDirect q ch).2 := by
  unfold State.admitDirect
  split
  · exact hu
  · next start _ =>
    split
    · exact hu
    · split
      · exact hu
      · next hal =>
        obtain ⟨free, hf, _, rfl⟩ := allocate_cases hal
        exact allocated_stillAwaits hu q ch start .planned hf

theorem stage_stillAwaits {s u : State} (hu : s.StillAwaits e u) (q : ScheduleFields) (ch : Channel) :
    s.StillAwaits e (u.stage q ch).2 := by
  unfold State.stage
  split
  · exact hu
  · split
    · exact hu
    · split
      · exact hu
      · split
        · exact hu
        · next hal =>
          obtain ⟨free, hf, _, rfl⟩ := allocate_cases hal
          exact allocated_stillAwaits hu q ch q.start .staged hf

theorem schedule_stillAwaits {s : State} (he : e ∈ s.tagsOpen) (fs : List Byte) (rest : List Request) :
    s.StillAwaits e (State.doSchedule { s with rxQueue := rest } fs).2 := by
  have hu : s.StillAwaits e { s with rxQueue := rest } := ⟨List.Subset.refl _, he⟩
  unfold State.doSchedule
  split
  · exact hu
  · split
    · exact hu
    · split
      · exact hu
      · split
        · exact stage_stillAwaits hu _ _
        · exact admitDirect_stillAwaits hu _ _

/-- The commands that move the clock, allocate or drop notices free nothing and end no wait. -/
theorem special_stillAwaits {c : Instr} {s t : State} (hr : s.inReset = false) (hg : s.TagsBut fun _ => False) (he : e ∈ s.tagsOpen)
    (hm : e.subject = .idleWait m) (hc : ∃ x, special c x) (hn : c ≠ .restart) (h : exec c s = .next t) : s.StillAwaits e t := by
  obtain ⟨x, hx⟩ := hc
  cases x with
  | clock =>
    rcases hx with ⟨p, rfl⟩ | ⟨d, rfl⟩ <;> unfold exec at h
    · exact running_next hr h ▸ tick_stillAwaits hg he hm p
    · exact running_next hr h ▸ syncEdge_stillAwaits hg he hm d
  | allocate =>
    rcases hx with rfl | rfl | rfl <;> unfold exec at h
    · exact running_next hr h ▸ request_stillAwaits _ 32 he (schedule_stillAwaits he)
    · exact running_next hr h ▸ request_stillAwaits _ 32 he (schedule_stillAwaits he)
    · exact running_next hr h ▸ request_stillAwaits _ _ he (waitIdle_stillAwaits he)
  | ack =>
    cases hx
    unfold exec at h
    exact running_next hr h ▸ request_stillAwaits _ _ he (noticeAck_stillAwaits he)
  | restart => exact absurd hx hn

end Wait

/-- A CANCEL_TAG that ends the wait names its tag. -/
theorem cancels_fields {c : Instr} {s : State} {g : Nat} (h : s.cancels c g) :
    c = .cancelTag ∧ ∃ rq ∈ s.rxQueue.head?, rq.fields = [BitVec.ofNat 8 g] := by
  obtain ⟨hc, rq, rest, hq, hl, hf⟩ := h
  obtain ⟨b, hb⟩ := List.length_eq_one_iff.mp hl
  refine ⟨hc, rq, by rw [hq]; rfl, ?_⟩
  rw [hb, field_one (b := b) rfl] at hf
  rw [hb, ← hf, BitVec.ofNat_toNat, BitVec.setWidth_eq]

/-- Settles O60: a freeing of a record of a selected channel and the quiet of all of them are told by the records in use, which only
the pieces of work of the command free, and each of these is watched. -/
theorem theWatchEndsQuietWaits : Obligations.TheWatchEndsQuietWaits := by
  unfold Obligations.TheWatchEndsQuietWaits
  intro c s t e m hr hh ht h he hm hres hpor hct
  have hg := (tagsKept_iff s).mp ht
  have hnc : ¬ s.Cleared m s := fun ⟨⟨i, r, h1, _, h2⟩, _⟩ => by rw [h1] at h2; cases h2
  have htheld : t.Held := by
    have hd := exec_does (H := True) hr hpor h fun _ => hh
    exact does_keeps links_held (fun k hs => moves_held k trivial hs) hd hh
  dsimp only
  rw [← cleared_iff htheld m]
  by_cases hs : ∃ x, special c x
  · obtain ⟨hfree, hopen⟩ := special_stillAwaits hr hg he hm hs hres h
    have hnot : ¬ s.Cleared m t := fun ⟨⟨i, r, h1, _, h2⟩, _⟩ =>
      hh.not_free h1 (hfree ((htheld.free i).mpr h2))
    exact ⟨fun k => absurd k hnot, fun _ => hopen⟩
  · have h0 : s.Awaits e m s := ⟨hh, hg, fun i r hi => ⟨r, hi, rfl⟩, rfl, fun _ => he, fun k => absurd k hnc⟩
    have hT : ¬ s.cancels c e.tag := fun k => by
      obtain ⟨hc, rq, hq, hf⟩ := cancels_fields k
      exact hct hc rq hq hf
    have hd := exec_does (H := True) hr hpor h fun _ => hh
    have key := does_awaits hd trivial (fun x hx => hs ⟨x, hx⟩) hT hm h0
    exact ⟨key.done, key.waits⟩


end Sys2Proof.Machine
end

section
/-!
PROOF. The due handling of a plan's head where it does not start (O14), after HEAD_DUE (O16), and at a channel's end (O17).
-/
namespace Sys2Proof.Machine

section Head

variable {s : State} {ch : Channel} {i : SlotNo} {rest : List SlotNo} {r : Record}

/-! ### A head that leaves or waits -/

/-- Without a freeing there is no watch. -/
theorem watch_same (m : Byte) (s t : State) (h : t.freeList = s.freeList) : watch m s t = t :=
  watch_none m (by rw [h]; exact Nat.lt_irrefl _)

theorem dueHead_rest_ne (hh : s.Held) (hrec : (s.plan ch).records = i :: rest) {j : SlotNo} (hj : j ∈ rest) : j ≠ i := by
  have hnd : (i :: rest).Nodup := hrec ▸ hh.planOnce ch
  rintro rfl
  exact (List.nodup_cons.mp hnd).1 hj

theorem planned_channel (hh : s.Held) (hrec : (s.plan ch).records = i :: rest) (hr : s.record i = some r) : r.channel = ch :=
  (planned_record hh (by rw [hrec]; exact List.mem_cons_self) hr).1

/-- A due head that is dropped leaves the plan and is freed. -/
theorem dueHead_drops (hh : s.Held) (hd : s.DueHead ch i rest r) {res : EndResult}
    (h : s.checkHead ch = settleList ch rest (s.dropHead ch i res)) :
    s.TakesHead (State.freed { s with plans := s.planWithout ch rest } i r (unstartedBody s i r res)) ch rest := by
  obtain ⟨hrec, hr, -⟩ := hd
  refine ⟨by rw [h, dropHead_eq hrec (hh.planOnce ch) hr], ?_, fun j hj => ?_, freed_inReset _ _ _ _, freed_deviceTime _ _ _ _, ?_⟩
  · rw [freed_plan, planWithout_plan]
  · exact freed_record_ne _ _ _ (dueHead_rest_ne hh hrec hj)
  · rw [freed_freeList, List.length_append]
    exact Nat.lt_succ_self _

/-- What a due head does on a busy channel, by its policy (R42 to R44). -/
def busyFate : Policy → Fate
  | .preempt => .preempt
  | .skip => .skip
  | .wait => .wait

theorem fate_busy (hl : s.latch = false) (hb : (s.engine ch).state = .running ∨ (s.engine ch).state = .armed ∨ (s.engine ch).state = .firing)
    (p : Policy) : s.fate ch p = busyFate p := by
  unfold State.fate
  rw [if_neg (by simp [hl])]
  rcases hb with h | h | h <;> rw [h] <;> cases p <;> rfl

theorem fate_idle (hl : s.latch = false) (hi : (s.engine ch).state = .idle) (p : Policy) : s.fate ch p = .start := by
  unfold State.fate
  rw [if_neg (by simp [hl]), hi]

theorem setRecState_eq (hr : s.record i = some r) (st : RecState) : s.setRecState i st = s.setRecord i { r with state := st } := by
  unfold State.setRecState
  rw [hr]

/-- Settles O14: the fate of the head, and for one that leaves the freeing of its record. -/
theorem headDueLeavesOrWaits : Obligations.HeadDueLeavesOrWaits := by
  unfold Obligations.HeadDueLeavesOrWaits
  intro s ch i rest r hr hh hd
  have hcheck := checkHead_due hd
  obtain ⟨hrec, hi, -, -, hloads⟩ := id hd
  have leaves : ∀ res, s.checkHead ch = settleList ch rest (s.dropHead ch i res) →
      (s.NextNotDue rest → ∃ t, exec (.headDue ch) s = .next t ∧
        State.Frees { s with plans := s.planWithout ch rest } t i r (unstartedBody s i r res)) ∧
      s.GoesOn (.headDue ch) (State.freed { s with plans := s.planWithout ch rest } i r (unstartedBody s i r res)) ch :=
    fun res h =>
      have ht := dueHead_drops hh hd h
      ⟨fun hn => ⟨_, headDue_of_nextNotDue ht hr hloads hn, frees_of_channel (planned_channel hh hrec hi) _ _ _⟩, headDue_goesOn ht hr⟩
  refine ⟨fun hb => leaves _ ?_, fun hl hb hp => leaves _ ?_, fun hl hb hp => ?_⟩
  · rw [hcheck, fate_barred hb]
  · rw [hcheck, fate_busy hl hb, hp]; rfl
  · have hw : s.checkHead ch = s.setRecord i { r with state := .waiting } := by
      have hfate : s.fate ch r.policy = .wait := by rw [fate_busy hl hb, hp]; rfl
      rw [hcheck, hfate]
      exact setRecState_eq hi .waiting
    have hwatch : watch (maskOf ch) s (s.setRecord i { r with state := .waiting }) = s.setRecord i { r with state := .waiting } :=
      watch_same _ s _ rfl
    rw [headDue_next hr, State.dueAtPlan, hw, hwatch]
    rfl

/-! ### After the due handling -/

/-- The head of the plan, where it is PLANNED, is not due by the device time that the plan has taken (R39, R49). -/
def State.HeadNotDue (s : State) (ch : Channel) : Prop :=
  ∀ i rest r, (s.plan ch).records = i :: rest → s.record i = some r → r.state = .planned → ¬ s.isDue ch r = true

/-- The due handling goes on until the head is WAITING or is not due. -/
theorem settleList_headNotDue : ∀ (l : List SlotNo) (s : State), s.Held → (s.plan ch).records = l →
    (settleList ch l s).HeadNotDue ch
  | [], s, _, hl => fun i rest r h => by
    have h : (s.plan ch).records = i :: rest := h
    rw [hl] at h; cases h
  | i :: l, s, hh, hl => by
    have hi : i ∈ (s.plan ch).records := by rw [hl]; exact List.mem_cons_self
    have hleft : ((s.leavePlan ch i).plan ch).records = l := leavePlan_records hl (hh.planOnce ch)
    have mem := List.mem_singleton_self ch
    have self : (∀ r, s.record i = some r → r.state = .planned → ¬ s.isDue ch r = true) → s.HeadNotDue ch := by
      intro h j rest q hj hq
      rw [hl] at hj
      cases hj
      exact h q hq
    have hdrop : ∀ res, (settleList ch l (s.dropHead ch i res)).HeadNotDue ch := fun res =>
      have h1 : s.Acts True [ch] (s.dropHead ch i res) := dropHead_acts mem (fun _ => hh) (fun _ => hi) res
      settleList_headNotDue l _ (acts_held h1 trivial hh) (by rw [dropHead_plan]; exact hleft)
    unfold settleList
    split
    · next hr => exact self fun r h => by rw [hr] at h; cases h
    · next r hr =>
      split
      · split
        · exact hdrop .missed
        · next hfate =>
          have h1 : s.Acts True [ch] (s.startHead ch i r) := startHead_acts mem (fun _ => hr) (fun _ => hi) fun _ =>
            hh.current_none (by rw [fate_start hfate]; rfl)
          exact settleList_headNotDue l _ (acts_held h1 trivial hh) (by rw [startHead_plan]; exact hleft)
        · have h0 : s.Acts True [ch] (s.preemptCurrent ch) := preemptCurrent_acts mem fun _ => hh
          have hh0 := acts_held h0 trivial hh
          have hl' : ((s.preemptCurrent ch).plan ch).records = i :: l := by rw [preemptCurrent_plan, hl]
          have h1 : (s.preemptCurrent ch).Acts True [ch] ((s.preemptCurrent ch).startHead ch i r) := startHead_acts mem
            (fun _ => by rw [preemptCurrent_record hh hi, hr]) (fun _ => by rw [hl']; exact List.mem_cons_self)
            fun _ => preemptCurrent_current s ch
          exact settleList_headNotDue l _ (acts_held h1 trivial hh0)
            (by rw [startHead_plan]; exact leavePlan_records hl' (hh0.planOnce ch))
        · exact hdrop .skipped
        · unfold State.setRecState
          rw [hr]
          intro j rest q hj hq hst
          have hj : (s.plan ch).records = j :: rest := hj
          rw [hl] at hj
          cases hj
          rw [setRecord_record_self] at hq
          cases hq
          cases hst
        · next hfate =>
          have hoff : (s.engine ch).state = .off := by
            unfold State.fate at hfate
            split at hfate
            · cases hfate
            · cases he : (s.engine ch).state with
              | off => rfl
              | idle | safed => rw [he] at hfate; cases hfate
              | running | armed | firing => rw [he] at hfate; cases hp : r.policy <;> rw [hp] at hfate <;> cases hfate
          exact absurd (planned_channel hh hl hr) (hh.off ch hoff i r hr)
      · next hnot =>
        refine self fun q hq hst => ?_
        rw [hr] at hq
        cases hq
        exact fun k => hnot ⟨hst, k⟩

/-- Due handling takes no forward load. -/
theorem settleList_loads : ∀ (l : List SlotNo) (s : State), ((settleList ch l s).plan ch).loads = (s.plan ch).loads
  | [], _ => rfl
  | i :: l, s => by
    have hleave : ∀ u : State, ((u.leavePlan ch i).plan ch).loads = (u.plan ch).loads := fun u => by
      unfold State.leavePlan
      rw [modPlan_plan_self]
    have hdrop : ∀ res, ((settleList ch l (s.dropHead ch i res)).plan ch).loads = (s.plan ch).loads := fun res => by
      rw [settleList_loads l, dropHead_plan, hleave]
    have hstart : ∀ (u : State) (r : Record), ((settleList ch l (u.startHead ch i r)).plan ch).loads = (u.plan ch).loads := fun u r => by
      rw [settleList_loads l, startHead_plan, hleave]
    unfold settleList
    split
    · rfl
    · next r _ =>
      split
      · split
        · exact hdrop .missed
        · exact hstart s r
        · rw [hstart, preemptCurrent_plan]
        · exact hdrop .skipped
        · unfold State.setRecState
          split <;> rfl
        · rfl
      · rfl

theorem headNotDue_addsReports {t : State} (h : s.AddsReports t) (hs : s.HeadNotDue ch) : t.HeadNotDue ch := by
  rw [h.same]
  exact hs

/-- Settles O16: by induction on the plan. -/
theorem noPlannedHeadIsDueAfterHeadDue : Obligations.NoPlannedHeadIsDueAfterHeadDue := by
  unfold Obligations.NoPlannedHeadIsDueAfterHeadDue
  intro s t ch hr hh hloads h
  rw [headDue_next hr] at h
  cases h
  have hadds := watch_addsReports (maskOf ch) s (s.checkHead ch)
  have hnotDue : (s.dueAtPlan ch).HeadNotDue ch := headNotDue_addsReports hadds (settleList_headNotDue _ s hh rfl)
  have htaken : ((s.dueAtPlan ch).plan ch).loads = [] := by
    rw [State.dueAtPlan, hadds.same]
    exact (settleList_loads _ s).trans hloads
  intro i rest r hrec hi hst
  have hdue := hnotDue i rest r hrec hi hst
  unfold State.isDue at hdue
  rw [planTime_nil htaken, decide_eq_true_eq] at hdue
  omega

/-! ### The end of a channel -/

/-- The state with the end handed to a plan taken. -/
def State.endTaken (s : State) (ch : Channel) : State := { s with plans := setAt s.plans ch { s.plan ch with endHanded := false } }

theorem endTaken_plan (s : State) (ch : Channel) : (s.endTaken ch).plan ch = { s.plan ch with endHanded := false } := getAt_setAt_self _ _ _

theorem endTaken_without (s : State) (ch : Channel) (rest : List SlotNo) :
    (s.endTaken ch).planWithout ch rest = setAt s.plans ch { s.plan ch with records := rest, endHanded := false } := by
  unfold State.planWithout
  rw [endTaken_plan]
  exact setAt_setAt _ _ _ _

theorem channelEnd_next (hr : s.inReset = false) (he : (s.plan ch).endHanded = true) :
    exec (.channelEnd ch) s = .next (watch (maskOf ch) s ((s.endTaken ch).checkHeadAtEnd ch)) := by
  unfold exec
  refine (whileRunning_running _ hr).trans (congrArg (fun u => Host.Outcome.next (watch (maskOf ch) s u)) ?_)
  unfold State.takeEnd
  rw [if_pos he]
  rfl

/-- What CHANNEL_END does with a WAITING head, by its fate (R45, R139). -/
theorem checkHeadAtEnd_waiting (hrec : (s.plan ch).records = i :: rest) (hr : s.record i = some r) (hw : r.state = .waiting) :
    (s.endTaken ch).checkHeadAtEnd ch = match s.fate ch r.policy with
      | .miss => ((s.endTaken ch).dropHead ch i .missed).checkHead ch
      | .start => ((s.endTaken ch).startHead ch i r).checkHead ch
      | .preempt | .skip | .wait | .hold => s.endTaken ch := by
  have hrec' : ((s.endTaken ch).plan ch).records = i :: rest := by rw [endTaken_plan]; exact hrec
  have hr' : (s.endTaken ch).record i = some r := hr
  unfold State.checkHeadAtEnd
  rw [hrec']
  dsimp only
  rw [hr']
  dsimp only
  rw [if_pos hw]
  rfl

/-- CHANNEL_END takes the head off the plan by a freeing, and the due handling goes on behind it. -/
theorem channelEnd_goesOn {u : State} (hr : u.inReset = false) (hf : s.freeList.length < u.freeList.length)
    (h : exec (.channelEnd ch) s = .next (watch (maskOf ch) s (u.checkHead ch))) (hrec : (u.plan ch).records = rest)
    (hloads : (u.plan ch).loads = (s.plan ch).loads) (htime : u.deviceTime = s.deviceTime)
    (hrecords : ∀ j ∈ rest, u.record j = s.record j) :
    (s.NextNotDue rest ∧ (s.plan ch).loads = [] → exec (.channelEnd ch) s = .next (u.watched [ch])) ∧
      s.GoesOn (.channelEnd ch) u ch := by
  refine ⟨fun ⟨hn, hl⟩ => ?_, goesOn_of hr hf h⟩
  have hstop : u.checkHead ch = u := by
    rw [← settleList_eq_checkHead hrec]
    exact settleList_notDue (hloads.trans hl) (nextNotDue_congr hn htime hrecords)
  rw [h, hstop, watch_grown (names_maskOf ch) hf]

theorem lt_freed_freeList (u : State) (i : SlotNo) (r : Record) (b : EndedBody) (h : u.freeList = s.freeList) :
    s.freeList.length < (u.freed i r b).freeList.length := by
  rw [freed_freeList, h, List.length_append]
  exact Nat.lt_succ_self _

/-- A WAITING head of a kind other than SET, started at the end of the action before it (R45, R64). -/
def State.startedAtEnd (s : State) (ch : Channel) (i : SlotNo) (rest : List SlotNo) (r : Record) : State :=
  { s with
    plans := setAt s.plans ch { s.plan ch with records := rest, endHanded := false }
    slots := s.slotsWith i r .current
    engines := setAt s.engines ch ((s.engine ch).begun i r s.deviceTime) }

/-- A WAITING SET, applied at the end of the action before it, its record still to be freed (R45, R65). -/
def State.appliedAtEnd (s : State) (ch : Channel) (rest : List SlotNo) (level : Bool) : State :=
  { s with
    plans := setAt s.plans ch { s.plan ch with records := rest, endHanded := false }
    engines := setAt s.engines ch { s.engine ch with outputLevel := level, restLevel := level, changePending := true } }

/-- The part runs, the end of the channel has been handed to its plan, and the head is WAITING: the case of R45. -/
structure State.EndFindsWaiting (s : State) (ch : Channel) (i : SlotNo) (rest : List SlotNo) (r : Record) : Prop where
  runs    : s.inReset = false
  held    : s.Held
  ended   : (s.plan ch).endHanded = true
  records : (s.plan ch).records = i :: rest
  record  : s.record i = some r
  waiting : r.state = .waiting

theorem endTaken_records (h : (s.plan ch).records = i :: rest) : ((s.endTaken ch).plan ch).records = i :: rest := by
  rw [endTaken_plan]
  exact h

theorem endTaken_nodup (h : s.Held) : ((s.endTaken ch).plan ch).records.Nodup := by
  rw [endTaken_plan]
  exact h.planOnce ch

/-- A WAITING head of a kind other than SET is started (R45). -/
theorem channelEnd_starts (h : s.EndFindsWaiting ch i rest r) (hl : s.latch = false) (hidle : (s.engine ch).state = .idle)
    (hns : ∀ l, r.params ≠ .set l) :
    exec (.channelEnd ch) s = .next (watch (maskOf ch) s ((s.startedAtEnd ch i rest r).checkHead ch)) := by
  have hstart : (s.endTaken ch).startHead ch i r = s.startedAtEnd ch i rest r := by
    rw [startHead_action (endTaken_records h.records) (endTaken_nodup h.held) hns, endTaken_without]
    rfl
  rw [channelEnd_next h.runs h.ended, checkHeadAtEnd_waiting h.records h.record h.waiting, fate_idle hl hidle, ← hstart]

theorem startedAtEnd_stops (h : s.EndFindsWaiting ch i rest r) (hn : s.NextNotDue rest) (hloads : (s.plan ch).loads = []) :
    (s.startedAtEnd ch i rest r).checkHead ch = s.startedAtEnd ch i rest r := by
  have hplan : (s.startedAtEnd ch i rest r).plan ch = { s.plan ch with records := rest, endHanded := false } := getAt_setAt_self _ _ _
  rw [← settleList_eq_checkHead (rest := rest) (by rw [hplan])]
  refine settleList_notDue (by rw [hplan]; exact hloads) (nextNotDue_congr hn rfl fun j hj => ?_)
  exact (setRecord_record s i j { r with state := .current }).trans (if_neg (dueHead_rest_ne h.held h.records hj))

/-- CHANNEL_END goes on behind a head that `u` has lost and that is freed. -/
theorem channelEnd_frees (h : s.EndFindsWaiting ch i rest r) {u : State} {b : EndedBody}
    (hnext : exec (.channelEnd ch) s = .next (watch (maskOf ch) s ((u.freed i r b).checkHead ch))) (hr : u.inReset = false)
    (hplan : u.plan ch = { s.plan ch with records := rest, endHanded := false }) (hfree : u.freeList = s.freeList)
    (htime : u.deviceTime = s.deviceTime) (hrec : ∀ j ∈ rest, u.record j = s.record j) :
    (s.NextNotDue rest ∧ (s.plan ch).loads = [] → ∃ t, exec (.channelEnd ch) s = .next t ∧ u.Frees t i r b) ∧
      s.GoesOn (.channelEnd ch) (u.freed i r b) ch := by
  obtain ⟨h1, h2⟩ := channelEnd_goesOn (rest := rest) (by rw [freed_inReset]; exact hr) (lt_freed_freeList _ _ _ _ hfree) hnext
    (by rw [freed_plan, hplan]) (by rw [freed_plan, hplan]) (by rw [freed_deviceTime, htime])
    fun j hj => (freed_record_ne _ _ _ (dueHead_rest_ne h.held h.records hj)).trans (hrec j hj)
  exact ⟨fun hn => ⟨_, h1 hn, frees_of_channel (planned_channel h.held h.records h.record) _ _ _⟩, h2⟩

/-- A WAITING SET is applied and freed (R45). -/
theorem channelEnd_applies (h : s.EndFindsWaiting ch i rest r) (hl : s.latch = false) (hidle : (s.engine ch).state = .idle)
    {level : Bool} (hset : r.params = .set level) : exec (.channelEnd ch) s
      = .next (watch (maskOf ch) s (((s.appliedAtEnd ch rest level).freed i r (endedSet s i r)).checkHead ch)) := by
  have happ : (s.endTaken ch).headApplied ch rest level = s.appliedAtEnd ch rest level := by
    unfold State.headApplied
    rw [endTaken_without]
    rfl
  have hstart : (s.endTaken ch).startHead ch i r = (s.appliedAtEnd ch rest level).freed i r (endedSet s i r) := by
    rw [startHead_set (endTaken_records h.records) (endTaken_nodup h.held) hset, happ]
    rfl
  rw [channelEnd_next h.runs h.ended, checkHeadAtEnd_waiting h.records h.record h.waiting, fate_idle hl hidle, ← hstart]

/-- The plan of a channel without the record that left it at the end, which is taken. -/
def State.droppedAtEnd (s : State) (ch : Channel) (rest : List SlotNo) : State :=
  { s with plans := setAt s.plans ch { s.plan ch with records := rest, endHanded := false } }

/-- A WAITING head is missed under the latch and on a SAFED channel (R139). -/
theorem channelEnd_misses (h : s.EndFindsWaiting ch i rest r) (hb : s.Barred ch) : exec (.channelEnd ch) s
    = .next (watch (maskOf ch) s (((s.droppedAtEnd ch rest).freed i r (unstartedBody s i r .missed)).checkHead ch)) := by
  have hdrop : (s.endTaken ch).dropHead ch i .missed = (s.droppedAtEnd ch rest).freed i r (unstartedBody s i r .missed) := by
    rw [dropHead_eq (endTaken_records h.records) (endTaken_nodup h.held) h.record, endTaken_without]
    rfl
  rw [channelEnd_next h.runs h.ended, checkHeadAtEnd_waiting h.records h.record h.waiting, fate_barred hb, ← hdrop]

/-- A PLANNED head is handled as HEAD_DUE handles it (R45). -/
theorem channelEnd_planned (hr : s.inReset = false) (he : (s.plan ch).endHanded = true) (hrec : (s.plan ch).records = i :: rest)
    (hi : s.record i = some r) (hp : r.state = .planned) : exec (.channelEnd ch) s = exec (.headDue ch) (s.endTaken ch) := by
  have e : (s.endTaken ch).checkHeadAtEnd ch = (s.endTaken ch).checkHead ch := by
    unfold State.checkHeadAtEnd
    rw [endTaken_records hrec]
    dsimp only
    rw [show (s.endTaken ch).record i = some r from hi]
    dsimp only
    rw [if_neg (by rw [hp]; decide)]
  rw [channelEnd_next hr he, e]
  exact (headDue_next (u := s.endTaken ch) hr ch).symm

/-- Settles O17: by the state of the head, and for a WAITING one by its fate. -/
theorem channelEndChecksTheHead : Obligations.ChannelEndChecksTheHead := by
  unfold Obligations.ChannelEndChecksTheHead
  intro s ch hr hh
  refine ⟨fun he => ?_, fun he hnil => ?_, fun i rest r he hrec hi => ?_⟩
  · have e : s.takeEnd ch = s := by unfold State.takeEnd; rw [he]; rfl
    unfold exec
    refine (whileRunning_running _ hr).trans ?_
    rw [e, watch_same _ s s rfl]
  · have e : (s.endTaken ch).checkHeadAtEnd ch = s.endTaken ch := by
      unfold State.checkHeadAtEnd
      rw [endTaken_plan]
      dsimp only
      rw [hnil]
    rw [channelEnd_next hr he, e, watch_same _ s (s.endTaken ch) rfl]
    rfl
  · have found : r.state = .waiting → s.EndFindsWaiting ch i rest r := fun hw => ⟨hr, hh, he, hrec, hi, hw⟩
    refine ⟨fun hp => channelEnd_planned hr he hrec hi hp, fun hw hl hb => ?_, fun hw hl hidle hns => ?_,
      fun level hw hl hidle hset => ?_, fun hw hb => ?_⟩
    · have e : (s.endTaken ch).checkHeadAtEnd ch = s.endTaken ch := by
        rw [checkHeadAtEnd_waiting hrec hi hw, fate_busy hl hb]
        cases r.policy <;> rfl
      rw [channelEnd_next hr he, e, watch_same _ s (s.endTaken ch) rfl]
      rfl
    · have h := channelEnd_starts (found hw) hl hidle hns
      refine ⟨fun ⟨hn, hloads⟩ => ?_, ?_⟩
      · rw [h, startedAtEnd_stops (found hw) hn hloads, watch_same _ s (s.startedAtEnd ch i rest r) rfl]
        rfl
      · rw [h]
        exact (headDue_next (u := s.startedAtEnd ch i rest r) hr ch).symm
    · exact channelEnd_frees (found hw) (channelEnd_applies (found hw) hl hidle hset) hr (getAt_setAt_self _ _ _) rfl rfl fun _ _ => rfl
    · exact channelEnd_frees (found hw) (channelEnd_misses (found hw) hb) hr (getAt_setAt_self _ _ _) rfl rfl fun _ _ => rfl

end Head

end Sys2Proof.Machine
end

section
/-!
PROOF. The ends of an action at its engine (O20, O24), the phases of TRAIN and SQUARE (O21), the pulse end of an ARMED action (O23),
and the edges that no firing uses (O25).
-/
namespace Sys2Proof.Machine

section Action

variable {s : State} {ch : Channel} {run : Running} {r : Record}

/-! ### The end of an action as one event -/

/-- The engine at rest after a natural or a window end, and the end handed to the plan, before the record is freed (R70). -/
def State.restedAt (s : State) (ch : Channel) : State :=
  { s with
    engines := setAt s.engines ch (s.engine ch).rested
    plans := setAt s.plans ch { s.plan ch with endHanded := true } }

/-- An event that frees the record of an action from `u` and ends with the watch (R19, R125). -/
theorem watch_frees (hr : r.channel = ch) {u : State} (hu : u.freeList = s.freeList) (i : SlotNo) (b : EndedBody) :
    u.Frees (watch (maskOf ch) s (u.freed i r b)) i r b := by
  rw [watch_freed_one (i := i) (by rw [freed_freeList, hu]) ch]
  exact frees_of_channel hr u i b

theorem watch_endNaturally (h : s.Runs ch run r) (res : EndResult) :
    (s.restedAt ch).Frees (watch (maskOf ch) s (s.endNaturally ch res)) run.slot r (endBody s run r res) := by
  rw [endNaturally_eq h]
  exact watch_frees h.2.2 (u := s.restedAt ch) rfl _ _

theorem watch_windowEnd (h : s.Runs ch run r) (res : EndResult) :
    (s.restedAt ch).Frees (watch (maskOf ch) s ((s.takeWindow ch).endNaturally ch res)) run.slot r (endBody s run r res) := by
  rw [windowEnd_eq h]
  exact watch_frees h.2.2 (u := s.restedAt ch) rfl _ _

/-- A watched event of an engine, by what it changes. -/
theorem watched_next (f : State → State) (hr : s.inReset = false) {u : State} (h : f s = u) {c : Instr}
    (hc : exec c s = whileRunning (fun s => watch (maskOf ch) s (f s)) s := by rfl) :
    exec c s = .next (watch (maskOf ch) s u) := by
  rw [hc, whileRunning_running _ hr, h]

/-- A watched event of an engine that frees nothing. -/
theorem watched_next_same (f : State → State) (hr : s.inReset = false) {u : State} (h : f s = u) {c : Instr}
    (hu : u.freeList = s.freeList := by rfl)
    (hc : exec c s = whileRunning (fun s => watch (maskOf ch) s (f s)) s := by rfl) : exec c s = .next u := by
  rw [watched_next f hr h hc, watch_same _ s u hu]

/-- An event without a watch. -/
theorem unwatched_next (f : State → State) (hr : s.inReset = false) {u : State} (h : f s = u) {c : Instr}
    (hc : exec c s = whileRunning (fun s => f s) s := by rfl) : exec c s = .next u := by
  rw [hc, whileRunning_running _ hr, h]

theorem phaseDue_iff (g : Progress) : g.phaseDue = true ↔ g.phaseRemaining = some 0 := decide_eq_true_iff

/-! ### PULSE and STROBE (O20) -/

theorem pulseExpiry_pulse (h : s.Runs ch run r) {w : Nat} (hp : r.params = .pulse w) (hd : run.progress.phaseDue = true) :
    s.pulseExpiry ch = s.endNaturally ch .complete := by
  cases r
  cases hp
  simp only [State.pulseExpiry, running_of h, if_pos hd]

theorem strobeExpiry_count (h : s.Runs ch run r) {w n v : Nat} (hp : r.params = .count w n v) (hph : run.progress.phase = .strobe)
    (hd : run.progress.phaseDue = true) : s.strobeExpiry ch = s.endNaturally ch .complete := by
  cases r
  cases hp
  simp only [State.strobeExpiry, running_of h, if_pos (And.intro hph hd)]

theorem pulseExpiry_early (h : s.Runs ch run r) (hd : ¬ run.progress.phaseDue = true) : s.pulseExpiry ch = s := by
  unfold State.pulseExpiry
  rw [running_of h]
  split
  · next heq => cases heq; exact if_neg hd
  · rfl

theorem strobeExpiry_early (h : s.Runs ch run r) (hd : ¬ run.progress.phaseDue = true) : s.strobeExpiry ch = s := by
  unfold State.strobeExpiry
  rw [running_of h]
  split
  · next heq => cases heq; exact if_neg fun k => hd k.2
  · rfl

/-- DELAY_EXPIRY does nothing outside the due end of a DELAY. -/
theorem delayExpiry_early (h : s.Runs ch run r) (hd : ¬ (run.progress.phase = .delay ∧ run.progress.phaseDue = true)) :
    s.delayExpiry ch = s := by
  unfold State.delayExpiry
  rw [running_of h]
  split
  · next heq => cases heq; exact if_neg hd
  · rfl

/-- PULSE_END does nothing outside the due end of an ACTIVE phase. -/
theorem pulseEnd_early (h : s.Runs ch run r) (hd : ¬ (run.progress.phase = .active ∧ run.progress.phaseDue = true)) :
    s.pulseEnd ch = s := by
  unfold State.pulseEnd
  rw [running_of h]
  split
  · next heq => cases heq; exact if_neg hd
  · rfl

/-- Settles O20: the due expiries end the action, all others are without effect. -/
theorem pulseAndStrobeEndNaturally : Obligations.PulseAndStrobeEndNaturally := by
  unfold Obligations.PulseAndStrobeEndNaturally
  intro s ch run r hr h
  refine ⟨fun ⟨w, hp⟩ hd => ?_, fun ⟨w, n, v, hp⟩ hph hd => ?_, fun hd => ?_, fun hph => ?_, fun hph => ?_⟩
  · exact ⟨_, watched_next (State.pulseExpiry · ch) hr (pulseExpiry_pulse h hp ((phaseDue_iff _).mpr hd)), watch_endNaturally h _⟩
  · exact ⟨_, watched_next (State.strobeExpiry · ch) hr (strobeExpiry_count h hp hph ((phaseDue_iff _).mpr hd)), watch_endNaturally h _⟩
  · have hnot : ¬ run.progress.phaseDue = true := fun k => hd ((phaseDue_iff _).mp k)
    exact ⟨watched_next_same (State.pulseExpiry · ch) hr (pulseExpiry_early h hnot),
      watched_next_same (State.strobeExpiry · ch) hr (strobeExpiry_early h hnot),
      unwatched_next (State.delayExpiry · ch) hr (delayExpiry_early h fun k => hnot k.2),
      watched_next_same (State.pulseEnd · ch) hr (pulseEnd_early h fun k => hnot k.2)⟩
  · exact unwatched_next (State.delayExpiry · ch) hr (delayExpiry_early h fun k => hph k.1)
  · exact watched_next_same (State.pulseEnd · ch) hr (pulseEnd_early h fun k => hph k.1)

/-! ### TRAIN and SQUARE (O21) -/

theorem enterRest_eq (h : (s.engine ch).current = some run) (n : Nat) : s.enterRest ch n = s.setEngine ch { s.engine ch with
    outputLevel := (s.engine ch).restLevel, changePending := true
    current := some { run with progress := { run.progress with phase := .rest, phaseRemaining := some n } } } := by
  have henter : run.progress.enter .rest n = { run.progress with phase := .rest, phaseRemaining := some n } := by
    simp [Progress.enter]
  rw [State.enterRest, modProgress_eq h, modEngine_setEngine, henter]
  rfl

/-- What the expiry of a TRAIN phase does, by the phase (R68). -/
theorem trainExpiry_train (h : s.Runs ch run r) {w p n : Nat} (hp : r.params = .train w p n) (hd : run.progress.phaseDue = true) :
    (run.progress.phase = .active → s.trainExpiry ch = s.enterRest ch (p - w)) ∧
    (run.progress.phase = .rest → s.trainExpiry ch =
      if n ≠ 0 ∧ run.progress.pulses = n then s.endNaturally ch .complete else s.enterActive ch .active w) := by
  cases r
  cases hp
  constructor <;> intro hph <;> simp only [State.trainExpiry, running_of h, if_pos hd, hph]

theorem squareExpiry_square (h : s.Runs ch run r) {p : Nat} (hp : r.params = .square p) (hd : run.progress.phaseDue = true) :
    (run.progress.phase = .active → s.squareExpiry ch = s.enterRest ch (p / 2)) ∧
    (run.progress.phase = .rest → s.squareExpiry ch = s.enterActive ch .active ((p + 1) / 2)) := by
  cases r
  cases hp
  constructor <;> intro hph <;> simp only [State.squareExpiry, running_of h, if_pos hd, hph]

theorem trainExpiry_early (h : s.Runs ch run r) (hd : ¬ run.progress.phaseDue = true) : s.trainExpiry ch = s := by
  unfold State.trainExpiry
  rw [running_of h]
  split
  · next heq => cases heq; exact if_neg hd
  · rfl

theorem squareExpiry_early (h : s.Runs ch run r) (hd : ¬ run.progress.phaseDue = true) : s.squareExpiry ch = s := by
  unfold State.squareExpiry
  rw [running_of h]
  split
  · next heq => cases heq; exact if_neg hd
  · rfl

/-- Settles O21, by the phase that ends. -/
theorem trainAndSquarePhasesAlternate : Obligations.TrainAndSquarePhasesAlternate := by
  unfold Obligations.TrainAndSquarePhasesAlternate
  refine ⟨fun s ch run r w p n hr h hp => ?train, fun s ch run r p hr h hp => ?square⟩
  case train =>
    have due := fun hd => trainExpiry_train h hp ((phaseDue_iff run.progress).mpr hd)
    refine ⟨fun hd hph => ?_, fun hd hph hn => ?_, fun hd hph hn hk => ?_, fun hd => ?_⟩
    · have e := (due hd).1 hph
      rw [enterRest_eq h.1] at e
      exact watched_next_same (State.trainExpiry · ch) hr e
    · have e := (due hd).2 hph
      rw [if_neg (by tauto), enterActive_active h.1] at e
      exact watched_next_same (State.trainExpiry · ch) hr e
    · have e := (due hd).2 hph
      rw [if_pos ⟨hn, hk⟩] at e
      exact ⟨_, watched_next (State.trainExpiry · ch) hr e, watch_endNaturally h _⟩
    · exact watched_next_same (State.trainExpiry · ch) hr (trainExpiry_early h fun k => hd ((phaseDue_iff _).mp k))
  case square =>
    have due := fun hd => squareExpiry_square h hp ((phaseDue_iff run.progress).mpr hd)
    refine ⟨fun hd hph => ?_, fun hd hph => ?_, fun hd => ?_⟩
    · have e := (due hd).1 hph
      rw [enterRest_eq h.1] at e
      exact unwatched_next (State.squareExpiry · ch) hr e
    · have e := (due hd).2 hph
      rw [enterActive_active h.1] at e
      exact unwatched_next (State.squareExpiry · ch) hr e
    · exact unwatched_next (State.squareExpiry · ch) hr (squareExpiry_early h fun k => hd ((phaseDue_iff _).mp k))

/-! ### The window (O24) -/

/-- The window expiry of an ARMED action (R89). -/
theorem armedWindow_armed (h : s.Runs ch run r) {w n d v : Nat} {m : RetrigMode} (hp : r.params = .armed w n d v m) :
    s.armedWindow ch = if run.progress.windowDue then
      if run.progress.phase = .listen then
        (s.takeWindow ch).endNaturally ch (if run.progress.firings = 0 then .noTrigger else .short)
      else s.takeWindow ch
    else s := by
  cases r
  cases hp
  simp only [State.armedWindow, running_of h]

/-- The window expiry of a COUNT action (R95). -/
theorem countWindow_count (h : s.Runs ch run r) {w n v : Nat} (hp : r.params = .count w n v) :
    s.countWindow ch = if run.progress.windowDue then
      if run.progress.phase = .listen then
        (s.takeWindow ch).endNaturally ch (if run.progress.edges = 0 then .noTrigger else .short)
      else s.takeWindow ch
    else s := by
  cases r
  cases hp
  simp only [State.countWindow, running_of h]

/-- The two window expiries as one: they differ in what counts as a use of the window. -/
theorem windowExpiry_next {c : Instr} {used : Nat} (hr : s.inReset = false) (h : s.Runs ch run r)
    (hc : c = .armedWindowExpiry ch ∧ used = run.progress.firings ∧ (∃ w n d v m, r.params = .armed w n d v m) ∨
      c = .countWindowExpiry ch ∧ used = run.progress.edges ∧ (∃ w n v, r.params = .count w n v)) :
    exec c s = .next (watch (maskOf ch) s (if run.progress.windowDue then
      if run.progress.phase = .listen then (s.takeWindow ch).endNaturally ch (if used = 0 then .noTrigger else .short)
      else s.takeWindow ch
    else s)) := by
  rcases hc with ⟨rfl, rfl, w, n, d, v, m, hp⟩ | ⟨rfl, rfl, w, n, v, hp⟩
  · exact watched_next (State.armedWindow · ch) hr (armedWindow_armed h hp)
  · exact watched_next (State.countWindow · ch) hr (countWindow_count h hp)

/-- Settles O24, by the phase in which the window expires. -/
theorem windowExpiryEndsAListeningAction : Obligations.WindowExpiryEndsAListeningAction := by
  unfold Obligations.WindowExpiryEndsAListeningAction
  intro s ch run r c used hr h hc
  have hnext := windowExpiry_next hr h hc
  refine ⟨fun hw hph => ⟨_, ?_, watch_windowEnd h _⟩, fun hw hph => ?_, fun hw => ?_⟩
  · rw [hnext, if_pos hw, if_pos hph]
  · rw [hnext, if_pos hw, if_neg hph, takeWindow_eq h.1, watch_same _ s _ (by rfl)]
    rfl
  · rw [hnext, if_neg (by simp [hw]), watch_same _ s s rfl]

/-! ### Edges that no firing uses (O25) -/

theorem takeEdge_stray (h1 : (s.engine ch).state ≠ .armed) (h2 : (s.engine ch).state ≠ .firing) : s.takeEdge ch = s.strayEdge ch := by
  unfold State.takeEdge
  cases hst : (s.engine ch).state with
  | armed => exact absurd hst h1
  | firing => exact absurd hst h2
  | off | idle | running | safed => rfl

/-- EDGE at a COUNT action: counted in LISTEN, an overrun in STROBE (R93, R94). -/
theorem edge_count {w n v k : Nat} (hr : s.inReset = false) (h : s.Runs ch run r) (hp : r.params = .count w n v)
    (hk : (s.engine ch).edgesHanded = k + 1) (hst : (s.engine ch).state = .armed ∨ (s.engine ch).state = .firing) :
    exec (.edge ch) s = .next (if run.progress.phase = .listen then (s.edgeLeft ch k).countEdge ch w n run.progress.edges
      else (s.edgeLeft ch k).overrun ch) := by
  have hrun : (s.edgeLeft ch k).running ch = some (run, r) := edge_runs h k
  have haction : (s.edgeLeft ch k).takeEdge ch = (s.edgeLeft ch k).edgeToAction ch := takeEdge_action k hst
  rw [edge_next hr hk, haction]
  cases r
  cases hp
  simp only [State.edgeToAction, hrun]

/-- The N-th edge of a COUNT action begins the STROBE (R93). -/
theorem countEdge_last {u : State} (h : (u.engine ch).current = some run) {w n : Nat} (hn : satInc run.progress.edges = n) :
    u.countEdge ch w n run.progress.edges = u.setEngine ch { u.engine ch with
      state := .firing, outputLevel := run.progress.activeLevel, changePending := true
      current := some { run with progress := { run.progress with
        edges := satInc run.progress.edges, phase := .strobe, phaseRemaining := some w, activeBegan := true } } } := by
  unfold State.countEdge
  rw [if_pos hn, countedFiring_eq h, State.enterActive, modProgress_eq (by rw [setEngine_engine_self]), setEngine_setEngine,
    setEngine_engine_self, modEngine_setEngine]
  simp [Progress.enter, Engine.deferred, Engine.activeLevel]

theorem countEdge_more {u : State} (h : (u.engine ch).current = some run) {w n : Nat} (hn : satInc run.progress.edges ≠ n) :
    u.countEdge ch w n run.progress.edges = u.setEngine ch { u.engine ch with
      current := some { run with progress := { run.progress with edges := satInc run.progress.edges } } } := by
  unfold State.countEdge
  rw [if_neg hn, modProgress_eq h]

/-- Settles O25: a stray edge by the state of the channel, an edge of a COUNT action by its phase. -/
theorem strayEdgesAndEdgesOfACountAreCounted : Obligations.StrayEdgesAndEdgesOfACountAreCounted := by
  unfold Obligations.StrayEdgesAndEdgesOfACountAreCounted
  refine ⟨fun s ch hr => ⟨fun k hk h1 h2 => ?stray, fun h0 => ?none⟩, fun s ch run r w n v k hr h hp hk hst => ?count⟩
  case stray =>
    rw [edge_next hr hk, takeEdge_stray (by rw [edgeLeft_engine]; exact h1) (by rw [edgeLeft_engine]; exact h2)]
    unfold State.strayEdge State.edgeLeft
    rw [modEngine_setEngine]
    rfl
  case none =>
    unfold exec
    refine (whileRunning_running _ hr).trans ?_
    rw [if_neg (by omega)]
  case count =>
    have hcur : ((s.edgeLeft ch k).engine ch).current = some run := by rw [edgeLeft_engine]; exact h.1
    have hnext := edge_count hr h hp hk hst
    refine ⟨fun hph hn => ?_, fun hph hn => ?_, fun hph => ?_⟩
    · rw [hnext, if_pos hph, countEdge_more hcur hn, edgeLeft_setEngine, edgeLeft_engine]
      rfl
    · rw [hnext, if_pos hph, countEdge_last hcur hn, edgeLeft_setEngine, edgeLeft_engine]
      rfl
    · rw [hnext, if_neg (by rw [hph]; decide), overrun_eq hcur, edgeLeft_setEngine, edgeLeft_engine]
      rfl

/-! ### The pulse end of an ARMED action (O23) -/

/-- The engine once the pulse has been counted: at the rest level, with one firing more (R88). -/
def State.firingCounted (s : State) (ch : Channel) (run : Running) : State := s.setEngine ch { s.engine ch with
  outputLevel := (s.engine ch).restLevel
  changePending := true
  current := some { run with progress := { run.progress with firings := satInc run.progress.firings } } }

theorem completeFiring_eq (h : (s.engine ch).current = some run) : s.completeFiring ch = s.firingCounted ch run := by
  unfold State.completeFiring
  rw [modProgress_eq h, modEngine_setEngine]
  rfl

theorem firingCounted_engine (s : State) (ch : Channel) (run : Running) : (s.firingCounted ch run).engine ch = { s.engine ch with
    outputLevel := (s.engine ch).restLevel
    changePending := true
    current := some { run with progress := { run.progress with firings := satInc run.progress.firings } } } :=
  setEngine_engine_self _ _ _

theorem firingCounted_setEngine (s : State) (ch : Channel) (run : Running) (e : Engine) :
    (s.firingCounted ch run).setEngine ch e = s.setEngine ch e := setEngine_setEngine _ _ _ _

/-- PULSE_END at the due end of the pulse of an ARMED action (R88). -/
theorem pulseEnd_armed (h : s.Runs ch run r) {w n d v : Nat} {m : RetrigMode} (hp : r.params = .armed w n d v m)
    (hph : run.progress.phase = .active) (hd : run.progress.phaseRemaining = some 0) :
    s.pulseEnd ch = (s.firingCounted ch run).afterFiring ch w n d (satInc run.progress.firings) run.progress.windowExpired := by
  have hend : run.progress.phase = .active ∧ run.progress.phaseDue = true := ⟨hph, (phaseDue_iff _).mpr hd⟩
  rw [← completeFiring_eq h.1]
  cases r
  cases hp
  simp only [State.pulseEnd, running_of h, if_pos hend]

/-- The action as it ends at a pulse end: a held edge has become an overrun (R84, R88). -/
def firingEnded (run : Running) (pending : Bool) : Running :=
  { run with progress := { run.progress with
      firings := satInc run.progress.firings
      overruns := if pending then satInc run.progress.overruns else run.progress.overruns } }

/-- The engine with the held edge dropped (R88). -/
theorem dropHeldEdge_firingCounted (s : State) (ch : Channel) (run : Running) :
    (s.firingCounted ch run).dropHeldEdge ch = s.setEngine ch { s.engine ch with
      outputLevel := (s.engine ch).restLevel
      changePending := true
      pendingEdge := false
      current := some (firingEnded run (s.engine ch).pendingEdge) } := by
  unfold State.dropHeldEdge
  have hpend : ((s.firingCounted ch run).engine ch).pendingEdge = (s.engine ch).pendingEdge := by rw [firingCounted_engine]
  rw [hpend]
  cases hp : (s.engine ch).pendingEdge with
  | true =>
    rw [if_pos rfl, modProgress_eq (run := firingEnded run false) (by rw [firingCounted_engine]; rfl), firingCounted_setEngine,
      modEngine_setEngine, firingCounted_engine]
    rfl
  | false =>
    rw [if_neg (by decide), State.firingCounted]
    congr 1
    clear hpend
    revert hp
    generalize s.engine ch = e
    intro hp
    cases e
    cases hp
    rfl

/-- The end of an ARMED action at a pulse end (R70, R88). -/
theorem firing_ends (h : s.Runs ch run r) (res : EndResult) :
    State.Frees { s with
        engines := setAt s.engines ch { s.engine ch with
          outputLevel := (s.engine ch).restLevel, changePending := true, current := none, pendingEdge := false, state := .idle }
        plans := setAt s.plans ch { s.plan ch with endHanded := true } }
      (watch (maskOf ch) s (((s.firingCounted ch run).dropHeldEdge ch).endNaturally ch res)) run.slot r
      (endBody s (firingEnded run (s.engine ch).pendingEdge) r res) := by
  have hruns : ((s.firingCounted ch run).dropHeldEdge ch).Runs ch (firingEnded run (s.engine ch).pendingEdge) r := by
    rw [dropHeldEdge_firingCounted]
    exact ⟨by rw [setEngine_engine_self], h.2⟩
  rw [endNaturally_eq hruns, dropHeldEdge_firingCounted, setEngine_engine_self]
  simp only [State.setEngine, setAt_setAt, Engine.rested, Bool.true_or]
  exact watch_frees h.2.2 rfl _ _

theorem windowExpired_iff (g : Progress) : g.windowExpired = true ↔ g.windowRemaining = some 0 ∧ g.windowDue = false := by
  unfold Progress.windowExpired
  simp

/-- Settles O23, in the order of R88. -/
theorem pulseEndDecidesWhatFollows : Obligations.PulseEndDecidesWhatFollows := by
  unfold Obligations.PulseEndDecidesWhatFollows
  intro s ch run r w n d v m hr h hp hph hd g e firings reached expired ended
  have hend := pulseEnd_armed h hp hph hd
  unfold State.afterFiring at hend
  rw [show ((s.firingCounted ch run).engine ch).pendingEdge = e.pendingEdge by rw [firingCounted_engine]] at hend
  have hexp : (run.progress.windowExpired = true) = expired := propext (windowExpired_iff g)
  simp only [hexp] at hend
  have hcur : ∀ k : Bool, (((s.firingCounted ch run).modEngine ch fun e => { e with pendingEdge := k }).engine ch).current =
      some { run with progress := { g with firings := firings } } := fun k => by
    rw [modEngine_engine_self, firingCounted_engine]
  refine ⟨fun hends => ?_, fun hnr hne hpe hd0 => ?_, fun hnr hne hpe hd0 => ?_, fun hnr hne hpe => ?_⟩
  · refine ⟨_, watched_next (State.pulseEnd · ch) hr hend, ?_⟩
    by_cases hre : n ≠ 0 ∧ satInc run.progress.firings = n
    · rw [if_pos hre, if_pos (show reached from hre)]
      exact firing_ends h .complete
    · rw [if_neg hre, if_neg (show ¬ reached from hre), if_pos (hends.resolve_left hre)]
      exact firing_ends h .short
  · rw [if_neg hnr, if_neg hne, if_pos hpe, hd0, beginFiring_undelayed (hcur false)] at hend
    refine watched_next_same (State.pulseEnd · ch) hr (hend.trans ?_)
    rw [modEngine_engine_self, firingCounted_engine, State.modEngine, setEngine_setEngine, firingCounted_setEngine]
    rfl
  · rw [if_neg hnr, if_neg hne, if_pos hpe, beginFiring_delayed (hcur false) w hd0] at hend
    refine watched_next_same (State.pulseEnd · ch) hr (hend.trans ?_)
    rw [modEngine_engine_self, firingCounted_engine, State.modEngine, setEngine_setEngine, firingCounted_setEngine]
    rfl
  · rw [if_neg hnr, if_neg hne, if_neg (by simp [hpe]), State.setChanState,
      modProgress_eq (run := { run with progress := { g with firings := firings } }) (by rw [firingCounted_engine]),
      modEngine_setEngine, firingCounted_setEngine, firingCounted_engine] at hend
    exact watched_next_same (State.pulseEnd · ch) hr hend

end Action

end Sys2Proof.Machine
end

section
/-!
PROOF. The setting of the latch (O28), the engines' taking of the setting and the release (O29), RELEASE_SAFE (O30), and the end of
an open group (O31).
-/
namespace Sys2Proof.Machine

/-! ### The answer of a request command -/

section Requests

variable {s u : State} {rq : Request} {rest : List Request} {k : Byte} {st : Status} {fs : List Byte}

/-- A request of the command's kind and length is answered as its owner says (R171). -/
theorem request_answers (f : List Byte → State → Response × State) (len : Nat) (h : s.Carries rq rest) (hk : rq.kind = k)
    (hl : rq.fields.length + 3 = len) (hf : f rq.fields { s with rxQueue := rest } = ((st, fs), u)) {c : Instr}
    (hc : exec c s = whileRunning (fun s => s.takeRequest k len f) s := by rfl) : exec c s = .next (u.withReply rq st fs) := by
  rw [hc, request_next h hk hl, hf]

end Requests

/-! ### The setting of the latch (O28) -/

theorem setLatch_set {s : State} (h : s.latch = true) (c : SafeCause) : s.setLatch c = s := by
  unfold State.setLatch
  rw [if_pos h]

/-- SAFEN_FALLING_EDGE with the falling edge sampled. -/
theorem takeSafenFall_sampled {s : State} (h : s.safenFall = true) : s.takeSafenFall = { s with safenFall := false }.setLatch .line := by
  unfold State.takeSafenFall
  rw [if_pos h]

/-- Settles O28: both setting events come down to `State.setLatch`. -/
theorem settingEventsSetTheLatch : Obligations.SettingEventsSetTheLatch := by
  unfold Obligations.SettingEventsSetTheLatch
  intro s hr
  refine ⟨fun hf hl => ⟨_, unwatched_next State.takeSafenFall hr (takeSafenFall_sampled hf), ?_⟩, fun hf hl => ?_, fun hf => ?_,
    fun rq rest h hk hfs => ?_⟩
  · exact setLatch_sets (s := { s with safenFall := false }) hl .line
  · exact unwatched_next State.takeSafenFall hr ((takeSafenFall_sampled hf).trans (setLatch_set (s := { s with safenFall := false }) hl _))
  · refine unwatched_next State.takeSafenFall hr ?_
    unfold State.takeSafenFall
    rw [if_neg (by simp [hf])]
  · have hlen : rq.fields.length + 3 = 3 := by rw [hfs]; rfl
    have hnext := request_answers (c := .enterSafe) (fun _ s => (bare .ok, s.setLatch .request)) 3 h hk hlen rfl
    refine ⟨fun hl => ⟨_, hnext, setLatch_sets (s := { s with rxQueue := rest }) hl _⟩, fun hl => ?_⟩
    rw [hnext, setLatch_set (s := { s with rxQueue := rest }) hl]

/-! ### The latch events at an engine (O29) -/

section SafeEvents

variable {s : State} {ch : Channel} {ev x : SafeEvent} {more : List SafeEvent} {f : State → State}

/-- The engine with its oldest latch events taken. -/
def State.safeLeft (s : State) (ch : Channel) (more : List SafeEvent) : State :=
  { s with engines := setAt s.engines ch { s.engine ch with safeHanded := more } }

theorem safeLeft_engine (s : State) (ch : Channel) (more : List SafeEvent) :
    (s.safeLeft ch more).engine ch = { s.engine ch with safeHanded := more } := getAt_setAt_self _ _ _

/-- An event that the engine does not hold is not taken. -/
theorem takeSafeEvent_absent (h : ev ∉ (s.engine ch).safeHanded) : s.takeSafeEvent ch ev f = s := by
  unfold State.takeSafeEvent
  split
  · rfl
  · next e rest heq =>
    refine if_neg ?_
    rintro rfl
    have hmem : e ∈ (s.engine ch).safeFrom e := by rw [heq]; exact List.mem_cons_self
    exact h ((List.dropWhile_sublist _).mem hmem)

/-- An event with an older one of the other sort in front that would change something is not taken (R137). -/
theorem takeSafeEvent_behind (h : (s.engine ch).safeHanded = x :: more) (hx : x ≠ ev) (hi : x.idleAt (s.engine ch).state = false) :
    s.takeSafeEvent ch ev f = s := by
  have hfrom : (s.engine ch).safeFrom ev = x :: more := by
    unfold Engine.safeFrom
    rw [h, List.dropWhile_cons, hi, Bool.and_false]
    rfl
  unfold State.takeSafeEvent
  rw [hfrom]
  exact if_neg hx

/-- The oldest event of an engine is taken by its command. -/
theorem takeSafeEvent_oldest (h : (s.engine ch).safeHanded = ev :: more) : s.takeSafeEvent ch ev f = f (s.safeLeft ch more) := by
  unfold State.takeSafeEvent
  rw [safe_cons h]
  exact if_pos rfl

/-- The events of the other sort that stand before the first one of a sort. -/
theorem safeFrom_idle {e : Engine} (h : e.safeHanded = x :: more) (hx : x ≠ ev) (hi : x.idleAt e.state = true) :
    e.safeFrom ev = Engine.safeFrom { e with safeHanded := more } ev := by
  unfold Engine.safeFrom
  rw [h, List.dropWhile_cons, hi, decide_eq_true hx]
  rfl

/-- There are only two sorts, so that behind the events passed over stands one of the sort. -/
theorem safeFrom_head {e : Engine} (hi : ∀ y, y ≠ ev → y.idleAt e.state = true) (hm : ev ∈ e.safeHanded) :
    ∃ l, e.safeFrom ev = ev :: l := by
  unfold Engine.safeFrom
  revert hm
  generalize e.safeHanded = l
  induction l with
  | nil => intro hm; cases hm
  | cons y l ih =>
    intro hm
    rw [List.dropWhile_cons]
    by_cases hy : y = ev
    · subst hy
      exact ⟨l, by simp⟩
    · rw [if_pos (by simp [hy, hi y hy])]
      exact ih ((List.mem_cons.mp hm).resolve_left (Ne.symm hy))

theorem takeSafeEvent_from {l : List SafeEvent} (h : (s.engine ch).safeFrom ev = ev :: l) : s.takeSafeEvent ch ev f = f (s.safeLeft ch l) := by
  unfold State.takeSafeEvent
  rw [h]
  exact if_pos rfl

/-- An older event that changes nothing at the engine is passed over (log 23). -/
theorem takeSafeEvent_passes (h : (s.engine ch).safeHanded = x :: more) (hx : x ≠ ev)
    (hi : ∀ y, y ≠ ev → y.idleAt (s.engine ch).state = true) (hm : ev ∈ more) :
    s.takeSafeEvent ch ev f = (s.safeLeft ch more).takeSafeEvent ch ev f := by
  obtain ⟨l, hl⟩ := safeFrom_head (e := { s.engine ch with safeHanded := more }) hi hm
  have hl' : (s.engine ch).safeFrom ev = ev :: l := (safeFrom_idle h hx (hi x hx)).trans hl
  rw [takeSafeEvent_from hl', takeSafeEvent_from (by rw [safeLeft_engine]; exact hl)]
  unfold State.safeLeft
  simp only [setAt_setAt, State.engine, getAt_setAt_self]

end SafeEvents

/-! ### The setting at an engine -/

section Setting

variable {s : State} {ch : Channel} {run : Running} {r : Record} {more : List SafeEvent}

/-- SAFE_SETTING_AT_ENGINE, by what the taking changes. -/
theorem safeSetting_next (hr : s.inReset = false) {u : State} (h : s.takeSafeEvent ch .setting (fun s => s.settingAtEngine ch) = u) :
    exec (.safeSettingAtEngine ch) s = .next (watch (maskOf ch) s u) :=
  watched_next (fun s => s.takeSafeEvent ch .setting fun s => s.settingAtEngine ch) hr h

theorem safeSetting_next_same (hr : s.inReset = false) {u : State}
    (h : s.takeSafeEvent ch .setting (fun s => s.settingAtEngine ch) = u) (hu : u.freeList = s.freeList) :
    exec (.safeSettingAtEngine ch) s = .next u := by
  rw [safeSetting_next hr h, watch_same _ s u hu]

/-- The engine of a channel at its safe level, with the setting taken (R73). -/
def Engine.safedBy (e : Engine) (more : List SafeEvent) : Engine :=
  { Engine.cut { e with safeHanded := more } e.config.safeLevel .safed with restLevel := e.config.safeLevel }

/-- The record of a busy channel freed as SAFED, before a WAITING head is missed (R73). -/
def State.safedAt (s : State) (ch : Channel) (more : List SafeEvent) : State :=
  { s with engines := setAt s.engines ch ((s.engine ch).safedBy more) }

theorem safedAt_engine (s : State) (ch : Channel) (more : List SafeEvent) :
    (s.safedAt ch more).engine ch = (s.engine ch).safedBy more := getAt_setAt_self _ _ _

theorem settingAtEngine_stays {u : State} (h : (u.engine ch).state = .off ∨ (u.engine ch).state = .safed) : u.settingAtEngine ch = u := by
  unfold State.settingAtEngine
  rcases h with h | h <;> rw [h]

theorem safeLeft_atSafeLevel (s : State) (ch : Channel) (more : List SafeEvent) :
    State.modEngine (s.safeLeft ch more) ch (fun e => e.atSafeLevel .safed) = s.safedAt ch more := by
  unfold State.modEngine State.setEngine
  rw [safeLeft_engine]
  unfold State.safeLeft
  simp only [setAt_setAt]
  rfl

theorem settingAtEngine_idle (h : (s.engine ch).state = .idle) (hc : (s.engine ch).current = none) :
    (s.safeLeft ch more).settingAtEngine ch = s.safedAt ch more := by
  unfold State.settingAtEngine
  rw [safeLeft_engine]
  dsimp only
  rw [h, hc]
  exact safeLeft_atSafeLevel s ch more

/-- The setting at a busy engine frees its record, and then a WAITING head is missed (R73, R45). -/
theorem settingAtEngine_ends (h : s.Runs ch run r)
    (hb : (s.engine ch).state = .running ∨ (s.engine ch).state = .armed ∨ (s.engine ch).state = .firing) :
    (s.safeLeft ch more).settingAtEngine ch
      = ((s.safedAt ch more).freed run.slot r (endBody s run r .safed)).missAfterSafed ch := by
  have hruns : (s.safeLeft ch more).Runs ch run r := ⟨by rw [safeLeft_engine]; exact h.1, h.2⟩
  have hbusy : ((s.safeLeft ch more).engine ch).state.busy = true := by
    rw [safeLeft_engine]
    rcases hb with hb | hb | hb <;> exact congrArg ChanState.busy hb
  rw [settingAtEngine_busy hruns hbusy]
  exact congrArg (fun u => State.missAfterSafed (State.freed u run.slot r (endBody s run r .safed)) ch) (safeLeft_atSafeLevel s ch more)

/-- The head of the plan is WAITING. -/
def State.Waits (s : State) (ch : Channel) : Prop :=
  ∃ i ∈ (s.plan ch).records.head?, ∃ q, s.record i = some q ∧ q.state = .waiting

/-- A WAITING head is not missed here where there is none, or where the plan takes the setting as an event of its own (R142). -/
theorem missAfterSafed_none {b : EndedBody} (h : ¬ s.Waits ch ∨ 0 < (s.plan ch).settings) :
    ((s.safedAt ch more).freed run.slot r b).missAfterSafed ch = (s.safedAt ch more).freed run.slot r b := by
  unfold State.missAfterSafed
  refine if_neg fun ⟨hw, hs⟩ => ?_
  rw [freed_plan] at hs
  rcases h with h | h
  · obtain ⟨i, hi, q, hq, hst⟩ := (headWaits_iff _ ch).mp hw
    rw [freed_plan] at hi
    have hne : i ≠ run.slot := by
      rintro rfl
      rw [freed_record_self] at hq
      cases hq
    rw [freed_record_ne _ _ _ hne] at hq
    exact h ⟨i, hi, q, hq, hst⟩
  · have hs : (s.plan ch).settings = 0 := hs
    omega

/-- The slot of the current action is not in the plan (R15). -/
theorem State.Held.slot_notMem_plan (hh : s.Held) (h : s.Runs ch run r) : run.slot ∉ (s.plan ch).records := by
  intro hi
  obtain ⟨q, hq, -, hst⟩ := hh.current_record h.1
  exact (planned_record hh hi hq).2 hst

/-- The WAITING head and the due heads behind it are missed after the SAFED record (R45, R139). -/
theorem missAfterSafed_front {b : EndedBody} {front l : List SlotNo} (hh : s.Held) (h : s.Runs ch run r) (hw : s.Waits ch)
    (hs : (s.plan ch).settings = 0) (hl : (s.plan ch).loads = []) (hrec : (s.plan ch).records = front ++ l) (hne : front ≠ [])
    (hdue : ∀ j ∈ front.tail, ∀ q, s.record j = some q → q.state = .planned ∧ q.start.toNat ≤ s.deviceTime.toNat)
    (hn : s.NextNotDue l) :
    ((s.safedAt ch more).freed run.slot r b).missAfterSafed ch
      = (State.freed { s with engines := setAt s.engines ch ((s.engine ch).safedBy more), plans := s.planWithout ch l }
          run.slot r b).freedAll .missed front := by
  obtain ⟨i, front, rfl⟩ := List.exists_cons_of_ne_nil hne
  have kept : ∀ j ∈ (s.plan ch).records, ((s.safedAt ch more).freed run.slot r b).record j = s.record j := fun j hj =>
    freed_record_ne (s.safedAt ch more) r b (i := run.slot) (fun e => hh.slot_notMem_plan h (e ▸ hj))
  have inPlan : ∀ j ∈ i :: front, j ∈ (s.plan ch).records := fun j hj => by
    rw [hrec]; exact List.mem_append_left _ hj
  obtain ⟨i', hi', q, hq, hst⟩ := hw
  obtain rfl : i' = i := by rw [hrec] at hi'; simpa using hi'.symm
  have hnd : (i' :: front ++ l).Nodup := hrec ▸ hh.planOnce ch
  rw [missAfterSafed_eq (i := i') (l := front) (rest := l) (r := q) (by rw [freed_plan]; exact hrec) hnd
    (.inr (by rw [freed_engine, safedAt_engine]; rfl)) ((kept i' (inPlan i' List.mem_cons_self)).trans hq) hst
    (by rw [freed_plan]; exact hs) (by rw [freed_plan]; exact hl) ?due ?rest]
  case due =>
    intro j hj
    have hj' := inPlan j (List.mem_cons_of_mem _ hj)
    obtain ⟨p, hp⟩ := hh.plan_record hj'
    rw [kept j hj', freed_deviceTime]
    exact ⟨p, hp.1, hdue j hj p hp.1⟩
  case rest =>
    refine nextNotDue_congr hn (freed_deviceTime _ _ _ _) fun j hj => kept j ?_
    rw [hrec]
    exact List.mem_append_right _ hj
  refine congrArg (State.freedAll · .missed (i' :: front)) ?_
  unfold State.planWithout
  rw [freed_plan, freed_plans]
  exact (freed_withPlans (s.safedAt ch more) (s.planWithout ch l) run.slot r b).symm

end Setting

/-! ### The release at an engine -/

section Release

variable {s : State} {ch : Channel} {more : List SafeEvent}

/-- SAFE_RELEASE_AT_ENGINE, by what the taking changes. -/
theorem safeRelease_next (hr : s.inReset = false) {u : State} (h : s.takeSafeEvent ch .release (fun s => s.releaseAtEngine ch) = u) :
    exec (.safeReleaseAtEngine ch) s = .next u :=
  unwatched_next (fun s => s.takeSafeEvent ch .release fun s => s.releaseAtEngine ch) hr h

/-- The channel released: IDLE with its safe level as rest level (R141). -/
def State.releasedAt (s u : State) (ch : Channel) (more : List SafeEvent) : State :=
  { u with engines := setAt u.engines ch { s.engine ch with
      safeHanded := more
      state := .idle
      restLevel := (s.engine ch).config.safeLevel } }

theorem headPassed_iff (u : State) (ch : Channel) : u.headPassed ch = true ↔
    ∃ i ∈ (u.plan ch).records.head?, ∃ q, u.record i = some q ∧ q.state = .planned ∧ q.start.toNat ≤ (u.planTime ch).toNat ∧
      q.start.toNat < u.deviceTime.toNat := by
  unfold State.headPassed State.isDue
  cases (u.plan ch).records.head? with
  | none => simp
  | some i => simp [Option.any_eq_true, and_assoc]

theorem takePassed_none {u : State} (h : ¬ u.headPassed ch = true) : u.takePassed ch = u := if_neg h

theorem takePassed_due {u : State} (h : u.headPassed ch = true) : u.takePassed ch = u.dueAtPlan ch := if_pos h

theorem releaseAtEngine_stays (h : (s.engine ch).state ≠ .safed) : (s.safeLeft ch more).releaseAtEngine ch = s.safeLeft ch more :=
  if_neg (by rw [safeLeft_engine]; exact h)

/-- The release at a SAFED channel, after what its plan has outstanding (R141, log 32). -/
theorem releaseAtEngine_safed (h : (s.engine ch).state = .safed) {u : State} (hp : (s.safeLeft ch more).takePassed ch = u)
    (he : u.engine ch = (s.safeLeft ch more).engine ch) :
    (s.safeLeft ch more).releaseAtEngine ch = (s.releasedAt u ch more).dueAtPlan ch := by
  unfold State.releaseAtEngine
  rw [if_pos (by rw [safeLeft_engine]; exact h), hp]
  refine congrArg (State.dueAtPlan · ch) ?_
  unfold State.modEngine State.setEngine
  rw [he, safeLeft_engine]
  rfl

/-- The released state of a plan that has nothing outstanding does not see the event taken before it. -/
theorem releasedAt_safeLeft (s : State) (ch : Channel) (more : List SafeEvent) :
    s.releasedAt (s.safeLeft ch more) ch more = s.releasedAt s ch more := by
  unfold State.releasedAt State.safeLeft
  simp only [setAt_setAt]

theorem dueAtPlan_nil {u : State} (h : (u.plan ch).records = []) : u.dueAtPlan ch = u := by
  have e : u.checkHead ch = u := by
    unfold State.checkHead
    rw [h]
    rfl
  rw [State.dueAtPlan, e, watch_same _ u u rfl]

end Release

/-- An event that frees a record and then others, none of them started, and ends with the watch (R125). -/
theorem watch_frees_more {s u : State} {ch : Channel} {i : SlotNo} {r : Record} {b : EndedBody} {l : List SlotNo} {res : EndResult}
    (hu : u.freeList = s.freeList) (hnd : l.Nodup) (hex : ∀ j ∈ l, j ≠ i ∧ ∃ q, u.record j = some q) :
    watch (maskOf ch) s ((u.freed i r b).freedAll res l) = ((u.freed i r b).freedAll res l).watched [ch] := by
  refine watch_grown (names_maskOf ch) ?_
  have hrec : ∀ j ∈ l, ∃ q, (u.freed i r b).record j = some q := fun j hj => by
    obtain ⟨hne, q, hq⟩ := hex j hj
    exact ⟨q, (freed_record_ne _ _ _ hne).trans hq⟩
  rw [freedAll_freeList _ l _ hnd hrec, freed_freeList, hu]
  simp only [List.length_append, List.length_singleton]
  omega

/-- An engine's taking of the setting, by its state (R73). -/
theorem engineTakesTheSetting {s : State} {ch : Channel} {more : List SafeEvent} (hr : s.inReset = false)
    (h : (s.engine ch).safeHanded = .setting :: more) :
    ((s.engine ch).state = .off ∨ (s.engine ch).state = .safed →
      exec (.safeSettingAtEngine ch) s = .next (s.safeLeft ch more)) ∧
    ((s.engine ch).state = .idle → (s.engine ch).current = none →
      exec (.safeSettingAtEngine ch) s = .next (s.safedAt ch more)) ∧
    (∀ run r, s.Runs ch run r →
      (s.engine ch).state = .running ∨ (s.engine ch).state = .armed ∨ (s.engine ch).state = .firing →
      (¬ s.Waits ch ∨ 0 < (s.plan ch).settings →
        ∃ t, exec (.safeSettingAtEngine ch) s = .next t ∧ (s.safedAt ch more).Frees t run.slot r (endBody s run r .safed)) ∧
      (∀ front rest, s.Held → s.Waits ch → (s.plan ch).settings = 0 → (s.plan ch).loads = [] →
        (s.plan ch).records = front ++ rest → front ≠ [] →
        (∀ j ∈ front.tail, ∀ q, s.record j = some q → q.state = .planned ∧ q.start.toNat ≤ s.deviceTime.toNat) →
        s.NextNotDue rest →
        exec (.safeSettingAtEngine ch) s = .next (((State.freed
          { s with engines := setAt s.engines ch ((s.engine ch).safedBy more), plans := s.planWithout ch rest }
          run.slot r (endBody s run r .safed)).freedAll .missed front).watched [ch]))) := by
  have htake := takeSafeEvent_oldest (f := fun s => s.settingAtEngine ch) h
  refine ⟨fun hst => ?_, fun hst hc => ?_, fun run r hruns hb => ⟨fun hw => ?_, fun front rest hh hw hs hl hrec hne hdue hn => ?_⟩⟩
  · exact safeSetting_next_same hr (htake.trans (settingAtEngine_stays (by rw [safeLeft_engine]; exact hst))) rfl
  · exact safeSetting_next_same hr (htake.trans (settingAtEngine_idle hst hc)) rfl
  · have e := (htake.trans (settingAtEngine_ends hruns hb)).trans (missAfterSafed_none hw)
    exact ⟨_, safeSetting_next hr e, watch_frees hruns.2.2 (u := s.safedAt ch more) rfl _ _⟩
  · have e := (htake.trans (settingAtEngine_ends hruns hb)).trans (missAfterSafed_front hh hruns hw hs hl hrec hne hdue hn)
    have hmem : ∀ j ∈ front, j ∈ (s.plan ch).records := fun j hj => hrec ▸ List.mem_append_left rest hj
    rw [safeSetting_next hr e]
    refine congrArg Host.Outcome.next (watch_frees_more rfl (List.nodup_append.mp (hrec ▸ hh.planOnce ch)).1 fun j hj => ?_)
    obtain ⟨q, hq, -⟩ := hh.plan_record (hmem j hj)
    exact ⟨fun e => hh.slot_notMem_plan hruns (e ▸ hmem j hj), q, hq⟩

/-- An engine's taking of the release, by its state and by what its plan has outstanding (R141). -/
theorem engineTakesTheRelease {s : State} {ch : Channel} {more : List SafeEvent} (hr : s.inReset = false)
    (h : (s.engine ch).safeHanded = .release :: more) :
    ((s.engine ch).state ≠ .safed → exec (.safeReleaseAtEngine ch) s = .next (s.safeLeft ch more)) ∧
    ((s.engine ch).state = .safed → (s.plan ch).records = [] →
      exec (.safeReleaseAtEngine ch) s = .next (s.releasedAt s ch more)) ∧
    ((s.engine ch).state = .safed → ¬ s.headPassed ch = true →
      exec (.safeReleaseAtEngine ch) s = exec (.headDue ch) (s.releasedAt s ch more)) ∧
    ((s.engine ch).state = .safed → s.Held → s.headPassed ch = true →
      ∃ u, exec (.headDue ch) (s.safeLeft ch more) = .next u ∧
        exec (.safeReleaseAtEngine ch) s = exec (.headDue ch) (s.releasedAt u ch more)) := by
  have htake := takeSafeEvent_oldest (f := fun s => s.releaseAtEngine ch) h
  have hsafed : ∀ {u : State}, (s.engine ch).state = .safed → (s.safeLeft ch more).takePassed ch = u →
      u.engine ch = (s.safeLeft ch more).engine ch →
      exec (.safeReleaseAtEngine ch) s = .next ((s.releasedAt u ch more).dueAtPlan ch) := fun hst hp he =>
    safeRelease_next hr (htake.trans (releaseAtEngine_safed hst hp he))
  have hquiet : (s.engine ch).state = .safed → ¬ s.headPassed ch = true →
      exec (.safeReleaseAtEngine ch) s = .next ((s.releasedAt s ch more).dueAtPlan ch) := fun hst hp => by
    rw [hsafed hst (takePassed_none (u := s.safeLeft ch more) hp) rfl, releasedAt_safeLeft]
  refine ⟨fun hst => safeRelease_next hr (htake.trans (releaseAtEngine_stays hst)), fun hst hnil => ?_, fun hst hp => ?_,
    fun hst hh hp => ?_⟩
  · have hnone : ¬ s.headPassed ch = true := by
      rw [headPassed_iff, hnil]
      rintro ⟨i, hi, -⟩
      cases hi
    rw [hquiet hst hnone, dueAtPlan_nil (u := s.releasedAt s ch more) hnil]
  · rw [hquiet hst hp, headDue_next (u := s.releasedAt s ch more) hr]
  · have hmiss : (s.safeLeft ch more).MissesAt ((s.safeLeft ch more).dueAtPlan ch) ch :=
      dueAtPlan_barred (s := s.safeLeft ch more) (hh.planOnce ch) (.inr (by rw [safeLeft_engine]; exact hst))
    refine ⟨_, headDue_next (u := s.safeLeft ch more) hr ch, ?_⟩
    have hreset : (s.releasedAt ((s.safeLeft ch more).dueAtPlan ch) ch more).inReset = false := hmiss.works.inReset.trans hr
    rw [hsafed hst (takePassed_due (u := s.safeLeft ch more) hp) (by unfold State.engine; rw [hmiss.engines]), headDue_next hreset]

/-- Settles O29: the order of the events of an engine, and the taking of the oldest of them. -/
theorem enginesTakeTheSettingAndTheRelease : Obligations.EnginesTakeTheSettingAndTheRelease := by
  unfold Obligations.EnginesTakeTheSettingAndTheRelease
  refine ⟨fun s ch hr => ⟨fun hno => ?_, fun more h => ⟨fun hst => ?_, fun hst hm => ?_⟩, fun more h => engineTakesTheSetting hr h⟩,
    fun s ch hr => ⟨fun hno => ?_, fun more h => ⟨fun h1 h2 => ?_, fun hst hm => ?_⟩, fun more h => ?_⟩⟩
  · exact safeSetting_next_same hr (takeSafeEvent_absent hno) rfl
  · exact safeSetting_next_same hr (takeSafeEvent_behind h (by decide) (by rw [hst]; rfl)) rfl
  · have hidle : ∀ y : SafeEvent, y ≠ .setting → y.idleAt (s.engine ch).state = true := by
      rintro (_ | _) hy
      · exact absurd rfl hy
      · exact decide_eq_true hst
    have hpass := takeSafeEvent_passes (f := fun s => s.settingAtEngine ch) h (by decide) hidle hm
    rw [safeSetting_next hr hpass, watch_before_congr (s := s) (u := s.safeLeft ch more) rfl]
    exact (safeSetting_next (s := s.safeLeft ch more) hr rfl).symm
  · exact safeRelease_next hr (takeSafeEvent_absent hno)
  · exact safeRelease_next hr (takeSafeEvent_behind h (by decide) (by simp [SafeEvent.idleAt, h1, h2]))
  · have hidle : ∀ y : SafeEvent, y ≠ .release → y.idleAt (s.engine ch).state = true := by
      rintro (_ | _) hy
      · rcases hst with hst | hst <;> rw [hst] <;> rfl
      · exact absurd rfl hy
    have hpass := takeSafeEvent_passes (f := fun s => s.releaseAtEngine ch) h (by decide) hidle hm
    rw [safeRelease_next hr hpass]
    exact (safeRelease_next (s := s.safeLeft ch more) hr rfl).symm
  · obtain ⟨h1, h2, h3, h4⟩ := engineTakesTheRelease hr h
    exact ⟨h1, h2, fun hst hp => h3 hst (mt (headPassed_iff s ch).mp hp), fun hst hh hp => h4 hst hh ((headPassed_iff s ch).mpr hp)⟩

/-! ### RELEASE_SAFE (O30) -/

section ReleaseSafe

variable {s : State} {ch : Channel} {rq : Request} {rest : List Request}

theorem releaseSafe_line (h : s.safenSample = false) : s.releaseSafe = ((.lineAsserted, []), s) := if_pos h

theorem releaseSafe_clear (h : ¬ s.safenSample = false) (hl : s.latch = false) : s.releaseSafe = ((.ok, []), s) := by
  unfold State.releaseSafe
  rw [if_neg h, if_neg (by simp [hl])]
  rfl

theorem releaseSafe_set (h : ¬ s.safenSample = false) (hl : s.latch = true) : s.releaseSafe = ((.ok, []), s.settlePlans.clearLatch) := by
  unfold State.releaseSafe
  rw [if_neg h, if_pos hl]
  rfl

/-- RELEASE_SAFE on a request of its kind. -/
theorem releaseSafe_next (h : s.Carries rq rest) (hk : rq.kind = 0x51) (hfs : rq.fields = []) {st : Status} {fs : List Byte} {u : State}
    (hf : State.releaseSafe { s with rxQueue := rest } = ((st, fs), u)) : exec .releaseSafe s = .next (u.withReply rq st fs) :=
  request_answers (fun _ s => s.releaseSafe) 3 h hk (by rw [hfs]; rfl) hf

/-- With no forward load still to be taken, a head is passed whose start lies before device time (R47). -/
theorem headPassed_openLoads_nil (h : s.openLoads ch = []) : s.headPassed ch = true ↔
    ∃ i ∈ (s.plan ch).records.head?, ∃ q, s.record i = some q ∧ q.state = .planned ∧ q.start.toNat < s.deviceTime.toNat := by
  rw [headPassed_iff]
  have htime : s.planTime ch = s.deviceTime := by
    unfold State.planTime
    rw [h]
  rw [htime]
  refine exists_congr fun i => and_congr_right fun _ => exists_congr fun q => and_congr_right fun _ => and_congr_right fun _ => ?_
  exact and_iff_right_of_imp le_of_lt

theorem settled_iff (s : State) (ch : Channel) : s.Settled ch ↔ s.openLoads ch = [] ∧ (s.plan ch).settings = 0 ∧
    ¬ ∃ i ∈ (s.plan ch).records.head?, ∃ q, s.record i = some q ∧ q.state = .planned ∧ q.start.toNat < s.deviceTime.toNat := by
  constructor
  · rintro ⟨hl, hs, hp⟩
    exact ⟨hl, hs, fun h => by rw [(headPassed_openLoads_nil hl).mpr h] at hp; cases hp⟩
  · rintro ⟨hl, hs, hp⟩
    exact ⟨hl, hs, Bool.eq_false_iff.mpr (mt (headPassed_openLoads_nil hl).mp hp)⟩

/-- A plan's event that comes first in the settling of the plans comes first in RELEASE_SAFE (R47, log 32). -/
theorem releaseSafe_first {c : Instr} {v : State} (h : s.Carries rq rest) (hk : rq.kind = 0x51) (hfs : rq.fields = [])
    (hh : s.Held) (hline : ¬ s.safenSample = false) (hl : s.latch = true) (hlow : ∀ ch' < ch, s.Settled ch')
    (hc : exec c { s with rxQueue := rest } = .next v) (hv : State.MissesAt { s with rxQueue := rest } v ch)
    (hsettle : State.settlePlan { s with rxQueue := rest } ch = v.settlePlan ch) :
    ∃ u, exec c { s with rxQueue := rest } = .next u ∧ exec .releaseSafe s = exec .releaseSafe { u with rxQueue := rq :: rest } := by
  have hsame := hv.works.same
  have hplans : State.settlePlans { s with rxQueue := rest } = v.settlePlans :=
    settlePlans_first (s := { s with rxQueue := rest }) (hh.congr rfl rfl (fun _ => rfl) rfl fun _ => .refl _) hv (fun c hc => ⟨(hlow c hc).1, (hlow c hc).2, (hlow c hc).3⟩) hsettle
  have hrest : { v with rxQueue := rest } = v := by rw [hsame]
  have hcarries : State.Carries { v with rxQueue := rq :: rest } rq rest := by
    obtain ⟨h1, h2, h3, h4⟩ := h
    rw [hsame]
    exact ⟨h1, rfl, h3, h4⟩
  refine ⟨v, hc, ?_⟩
  rw [releaseSafe_next h hk hfs (releaseSafe_set (s := { s with rxQueue := rest }) hline hl),
    releaseSafe_next hcarries hk hfs (releaseSafe_set (s := { v with rxQueue := rest }) (by rw [hsame]; exact hline)
      (hv.works.latch.trans hl)), hplans, hrest]

end ReleaseSafe

theorem skippedSpanRule_next {s : State} (hr : s.inReset = false) (ch : Channel) :
    exec (.skippedSpanRule ch) s = .next (s.loadAtPlan ch) := by
  unfold exec
  exact whileRunning_running _ hr

theorem safeSettingAtPlan_next {s : State} (hr : s.inReset = false) (ch : Channel) :
    exec (.safeSettingAtPlan ch) s = .next (s.settingAtPlan ch) := by
  unfold exec
  exact whileRunning_running _ hr

/-- Settles O30: the line, the latch, and the first plan with something outstanding. -/
theorem releaseSafeAnswersInOrder : Obligations.ReleaseSafeAnswersInOrder := by
  unfold Obligations.ReleaseSafeAnswersInOrder
  intro s rq rest h hk hfs s1 asserted passed settled
  refine ⟨fun hline => ?_, fun hline hl => ?_, fun hline hl hall => ?_, fun ch hh hplans hline hl hlow => ?_⟩
  · exact releaseSafe_next h hk hfs (releaseSafe_line (s := s1) hline)
  · exact releaseSafe_next h hk hfs (releaseSafe_clear (s := s1) hline hl)
  · have hset : ∀ ch, s1.Settled ch := fun ch => (settled_iff s1 ch).mpr (hall ch)
    rw [releaseSafe_next h hk hfs (releaseSafe_set (s := s1) hline hl), settlePlans_settled hset]
    rfl
  · have hlow' : ∀ ch' < ch, s.Settled ch' := fun c hc => (settled_iff s c).mpr (hlow c hc)
    have hn : (s1.plan ch).records.Nodup := hh.planOnce ch
    have hb : s1.Barred ch := .inl hl
    have ho : ((s1.plan ch).records.map s1.startOf).Pairwise (· ≤ ·) := hplans.order ch
    refine ⟨fun hloads => ?_, fun hloads hs => ?_, fun hloads hs hp => ?_⟩
    · exact releaseSafe_first h hk hfs hh hline hl hlow' (skippedSpanRule_next (s := s1) h.running ch) (loadAtPlan_barred hn hb)
        (settlePlan_load (s := s1) hn hb hloads)
    · exact releaseSafe_first h hk hfs hh hline hl hlow' (safeSettingAtPlan_next (s := s1) h.running ch) (settingAtPlan_missesAt hn)
        (settlePlan_setting (s := s1) hn ho hloads hs)
    · exact releaseSafe_first h hk hfs hh hline hl hlow' (headDue_next (u := s1) h.running ch) (dueAtPlan_barred hn hb)
        (settlePlan_passed (s := s1) hn hb ho hloads hs ((headPassed_openLoads_nil (s := s1) hloads).mpr hp))

/-! ### The end of an open group (O31) -/

section GroupEnds

variable {s : State} {g : Group}

/-- The staged records of the open group freed as DISCARDED and the group closed (R110). -/
def State.discarded (s : State) (g : Group) : State := State.freedAll { s with group := none } .discarded g.staging

theorem discardGroup_eq_discarded (s : State) (g : Group) : s.discardGroup g = s.discarded g := by
  unfold State.discardGroup
  rw [freeAll_eq_freedAll]
  exact (freedAll_withGroup s none .discarded g.staging).symm

theorem expireGroup_eq (s : State) (g : Group) (cause : GroupCause) :
    s.expireGroup g cause = (s.discarded g).noticed (.groupExpired g.id g.staging.length cause) := by
  unfold State.expireGroup
  rw [discardGroup_eq_discarded, handOrdinary_eq_noticed]

theorem discarded_freeList (hh : s.Held) (hg : s.group = some g) : (s.discarded g).freeList = s.freeList ++ g.staging :=
  freedAll_freeList (s := { s with group := none }) _ _ (hh.stagedOnce g hg) fun i hi => by
    obtain ⟨r, hr, -⟩ := hh.staged_record hg hi
    exact ⟨r, hr⟩

/-- The watch after a discard tests the waits of the records' channels (R125). -/
theorem watch_discarded (hh : s.Held) (hg : s.group = some g) {t : State} (ht : t.freeList = (s.discarded g).freeList) :
    watch (s.maskOfRecords g.staging) s t = t.watched (s.channelsOf g.staging) :=
  watch_freed (by rw [ht, discarded_freeList hh hg]) (fun _ => names_maskOfRecords s g.staging) fun h => by rw [h]; rfl

theorem watch_expireGroup (hh : s.Held) (hg : s.group = some g) (cause : GroupCause) :
    watch (s.maskOfRecords g.staging) s (s.expireGroup g cause)
      = ((s.discarded g).noticed (.groupExpired g.id g.staging.length cause)).watched (s.channelsOf g.staging) := by
  rw [expireGroup_eq]
  exact watch_discarded hh hg (by rw [(noticed_addsReports _ _).same])

theorem watch_discardGroup (hh : s.Held) (hg : s.group = some g) :
    watch (s.maskOfRecords g.staging) s (s.discardGroup g) = (s.discarded g).watched (s.channelsOf g.staging) := by
  rw [discardGroup_eq_discarded]
  exact watch_discarded hh hg rfl

/-- What the expiry of the group timer changes: nothing without an open group whose timer is at 0. -/
def State.groupTimerExpired (s : State) : State :=
  match s.group with
  | none => s
  | some g => if g.timer = 0 then watch (s.maskOfRecords g.staging) s (s.expireGroup g .timeout) else s

theorem groupTimerExpired_due (hg : s.group = some g) (ht : g.timer = 0) :
    s.groupTimerExpired = watch (s.maskOfRecords g.staging) s (s.expireGroup g .timeout) := by
  unfold State.groupTimerExpired
  rw [hg]
  exact if_pos ht

theorem groupTimerExpired_early (h : ∀ g, s.group = some g → g.timer ≠ 0) : s.groupTimerExpired = s := by
  unfold State.groupTimerExpired
  cases hg : s.group with
  | none => rfl
  | some g => exact if_neg (h g hg)

end GroupEnds

/-- GROUP_ABORT with a group open (R110). -/
theorem groupAbort_open {s : State} {g : Group} (hh : s.Held) (hg : s.group = some g) :
    s.groupAbort = ((.ok, leBytes 1 g.staging.length), (s.discarded g).watched (s.channelsOf g.staging)) := by
  rw [← watch_discardGroup hh hg]
  unfold State.groupAbort
  rw [hg]

/-- Settles O31, by the open group, and for the two requests by their kind. -/
theorem groupExpiryAndAbortDiscardTheGroup : Obligations.GroupExpiryAndAbortDiscardTheGroup := by
  unfold Obligations.GroupExpiryAndAbortDiscardTheGroup
  refine ⟨fun s hr hh => ⟨fun g hg ht => ?_, fun h => ?_⟩, fun s rq rest h hfs => ⟨fun hg => ⟨fun hk => ?_, fun hk => ?_⟩, fun g hg hh hk => ?_⟩⟩
  · exact unwatched_next State.groupTimerExpired hr ((groupTimerExpired_due hg ht).trans (watch_expireGroup hh hg .timeout))
  · exact unwatched_next State.groupTimerExpired hr (groupTimerExpired_early h)
  · exact request_answers (fun _ s => s.groupAbort) 3 h hk (by rw [hfs]; rfl) (by unfold State.groupAbort; dsimp only; rw [hg]; rfl)
  · exact request_answers (fun _ s => s.groupCommit) 3 h hk (by rw [hfs]; rfl) (by unfold State.groupCommit; dsimp only; rw [hg]; rfl)
  · have hh' : State.Held { s with rxQueue := rest } := hh.congr rfl rfl (fun _ => rfl) rfl fun _ => .refl _
    have habort := groupAbort_open (s := { s with rxQueue := rest }) hh' hg
    exact ⟨_, request_answers (fun _ s => s.groupAbort) 3 h hk (by rw [hfs]; rfl) habort, rfl⟩

end Sys2Proof.Machine
end

section
/-!
PROOF. The Control Link: the retry timer (O32), the assembler (O33, O34), the CRC (O35), and the link reset (O36).
-/
namespace Sys2Proof.Machine

/-! ### The retry timer (O32) -/

/-- Settles O32. -/
theorem retryExpiryResendsOrStalls : Obligations.RetryExpiryResendsOrStalls := by
  unfold Obligations.RetryExpiryResendsOrStalls
  refine fun s hr => ⟨fun h => ?_, fun h => ?_⟩
  · exact unwatched_next (fun s => if s.retryTimer = some 0 then s.retryExpiry else s) hr (if_pos h)
  · exact unwatched_next (fun s => if s.retryTimer = some 0 then s.retryExpiry else s) hr (if_neg h)

/-! ### The assembler (O33) -/

section Assembler

variable {s : State} {b : Byte}

/-- The state with the assembler in another state, after a byte with a good stop bit. -/
def State.assembling (s : State) (asm : Assembler) : State := { s with asm := asm, lowSpan := false }

theorem assembling_self (h : s.asm = .hunt) : { s with lowSpan := false } = s.assembling .hunt := by
  unfold State.assembling
  rw [← h]

theorem takeByte_good (s : State) (b : Byte) :
    s.takeByte { value := b, stop := true } = State.takeGoodByte { s with lowSpan := false } b := rfl

theorem takeByte_start (h : s.asm = .hunt) : s.takeByte { value := 0xC5, stop := true } = s.assembling .length := by
  rw [takeByte_good]
  unfold State.takeGoodByte
  dsimp only
  rw [h]
  rfl

theorem takeByte_noise (h : s.asm = .hunt) (hb : b ≠ 0xC5) : s.takeByte { value := b, stop := true } = s.assembling .hunt := by
  rw [takeByte_good, ← assembling_self h]
  unfold State.takeGoodByte
  dsimp only
  rw [h]
  exact if_neg hb

theorem takeByte_length (h : s.asm = .length) (hb : 3 ≤ b.toNat ∧ b.toNat ≤ 128) :
    s.takeByte { value := b, stop := true } = s.assembling (.body b.toNat []) := by
  rw [takeByte_good]
  unfold State.takeGoodByte
  dsimp only
  rw [h]
  exact if_pos hb

theorem takeByte_badLength (h : s.asm = .length) (hb : ¬ (3 ≤ b.toNat ∧ b.toNat ≤ 128)) : s.takeByte { value := b, stop := true } =
    { s.assembling .hunt with counters := { s.counters with length := satInc s.counters.length } } := by
  rw [takeByte_good]
  unfold State.takeGoodByte
  dsimp only
  rw [h]
  exact if_neg hb

theorem takeByte_body {len : Nat} {stored : List Byte} (h : s.asm = .body len stored) (hl : stored.length + 1 < len) :
    s.takeByte { value := b, stop := true } = s.assembling (.body len (stored ++ [b])) := by
  rw [takeByte_good]
  unfold State.takeGoodByte
  dsimp only
  rw [h]
  exact if_neg (by rw [List.length_append, List.length_singleton]; omega)

theorem takeByte_bodyEnd {len : Nat} {stored : List Byte} (h : s.asm = .body len stored) (hl : len ≤ stored.length + 1) :
    s.takeByte { value := b, stop := true } = s.assembling (.check len (stored ++ [b]) none) := by
  rw [takeByte_good]
  unfold State.takeGoodByte
  dsimp only
  rw [h]
  exact if_pos (by rw [List.length_append, List.length_singleton]; exact hl)

theorem takeByte_checkLow {len : Nat} {body : List Byte} (h : s.asm = .check len body none) :
    s.takeByte { value := b, stop := true } = s.assembling (.check len body (some b)) := by
  rw [takeByte_good]
  unfold State.takeGoodByte
  dsimp only
  rw [h]
  rfl

theorem takeByte_checkHigh {len : Nat} {body : List Byte} {lo : Byte} (h : s.asm = .check len body (some lo)) :
    s.takeByte { value := b, stop := true } = State.checkFrame { s with lowSpan := false } len body lo b := by
  rw [takeByte_good]
  unfold State.takeGoodByte
  dsimp only
  rw [h]

theorem gapRunning_iff (asm : Assembler) : asm.gapRunning = true ↔ asm ≠ .hunt := by
  cases asm <;> simp [Assembler.gapRunning]

theorem takeByte_inReset (s : State) (rx : RxByte) : (s.takeByte rx).inReset = s.inReset := by
  rw [(takeByte_links s rx).same]

end Assembler

/-- BYTE_RECEIVED, by what the assembler makes of the byte. -/
theorem byteReceived_next {s u : State} {rx : RxByte} (hr : s.inReset = false) (h : s.takeByte rx = u) :
    exec (.byteReceived rx) s = .next u := unwatched_next (State.takeByte · rx) hr h

theorem requestFrameReceived_next {s : State} (hr : s.inReset = false) (bs : List RxByte) :
    exec (.requestFrameReceived bs) s = .next (bs.foldl State.takeByte s) := unwatched_next (bs.foldl State.takeByte ·) hr rfl

/-- In reset no byte is taken (R186). -/
theorem link_inReset {s : State} (hr : s.inReset = true) (rx : RxByte) (bs : List RxByte) :
    exec (.byteReceived rx) s = .next s ∧ exec (.requestFrameReceived bs) s = .next s := by
  constructor
  · unfold exec
    exact whileRunning_held _ hr
  · unfold exec
    exact whileRunning_held _ hr

/-- Settles O33: one equation for each state of the assembler. -/
theorem theAssemblerTakesBytes : Obligations.TheAssemblerTakesBytes := by
  unfold Obligations.TheAssemblerTakesBytes
  refine ⟨fun s b hr => ?_, fun s b bs => ?_⟩
  · dsimp only
    refine ⟨fun h hb => byteReceived_next hr (hb ▸ takeByte_start h), fun h hb => byteReceived_next hr (takeByte_noise h hb),
      fun h h1 h2 => byteReceived_next hr (takeByte_length h ⟨h1, h2⟩),
      fun h hb => byteReceived_next hr (takeByte_badLength h (by omega)),
      fun len stored h hl => byteReceived_next hr (takeByte_body h hl),
      fun len stored h hl => byteReceived_next hr (takeByte_bodyEnd h hl),
      fun len body h => byteReceived_next hr (takeByte_checkLow h), byteReceived_next hr rfl, fun h => ?_, fun h => ?_⟩
    · exact unwatched_next (fun s => if s.asm.gapRunning then s.discardFrame fun c => { c with gap := satInc c.gap } else s) hr
        (if_pos ((gapRunning_iff _).mpr h))
    · exact unwatched_next (fun s => if s.asm.gapRunning then s.discardFrame fun c => { c with gap := satInc c.gap } else s) hr
        (if_neg (by rw [h]; decide))
  · cases hr : s.inReset with
    | false =>
      refine ⟨_, byteReceived_next hr rfl, ?_, requestFrameReceived_next hr []⟩
      rw [requestFrameReceived_next hr, requestFrameReceived_next ((takeByte_inReset s b).trans hr)]
      rfl
    | true =>
      have hnone := link_inReset hr b
      exact ⟨s, (hnone bs).1, by rw [(hnone (b :: bs)).2, (hnone bs).2], (hnone []).2⟩

/-! ### A frame (O34) -/

section Frame

variable {s : State}

/-- The bytes of a frame on the line, each with a good stop bit. -/
def goodBytes (bs : List Byte) : List RxByte := bs.map fun b => { value := b, stop := true }

theorem assembling_assembling (s : State) (a a' : Assembler) : (s.assembling a).assembling a' = s.assembling a' := rfl

/-- The body of a frame is stored byte by byte (R164). -/
theorem takeBytes_body {len : Nat} : ∀ (bs stored : List Byte), bs ≠ [] → stored.length + bs.length = len →
    (goodBytes bs).foldl State.takeByte (s.assembling (.body len stored)) = s.assembling (.check len (stored ++ bs) none)
  | [], _, hne, _ => absurd rfl hne
  | [b], stored, _, hlen => takeByte_bodyEnd (s := s.assembling (.body len stored)) rfl (by rw [← hlen]; exact le_refl _)
  | b :: b' :: bs, stored, _, hlen => by
    have hlen' : (stored ++ [b]).length + (b' :: bs).length = len := by
      simp only [List.length_append, List.length_cons, List.length_nil] at hlen ⊢
      omega
    have hfirst := takeByte_body (s := s.assembling (.body len stored)) (b := b) rfl
      (by simp only [List.length_cons] at hlen; omega)
    have hrest := takeBytes_body (b' :: bs) (stored ++ [b]) (List.cons_ne_nil _ _) hlen'
    rw [List.append_assoc] at hrest
    exact (congrArg (List.foldl State.takeByte · (goodBytes (b' :: bs))) hfirst).trans hrest

theorem toNat_ofNat_length {n : Nat} (h : n ≤ 128) : (BitVec.ofNat 8 n).toNat = n := by
  rw [BitVec.toNat_ofNat, Nat.mod_eq_of_lt (by omega)]

/-- A whole frame from HUNT is examined at its second CRC byte (R164). -/
theorem takeBytes_frame {body : List Byte} (h : s.asm = .hunt) (h3 : 3 ≤ body.length) (h128 : body.length ≤ 128) (lo hi : Byte) :
    (goodBytes (0xC5 :: BitVec.ofNat 8 body.length :: body ++ [lo, hi])).foldl State.takeByte s
      = (s.assembling (.check body.length body (some lo))).checkFrame body.length body lo hi := by
  have hlen := toNat_ofNat_length h128
  have hne : body ≠ [] := by
    rintro rfl
    simp at h3
  have h1 := takeByte_start h
  have h2 := takeByte_length (s := s.assembling .length) (b := BitVec.ofNat 8 body.length) rfl (by rw [hlen]; exact ⟨h3, h128⟩)
  have h3 := takeBytes_body (s := s) body [] hne (Nat.zero_add _)
  have h4 := takeByte_checkLow (s := s.assembling (.check body.length body none)) (b := lo) rfl
  have h5 := takeByte_checkHigh (s := s.assembling (.check body.length body (some lo))) (b := hi) rfl
  rw [hlen] at h2
  unfold goodBytes at h3 ⊢
  rw [List.cons_append, List.cons_append, List.map_cons, List.map_cons, List.map_append, List.foldl_cons, h1, List.foldl_cons, h2,
    List.foldl_append]
  rw [assembling_assembling, h3]
  exact (congrArg (State.takeByte · { value := hi, stop := true }) h4).trans h5

/-- The two bytes of a 16-bit word, low byte first. -/
theorem leBytes_word (x : BitVec 16) : leBytes 2 x.toNat = [x.setWidth 8, (x >>> 8).setWidth 8] := by
  have hlow : BitVec.ofNat 8 x.toNat = x.setWidth 8 := BitVec.eq_of_toNat_eq (by simp)
  have hhigh : BitVec.ofNat 8 (x.toNat / 256) = (x >>> 8).setWidth 8 :=
    BitVec.eq_of_toNat_eq (by simp [Nat.shiftRight_eq_div_pow])
  simp only [leBytes, hlow, hhigh]

/-- The CRC of a frame, over LEN and the body. -/
def bodyCrc (body : List Byte) : BitVec 16 := crcOf (BitVec.ofNat 8 body.length :: body)

theorem checkFrame_bad {u : State} {body : List Byte} {lo hi : Byte}
    (h : ¬ (lo = (bodyCrc body).setWidth 8 ∧ hi = (bodyCrc body >>> 8).setWidth 8)) :
    u.checkFrame body.length body lo hi = u.discardFrame fun c => { c with crc := satInc c.crc } := by
  unfold State.checkFrame
  refine if_neg fun k => h ?_
  rw [leBytes_word] at k
  cases k
  exact ⟨rfl, rfl⟩

theorem checkFrame_good (u : State) (body : List Byte) :
    u.checkFrame body.length body ((bodyCrc body).setWidth 8) ((bodyCrc body >>> 8).setWidth 8) = { u with asm := .hunt }.takeFrame body :=
  if_pos (leBytes_word _)

section Taken

variable {ty seq kind : Byte} {fields : List Byte}

theorem takeFrame_stray (h : ty ≠ 0x51) : s.takeFrame (ty :: seq :: kind :: fields)
    = { s with counters := { s.counters with strayType := satInc s.counters.strayType } } := if_pos h

theorem takeFrame_duplicate (h : ty = 0x51) (hs : seq ≠ 0) (hq : ∃ q ∈ s.rxQueue, q.seq = seq) :
    s.takeFrame (ty :: seq :: kind :: fields) = s :=
  (if_neg (not_not.mpr h)).trans (if_pos ⟨hs, by simpa using hq⟩)

theorem not_duplicate (hs : seq = 0 ∨ ∀ q ∈ s.rxQueue, q.seq ≠ seq) : ¬ (seq ≠ 0 ∧ (s.rxQueue.any (·.seq = seq)) = true) := by
  rintro ⟨h0, hany⟩
  obtain ⟨q, hq, hseq⟩ := List.any_eq_true.mp hany
  exact (hs.resolve_left h0) q hq (by simpa using hseq)

theorem takeFrame_overflow (h : ty = 0x51) (hs : seq = 0 ∨ ∀ q ∈ s.rxQueue, q.seq ≠ seq) (hl : 4 ≤ s.rxQueue.length) :
    s.takeFrame (ty :: seq :: kind :: fields) = { s with counters := { s.counters with overflow := satInc s.counters.overflow } } :=
  (if_neg (not_not.mpr h)).trans ((if_neg (not_duplicate hs)).trans (if_pos hl))

theorem takeFrame_appends (h : ty = 0x51) (hs : seq = 0 ∨ ∀ q ∈ s.rxQueue, q.seq ≠ seq) (hl : s.rxQueue.length < 4) :
    s.takeFrame (ty :: seq :: kind :: fields) = s.appendRequest { seq := seq, kind := kind, fields := fields } :=
  (if_neg (not_not.mpr h)).trans ((if_neg (not_duplicate hs)).trans (if_neg (Nat.not_le.mpr hl)))

end Taken

end Frame

/-- Settles O34: the frame reaches its check, and a good one is examined in the order of R166. -/
theorem requestFrameIsExaminedInOrder : Obligations.RequestFrameIsExaminedInOrder := by
  unfold Obligations.RequestFrameIsExaminedInOrder
  intro s body hr hasm h3 h128 frame crc s1
  have hframe : ∀ lo hi, exec (frame lo hi) s =
      .next ((s.assembling (.check body.length body (some lo))).checkFrame body.length body lo hi) := fun lo hi =>
    (requestFrameReceived_next hr _).trans (congrArg Host.Outcome.next (takeBytes_frame hasm h3 h128 lo hi))
  have hs1 : s.assembling .hunt = s1 := (assembling_self hasm).symm
  have hgood : exec (frame (crc.setWidth 8) ((crc >>> 8).setWidth 8)) s = .next (s1.takeFrame body) := by
    rw [hframe]
    refine congrArg Host.Outcome.next ((checkFrame_good _ body).trans ?_)
    rw [← hs1]
    rfl
  refine ⟨fun lo hi hbad => ?_, fun ty seq kind fields hbody => ?_⟩
  · rw [hframe, checkFrame_bad hbad, ← hs1]
    rfl
  · rw [hbody] at hgood
    exact ⟨fun ht => hgood.trans (congrArg _ (takeFrame_stray ht)),
      fun ht hs hq => hgood.trans (congrArg _ (takeFrame_duplicate (s := s1) ht hs hq)),
      fun ht hs hl => hgood.trans (congrArg _ (takeFrame_overflow (s := s1) ht hs hl)),
      fun ht hs hl => hgood.trans (congrArg _ (takeFrame_appends (s := s1) ht hs hl))⟩

/-! ### The CRC (O35) -/

/-- Settles O35, by evaluating the 72 steps of the register. -/
theorem crcOfTheCheckBytes : Obligations.CrcOfTheCheckBytes := by
  unfold Obligations.CrcOfTheCheckBytes
  decide +kernel

/-! ### The link reset (O36) -/

section LinkReset

variable {s : State} {g : Group}

/-- The link and the Notice Queue as a link reset leaves them (R158, R168). -/
def State.linkFresh (s : State) : State := s.linkCleared.noticesAtLinkReset

theorem linkReset_noGroup (h : s.group = none) : s.linkReset = s.linkFresh := by
  unfold State.linkReset
  change (match s.linkFresh.group with
    | none => s.linkFresh
    | some g => watch (s.linkFresh.maskOfRecords g.staging) s.linkFresh (s.linkFresh.expireGroup g .link)) = _
  rw [show s.linkFresh.group = none from h]

theorem linkReset_group (h : s.group = some g) :
    s.linkReset = watch (s.linkFresh.maskOfRecords g.staging) s.linkFresh (s.linkFresh.expireGroup g .link) := by
  unfold State.linkReset
  change (match s.linkFresh.group with
    | none => s.linkFresh
    | some g => watch (s.linkFresh.maskOfRecords g.staging) s.linkFresh (s.linkFresh.expireGroup g .link)) = _
  rw [show s.linkFresh.group = some g from h]

end LinkReset

/-- Settles O36: an open group is discarded from the cleared link on. -/
theorem linkResetClearsTheLink : Obligations.LinkResetClearsTheLink := by
  unfold Obligations.LinkResetClearsTheLink
  intro s hr s1
  refine ⟨fun hl => ?_, fun hl hg => ?_, fun g hl hg hh => ?_⟩
  · exact unwatched_next (fun s => if s.lowSpan then s.linkReset else s) hr (if_neg (by simp [hl]))
  · exact unwatched_next (fun s => if s.lowSpan then s.linkReset else s) hr ((if_pos hl).trans (linkReset_noGroup hg))
  · have hh1 : s.linkFresh.Held := hh.congr rfl rfl (fun _ => rfl) rfl fun _ => .refl _
    have hreset := (linkReset_group hg).trans (watch_expireGroup hh1 hg .link)
    exact unwatched_next (fun s => if s.lowSpan then s.linkReset else s) hr ((if_pos hl).trans hreset)

end Sys2Proof.Machine
end

section
/-!
PROOF. The transmit arbiter, the pins of the link, and the bytes of frames (O37).
-/
namespace Sys2Proof.Machine

/-! ### Bytes -/

/-- The byte of a word at a bit position, from the number that the word holds. -/
theorem ofNat_shifted {w : Nat} (x : BitVec w) (k : Nat) : BitVec.ofNat 8 (x.toNat / 2 ^ k) = (x >>> k).setWidth 8 :=
  BitVec.eq_of_toNat_eq (by simp [Nat.shiftRight_eq_div_pow])

theorem leBytes_time (x : Time) : leBytes 6 x.toNat = [x.setWidth 8, (x >>> 8).setWidth 8, (x >>> 16).setWidth 8,
    (x >>> 24).setWidth 8, (x >>> 32).setWidth 8, (x >>> 40).setWidth 8] := by
  have h0 : BitVec.ofNat 8 x.toNat = x.setWidth 8 := BitVec.eq_of_toNat_eq (by simp)
  simp only [← ofNat_shifted, ← h0, leBytes, Nat.div_div_eq_div_mul]
  rfl

/-- The frame of a body, with the CRC low byte first (R162, R163). -/
theorem frameOf_eq (body : List Byte) : frameOf body = 0xC5 :: BitVec.ofNat 8 body.length :: body
    ++ [(bodyCrc body).setWidth 8, (bodyCrc body >>> 8).setWidth 8] := by
  unfold frameOf
  rw [leBytes_word]
  rfl

theorem handleBytes_eq (h : Option Handle) : handleBytes h = leBytes 2 (h.getD 0).toNat := by
  cases h with
  | none => rfl
  | some h => rfl

/-- Two flags in one byte. -/
theorem flagByte_two (a b : Bool) : flagByte [a, b] = flagBit a + 2 * flagBit b := by
  revert a b
  decide

/-! ### The arbiter -/

section Arbiter

variable {s : State}

theorem replySend_begins (hr : s.inReset = false) {r : Reply} {rest : List Reply} (ht : s.tx = none) (h : s.replies = r :: rest) :
    exec .replySend s = .next (s.beginReply r rest) := by
  unfold exec
  refine (whileRunning_running _ hr).trans ?_
  rw [ht, h]

/-- With a frame on the line, or without a reply, REPLY_SEND does nothing. -/
theorem replySend_nothing (hr : s.inReset = false) (h : s.tx ≠ none ∨ s.replies = []) : exec .replySend s = .next s := by
  unfold exec
  refine (whileRunning_running _ hr).trans (congrArg Host.Outcome.next ?_)
  split
  · next r rest htx hrep =>
    rcases h with h | h
    · exact absurd htx h
    · rw [h] at hrep; cases hrep
  · rfl

theorem noticeSend_begins (hr : s.inReset = false) {n : Notice} (ht : s.tx = none) (h : s.replies = []) (ho : s.offered = some n) :
    exec .noticeSend s = .next (s.beginNotice n) := by
  unfold exec
  refine (whileRunning_running _ hr).trans ?_
  rw [ht, h, ho]

theorem noticeSend_nothing (hr : s.inReset = false) (h : s.tx ≠ none ∨ s.replies ≠ [] ∨ s.offered = none) :
    exec .noticeSend s = .next s := by
  unfold exec
  refine (whileRunning_running _ hr).trans (congrArg Host.Outcome.next ?_)
  split
  · next n htx hrep ho =>
    rcases h with h | h | h
    · exact absurd htx h
    · exact absurd hrep h
    · rw [h] at ho; cases ho
  · rfl

theorem sentCount_eq (s : State) : s.sentCount = (s.notices.filter (·.sent)).length := List.countP_eq_length_filter

/-- The oldest unsent notice is offered under the conditions of R151. -/
theorem offered_front {sent later : List Notice} {n : Notice} (hopen : s.linkOpen = true) (hstall : s.stall = false)
    (h : s.notices = sent ++ n :: later) (hsent : ∀ x ∈ sent, x.sent = true) (hn : n.sent = false)
    (hw : (s.notices.filter (·.sent)).length < 4) : s.offered = some n := by
  unfold State.offered
  rw [if_pos (by rw [sentCount_eq, hopen, hstall, decide_eq_true (show _ < Config.windowCap from hw)]; rfl), h, List.find?_append,
    List.find?_eq_none.mpr (fun x hx => by simp [hsent x hx])]
  simp [hn]

/-- Nothing is offered where one of the conditions of R151 fails. -/
theorem offered_none (h : s.linkOpen = false ∨ s.stall = true ∨ 4 ≤ (s.notices.filter (·.sent)).length ∨
    ∀ n ∈ s.notices, n.sent = true) : s.offered = none := by
  unfold State.offered
  split
  · next hc =>
    simp only [Bool.and_eq_true, Bool.not_eq_true', decide_eq_true_eq, sentCount_eq] at hc
    obtain ⟨⟨hopen, hstall⟩, hw⟩ := hc
    have hw : (s.notices.filter (·.sent)).length < 4 := hw
    rcases h with h | h | h | h
    · rw [h] at hopen; cases hopen
    · rw [h] at hstall; cases hstall
    · omega
    · exact List.find?_eq_none.mpr fun x hx => by simp [h x hx]
  · rfl

theorem markOldestUnsent_front {sent later : List Notice} {n : Notice} (hsent : ∀ x ∈ sent, x.sent = true) (hn : n.sent = false) :
    markOldestUnsent (sent ++ n :: later) = sent ++ { n with sent := true } :: later := by
  induction sent with
  | nil =>
    rw [List.nil_append, markOldestUnsent, if_neg (by simp [hn])]
    rfl
  | cons x sent ih =>
    rw [List.cons_append, markOldestUnsent, if_pos (hsent x List.mem_cons_self), ih fun y hy => hsent y (List.mem_cons_of_mem _ hy)]
    rfl

theorem sentCount_zero_iff (s : State) : s.sentCount = 0 ↔ ∀ x ∈ s.notices, x.sent = false := by
  unfold State.sentCount
  simp only [List.countP_eq_zero, Bool.not_eq_true]

/-- The end of a frame: the arbiter chooses again on the free line (R173). -/
theorem frameTransmitted_next (hr : s.inReset = false) (h : s.tx ≠ none) :
    exec .frameTransmitted s = .next (State.arbiterChoice { s with tx := none }) :=
  unwatched_next (fun s => if s.tx.isSome then { s with tx := none }.arbiterChoice else s) hr
    (if_pos (Option.isSome_iff_ne_none.mpr h))

theorem arbiterChoice_exec {u : State} (hr : u.inReset = false) (ht : u.tx = none) :
    exec (if u.replies = [] then .noticeSend else .replySend) u = .next u.arbiterChoice := by
  unfold State.arbiterChoice
  cases hrep : u.replies with
  | cons r rest =>
    rw [if_neg (List.cons_ne_nil _ _)]
    exact replySend_begins hr ht hrep
  | nil =>
    rw [if_pos rfl]
    cases ho : u.offered with
    | none => exact noticeSend_nothing hr (.inr (.inr ho))
    | some n => exact noticeSend_begins hr ht hrep ho

end Arbiter

theorem charBits_eq (b : Byte) : charBits b = [false, b.getLsbD 0, b.getLsbD 1, b.getLsbD 2, b.getLsbD 3, b.getLsbD 4, b.getLsbD 5,
    b.getLsbD 6, b.getLsbD 7, true] := rfl

/-! ### The obligation -/

/-- The arbiter's part of O37. -/
theorem arbiter_chooses {s : State} (hr : s.inReset = false) :
    (∀ r rest, s.tx = none → s.replies = r :: rest → exec .replySend s = .next { s with
      replies := rest, tx := some (frameOf ([0x52, r.seq, r.kind, statusCode r.status] ++ r.fields)) }) ∧
    (s.tx ≠ none ∨ s.replies = [] → exec .replySend s = .next s) ∧
    (∀ sent n later, s.tx = none → s.replies = [] → s.linkOpen = true → s.stall = false →
      s.notices = sent ++ n :: later → (∀ x ∈ sent, x.sent = true) → n.sent = false →
      (s.notices.filter (·.sent)).length < 4 →
      exec .noticeSend s = .next { s with
        notices := sent ++ { n with sent := true } :: later
        tx := some (frameOf (0x53 :: leBytes 2 n.number ++ noticeKindBytes n.body))
        retryTimer := if ∀ x ∈ s.notices, x.sent = false then some (s.retryTime * 1000) else s.retryTimer }) ∧
    (s.tx ≠ none ∨ s.replies ≠ [] ∨ s.linkOpen = false ∨ s.stall = true ∨ 4 ≤ (s.notices.filter (·.sent)).length ∨
      (∀ n ∈ s.notices, n.sent = true) → exec .noticeSend s = .next s) ∧
    (s.tx ≠ none → exec .frameTransmitted s
      = exec (if s.replies = [] then .noticeSend else .replySend) { s with tx := none }) ∧
    (s.tx = none → exec .frameTransmitted s = .next s) := by
  refine ⟨fun r rest ht h => replySend_begins hr ht h, replySend_nothing hr, fun sent n later ht h hopen hstall hn hsent hu hw => ?_,
    fun h => noticeSend_nothing hr (h.imp id (Or.imp id offered_none)), fun h => ?_, fun h => ?_⟩
  · rw [noticeSend_begins hr ht h (offered_front hopen hstall hn hsent hu hw), beginNotice_eq]
    simp only [sentCount_zero_iff]
    rw [hn, markOldestUnsent_front hsent hu]
    rfl
  · rw [frameTransmitted_next hr h]
    exact (arbiterChoice_exec (u := { s with tx := none }) hr rfl).symm
  · exact unwatched_next (fun s => if s.tx.isSome then { s with tx := none }.arbiterChoice else s) hr (if_neg (by simp [h]))

/-- The two pins that the link drives (R157, R161). -/
theorem linkPins (s : State) : (s.attn = true ↔ s.notices ≠ []) ∧ (s.tx = none → s.txd = [true]) ∧
    (∀ bytes, s.tx = some bytes → s.txd = bytes.flatMap charBits) := by
  refine ⟨?_, fun h => ?_, fun bytes h => ?_⟩
  · unfold State.attn
    simp
  · unfold State.txd
    rw [h]
  · unfold State.txd
    rw [h]

/-- Settles O37: the arbiter, the pins, and the bytes of frames, which are the clauses of their definitions. -/
theorem theArbiterSendsRepliesThenNotices : Obligations.TheArbiterSendsRepliesThenNotices := by
  unfold Obligations.TheArbiterSendsRepliesThenNotices
  intro frame
  have hframe : frameOf = frame := funext frameOf_eq
  refine ⟨fun s hr => hframe ▸ arbiter_chooses hr, linkPins, by decide, by decide, fun n _ => rfl, leBytes_time, ?notices⟩
  case notices =>
    intro bit ended channel done
    have hended : endedBytes = ended := funext fun b => by
      unfold endedBytes endedFlags
      rw [flagByte_two]
      rfl
    have hchannel : captureBytes = channel := funext fun c => by
      unfold captureBytes captureFlags
      rw [flagByte_two, handleBytes_eq]
      rfl
    rw [← hended, ← hchannel]
    refine ⟨fun _ => rfl, fun _ _ _ => rfl, ?_, fun _ _ _ _ => rfl, ?_, ?_, ?_, ?_, fun _ _ => rfl, ?_⟩
    · intro tag res v pol before after
      cases pol <;> simp [noticeKindBytes, doneBytes, done, timeBytes, tagKindCode, syncPolarityCode]
    · intro tag res mask asked now late records
      simp [noticeKindBytes, doneBytes, done, timeBytes, tagKindCode, flagBit, bit]
    · intro tag res mask asked now
      simp [noticeKindBytes, doneBytes, done, timeBytes, tagKindCode]
    · intro id count cause
      cases cause <;> rfl
    · intro cause now mask
      cases cause <;> rfl
    · intro cause now latch
      cases cause <;> rfl

end Sys2Proof.Machine
end

section
/-!
PROOF. How the head of the Receive Queue is taken: by the command of its kind, with the length of its kind (O38), and not where the
cache answers it or no kind is defined (O39).
-/
namespace Sys2Proof.Machine

/-! ### Commands that take a request of one kind -/

/-- The command takes a request of this kind only, and none that the cache answers (R171, log 4). -/
def TakesKind (c : Instr) (kind : Byte) : Prop :=
  ∃ (p : State → Request → Bool) (f : State → Request → State),
    (∀ s rq, p s rq = true → rq.kind = kind ∧ s.cached rq = none) ∧
    ∀ s, exec c s = whileRunning (fun s => s.takeHead (p s) f) s

theorem isKind_spec {s : State} {kind : Byte} {rq : Request} (h : s.isKind kind rq = true) : rq.kind = kind ∧ s.cached rq = none := by
  unfold State.isKind at h
  simpa using h

theorem takesKind_request {c : Instr} {kind : Byte} (len : Nat) (h : List Byte → State → Response × State)
    (hc : ∀ s, exec c s = whileRunning (fun s => s.takeRequest kind len h) s) : TakesKind c kind :=
  ⟨fun s => s.isKind kind, carryOut len h, fun _ _ => isKind_spec, hc⟩

/-- The head stays where it is none that the command accepts, or the Reply Queue is full. -/
theorem takeHead_skips {s : State} {p : Request → Bool} {f : State → Request → State}
    (h : s.rxQueue = [] ∨ 4 ≤ s.replies.length ∨ ∀ rq ∈ s.rxQueue.head?, ¬ p rq = true) : s.takeHead p f = s := by
  unfold State.takeHead
  split
  · rfl
  · next rq rest hq =>
    refine if_neg fun ⟨hroom, hp⟩ => ?_
    rcases h with h | h | h
    · rw [hq] at h; cases h
    · exact absurd hroom (Nat.not_lt.mpr h)
    · exact h rq (by rw [hq]; rfl) hp

/-- In reset no command takes a request (R186). -/
theorem whileRunning_same {s : State} {f : State → State} (h : s.inReset = false → f s = s) : whileRunning f s = .next s := by
  cases hr : s.inReset with
  | true => exact whileRunning_held _ hr
  | false => rw [whileRunning_running _ hr, h hr]

/-- A command of another kind, or on a request that the cache answers, does nothing (log 4). -/
theorem takesKind_skips {c : Instr} {kind : Byte} (hc : TakesKind c kind) {s : State}
    (h : s.rxQueue = [] ∨ 4 ≤ s.replies.length ∨ ∀ rq ∈ s.rxQueue.head?, rq.kind ≠ kind ∨ s.cached rq ≠ none) :
    exec c s = .next s := by
  obtain ⟨p, f, hp, he⟩ := hc
  rw [he]
  refine whileRunning_same fun _ => takeHead_skips (h.imp id (Or.imp id fun h rq hrq hacc => ?_))
  obtain ⟨hk, hcache⟩ := hp s rq hacc
  exact (h rq hrq).elim (· hk) (· hcache)

/-- The request commands with their kinds (section 11.2). -/
def requestKinds : List (Instr × Byte) :=
  [(.identify, 0x01), (.readStatus, 0x02), (.readTime, 0x03), (.setGlobal, 0x04), (.setChannel, 0x05),
    (.readConfig, 0x06), (.schedule, 0x10), (.stagingSchedule, 0x10), (.cancel, 0x11), (.cancelChannel, 0x12),
    (.queryAction, 0x13), (.queryChannel, 0x14), (.groupBegin, 0x20), (.groupCommit, 0x21), (.groupAbort, 0x22),
    (.snapshot, 0x30), (.waitIdle, 0x31), (.armSync, 0x32), (.cancelTag, 0x33), (.noticeAck, 0x40), (.enterSafe, 0x50),
    (.releaseSafe, 0x51), (.restart, 0x7F)]

theorem takesKind_schedule : TakesKind .schedule 0x10 :=
  ⟨fun s rq => s.isKind 0x10 rq && !isStaging rq, carryOut 32 fun fs s => s.doSchedule fs,
    fun _ _ h => isKind_spec (Bool.and_eq_true_iff.mp h).1, fun _ => rfl⟩

theorem takesKind_stagingSchedule : TakesKind .stagingSchedule 0x10 :=
  ⟨fun s rq => s.isKind 0x10 rq && isStaging rq, carryOut 32 fun fs s => s.doSchedule fs,
    fun _ _ h => isKind_spec (Bool.and_eq_true_iff.mp h).1, fun _ => rfl⟩

theorem takesKind_restart : TakesKind .restart 0x7F :=
  ⟨fun s => s.isKind 0x7F,
    fun s rq => if rq.fields.length + 3 = 3 then (s.answer rq (bare .ok)).restartBlocks else s.answer rq (bare .badLength),
    fun _ _ => isKind_spec, fun _ => rfl⟩

theorem requestKinds_take : ∀ p ∈ requestKinds, TakesKind p.1 p.2 := by
  unfold requestKinds
  simp only [List.forall_mem_cons]
  exact ⟨takesKind_request 3 _ fun _ => rfl, takesKind_request 4 (fun fs s => s.readStatus fs) fun _ => rfl,
    takesKind_request 3 _ fun _ => rfl, takesKind_request 16 (fun fs s => s.setGlobal fs) fun _ => rfl,
    takesKind_request 8 (fun fs s => s.setChannel fs) fun _ => rfl, takesKind_request 3 _ fun _ => rfl,
    takesKind_schedule, takesKind_stagingSchedule, takesKind_request 5 (fun fs s => s.doCancel fs) fun _ => rfl,
    takesKind_request 5 (fun fs s => s.doCancelChannel fs) fun _ => rfl, takesKind_request 5 _ fun _ => rfl,
    takesKind_request 5 (fun fs s => s.queryChannel fs) fun _ => rfl, takesKind_request 5 (fun fs s => s.groupBegin fs) fun _ => rfl,
    takesKind_request 3 (fun _ s => s.groupCommit) fun _ => rfl, takesKind_request 3 (fun _ s => s.groupAbort) fun _ => rfl,
    takesKind_request 10 (fun fs s => s.doSnapshot fs) fun _ => rfl, takesKind_request 4 (fun fs s => s.waitIdle fs) fun _ => rfl,
    takesKind_request 10 (fun fs s => s.armSync fs) fun _ => rfl, takesKind_request 4 (fun fs s => s.doCancelTag fs) fun _ => rfl,
    takesKind_request 5 (fun fs s => s.noticeAck fs) fun _ => rfl, takesKind_request 3 _ fun _ => rfl,
    takesKind_request 3 (fun _ s => s.releaseSafe) fun _ => rfl, takesKind_restart, fun _ h => absurd h List.not_mem_nil⟩

/-! ### The length of a request (R177) -/

/-- The command answers a request of its kind and of another length BAD_LENGTH, and no block sees it (R171 step 3). -/
def RefusesLength (c : Instr) (kind : Byte) (len : Nat) : Prop :=
  ∀ (s : State) (rq : Request) (rest : List Request), s.Carries rq rest → rq.kind = kind → rq.fields.length + 3 ≠ len →
    exec c s = .next (State.withReply { s with rxQueue := rest } rq .badLength [])

theorem refusesLength_request {c : Instr} {kind : Byte} {len : Nat} (h : List Byte → State → Response × State)
    (hc : ∀ s, exec c s = whileRunning (fun s => s.takeRequest kind len h) s) : RefusesLength c kind len :=
  fun s _ _ hcarries hk hl => (hc s).trans (request_badLength hcarries hk hl h)

/-- A SCHEDULE of another length has no group flag, and is answered by SCHEDULE. -/
theorem refusesLength_schedule : RefusesLength .schedule 0x10 32 := by
  intro s rq rest h hk hl
  have hstaging : isStaging rq = false := by
    unfold isStaging
    rw [decide_eq_false (show rq.fields.length ≠ 29 by omega), Bool.false_and]
  have hp : (s.isKind 0x10 rq && !isStaging rq) = true := by
    rw [hstaging, ← hk, isKind_of_carries h]
    rfl
  unfold exec
  refine (whileRunning_running _ h.running).trans (congrArg Host.Outcome.next ?_)
  rw [takeHead_of_carries h hp, carryOut, if_neg hl, answer_eq_withReply]
  rfl

theorem refusesLength_restart : RefusesLength .restart 0x7F 3 := by
  intro s rq rest h hk hl
  unfold exec
  refine (whileRunning_running _ h.running).trans (congrArg Host.Outcome.next ?_)
  rw [takeHead_of_carries h (by rw [← hk]; exact isKind_of_carries h), if_neg hl, answer_eq_withReply]
  rfl

/-- The request commands with their kinds and the length of each (section 11.2). -/
def requestLengths : List (Instr × Byte × Nat) :=
  [(.identify, 0x01, 3), (.readStatus, 0x02, 4), (.readTime, 0x03, 3), (.setGlobal, 0x04, 16),
    (.setChannel, 0x05, 8), (.readConfig, 0x06, 3), (.schedule, 0x10, 32), (.cancel, 0x11, 5), (.cancelChannel, 0x12, 5),
    (.queryAction, 0x13, 5), (.queryChannel, 0x14, 5), (.groupBegin, 0x20, 5), (.groupCommit, 0x21, 3),
    (.groupAbort, 0x22, 3), (.snapshot, 0x30, 10), (.waitIdle, 0x31, 4), (.armSync, 0x32, 10), (.cancelTag, 0x33, 4),
    (.noticeAck, 0x40, 5), (.enterSafe, 0x50, 3), (.releaseSafe, 0x51, 3), (.restart, 0x7F, 3)]

theorem requestLengths_refuse : ∀ p ∈ requestLengths, RefusesLength p.1 p.2.1 p.2.2 := by
  unfold requestLengths
  simp only [List.forall_mem_cons]
  exact ⟨refusesLength_request _ fun _ => rfl, refusesLength_request (fun fs s => s.readStatus fs) fun _ => rfl,
    refusesLength_request _ fun _ => rfl, refusesLength_request (fun fs s => s.setGlobal fs) fun _ => rfl,
    refusesLength_request (fun fs s => s.setChannel fs) fun _ => rfl, refusesLength_request _ fun _ => rfl,
    refusesLength_schedule, refusesLength_request (fun fs s => s.doCancel fs) fun _ => rfl,
    refusesLength_request (fun fs s => s.doCancelChannel fs) fun _ => rfl, refusesLength_request _ fun _ => rfl,
    refusesLength_request (fun fs s => s.queryChannel fs) fun _ => rfl, refusesLength_request (fun fs s => s.groupBegin fs) fun _ => rfl,
    refusesLength_request (fun _ s => s.groupCommit) fun _ => rfl, refusesLength_request (fun _ s => s.groupAbort) fun _ => rfl,
    refusesLength_request (fun fs s => s.doSnapshot fs) fun _ => rfl, refusesLength_request (fun fs s => s.waitIdle fs) fun _ => rfl,
    refusesLength_request (fun fs s => s.armSync fs) fun _ => rfl, refusesLength_request (fun fs s => s.doCancelTag fs) fun _ => rfl,
    refusesLength_request (fun fs s => s.noticeAck fs) fun _ => rfl, refusesLength_request _ fun _ => rfl,
    refusesLength_request (fun _ s => s.releaseSafe) fun _ => rfl, refusesLength_restart, fun _ h => absurd h List.not_mem_nil⟩

/-- Settles O38, from the tables of the kinds and of the lengths. -/
theorem requestsAreTakenByKindAndLength : Obligations.RequestsAreTakenByKindAndLength := by
  unfold Obligations.RequestsAreTakenByKindAndLength
  refine ⟨fun s c kind hc h => ?_, fun s rq rest c kind len h hc hk hl => ?_⟩
  · exact takesKind_skips (requestKinds_take (c, kind) hc) (h.imp id (Or.imp id fun h rq hrq => .inl (h rq hrq)))
  · exact requestLengths_refuse (c, kind, len) hc s rq rest h hk hl

/-! ### The cache and the unknown kinds (O39) -/

section Cache

variable {s : State} {rq : Request} {rest : List Request}

/-- The oldest entry of the cache with the request's sequence and kind answers it (R172). -/
theorem cached_hit {before after : List Reply} {e : Reply} (h0 : rq.seq ≠ 0) (hc : s.cache = before ++ e :: after) (hs : e.seq = rq.seq)
    (hk : e.kind = rq.kind) (hb : ∀ x ∈ before, ¬ (x.seq = rq.seq ∧ x.kind = rq.kind)) : s.cached rq = some e := by
  unfold State.cached
  rw [if_neg h0, hc, List.find?_append, List.find?_eq_none.mpr fun x hx => by simpa using hb x hx]
  simp [hs, hk]

theorem replyFromCache_answers {e : Reply} (hr : s.inReset = false) (hq : s.rxQueue = rq :: rest) (hl : s.replies.length < 4)
    (hc : s.cached rq = some e) : exec .replyFromCache s = .next { s with rxQueue := rest, replies := s.replies ++ [e] } := by
  have hc' : State.cached { s with rxQueue := rest } rq = some e := hc
  have hp : s.replies.length < Config.linkCap ∧ (s.cached rq).isSome = true := ⟨hl, by rw [hc]; rfl⟩
  unfold exec
  refine (whileRunning_running _ hr).trans (congrArg Host.Outcome.next ?_)
  unfold State.takeHead
  rw [hq]
  dsimp only
  rw [if_pos hp, hc']

theorem replyFromCache_skips (h : s.Carries rq rest) : exec .replyFromCache s = .next s := by
  unfold exec
  refine whileRunning_same fun _ => takeHead_skips (.inr (.inr ?_))
  rw [h.head, List.head?_cons]
  simp only [Option.mem_some_iff, forall_eq', cached_of_carries h]
  decide

/-- BAD_KIND takes a request of no defined kind that the cache does not answer (R171 step 2). -/
theorem badKind_skips (h : ∀ rq ∈ s.rxQueue.head?, s.cached rq ≠ none ∨ requestLen rq.kind ≠ none) : exec .badKind s = .next s := by
  unfold exec
  refine whileRunning_same fun _ => takeHead_skips (.inr (.inr fun rq hrq hp => ?_))
  rw [Bool.and_eq_true, Option.isNone_iff_eq_none, Option.isNone_iff_eq_none] at hp
  exact (h rq hrq).elim (· hp.1) (· hp.2)

theorem badKind_answers (h : s.Carries rq rest) (hk : requestLen rq.kind = none) :
    exec .badKind s = .next (State.withReply { s with rxQueue := rest } rq .badKind []) := by
  have hp : ((s.cached rq).isNone && (requestLen rq.kind).isNone) = true := by
    rw [cached_of_carries h, hk]
    rfl
  unfold exec
  refine (whileRunning_running _ h.running).trans (congrArg Host.Outcome.next ?_)
  rw [takeHead_of_carries h hp, answer_eq_withReply]
  rfl

/-- The kinds of section 11.2 are those that have a length. -/
theorem requestLen_none_iff (kind : Byte) : requestLen kind = none ↔ kind ∉ requestLens.map (·.1) := by
  unfold requestLen
  rw [Option.map_eq_none_iff, List.find?_eq_none, List.mem_map]
  constructor
  · rintro h ⟨p, hp, hk⟩
    exact h p hp (by simpa using hk)
  · intro h p hp hk
    exact h ⟨p, hp, by simpa using hk⟩

end Cache

/-- Settles O39: no command of a kind takes a request that the cache answers. -/
theorem cachedAndUnknownRequests : Obligations.CachedAndUnknownRequests := by
  unfold Obligations.CachedAndUnknownRequests
  intro s rq rest listed
  refine ⟨fun before e after hr hq hl h0 hc hs hk hb => ⟨?_, fun c hcmd => ?_⟩, replyFromCache_skips, fun h hk => ?_, fun h hk => ?_⟩
  · exact replyFromCache_answers hr hq hl (cached_hit h0 hc hs hk hb)
  · have hcached : ∀ rq' ∈ s.rxQueue.head?, s.cached rq' ≠ none := by
      rw [hq, List.head?_cons]
      simp only [Option.mem_some_iff, forall_eq', cached_hit h0 hc hs hk hb]
      exact Option.some_ne_none e
    rcases List.mem_cons.mp hcmd with rfl | hcmd
    · exact badKind_skips fun rq' hrq => .inl (hcached rq' hrq)
    · obtain ⟨p, hp, rfl⟩ := List.mem_map.mp (show c ∈ requestKinds.map (·.1) from hcmd)
      exact takesKind_skips (requestKinds_take p hp) (.inr (.inr fun rq' hrq => .inr (hcached rq' hrq)))
  · exact badKind_answers h ((requestLen_none_iff _).mpr hk)
  · refine badKind_skips ?_
    rw [h.head, List.head?_cons]
    simp only [Option.mem_some_iff, forall_eq']
    exact .inr fun hnone => (requestLen_none_iff _).mp hnone hk

end Sys2Proof.Machine
end

section
/-!
PROOF. What the reads carry (O40), and the requests that set the four settings (O41), open a group (O49), and give a tag (O52).
-/
namespace Sys2Proof.Machine

/-! ### The reads (O40) -/

theorem toList_eq_map {α : Type} {n : Nat} (v : Vector α n) : v.toArray.toList = (List.finRange n).map (getAt v) := by
  apply List.ext_getElem
  · simp
  · intro i h1 h2
    simp [getAt]

/-- The records in a state, counted over the slots. -/
theorem countIn_eq (s : State) (st : RecState) :
    s.countIn st = (List.finRange 256).countP fun i => (s.record i).any fun r => r.state = st := by
  unfold State.countIn
  rw [toList_eq_map, List.countP_map]
  rfl

theorem statusFlags_eq (s : State) : statusFlags s = BitVec.ofNat 8 ((if s.stall then 1 else 0) + (if s.latch then 2 else 0)
    + (if s.safenSample then 4 else 0) + (if s.snapshot = none then 0 else 8) + (if s.syncArm = none then 0 else 16)) := by
  have bits : ∀ a b c d e : Bool, flagByte [a, b, c, d, e] = BitVec.ofNat 8 ((if a then 1 else 0) + (if b then 2 else 0)
      + (if c then 4 else 0) + (if !d then 0 else 8) + (if !e then 0 else 16)) := by decide
  unfold statusFlags
  rw [bits]
  cases s.snapshot <;> cases s.syncArm <;> rfl

theorem timeFlags_eq (s : State) : timeFlags s
    = BitVec.ofNat 8 ((if s.deviceTime.toNat = 2 ^ 48 - 1 then 1 else 0) + (if s.syncArm = none then 0 else 2)) := by
  have bits : ∀ a b : Bool, flagByte [a, b] = BitVec.ofNat 8 ((if a then 1 else 0) + (if !b then 0 else 2)) := by decide
  unfold timeFlags
  rw [bits]
  simp only [decide_eq_true_eq]
  cases s.syncArm <;> rfl

theorem identifyFields_eq : identifyFields = [0xA7, 0x00, 0xE8, 0x08, 0x01, 0x08, 0x00, 0x01, 64, 32, 16, 32] := by decide

/-- A request command on fields of the length of its kind is answered as its owner says (R171). -/
theorem request_answersOn {s u : State} {rq : Request} {rest : List Request} {k : Byte} {st : Status} {fs out : List Byte}
    (f : List Byte → State → Response × State) (len : Nat) (h : s.Carries rq rest) (hk : rq.kind = k) (hfs : rq.fields = fs)
    (hf : f fs { s with rxQueue := rest } = ((st, out), u)) {c : Instr} (hl : fs.length + 3 = len := by rfl)
    (hc : exec c s = whileRunning (fun s => s.takeRequest k len f) s := by rfl) : exec c s = .next (u.withReply rq st out) :=
  request_answers f len h hk (hfs ▸ hl) (hfs ▸ hf) hc

theorem statusFields_eq (s : State) : s.statusFields =
    leBytes 2 s.counters.crc ++ leBytes 2 s.counters.length ++ leBytes 2 s.counters.gap ++ leBytes 2 s.counters.framing
      ++ leBytes 2 s.counters.overflow ++ leBytes 2 s.counters.strayType ++ leBytes 2 s.freeList.length
      ++ leBytes 1 (s.countIn .staged) ++ leBytes 2 (s.countIn .planned) ++ leBytes 1 (s.countIn .waiting)
      ++ leBytes 1 (s.countIn .current) ++ leBytes 1 (s.tagsOpen.length + s.tagsWaiting.length)
      ++ leBytes 1 s.notices.length ++ leBytes 1 (s.notices.filter (·.sent)).length ++ leBytes 2 s.lossCount
      ++ [statusFlags s, safeCauseCode s.cause] ++ leBytes 1 (s.group.elim 0 (·.id)) := by
  rw [← sentCount_eq]
  rfl

/-- READ_STATUS by its clear flag (R182). -/
theorem readStatus_clear (s : State) (clear : Bool) :
    s.readStatus [flagBit clear] = ((.ok, s.statusFields), if clear then { s with counters := .zero } else s) := by
  unfold State.readStatus
  rw [flagField_flagBit (fs := [flagBit clear]) (off := 0) rfl]

theorem readStatus_badParam (s : State) {flag : Byte} (h : 1 < flag.toNat) : s.readStatus [flag] = ((.badParam, []), s) := by
  unfold State.readStatus
  rw [flagField_gt_one (fs := [flag]) (off := 0) rfl h]
  rfl

theorem trigPolarityCode_eq (pol : TrigPolarity) :
    trigPolarityCode pol = match pol with | .rising => 0 | .falling => 1 | .both => 2 := by
  cases pol <;> rfl

/-- Settles O40: each read carries the fields of its layout, and changes nothing. -/
theorem readsCarryTheState : Obligations.ReadsCarryTheState := by
  unfold Obligations.ReadsCarryTheState
  refine ⟨fun s rq rest h hfs => ⟨fun hk => ?identify, fun hk => ?time, fun hk => ?config⟩, fun s rq rest flag h hk hfs => ?status⟩
  case identify =>
    exact request_answersOn (fun _ s => ((.ok, identifyFields), s)) 3 h hk hfs (by rw [identifyFields_eq])
  case time =>
    refine request_answersOn (fun _ s => ((.ok, s.timeFields), s)) 3 h hk hfs ?_
    unfold State.timeFields timeBytes
    rw [timeFlags_eq]
    dsimp only
    cases s.syncArm with
    | none => rfl
    | some arm => cases hp : arm.pol <;> simp only [hp, syncPolarityCode]
  case config =>
    refine request_answersOn (fun _ s => ((.ok, (allChannels.flatMap fun ch => configBytes (s.engine ch).config) ++ s.globalFields), s))
      3 h hk hfs ?_
    unfold configBytes State.globalFields
    simp only [trigPolarityCode_eq, List.append_assoc]
    rfl
  case status =>
    intro s1 inState fields
    have hfields : s1.statusFields = fields := by
      rw [statusFields_eq, statusFlags_eq]
      simp only [countIn_eq]
      have hgroup : s1.group.elim 0 (·.id) = match s.group with | none => 0 | some g => g.id := by
        show s.group.elim 0 (·.id) = _
        cases s.group <;> rfl
      have hcause : safeCauseCode s1.cause = match s.cause with | .noCause => 0 | .line => 1 | .request => 2 := by
        show safeCauseCode s.cause = _
        cases s.cause <;> rfl
      rw [hgroup, hcause]
      rfl
    refine ⟨fun hflag => ?_, fun hflag => ?_, fun hflag => ?_⟩
    · exact request_answersOn (fun fs s => s.readStatus fs) 4 h hk (hfs.trans (by rw [hflag]; rfl))
        (hfields ▸ readStatus_clear s1 false)
    · exact request_answersOn (fun fs s => s.readStatus fs) 4 h hk (hfs.trans (by rw [hflag]; rfl))
        (hfields ▸ readStatus_clear s1 true)
    · exact request_answersOn (fun fs s => s.readStatus fs) 4 h hk hfs (readStatus_badParam s1 hflag)

/-! ### SET_GLOBAL (O41) -/

theorem inRange_iff (b : Bool) (lo hi x : Nat) : inRange b lo hi x = true ↔ (b = true → lo ≤ x ∧ x ≤ hi) := by
  unfold inRange
  cases b <;> simp

/-- The operands of a SET_GLOBAL and the body that writes them (section 11.2). -/
def globalBody (sel : Byte) (l h g r : Nat) : List Byte := [sel] ++ leBytes 2 l ++ leBytes 6 h ++ leBytes 2 g ++ leBytes 2 r

/-- Every selected setting lies in its range (R183). -/
def GlobalAllowed (sel : Byte) (l h g r : Nat) : Prop :=
  sel.toNat < 16 ∧ (sel.getLsbD 0 = true → 10 ≤ l ∧ l ≤ 10000) ∧ (sel.getLsbD 1 = true → 65536 ≤ h ∧ h ≤ 2 ^ 40) ∧
    (sel.getLsbD 2 = true → 1 ≤ g ∧ g ≤ 60000) ∧ (sel.getLsbD 3 = true → 5 ≤ r ∧ r ≤ 1000)

section Global

variable {s : State} {sel : Byte} {l h g r : Nat}

/-- The state with the selected settings taken (R183). -/
def State.globalSet (s : State) (sel : Byte) (l h g r : Nat) : State :=
  { s with
    minLead := if sel.getLsbD 0 then l else s.minLead
    horizon := if sel.getLsbD 1 then h else s.horizon
    groupDefault := if sel.getLsbD 2 then g else s.groupDefault
    retryTime := if sel.getLsbD 3 then r else s.retryTime }

open Classical in
/-- All of the selected settings, or none (R183). -/
theorem setGlobal_eq (hl : l < 2 ^ 16) (hh : h < 2 ^ 48) (hg : g < 2 ^ 16) (hr : r < 2 ^ 16) :
    s.setGlobal (globalBody sel l h g r) = if GlobalAllowed sel l h g r then
      ((.ok, (s.globalSet sel l h g r).globalFields), s.globalSet sel l h g r) else ((.badParam, []), s) := by
  have hsel : byteField (globalBody sel l h g r) 0 = sel := byteField_head sel _
  have h1 : field (globalBody sel l h g r) 1 2 = l := field_of_take rfl hl
  have h3 : field (globalBody sel l h g r) 3 6 = h := field_of_take rfl hh
  have h9 : field (globalBody sel l h g r) 9 2 = g := field_of_take rfl hg
  have h11 : field (globalBody sel l h g r) 11 2 = r := field_of_take rfl hr
  unfold State.setGlobal
  rw [hsel, h1, h3, h9, h11]
  by_cases h16 : sel.toNat < 16
  · rw [if_neg (Nat.not_le.mpr h16)]
    refine if_congr ?_ rfl rfl
    simp only [Bool.and_eq_true, inRange_iff]
    constructor
    · rintro ⟨⟨⟨a, b⟩, c⟩, d⟩
      exact ⟨h16, a, b, c, d⟩
    · rintro ⟨-, a, b, c, d⟩
      exact ⟨⟨⟨a, b⟩, c⟩, d⟩
  · rw [if_pos (Nat.not_lt.mp h16), if_neg fun k => h16 k.1]
    rfl

end Global

/-- Settles O41. -/
theorem setGlobalSetsAllOrNone : Obligations.SetGlobalSetsAllOrNone := by
  unfold Obligations.SetGlobalSetsAllOrNone
  intro s rq rest sel l h g r hc hk hl hh hg hr hfs s1 allowed l' h' g' r'
  refine ⟨fun ha => ?_, fun ha => ?_⟩
  · exact request_answersOn (fun fs s => s.setGlobal fs) 16 hc hk (show rq.fields = globalBody sel l h g r from hfs)
      ((setGlobal_eq hl hh hg hr).trans (if_pos ha))
  · exact request_answersOn (fun fs s => s.setGlobal fs) 16 hc hk (show rq.fields = globalBody sel l h g r from hfs)
      ((setGlobal_eq hl hh hg hr).trans (if_neg ha))

/-! ### GROUP_BEGIN (O49) -/

/-- Settles O49, by the checks of R102 in their order. -/
theorem groupBeginOpensAGroup : Obligations.GroupBeginOpensAGroup := by
  unfold Obligations.GroupBeginOpensAGroup
  intro s rq rest ms hc hk hms hfs s1 inForce
  have hasked : field (leBytes 2 ms) 0 2 = ms := field_of_take rfl hms
  have answers : ∀ {st out} {u : State}, s1.groupBegin (leBytes 2 ms) = ((st, out), u) → exec .groupBegin s = .next (u.withReply rq st out) :=
    fun h => request_answersOn (fun fs s => s.groupBegin fs) 5 hc hk hfs h
  refine ⟨fun hbig => answers ?_, fun hsmall hg => answers ?_, fun hsmall hg => answers ?_⟩
  all_goals
    unfold State.groupBegin
    rw [hasked]
  · rw [if_pos (show Config.groupDefaultMax < ms from hbig)]
    rfl
  · rw [if_neg (show ¬ Config.groupDefaultMax < ms from Nat.not_lt.mpr hsmall),
      if_pos (show s1.group.isSome = true from Option.isSome_iff_ne_none.mpr hg)]
    rfl
  · rw [if_neg (show ¬ Config.groupDefaultMax < ms from Nat.not_lt.mpr hsmall), if_neg (by rw [show s1.group = none from hg]; decide)]
    rfl

/-! ### WAIT_IDLE and ARM_SYNC (O52) -/

theorem tagsFull_iff (s : State) : s.tagsFull = true ↔ 16 ≤ s.tagsOpen.length + s.tagsWaiting.length := decide_eq_true_iff

section Tags

variable {s : State} {mask code : Byte} {value : Time}

theorem waitIdle_quiet (h : ∀ ch : Channel, mask.getLsbD ch.val = true → s.Quiet ch) : s.waitIdle [mask] = ((.ok, [0]), s) := by
  unfold State.waitIdle
  rw [byteField_head, if_pos ((maskQuiet_iff s mask).mpr h)]
  rfl

theorem waitIdle_full (h : ¬ ∀ ch : Channel, mask.getLsbD ch.val = true → s.Quiet ch) (hf : s.tagsFull = true) :
    s.waitIdle [mask] = ((.tagsFull, []), s) := by
  unfold State.waitIdle
  rw [byteField_head, if_neg (mt (maskQuiet_iff s mask).mp h), if_pos hf]
  rfl

theorem waitIdle_waits (h : ¬ ∀ ch : Channel, mask.getLsbD ch.val = true → s.Quiet ch) (hf : ¬ s.tagsFull = true) :
    s.waitIdle [mask] = ((.deferred, [BitVec.ofNat 8 s.tagToGive]), s.allocTag (.idleWait mask)) := by
  unfold State.waitIdle
  rw [byteField_head, if_neg (mt (maskQuiet_iff s mask).mp h), if_neg hf]
  rfl

/-- The body of an ARM_SYNC (section 11.2). -/
def armBody (value : Time) (code : Byte) : List Byte := leBytes 6 value.toNat ++ [code]

theorem armSync_badParam (h : 1 < code.toNat) : s.armSync (armBody value code) = ((.badParam, []), s) := by
  have hpol : syncPolarityOf (field (armBody value code) 6 1) = none := by
    rw [field_one (b := code) rfl]
    unfold syncPolarityOf
    split
    · omega
    · omega
    · rfl
  unfold State.armSync
  rw [hpol]
  rfl

/-- ARM_SYNC with a defined polarity (R9). -/
theorem armSync_defined (h : code.toNat ≤ 1) : s.armSync (armBody value code) =
    if s.syncArm.isSome then (bare .busy, s)
    else if s.tagsFull then (bare .tagsFull, s)
    else ((.deferred, leBytes 1 s.tagToGive), { s.allocTag .sync with
      syncArm := some { value := value, pol := if code = 0 then .rising else .falling, tag := s.tagToGive } }) := by
  have hvalue : BitVec.ofNat 48 (field (armBody value code) 0 6) = value := timeField_of_take rfl
  have hpol : syncPolarityOf (field (armBody value code) 6 1) = some (if code = 0 then .rising else .falling) := by
    rw [field_one (b := code) rfl]
    obtain ⟨b, rfl⟩ := exists_flagBit h
    cases b <;> rfl
  unfold State.armSync
  rw [hpol, hvalue]

end Tags

/-- Settles O52, by the checks in their order. -/
theorem waitIdleAndArmSyncGiveATag : Obligations.WaitIdleAndArmSyncGiveATag := by
  unfold Obligations.WaitIdleAndArmSyncGiveATag
  refine ⟨fun s rq rest mask hc hk hfs => ?wait, fun s rq rest value code hc hk hfs => ?arm⟩
  case wait =>
    intro s1 tag quiet allQuiet
    have full : s1.tagsFull = true ↔ 16 ≤ s.tagsOpen.length + s.tagsWaiting.length := tagsFull_iff s1
    have answers : ∀ {st out} {u : State}, s1.waitIdle [mask] = ((st, out), u) → exec .waitIdle s = .next (u.withReply rq st out) :=
      fun h => request_answersOn (fun fs s => s.waitIdle fs) 4 hc hk hfs h
    exact ⟨fun hq => answers (waitIdle_quiet (s := s1) hq), fun hq hf => answers (waitIdle_full (s := s1) hq (full.mpr hf)),
      fun hq hf => answers (waitIdle_waits (s := s1) hq (mt full.mp (Nat.not_le.mpr hf)))⟩
  case arm =>
    intro s1 tag
    have full : s1.tagsFull = true ↔ 16 ≤ s.tagsOpen.length + s.tagsWaiting.length := tagsFull_iff s1
    have held : s1.syncArm.isSome = true ↔ s.syncArm ≠ none := Option.isSome_iff_ne_none
    have answers : ∀ {st out} {u : State}, s1.armSync (armBody value code) = ((st, out), u) →
        exec .armSync s = .next (u.withReply rq st out) :=
      fun h => request_answersOn (fun fs s => s.armSync fs) 10 hc hk hfs h
    refine ⟨fun hcode => answers (armSync_badParam hcode), fun hcode ha => answers ?_, fun hcode ha hf => answers ?_,
      fun hcode ha hf => answers ?_⟩
    all_goals rw [armSync_defined hcode]
    · exact if_pos (held.mpr ha)
    · exact (if_neg fun k => held.mp k ha).trans (if_pos (full.mpr hf))
    · exact (if_neg fun k => held.mp k ha).trans (if_neg (mt full.mp (Nat.not_le.mpr hf)))

end Sys2Proof.Machine
end

section
/-!
PROOF. The refusals of a SCHEDULE in their order (O44): BAD_PARAM where a field that the kind uses is out of range, and then the
checks of the channel, the start, the plan or the group, the pool and the tags.
-/
namespace Sys2Proof.Machine

/-! ### Fields that give nothing (R20, R21) -/

/-- A flag that is read back is written by its byte. -/
theorem flagBit_of_flagField {fs : List Byte} {off : Nat} {x : Byte} {b : Bool} (hx : fs[off]? = some x) (h : flagField fs off = some b) :
    x = flagBit b := by
  rcases Nat.lt_or_ge 1 x.toNat with hgt | hle
  · rw [flagField_gt_one hx hgt] at h
    cases h
  · obtain ⟨c, rfl⟩ := exists_flagBit hle
    rw [flagField_flagBit hx] at h
    cases h
    rfl

/-- The byte that writes a retrigger mode (section 11.1). -/
def retrigCode : RetrigMode → Byte
  | .noRetrigger => 0
  | .extend => 1
  | .holdOne => 2

theorem retrig_of_code {x : Byte} {m : RetrigMode} (h : retrigOf x.toNat = some m) : x = retrigCode m := by
  unfold retrigOf at h
  split at h
  · next hx => cases h; exact BitVec.eq_of_toNat_eq hx
  · next hx => cases h; exact BitVec.eq_of_toNat_eq hx
  · next hx => cases h; exact BitVec.eq_of_toNat_eq hx
  · cases h

/-- The parameters that are read back are those that the fields give (R20, R21). -/
theorem fieldsGive_of_paramsField {o : ScheduleOperands} (hfit : o.Fit) {params : Params} (h : paramsField o.body = some params) :
    fieldsGive o.kind o.level o.w o.p o.n o.d o.v o.mode params := by
  have hkind : field o.body 1 1 = o.kind.toNat := field_one rfl
  have hmode : field o.body 28 1 = o.mode.toNat := field_one rfl
  have hw : field o.body 13 3 = o.w := field_of_take rfl hfit.w
  have hp : field o.body 16 3 = o.p := field_of_take rfl hfit.p
  have hn : field o.body 19 2 = o.n := field_of_take rfl hfit.n
  have hd : field o.body 21 3 = o.d := field_of_take rfl hfit.d
  have hv : field o.body 24 4 = o.v := field_of_take rfl hfit.v
  have code : ∀ {k : Byte}, o.kind.toNat = k.toNat → o.kind = k := BitVec.eq_of_toNat_eq
  unfold paramsField at h
  rw [hkind, hmode, hw, hp, hn, hd, hv] at h
  dsimp only at h
  split at h
  · next hk =>
    obtain ⟨l, hl, rfl⟩ := Option.map_eq_some_iff.mp h
    exact ⟨code (k := 0) hk, flagBit_of_flagField (off := 12) rfl hl⟩
  · next hk =>
    obtain ⟨h1, h2⟩ := Option.ite_none_right_eq_some.mp h
    cases h2
    exact ⟨code (k := 1) hk, rfl, h1⟩
  · next hk =>
    obtain ⟨⟨h1, -, h3⟩, h2⟩ := Option.ite_none_right_eq_some.mp h
    cases h2
    exact ⟨code (k := 2) hk, rfl, rfl, rfl, h1, h3⟩
  · next hk =>
    obtain ⟨h1, h2⟩ := Option.ite_none_right_eq_some.mp h
    cases h2
    exact ⟨code (k := 3) hk, rfl, h1⟩
  · next hk =>
    obtain ⟨h1, h2⟩ := Option.ite_none_right_eq_some.mp h
    obtain ⟨m, hm, rfl⟩ := Option.map_eq_some_iff.mp h2
    exact ⟨code (k := 4) hk, rfl, rfl, rfl, rfl, h1, retrig_of_code hm⟩
  · next hk =>
    obtain ⟨⟨h1, h3⟩, h2⟩ := Option.ite_none_right_eq_some.mp h
    cases h2
    exact ⟨code (k := 5) hk, rfl, rfl, rfl, h1, h3⟩
  · cases h

theorem policyOf_gt_two {n : Nat} (h : 2 < n) : policyOf n = none := by
  unfold policyOf
  split
  · omega
  · omega
  · omega
  · rfl

/-- Some field of a SCHEDULE is out of range or undefined (R36 step 2). -/
def ScheduleOperands.Bad (o : ScheduleOperands) : Prop :=
  (∀ params, ¬ fieldsGive o.kind o.level o.w o.p o.n o.d o.v o.mode params) ∨ 2 < o.policy.toNat ∨ 1 < o.report.toNat ∨
    1 < o.tagged.toNat ∨ 1 < o.grouped.toNat

theorem scheduleFields_bad {o : ScheduleOperands} (hfit : o.Fit) (h : o.Bad) : scheduleFields o.body = none := by
  unfold scheduleFields
  split
  · next hparams hpolicy hreport htagged hgrouped =>
    rcases h with h | h | h | h | h
    · exact absurd (fieldsGive_of_paramsField hfit hparams) (h _)
    · rw [field_one (b := o.policy) rfl, policyOf_gt_two h] at hpolicy; cases hpolicy
    · rw [flagField_gt_one (b := o.report) rfl h] at hreport; cases hreport
    · rw [flagField_gt_one (b := o.tagged) rfl h] at htagged; cases htagged
    · rw [flagField_gt_one (b := o.grouped) rfl h] at hgrouped; cases hgrouped
  · rfl

/-! ### The command that takes a SCHEDULE (R104) -/

theorem isStaging_operands {o : ScheduleOperands} {rq : Request} (hf : rq.fields = o.body) :
    isStaging rq = decide (o.grouped = 1) := by
  have hlen : o.body.length = 29 := rfl
  have hflag : field o.body 5 1 = o.grouped.toNat := field_one rfl
  have hone : o.grouped.toNat = 1 ↔ o.grouped = 1 := (BitVec.toNat_eq (y := 1#8)).symm
  rw [isStaging, hf, hlen, hflag]
  simp only [hone, decide_true, Bool.true_and]

/-- SCHEDULE and STAGING_SCHEDULE share the bodies by the group flag. -/
theorem scheduleOperands_next {s t : State} {rq : Request} {rest : List Request} {o : ScheduleOperands} {st : Status} {out : List Byte}
    (hc : s.Carries rq rest) (hk : rq.kind = 0x10) (hf : rq.fields = o.body)
    (h : State.doSchedule { s with rxQueue := rest } o.body = ((st, out), t)) :
    exec (if o.grouped = 1 then .stagingSchedule else .schedule) s = .next (t.withReply rq st out) := by
  have hlen : rq.fields.length = 29 := by rw [hf]; rfl
  have hkind : s.isKind 0x10 rq = true := hk ▸ isKind_of_carries hc
  have hstaging := isStaging_operands hf
  split
  · next hg =>
    exact scheduleHead_next hc hlen (p := fun s rq => s.isKind 0x10 rq && isStaging rq)
      (by rw [hkind, hstaging, decide_eq_true hg]; rfl) (hf ▸ h)
  · next hg =>
    exact scheduleHead_next hc hlen (p := fun s rq => s.isKind 0x10 rq && !isStaging rq)
      (by rw [hkind, hstaging, decide_eq_false hg]; rfl) (hf ▸ h)

/-! ### The checks (R36, R37, R104) -/

section Checks

variable {s : State} {q : ScheduleFields} {ch : Channel} {st : Status}

/-- The checks of the Action Pool and the Tag Table, last for every SCHEDULE. -/
def State.poolVerdict (s : State) (q : ScheduleFields) : Option Status :=
  if s.freeList = [] then some .poolFull
  else if q.tagged = true ∧ 16 ≤ s.tagsOpen.length + s.tagsWaiting.length then some .tagsFull
  else none

/-- The checks of a direct SCHEDULE from TOO_LATE on. -/
def State.directVerdict (s : State) (q : ScheduleFields) (ch : Channel) : Option Status :=
  if q.start.toNat = 0 ∧ 2 ^ 48 - 1 < s.deviceTime.toNat + s.minLead then some .tooFar
  else if q.start.toNat ≠ 0 ∧ q.start.toNat < s.deviceTime.toNat + s.minLead then some .tooLate
  else if q.start.toNat ≠ 0 ∧ s.deviceTime.toNat + s.horizon < q.start.toNat then some .tooFar
  else if 64 ≤ (s.plan ch).records.length then some .planFull
  else s.poolVerdict q

/-- The checks of a staging SCHEDULE from NO_GROUP on. -/
def State.stagingVerdict (s : State) (q : ScheduleFields) : Option Status :=
  match s.group with
  | none => some .noGroup
  | some g =>
    if 32 ≤ g.staging.length then some .groupFull
    else if q.start.toNat ≠ 0 ∧ s.deviceTime.toNat + s.horizon < q.start.toNat then some .tooFar
    else s.poolVerdict q

theorem allocate_refused (h : s.poolVerdict q = some st) (start : Time) (rs : RecState) : s.allocate q ch start rs = .error st := by
  unfold State.poolVerdict at h
  unfold State.allocate
  cases hf : s.freeList with
  | nil => rw [if_pos hf] at h; cases h; rfl
  | cons i free =>
    rw [if_neg (by rw [hf]; exact List.cons_ne_nil _ _)] at h
    obtain ⟨⟨htag, hfull⟩, hst⟩ := Option.ite_none_right_eq_some.mp h
    cases hst
    exact if_pos (by rw [htag, (tagsFull_iff s).mpr hfull]; rfl)

/-- The start of a direct SCHEDULE that passes or fails its two checks (R37). -/
theorem directStart_cases (s : State) (start : Time) : (∃ at_, s.directStart start = .ok at_) ∨
    ∃ st, s.directStart start = .error st := by
  cases s.directStart start with
  | ok at_ => exact .inl ⟨at_, rfl⟩
  | error st => exact .inr ⟨st, rfl⟩

theorem admitDirect_of_error (h : s.directStart q.start = .error st) : s.admitDirect q ch = ((st, []), s) := by
  unfold State.admitDirect
  rw [h]
  rfl

/-- The checks that follow the start of a direct SCHEDULE (R36 steps 8 to 10). -/
theorem admitDirect_of_ok {at_ : Time} (h : s.directStart q.start = .ok at_)
    (hv : (if 64 ≤ (s.plan ch).records.length then some .planFull else s.poolVerdict q) = some st) :
    s.admitDirect q ch = ((st, []), s) := by
  unfold State.admitDirect
  rw [h]
  dsimp only
  split at hv
  · next hp => cases hv; exact if_pos hp
  · next hp =>
    refine (if_neg hp).trans ?_
    rw [allocate_refused hv]
    rfl

theorem admitDirect_refused (h : s.directVerdict q ch = some st) : s.admitDirect q ch = ((st, []), s) := by
  unfold State.directVerdict at h
  have hmax : maxTime = 2 ^ 48 - 1 := rfl
  by_cases h0 : q.start.toNat = 0
  · have hnot : ∀ p : Prop, ¬ (q.start.toNat ≠ 0 ∧ p) := fun p k => k.1 h0
    rw [if_neg (hnot _), if_neg (hnot _)] at h
    by_cases hfar : 2 ^ 48 - 1 < s.deviceTime.toNat + s.minLead
    · rw [if_pos ⟨h0, hfar⟩] at h
      cases h
      exact admitDirect_of_error (by unfold State.directStart; dsimp only; rw [if_pos h0, hmax, if_pos hfar])
    · rw [if_neg fun k => hfar k.2] at h
      exact admitDirect_of_ok (at_ := BitVec.ofNat 48 (s.deviceTime.toNat + s.minLead))
        (by unfold State.directStart; dsimp only; rw [if_pos h0, hmax, if_neg hfar]) h
  · rw [if_neg fun k => h0 k.1] at h
    by_cases hlate : q.start.toNat < s.deviceTime.toNat + s.minLead
    · rw [if_pos ⟨h0, hlate⟩] at h
      cases h
      exact admitDirect_of_error (by unfold State.directStart; dsimp only; rw [if_neg h0, if_pos hlate])
    · rw [if_neg fun k => hlate k.2] at h
      by_cases hfar : s.deviceTime.toNat + s.horizon < q.start.toNat
      · rw [if_pos ⟨h0, hfar⟩] at h
        cases h
        exact admitDirect_of_error (by unfold State.directStart; dsimp only; rw [if_neg h0, if_neg hlate, if_pos hfar])
      · rw [if_neg fun k => hfar k.2] at h
        exact admitDirect_of_ok (at_ := q.start)
          (by unfold State.directStart; dsimp only; rw [if_neg h0, if_neg hlate, if_neg hfar]) h

theorem stage_refused (h : s.stagingVerdict q = some st) : s.stage q ch = ((st, []), s) := by
  unfold State.stagingVerdict at h
  unfold State.stage
  cases hg : s.group with
  | none => rw [hg] at h; cases h; rfl
  | some g =>
    rw [hg] at h
    dsimp only at h ⊢
    split at h
    · next hfull => cases h; exact if_pos hfull
    · next hfull =>
      refine (if_neg hfull).trans ?_
      split at h
      · next hfar => cases h; exact if_pos hfar
      · next hfar =>
        refine (if_neg hfar).trans ?_
        rw [allocate_refused h]
        rfl

/-- The checks of a SCHEDULE with defined fields, in the order of R36. -/
def State.scheduleVerdict (s : State) (q : ScheduleFields) : Option Status :=
  if h : q.channel < 8 then
    if (s.engine ⟨q.channel, h⟩).state = .off then some .channelOff
    else if q.grouped then s.stagingVerdict q
    else s.directVerdict q ⟨q.channel, h⟩
  else some .badChannel

theorem doSchedule_bad {fs : List Byte} (h : scheduleFields fs = none) : s.doSchedule fs = ((.badParam, []), s) := by
  unfold State.doSchedule
  rw [h]
  rfl

theorem doSchedule_refused {fs : List Byte} (hq : scheduleFields fs = some q) (h : s.scheduleVerdict q = some st) :
    s.doSchedule fs = ((st, []), s) := by
  unfold State.scheduleVerdict at h
  unfold State.doSchedule
  rw [hq]
  dsimp only
  by_cases hch : q.channel < 8
  · rw [show toChannel q.channel = some ⟨q.channel, hch⟩ from dif_pos hch]
    rw [dif_pos hch] at h
    dsimp only
    split at h
    · next hoff => cases h; exact if_pos hoff
    · next hoff =>
      refine (if_neg hoff).trans ?_
      split at h
      · next hg => exact (if_pos hg).trans (stage_refused h)
      · next hg => exact (if_neg hg).trans (admitDirect_refused h)
  · rw [show toChannel q.channel = none from dif_neg hch]
    rw [dif_neg hch] at h
    cases h
    rfl

end Checks

/-- Settles O44. -/
theorem scheduleRefusesInOrder : Obligations.ScheduleRefusesInOrder := by
  unfold Obligations.ScheduleRefusesInOrder
  refine ⟨?refused, ?badParam⟩
  case refused =>
    intro s rq rest channel level mode kind w p n d v start pol report tagged grouped params st hc hk hw hp hn hd hv hf hparams
      now pool direct staging verdict hverdict
    have hgive : ScheduleOperands.Give ⟨channel, kind, policyCode pol, flagBit report, flagBit tagged, flagBit grouped, start, level,
        w, p, n, d, v, mode⟩ ⟨channel.toNat, params, start, pol, report, tagged, grouped⟩ :=
      ⟨⟨hw, hp, hn, hd, hv⟩, rfl, hparams, rfl, rfl, rfl, rfl, rfl⟩
    have hrefused := doSchedule_refused (s := { s with rxQueue := rest }) (scheduleFields_body hgive)
      (show State.scheduleVerdict { s with rxQueue := rest } _ = some st from hverdict)
    have hnext := scheduleOperands_next (o := ⟨channel, kind, policyCode pol, flagBit report, flagBit tagged, flagBit grouped, start,
      level, w, p, n, d, v, mode⟩) hc hk hf hrefused
    cases grouped <;> exact hnext
  case badParam =>
    intro s rq rest channel policy report tagged grouped level mode kind w p n d v start hc hk hw hp hn hd hv hf hbad
    exact scheduleOperands_next (o := ⟨channel, kind, policy, report, tagged, grouped, start, level, w, p, n, d, v, mode⟩) hc hk hf
      (doSchedule_bad (scheduleFields_bad ⟨hw, hp, hn, hd, hv⟩ hbad))

end Sys2Proof.Machine
end

section
/-!
PROOF. The cancelling of a record by its state (R25), which CANCEL (O46) and CANCEL_TAG (O53) share, and CANCEL_CHANNEL (O47).
-/
namespace Sys2Proof.Machine

section Cancel

variable {s : State} {i : SlotNo} {r : Record}

/-- The record of a slot cancelled by the block that holds it, as one event (R25). -/
def State.cancelledAt (s : State) (i : SlotNo) (r : Record) : State := watch (maskOf r.channel) s (s.cancelRecord i r)

/-- A STAGED record leaves the staging list (R106). -/
theorem cancelledAt_staged {g : Group} (hr : s.record i = some r) (hst : r.state = .staged) (hg : s.group = some g) :
    State.Frees { s with group := some { g with staging := g.staging.filter fun j => j ≠ i } } (s.cancelledAt i r) i r
      (unstartedBody s i r .cancelled) := by
  have hunstage : s.unstage i = { s with group := some { g with staging := g.staging.filter fun j => j ≠ i } } := by
    unfold State.unstage
    rw [hg]
    rfl
  unfold State.cancelledAt State.cancelRecord
  rw [hst]
  dsimp only
  rw [freeUnstarted_eq_freed (s := s.unstage i) (r := r) hr, hunstage]
  exact watch_frees (u := { s with group := some { g with staging := g.staging.filter fun j => j ≠ i } }) rfl rfl i _

/-- A record of a plan leaves it, wherever it stands. -/
theorem dropHead_split {ch : Channel} {before after : List SlotNo} {res : EndResult} (hr : s.record i = some r)
    (hrec : (s.plan ch).records = before ++ i :: after) (hnd : (s.plan ch).records.Nodup) :
    s.dropHead ch i res = State.freed { s with plans := s.planWithout ch (before ++ after) } i r (unstartedBody s i r res) := by
  rw [hrec] at hnd
  obtain ⟨-, hrest, hdisj⟩ := List.nodup_append.mp hnd
  have hbefore : before.filter (· ≠ i) = before := List.filter_eq_self.mpr fun j hj => by
    simpa using hdisj j hj i List.mem_cons_self
  have hafter : (i :: after).filter (· ≠ i) = after := filter_head hrest
  have hfilter : (s.plan ch).records.filter (· ≠ i) = before ++ after := by rw [hrec, List.filter_append, hbefore, hafter]
  have hleave : s.leavePlan ch i = { s with plans := s.planWithout ch (before ++ after) } :=
    congrArg (fun l => ({ s with plans := s.planWithout ch l } : State)) hfilter
  unfold State.dropHead
  rw [freeUnstarted_eq_freed (s := s.leavePlan ch i) (r := r) hr, hleave]
  rfl

/-- A PLANNED or WAITING record is cancelled through its plan (R50). -/
theorem cancelRecord_planned (h : r.state = .planned ∨ r.state = .waiting) : s.cancelRecord i r = s.cancelPlanned r.channel i := by
  unfold State.cancelRecord
  rcases h with h | h <;> rw [h]

/-- The plan of a channel without the record that leaves it, before the record is freed. -/
def State.leftPlan (s : State) (ch : Channel) (rest : List SlotNo) : State := { s with plans := s.planWithout ch rest }

theorem leftPlan_plan (s : State) (ch : Channel) (rest : List SlotNo) : (s.leftPlan ch rest).plan ch = { s.plan ch with records := rest } :=
  planWithout_plan s ch rest

/-- A cancelled record that is the head of its plan: the new head is checked (R50). -/
theorem cancelPlanned_head {ch : Channel} {after : List SlotNo} (hr : s.record i = some r) (hrec : (s.plan ch).records = i :: after)
    (hnd : (s.plan ch).records.Nodup) :
    s.cancelPlanned ch i = ((s.leftPlan ch after).freed i r (unstartedBody s i r .cancelled)).checkHead ch := by
  have hdrop : s.dropHead ch i .cancelled = (s.leftPlan ch after).freed i r (unstartedBody s i r .cancelled) :=
    dropHead_eq hrec hnd hr .cancelled
  have hhead : (s.plan ch).records.head? = some i := by rw [hrec]; rfl
  unfold State.cancelPlanned
  rw [hdrop]
  exact if_pos hhead

/-- A cancelled record behind the head leaves its plan, and the head stays unchecked (R50). -/
theorem cancelPlanned_behind {ch : Channel} {before after : List SlotNo} (hr : s.record i = some r)
    (hrec : (s.plan ch).records = before ++ i :: after) (hnd : (s.plan ch).records.Nodup) (hb : before ≠ []) :
    s.cancelPlanned ch i = (s.leftPlan ch (before ++ after)).freed i r (unstartedBody s i r .cancelled) := by
  have hdrop : s.dropHead ch i .cancelled = (s.leftPlan ch (before ++ after)).freed i r (unstartedBody s i r .cancelled) :=
    dropHead_split hr hrec hnd
  have hhead : ¬ (s.plan ch).records.head? = some i := by
    obtain ⟨j, before, rfl⟩ := List.exists_cons_of_ne_nil hb
    rw [hrec] at hnd ⊢
    intro h
    cases h
    exact (List.nodup_cons.mp hnd).1 (List.mem_append_right _ List.mem_cons_self)
  unfold State.cancelPlanned
  rw [hdrop]
  exact if_neg hhead

/-- The new head of a plan is not due after the old one is cancelled. -/
theorem leftPlan_stops {ch : Channel} {after : List SlotNo} {b : EndedBody} (hrec : (s.plan ch).records = i :: after)
    (hnd : (s.plan ch).records.Nodup) (hn : s.NextNotDue after) (hl : (s.plan ch).loads = []) :
    ((s.leftPlan ch after).freed i r b).checkHead ch = (s.leftPlan ch after).freed i r b := by
  rw [hrec] at hnd
  rw [← settleList_eq_checkHead (rest := after) (by rw [freed_plan, leftPlan_plan])]
  refine settleList_notDue (by rw [freed_plan, leftPlan_plan]; exact hl) (nextNotDue_congr hn (freed_deviceTime _ _ _ _) fun j hj => ?_)
  exact freed_record_ne (s.leftPlan ch after) r b (i := i) (by rintro rfl; exact (List.nodup_cons.mp hnd).1 hj)

/-- A PLANNED or WAITING record leaves its plan, with a new head that is not due (R50). -/
theorem cancelledAt_planned {before after : List SlotNo} (hh : s.Held) (hr : s.record i = some r)
    (hst : r.state = .planned ∨ r.state = .waiting) (hrec : (s.plan r.channel).records = before ++ i :: after)
    (hn : before = [] → s.NextNotDue after ∧ (s.plan r.channel).loads = []) :
    (s.leftPlan r.channel (before ++ after)).Frees (s.cancelledAt i r) i r (unstartedBody s i r .cancelled) := by
  have hleft : s.cancelRecord i r = (s.leftPlan r.channel (before ++ after)).freed i r (unstartedBody s i r .cancelled) := by
    rw [cancelRecord_planned hst]
    by_cases hb : before = []
    · subst hb
      obtain ⟨hnext, hl⟩ := hn rfl
      rw [cancelPlanned_head hr hrec (hh.planOnce _), leftPlan_stops hrec (hh.planOnce _) hnext hl]
      rfl
    · exact cancelPlanned_behind hr hrec (hh.planOnce _) hb
  unfold State.cancelledAt
  rw [hleft]
  exact watch_frees (u := s.leftPlan r.channel (before ++ after)) rfl rfl i _

/-- A cancelled head, and the new head handled in the same event (R50). -/
theorem cancelledAt_head {after : List SlotNo} (hreset : s.inReset = false) (hh : s.Held) (hr : s.record i = some r)
    (hst : r.state = .planned ∨ r.state = .waiting) (hrec : (s.plan r.channel).records = i :: after) :
    ∃ v, exec (.headDue r.channel) ((s.leftPlan r.channel after).freed i r (unstartedBody s i r .cancelled)) = .next v ∧
      s.cancelledAt i r = v.watched [r.channel] := by
  refine ⟨_, headDue_next (by rw [freed_inReset]; exact hreset) _, ?_⟩
  unfold State.cancelledAt
  rw [cancelRecord_planned hst, cancelPlanned_head hr hrec (hh.planOnce _)]
  exact watch_checkHead (lt_freed_freeList (s.leftPlan r.channel after) i r _ rfl)

/-- A CURRENT record is cut to the rest level and its end handed to the plan (R71). -/
theorem cancelledAt_current {run : Running} (hh : s.Held) (hr : s.record i = some r) (hst : r.state = .current)
    (hrun : (s.engine r.channel).current = some run) :
    State.Frees { s with
      engines := setAt s.engines r.channel ((s.engine r.channel).cut (s.engine r.channel).restLevel .idle)
      plans := setAt s.plans r.channel { s.plan r.channel with endHanded := true } } (s.cancelledAt i r) i r
      (endBody s run r .cancelled) := by
  obtain ⟨run', hrun', rfl⟩ := (hh.runs hr r.channel).mpr ⟨rfl, hst⟩
  rw [hrun] at hrun'
  cases hrun'
  unfold State.cancelledAt State.cancelRecord
  rw [hst]
  dsimp only
  rw [cancelCurrent_eq ⟨hrun, hr, rfl⟩]
  exact watch_frees (u := { s with
    engines := setAt s.engines r.channel ((s.engine r.channel).cut (s.engine r.channel).restLevel .idle)
    plans := setAt s.plans r.channel { s.plan r.channel with endHanded := true } }) rfl rfl run.slot _

end Cancel

/-! ### CANCEL (O46) -/

/-- The invariant of the places does not read the Receive Queue. -/
theorem State.Held.withRxQueue {s : State} (hh : s.Held) (rest : List Request) : State.Held { s with rxQueue := rest } :=
  hh.congr rfl rfl (fun _ => rfl) rfl fun _ => .refl _

theorem doCancel_stale {s : State} {i : SlotNo} {gen : Byte} (h : gen = 0 ∨ gen.toNat ≠ (s.slot i).gen ∨ s.record i = none) :
    s.doCancel [BitVec.ofNat 8 i.val, gen] = ((.noSuchAction, []), s) := by
  unfold State.doCancel
  rw [handleField_slot_gen, lookup_stale h]
  rfl

theorem doCancel_live {s : State} {i : SlotNo} {gen : Byte} {r : Record} (h0 : gen ≠ 0) (hg : gen.toNat = (s.slot i).gen)
    (hr : s.record i = some r) : s.doCancel [BitVec.ofNat 8 i.val, gen] = ((.ok, []), s.cancelledAt i r) := by
  unfold State.doCancel
  rw [handleField_slot_gen, lookup_live h0 hg hr]
  rfl

/-- Settles O46, by the block that holds the record. -/
theorem cancelFreesTheRecord : Obligations.CancelFreesTheRecord := by
  unfold Obligations.CancelFreesTheRecord
  intro s rq rest i gen hc hh hk hfs s1 frees
  have hh1 : s1.Held := hh.withRxQueue rest
  have answers : ∀ {st out} {u : State}, s1.doCancel [BitVec.ofNat 8 i.val, gen] = ((st, out), u) →
      exec .cancel s = .next (u.withReply rq st out) :=
    fun h => request_answersOn (fun fs s => s.doCancel fs) 5 hc hk hfs h
  refine ⟨fun h => answers (doCancel_stale (s := s1) h), fun r hg hr => ?_⟩
  have h0 : gen ≠ 0 := by
    rintro rfl
    have := (hh.generation i).1
    rw [← hg] at this
    exact absurd this (by decide)
  have hlive := answers (doCancel_live (s := s1) h0 hg hr)
  refine ⟨fun g hst hgroup => ⟨_, hlive, cancelledAt_staged (s := s1) hr hst hgroup⟩, fun before after hst hrec hn => ⟨_, hlive, ?_⟩,
    fun after hst hrec => ?_, fun run hst hrun => ⟨_, hlive, cancelledAt_current (s := s1) hh1 hr hst hrun⟩⟩
  · exact cancelledAt_planned (s := s1) hh1 hr hst hrec hn
  · obtain ⟨v, hv, he⟩ := cancelledAt_head (s := s1) hc.running hh1 hr hst hrec
    exact ⟨v, hv, he ▸ hlive⟩

/-! ### CANCEL_TAG (O53) -/

section CancelTag

variable {s : State} {tag : Byte}

/-- No OPEN entry holds the tag (R122). -/
theorem doCancelTag_notOpen (h : ¬ s.TagOpen tag.toNat) : s.doCancelTag [tag] =
    if s.tagsWaiting.any (·.tag = tag.toNat) then (bare .alreadyEnded, s) else (bare .noSuchTag, s) := by
  have hfind : s.tagsOpen.find? (·.tag = tag.toNat) = none :=
    List.find?_eq_none.mpr fun e he ht => h ⟨e, he, of_decide_eq_true ht⟩
  unfold State.doCancelTag
  rw [field_one (b := tag) rfl]
  dsimp only
  rw [hfind]

/-- The OPEN entry that holds the tag has its subject ended (R122). -/
theorem doCancelTag_open {before after : List OpenTag} {e : OpenTag} (h : s.tagsOpen = before ++ e :: after) (he : e.tag = tag.toNat)
    (hb : ∀ x ∈ before, x.tag ≠ tag.toNat) : s.doCancelTag [tag] = ((.ok, []), s.cancelSubject e) := by
  have hfind : s.tagsOpen.find? (·.tag = tag.toNat) = some e := by
    rw [h, List.find?_append, List.find?_eq_none.mpr fun x hx => by simpa using hb x hx]
    simp [he]
  unfold State.doCancelTag
  rw [field_one (b := tag) rfl]
  dsimp only
  rw [hfind]
  rfl

variable {e : OpenTag}

theorem cancelSubject_sync {arm : SyncArm} (he : e.subject = .sync) (ha : s.syncArm = some arm) : s.cancelSubject e =
    State.withDone { s with syncArm := none } e.tag .cancelled (.sync arm.value arm.pol s.deviceTime s.deviceTime) := by
  unfold State.cancelSubject State.cancelArm
  rw [he, ha]
  exact completeTag_eq_withDone _ _ _ _

theorem cancelSubject_idleWait {mask : Byte} (he : e.subject = .idleWait mask) :
    s.cancelSubject e = s.withDone e.tag .cancelled (.idleWait mask s.deviceTime) := by
  unfold State.cancelSubject
  rw [he]
  exact completeTag_eq_withDone _ _ _ _

theorem cancelSubject_snapshot {mask : Byte} {sc : Scheduled} (he : e.subject = .snapshot mask) (hs : s.snapshot = some sc) :
    s.cancelSubject e = State.withDone { s with snapshot := none } e.tag .cancelled (.uncaptured sc.mask sc.time s.deviceTime) := by
  unfold State.cancelSubject State.cancelSnapshot
  rw [he, hs]
  exact completeTag_eq_withDone _ _ _ _

/-- The handle of a record in use names it (R16). -/
theorem lookup_handle {i : SlotNo} {r : Record} (hh : s.Held) (hr : s.record i = some r) : s.lookup (s.handle i) = some (i, r) := by
  obtain ⟨h1, h255⟩ := hh.generation i
  have hgen : (BitVec.ofNat 8 (s.slot i).gen).toNat = (s.slot i).gen := by
    rw [BitVec.toNat_ofNat, Nat.mod_eq_of_lt (by omega)]
  have h0 : BitVec.ofNat 8 (s.slot i).gen ≠ 0 := by
    intro h
    rw [h] at hgen
    have : (0 : Byte).toNat = 0 := rfl
    omega
  have hlive := lookup_live h0 hgen hr
  rwa [hgen] at hlive

theorem cancelSubject_action {i : SlotNo} {r : Record} (hh : s.Held) (he : e.subject = .action (s.handle i)) (hr : s.record i = some r) :
    s.cancelSubject e = s.cancelledAt i r := by
  unfold State.cancelSubject
  rw [he]
  dsimp only
  rw [lookup_handle hh hr]
  rfl

end CancelTag

/-- Settles O53, by the subject of the entry. -/
theorem cancelTagEndsTheSubject : Obligations.CancelTagEndsTheSubject := by
  unfold Obligations.CancelTagEndsTheSubject
  intro s rq rest tag hc hk hfs s1 ended
  have answers : ∀ {st out} {u : State}, s1.doCancelTag [tag] = ((st, out), u) → exec .cancelTag s = .next (u.withReply rq st out) :=
    fun h => request_answersOn (fun fs s => s.doCancelTag fs) 4 hc hk hfs h
  refine ⟨fun hno => ⟨fun hw => answers ?_, fun hw => answers ?_⟩, fun before after e hopen he hb => ?_⟩
  · rw [doCancelTag_notOpen (s := s1) hno]
    exact if_pos (by simpa using hw)
  · rw [doCancelTag_notOpen (s := s1) hno]
    exact if_neg (by simpa using hw)
  have hend := answers (doCancelTag_open (s := s1) hopen he hb)
  refine ⟨fun arm hs ha => ?_, fun mask hs => ?_, fun mask sc hs hsc => ?_, fun i r hh hs hr => ?_⟩
  · exact hend.trans (by rw [cancelSubject_sync (s := s1) hs ha])
  · exact hend.trans (by rw [cancelSubject_idleWait (s := s1) hs])
  · exact hend.trans (by rw [cancelSubject_snapshot (s := s1) hs hsc])
  · have hh1 : s1.Held := hh.withRxQueue rest
    rw [cancelSubject_action (s := s1) hh1 hs hr] at hend
    refine ⟨fun g hst hgroup => ⟨_, hend, cancelledAt_staged (s := s1) hr hst hgroup⟩, fun front rear hst hrec hn => ⟨_, hend, ?_⟩,
      fun rear hst hrec => ?_, fun run hst hrun => ⟨_, hend, cancelledAt_current (s := s1) hh1 hr hst hrun⟩⟩
    · exact cancelledAt_planned (s := s1) hh1 hr hst hrec hn
    · obtain ⟨v, hv, he⟩ := cancelledAt_head (s := s1) hc.running hh1 hr hst hrec
      exact ⟨v, hv, he ▸ hend⟩

/-! ### CANCEL_CHANNEL (O47) -/

section CancelChannel

variable {s : State} {ch : Channel}

/-- The records of a plan freed as CANCELLED, the plan empty (R51). -/
def State.planFreed (s : State) (ch : Channel) : State := (s.leftPlan ch []).freedAll .cancelled (s.plan ch).records

theorem emptyPlan_eq_planFreed (s : State) (ch : Channel) : s.emptyPlan ch = s.planFreed ch := freeAll_eq_freedAll _ _ _

theorem planFreed_freeList (hh : s.Held) (ch : Channel) : (s.planFreed ch).freeList = s.freeList ++ (s.plan ch).records :=
  freedAll_freeList (s := s.leftPlan ch []) _ _ (hh.planOnce ch) fun i hi => by
    obtain ⟨r, hr, -⟩ := hh.plan_record hi
    exact ⟨r, hr⟩

/-- The watch after the records of a plan are freed (R125). -/
theorem watch_planFreed (hh : s.Held) (ch : Channel) :
    (s.leftPlan ch []).FreesAll (watch (maskOf ch) s (s.planFreed ch)) (s.plan ch).records .cancelled := by
  unfold State.FreesAll
  refine watch_freed (planFreed_freeList hh ch) (fun hne => names_channelsOf hne fun i hi => ?_) fun h => by rw [h]; rfl
  obtain ⟨r, hr, hch, -⟩ := hh.plan_record hi
  exact ⟨r, hr, hch⟩

/-- The action of a channel is not touched by the emptying of its plan. -/
theorem planFreed_runs {run : Running} {r : Record} (hh : s.Held) (h : s.Runs ch run r) : (s.planFreed ch).Runs ch run r :=
  ⟨by unfold State.planFreed; rw [freedAll_engine]; exact h.1,
    (freedAll_record_notMem _ (s.leftPlan ch []) (hh.slot_notMem_plan h)).trans h.2.1, h.2.2⟩

theorem planFreed_endBody {run : Running} {r : Record} (hh : s.Held) (h : s.Runs ch run r) (res : EndResult) :
    endBody (s.planFreed ch) run r res = endBody s run r res := by
  have hhandle : (s.planFreed ch).handle run.slot = s.handle run.slot :=
    freedAll_handle_notMem _ (s := s.leftPlan ch []) (hh.slot_notMem_plan h)
  have htime : (s.planFreed ch).deviceTime = s.deviceTime := freedAll_deviceTime _ _ _
  unfold endBody
  rw [hhandle, htime]

/-- With the flag set the current action is cancelled after the records of the plan (R51). -/
theorem watch_cancelAll_current {run : Running} {r : Record} (hh : s.Held) (h : s.Runs ch run r) :
    State.Frees { s.planFreed ch with
      engines := setAt s.engines ch ((s.engine ch).cut (s.engine ch).restLevel .idle)
      plans := setAt s.plans ch { s.plan ch with records := [], endHanded := true } } (watch (maskOf ch) s (s.cancelAll ch true))
      run.slot r (endBody s run r .cancelled) := by
  have hengines : (s.planFreed ch).engines = s.engines := freedAll_engines _ _ _
  have hengine : (s.planFreed ch).engine ch = s.engine ch := freedAll_engine _ _ _ _
  have hplans : (s.planFreed ch).plans = s.planWithout ch [] := freedAll_plans _ _ _
  have hplan : (s.planFreed ch).plan ch = { s.plan ch with records := [] } := (freedAll_plan _ _ _ _).trans (leftPlan_plan s ch [])
  have hfree := planFreed_freeList hh ch
  have hcancel : s.cancelAll ch true = State.freed { s.planFreed ch with
      engines := setAt s.engines ch ((s.engine ch).cut (s.engine ch).restLevel .idle)
      plans := setAt s.plans ch { s.plan ch with records := [], endHanded := true } } run.slot r (endBody s run r .cancelled) := by
    unfold State.cancelAll
    rw [if_pos rfl, emptyPlan_eq_planFreed, cancelCurrent_eq (planFreed_runs hh h), planFreed_endBody hh h, hengines, hengine, hplans, hplan]
    unfold State.planWithout
    rw [setAt_setAt]
  rw [hcancel, watch_grown (names_maskOf ch)]
  · exact frees_of_channel h.2.2 _ _ _
  · rw [freed_freeList]
    show _ < ((s.planFreed ch).freeList ++ [run.slot]).length
    rw [hfree]
    simp only [List.length_append, List.length_singleton]
    omega

theorem cancelAll_none (h : (s.engine ch).current = none) (flag : Bool) : s.cancelAll ch flag = s.planFreed ch := by
  have hnone : ((s.planFreed ch).engine ch).current = none := by
    unfold State.planFreed
    rw [freedAll_engine]
    exact h
  unfold State.cancelAll
  rw [emptyPlan_eq_planFreed]
  split
  · unfold State.cancelCurrent
    rw [hnone]
  · rfl

theorem doCancelChannel_badParam (s : State) (n : Byte) {flag : Byte} (h : 1 < flag.toNat) :
    s.doCancelChannel [n, flag] = ((.badParam, []), s) := by
  unfold State.doCancelChannel
  rw [flagField_gt_one (fs := [n, flag]) (off := 1) rfl h]
  rfl

theorem doCancelChannel_badChannel (s : State) {n flag : Byte} (hflag : flag.toNat ≤ 1) (h : 7 < n.toNat) :
    s.doCancelChannel [n, flag] = ((.badChannel, []), s) := by
  obtain ⟨c, rfl⟩ := exists_flagBit hflag
  unfold State.doCancelChannel
  rw [flagField_flagBit (fs := [n, flagBit c]) (off := 1) rfl, field_one (fs := [n, flagBit c]) (off := 0) rfl, toChannel_gt_seven h]
  rfl

theorem doCancelChannel_ok (s : State) (ch : Channel) (flag : Bool) : s.doCancelChannel [BitVec.ofNat 8 ch.val, flagBit flag] =
    ((.ok, [BitVec.ofNat 8 (s.cancelCount ch flag)]), watch (maskOf ch) s (s.cancelAll ch flag)) := by
  unfold State.doCancelChannel
  rw [flagField_flagBit (fs := [BitVec.ofNat 8 ch.val, flagBit flag]) (off := 1) rfl,
    field_one (fs := [BitVec.ofNat 8 ch.val, flagBit flag]) (off := 0) rfl, channelByte_toNat, toChannel_val]
  rfl

end CancelChannel

/-- Settles O47, by the flag and the current action. -/
theorem cancelChannelEmptiesThePlan : Obligations.CancelChannelEmptiesThePlan := by
  unfold Obligations.CancelChannelEmptiesThePlan
  intro s rq rest n flag hc hh hk hfs s1
  have hh1 : s1.Held := hh.withRxQueue rest
  have answers : ∀ {fs st out} {u : State}, rq.fields = fs → fs.length + 3 = 5 → s1.doCancelChannel fs = ((st, out), u) →
      exec .cancelChannel s = .next (u.withReply rq st out) :=
    fun hf hl h => request_answersOn (fun fs s => s.doCancelChannel fs) 5 hc hk hf h hl
  refine ⟨fun hflag => answers hfs rfl (doCancelChannel_badParam s1 n hflag),
    fun hflag hn => answers hfs rfl (doCancelChannel_badChannel s1 hflag hn), ?_⟩
  rintro ch rfl emptied records
  refine ⟨fun h => ?emptied, fun run r hflag hruns => ?current⟩
  case emptied =>
    have hflag : ∃ c, flag = flagBit c ∧ s1.cancelAll ch c = s1.planFreed ch ∧ s1.cancelCount ch c = records.length := by
      rcases h with rfl | ⟨rfl, hnone⟩
      · exact ⟨false, rfl, emptyPlan_eq_planFreed s1 ch, rfl⟩
      · refine ⟨true, rfl, cancelAll_none (s := s1) hnone true, ?_⟩
        unfold State.cancelCount
        rw [show (s1.engine ch).current = none from hnone]
        rfl
    obtain ⟨c, rfl, hall, hcount⟩ := hflag
    have hok := doCancelChannel_ok s1 ch c
    rw [hall, hcount] at hok
    refine ⟨_, answers hfs rfl hok, watch_planFreed hh1 ch, fun hnil => ?_⟩
    have hrec : (s1.plan ch).records = [] := hnil
    have hsame : s1.planFreed ch = emptied := by
      unfold State.planFreed
      rw [hrec]
      rfl
    rw [hsame]
    exact watch_same _ s1 emptied rfl
  case current =>
    subst hflag
    have hcount : s1.cancelCount ch true = records.length + 1 := by
      unfold State.cancelCount
      rw [show (s1.engine ch).current = some run from hruns.1]
      rfl
    have hok := doCancelChannel_ok s1 ch true
    rw [hcount] at hok
    exact ⟨_, answers hfs rfl hok, watch_cancelAll_current (s := s1) hh1 hruns⟩

end Sys2Proof.Machine
end

section
/-!
PROOF. NOTICE_ACK: what leaves the queue, and what takes the free places (O54). RESTART, block by block (O55).
-/
namespace Sys2Proof.Machine

/-! ### Notices appended in turn -/

/-- The notices that these bodies become, numbered from `n` on, unsent (R146). -/
def noticesFrom : Nat → List NoticeBody → List Notice
  | _, [] => []
  | n, b :: bs => { number := n, body := b, sent := false } :: noticesFrom (numberAfter n) bs

/-- The next notice number after these bodies are appended (R146). -/
def nextFrom : Nat → List NoticeBody → Nat
  | n, [] => n
  | n, _ :: bs => nextFrom (numberAfter n) bs

theorem noticesFrom_append : ∀ (n : Nat) (bs cs : List NoticeBody),
    noticesFrom n (bs ++ cs) = noticesFrom n bs ++ noticesFrom (nextFrom n bs) cs
  | _, [], _ => rfl
  | n, b :: bs, cs => by
    rw [List.cons_append, noticesFrom, noticesFrom_append]
    rfl

theorem nextFrom_append : ∀ (n : Nat) (bs cs : List NoticeBody), nextFrom n (bs ++ cs) = nextFrom (nextFrom n bs) cs
  | _, [], _ => rfl
  | n, _ :: bs, cs => nextFrom_append (numberAfter n) bs cs

theorem noticesFrom_unsent : ∀ (n : Nat) (bs : List NoticeBody), ∀ y ∈ noticesFrom n bs, y.sent = false
  | _, [], _, h => by cases h
  | n, b :: bs, y, h => by
    rcases List.mem_cons.mp h with rfl | h
    · rfl
    · exact noticesFrom_unsent _ bs y h

theorem noticesFrom_body : ∀ (n : Nat) (bs : List NoticeBody), (noticesFrom n bs).map (·.body) = bs
  | _, [] => rfl
  | n, b :: bs => congrArg (b :: ·) (noticesFrom_body (numberAfter n) bs)

theorem noticesFrom_length (n : Nat) (bs : List NoticeBody) : (noticesFrom n bs).length = bs.length := by
  rw [← List.length_map (f := (·.body)), noticesFrom_body]

theorem noticesFrom_head (n : Nat) (bs : List NoticeBody) : ∀ y ∈ (noticesFrom n bs).head?, y.number = n := by
  cases bs with
  | nil => rintro y ⟨⟩
  | cons b bs => rintro y ⟨⟩; rfl

theorem numbered_noticesFrom : ∀ (bs : List NoticeBody) (n : Nat), 1 ≤ n → n ≤ 65535 → numbered (noticesFrom n bs) (nextFrom n bs)
  | [], _, _, _ => trivial
  | [_], _, h1, h2 => ⟨h1, h2, rfl⟩
  | _ :: c :: bs, n, h1, h2 => by
    refine ⟨h1, h2, rfl, numbered_noticesFrom (c :: bs) (numberAfter n) ?_ ?_⟩
    · unfold numberAfter; split <;> omega
    · unfold numberAfter; split <;> omega

/-- The state with these bodies appended to the Notice Queue. -/
def State.appended (s : State) (bs : List NoticeBody) : State :=
  { s with notices := s.notices ++ noticesFrom s.nextNumber bs, nextNumber := nextFrom s.nextNumber bs }

theorem appended_nil (s : State) : s.appended [] = s := by
  unfold State.appended
  rw [noticesFrom, List.append_nil]
  rfl

theorem appendNotice_appended (s : State) (b : NoticeBody) (bs : List NoticeBody) : (s.appendNotice b).appended bs = s.appended (b :: bs) := by
  unfold State.appended State.appendNotice
  simp only [List.append_assoc, List.singleton_append]
  rfl

theorem appended_appended (s : State) (bs cs : List NoticeBody) : (s.appended bs).appended cs = s.appended (bs ++ cs) := by
  unfold State.appended
  rw [noticesFrom_append, nextFrom_append]
  simp only [List.append_assoc]

/-! ### The refill (R149) -/

/-- The body of the DONE of a waiting entry. -/
def WaitingTag.done (w : WaitingTag) : NoticeBody := .done w.tag w.result w.body

/-- As many waiting DONEs are appended as there are free places, oldest first (R121, R149 step 1). -/
theorem appendWaiting_eq : ∀ (l : List WaitingTag) (s : State), s.tagsWaiting = l → appendWaiting l s =
    State.appended { s with tagsWaiting := l.drop (32 - s.notices.length) } ((l.take (32 - s.notices.length)).map WaitingTag.done)
  | [], s, h => by
    rw [List.take_nil, List.map_nil, appended_nil, List.drop_nil, appendWaiting, ← h]
  | w :: l, s, h => by
    unfold appendWaiting
    by_cases hroom : s.notices.length < 32
    · have hlen : (State.appendNotice { s with tagsWaiting := l } w.done).notices.length = s.notices.length + 1 := List.length_append
      have hsub : 32 - s.notices.length = (32 - (s.notices.length + 1)) + 1 := by omega
      have hrest := appendWaiting_eq l (State.appendNotice { s with tagsWaiting := l } w.done) rfl
      rw [hlen] at hrest
      rw [if_pos ((noticeRoom_iff s).mpr hroom), hsub, List.take_succ_cons, List.map_cons, List.drop_succ_cons, ← appendNotice_appended]
      exact hrest
    · have hsub : 32 - s.notices.length = 0 := by omega
      rw [if_neg (mt (noticeRoom_iff s).mp hroom), hsub, List.take_zero, List.map_nil, appended_nil, List.drop_zero, ← h]

/-- A loss to be reported takes a place that is free (R149 step 2, R150). -/
def State.lossDue (s : State) : Bool := decide (s.notices.length < 32) && decide (0 < s.lossCount)

theorem appendLoss_eq (s : State) : s.appendLoss = State.appended { s with lossCount := if s.lossDue then 0 else s.lossCount }
    (if s.lossDue then [.loss s.lossCount s.deviceTime] else []) := by
  unfold State.appendLoss
  rw [show (s.noticeRoom && decide (0 < s.lossCount)) = s.lossDue from rfl]
  cases s.lossDue with
  | true => rfl
  | false => exact (appended_nil s).symm

theorem appended_length (s : State) (bs : List NoticeBody) : (s.appended bs).notices.length = s.notices.length + bs.length := by
  unfold State.appended
  rw [List.length_append, noticesFrom_length]

/-- The bodies that the free places take: waiting DONEs, and then a LOSS where it is due (R149). -/
def State.refillBodies (s : State) : List NoticeBody :=
  (s.tagsWaiting.take (32 - s.notices.length)).map WaitingTag.done ++
    if 0 < s.lossCount ∧ s.notices.length + (s.tagsWaiting.take (32 - s.notices.length)).length < 32
    then [.loss s.lossCount s.deviceTime] else []

/-- The refill as one append (R149). -/
theorem refill_eq (s : State) : s.refill = State.appended { s with
    tagsWaiting := s.tagsWaiting.drop (s.tagsWaiting.take (32 - s.notices.length)).length
    lossCount := if 0 < s.lossCount ∧ s.notices.length + (s.tagsWaiting.take (32 - s.notices.length)).length < 32
      then 0 else s.lossCount } s.refillBodies := by
  have hdrop : s.tagsWaiting.drop (s.tagsWaiting.take (32 - s.notices.length)).length = s.tagsWaiting.drop (32 - s.notices.length) := by
    rw [List.length_take]
    rcases Nat.le_total (32 - s.notices.length) s.tagsWaiting.length with h | h
    · rw [Nat.min_eq_left h]
    · rw [Nat.min_eq_right h, List.drop_length, List.drop_eq_nil_of_le h]
  have hdue : ∀ u : State, u.lossCount = s.lossCount →
      u.notices.length = s.notices.length + (s.tagsWaiting.take (32 - s.notices.length)).length →
      (u.lossDue = true ↔ 0 < s.lossCount ∧ s.notices.length + (s.tagsWaiting.take (32 - s.notices.length)).length < 32) := by
    intro u h1 h2
    unfold State.lossDue
    rw [h1, h2, Bool.and_eq_true, decide_eq_true_iff, decide_eq_true_iff, and_comm]
  unfold State.refill
  rw [appendWaiting_eq _ s rfl, appendLoss_eq, hdrop]
  simp only [hdue (State.appended { s with tagsWaiting := s.tagsWaiting.drop (32 - s.notices.length) }
    ((s.tagsWaiting.take (32 - s.notices.length)).map WaitingTag.done)) rfl (by rw [appended_length, List.length_map])]
  exact appended_appended { s with
    tagsWaiting := s.tagsWaiting.drop (32 - s.notices.length)
    lossCount := if 0 < s.lossCount ∧ s.notices.length + (s.tagsWaiting.take (32 - s.notices.length)).length < 32
      then 0 else s.lossCount } _ _

/-! ### NOTICE_ACK (O54) -/

section Ack

variable {s : State} {n : Nat}

theorem ackCount_none (h : ∀ x ∈ s.notices, x.number = n → x.sent = false) : s.ackCount n = none := by
  unfold State.ackCount
  rw [List.findIdx?_eq_none_iff.mpr fun x hx => ?_]
  · rfl
  · by_cases hn : x.number = n
    · rw [h x hx hn, Bool.and_false]
    · rw [decide_eq_false hn, Bool.false_and]

/-- The notice acknowledged and every older one are counted (R155). -/
theorem ackCount_at {old later : List Notice} {x : Notice} (h : s.notices = old ++ x :: later) (hn : x.number = n) (hs : x.sent = true)
    (ho : ∀ y ∈ old, y.number ≠ n) : s.ackCount n = some (old.length + 1) := by
  have hold : old.findIdx? (fun x => decide (x.number = n) && x.sent) = none :=
    List.findIdx?_eq_none_iff.mpr fun y hy => by rw [decide_eq_false (ho y hy), Bool.false_and]
  unfold State.ackCount
  rw [h, List.findIdx?_append, hold]
  simp [List.findIdx?_cons, hn, hs]

/-- The retry timer after a NOTICE_ACK that leaves these notices before the refill (R152). -/
theorem retryAfterAck_eq (s : State) : s.retryAfterAck = { s with
    retryTimer := if ∀ y ∈ s.notices, y.sent = false then none else some (s.retryTime * 1000) } := by
  unfold State.retryAfterAck
  simp only [sentCount_zero_iff]
  split <;> rfl

/-- The queue with the notices up to the one acknowledged removed (R155). -/
def State.acked (s : State) (later : List Notice) : State := { s with notices := later, expiries := 0 }

theorem noticeAck_accepted {old later : List Notice} {x : Notice} (hb : n < 2 ^ 16) (h : s.notices = old ++ x :: later)
    (hn : x.number = n) (hs : x.sent = true) (ho : ∀ y ∈ old, y.number ≠ n) : s.noticeAck (leBytes 2 n) =
      ((.ok, [BitVec.ofNat 8 (old.length + 1), BitVec.ofNat 8 (s.acked later).refill.retryAfterAck.notices.length]),
        (s.acked later).refill.retryAfterAck) := by
  have hfield : field (leBytes 2 n) 0 2 = n := field_of_take rfl hb
  have hdrop : s.notices.drop (old.length + 1) = later := by
    rw [h, List.drop_append]
    simp
  unfold State.noticeAck
  rw [hfield, ackCount_at h hn hs ho]
  dsimp only
  rw [hdrop]
  rfl

theorem noticeAck_refused (hb : n < 2 ^ 16) (h : ∀ x ∈ s.notices, x.number = n → x.sent = false) :
    s.noticeAck (leBytes 2 n) = ((.badParam, []), s) := by
  have hfield : field (leBytes 2 n) 0 2 = n := field_of_take rfl hb
  unfold State.noticeAck
  rw [hfield, ackCount_none h]
  rfl

/-- What is appended is unsent, so that the sent notices are those that were left (R152). -/
theorem unsent_append (later : List Notice) (k : Nat) (bs : List NoticeBody) :
    (∀ y ∈ later ++ noticesFrom k bs, y.sent = false) ↔ ∀ y ∈ later, y.sent = false := by
  constructor
  · exact fun h y hy => h y (List.mem_append_left _ hy)
  · intro h y hy
    rcases List.mem_append.mp hy with hy | hy
    · exact h y hy
    · exact noticesFrom_unsent k bs y hy

end Ack

/-- Settles O54: the notices left, the refill as one append, and the timer by the notices left. -/
theorem noticeAckRemovesAndRefills : Obligations.NoticeAckRemovesAndRefills := by
  unfold Obligations.NoticeAckRemovesAndRefills
  intro s rq rest n hc hk hb hfs s1
  have answers : ∀ {st out} {u : State}, s1.noticeAck (leBytes 2 n) = ((st, out), u) → exec .noticeAck s = .next (u.withReply rq st out) :=
    fun h => request_answersOn (fun fs s => s.noticeAck fs) 5 hc hk hfs h
  refine ⟨fun h => answers (noticeAck_refused (s := s1) hb h), fun old x later h hn hs ho => ?_⟩
  intro moved loss
  have hfill := refill_eq (s1.acked later)
  have hbodies : (s1.acked later).refillBodies = moved.map (fun w => .done w.tag w.result w.body)
      ++ (if loss then [.loss s.lossCount s.deviceTime] else []) := rfl
  refine ⟨_, answers (noticeAck_accepted (s := s1) hb h hn hs ho), ?_, noticesFrom s.nextNumber (s1.acked later).refillBodies, ?_, ?_, ?_,
    fun hnil => ?_, ?_, fun h1 h2 => ?_⟩
  · rw [hfill, retryAfterAck_eq]
    simp only [State.appended, State.acked, unsent_append]
    rfl
  · rw [hfill, retryAfterAck_eq]
    rfl
  · exact noticesFrom_unsent _ _
  · rw [noticesFrom_body, hbodies]
  · have hnone : (s1.acked later).refillBodies = [] := by
      rw [← noticesFrom_body s.nextNumber (s1.acked later).refillBodies, hnil]
      rfl
    rw [hfill, retryAfterAck_eq, hnone]
    rfl
  · exact noticesFrom_head _ _
  · rw [hfill, retryAfterAck_eq]
    exact numbered_noticesFrom _ _ h1 h2

/-! ### RESTART (O55) -/

theorem latchAtRestart_eq (s : State) : s.latchAtRestart =
    { s with latch := !s.safenSample, cause := if !s.safenSample then .line else s.cause } := by
  unfold State.latchAtRestart
  by_cases h : s.safenSample = true
  · rw [if_pos h, h]
    rfl
  · rw [if_neg h, Bool.eq_false_of_not_eq_true h]
    rfl

theorem takenBack_eq (sl : Slot) : sl.takenBack = if sl.record = none then sl
    else { gen := if sl.gen < 255 then sl.gen + 1 else 1, record := none } := by
  unfold Slot.takenBack
  cases h : sl.record with
  | none => exact (if_pos rfl).symm
  | some r => exact (if_neg (Option.some_ne_none r)).symm

theorem atRestart_eq (e : Engine) (latch : Bool) : e.atRestart latch =
    if e.state = .off then { e with current := none, pendingEdge := false, strayCount := 0, safeHanded := [] }
    else { e.cut e.config.safeLevel (if latch then .safed else .idle) with
      restLevel := e.config.safeLevel, strayCount := 0, safeHanded := [] } := by
  unfold Engine.atRestart
  split
  · next h =>
    unfold Engine.ended
    rw [← h]
  · rfl

/-- RESTART on a request of its kind (R184): the reply first, and then every block. -/
theorem restart_next {s : State} {rq : Request} {rest : List Request} (h : s.Carries rq rest) (hk : rq.kind = 0x7F)
    (hfs : rq.fields = []) : exec .restart s = .next (State.withReply { s with rxQueue := rest } rq .ok []).restartBlocks := by
  have hlen : rq.fields.length + 3 = 3 := by rw [hfs]; rfl
  unfold exec
  refine (whileRunning_running _ h.running).trans (congrArg Host.Outcome.next ?_)
  rw [takeHead_of_carries h (by rw [← hk]; exact isKind_of_carries h), if_pos hlen, answer_eq_withReply]
  rfl

/-- Settles O55, block by block. -/
theorem restartClearsTheWork : Obligations.RestartClearsTheWork := by
  unfold Obligations.RestartClearsTheWork
  intro s rq rest h hk hfs latch
  rw [restart_next h hk hfs]
  unfold State.restartBlocks
  rw [latchAtRestart_eq]
  simp only [funext takenBack_eq, atRestart_eq]
  rfl

end Sys2Proof.Machine
end

section
/-!
PROOF. SET_CHANNEL (O42): its refusals, and what the new configuration does at the engine and at the trigger input.
-/
namespace Sys2Proof.Machine

/-! ### The refusals (R56) -/

/-- The fields that write a channel and its configuration (section 11.2). -/
def setChannelBody (ch : Channel) (cfg : ChanConfig) : List Byte := BitVec.ofNat 8 ch.val :: configBytes cfg

/-- A polarity that is read back is written by its code. -/
theorem trigPolarityOf_code (p : TrigPolarity) : trigPolarityOf (trigPolarityCode p).toNat = some p := by
  cases p <;> rfl

theorem exists_trigPolarityCode {b : Byte} (h : b.toNat ≤ 2) : ∃ p, b = trigPolarityCode p := by
  have hb : b.toNat = 0 ∨ b.toNat = 1 ∨ b.toNat = 2 := by omega
  rcases hb with h0 | h1 | h2
  · exact ⟨.rising, BitVec.eq_of_toNat_eq h0⟩
  · exact ⟨.falling, BitVec.eq_of_toNat_eq h1⟩
  · exact ⟨.both, BitVec.eq_of_toNat_eq h2⟩

theorem trigPolarityOf_gt_two {n : Nat} (h : 2 < n) : trigPolarityOf n = none := by
  unfold trigPolarityOf
  split
  · omega
  · omega
  · omega
  · rfl

theorem channelInUse_iff (s : State) (ch : Channel) : s.channelInUse ch = true ↔
    (s.engine ch).state = .running ∨ (s.engine ch).state = .armed ∨ (s.engine ch).state = .firing ∨ (s.plan ch).records ≠ [] ∨
      ∃ g, s.group = some g ∧ ∃ i ∈ g.staging, ∃ r, s.record i = some r ∧ r.channel = ch := by
  have hstaged : s.stagedOn ch = true ↔ ∃ g, s.group = some g ∧ ∃ i ∈ g.staging, ∃ r, s.record i = some r ∧ r.channel = ch := by
    unfold State.stagedOn
    cases s.group with
    | none => simp
    | some g => simp [Option.any_eq_true]
  have hbusy : (s.engine ch).state.busy = true ↔
      (s.engine ch).state = .running ∨ (s.engine ch).state = .armed ∨ (s.engine ch).state = .firing := by
    cases (s.engine ch).state <;> simp [ChanState.busy]
  have hplan : (!(s.plan ch).records.isEmpty) = true ↔ (s.plan ch).records ≠ [] := by simp
  unfold State.channelInUse
  rw [Bool.or_eq_true, Bool.or_eq_true, hstaged, hbusy, hplan]
  simp only [or_assoc]

section Refusals

variable {s : State} {n en level pol filter : Byte}

theorem setChannel_badParam (h : 1 < en.toNat ∨ 1 < level.toNat ∨ 2 < pol.toNat) :
    s.setChannel [n, en, level, pol, filter] = (bare .badParam, s) := by
  unfold State.setChannel
  split
  · next hen hlevel hpol =>
    rcases h with h | h | h
    · rw [flagField_gt_one (b := en) rfl h] at hen; cases hen
    · rw [flagField_gt_one (b := level) rfl h] at hlevel; cases hlevel
    · rw [field_one (b := pol) rfl, trigPolarityOf_gt_two h] at hpol; cases hpol
  · rfl

/-- Defined fields are those of a configuration. -/
theorem exists_configBytes (h : ¬ (1 < en.toNat ∨ 1 < level.toNat ∨ 2 < pol.toNat)) :
    ∃ cfg : ChanConfig, [en, level, pol, filter] = configBytes cfg := by
  obtain ⟨enabled, rfl⟩ := exists_flagBit (b := en) (by omega)
  obtain ⟨safeLevel, rfl⟩ := exists_flagBit (b := level) (by omega)
  obtain ⟨polarity, rfl⟩ := exists_trigPolarityCode (b := pol) (by omega)
  exact ⟨{ enabled := enabled, safeLevel := safeLevel, polarity := polarity, filter := filter }, rfl⟩

theorem setChannel_badChannel {cfg : ChanConfig} (h : 7 < n.toNat) : s.setChannel (n :: configBytes cfg) = (bare .badChannel, s) := by
  have hen : flagField (n :: configBytes cfg) 1 = some cfg.enabled := flagField_flagBit rfl
  have hlevel : flagField (n :: configBytes cfg) 2 = some cfg.safeLevel := flagField_flagBit rfl
  have hpol : trigPolarityOf (field (n :: configBytes cfg) 3 1) = some cfg.polarity := by
    rw [field_one (b := trigPolarityCode cfg.polarity) rfl, trigPolarityOf_code]
  have hch : toChannel (field (n :: configBytes cfg) 0 1) = none := by
    rw [field_one (b := n) rfl, toChannel_gt_seven h]
  unfold State.setChannel
  rw [hen, hlevel, hpol]
  dsimp only
  rw [hch]

end Refusals

/-- SET_CHANNEL with defined fields (R56 step 4, R57). -/
theorem setChannel_defined (s : State) (ch : Channel) (cfg : ChanConfig) : s.setChannel (setChannelBody ch cfg) =
    if s.channelInUse ch then (bare .busy, s) else (bare .ok, s.configure ch cfg) := by
  have hen : flagField (setChannelBody ch cfg) 1 = some cfg.enabled := flagField_flagBit rfl
  have hlevel : flagField (setChannelBody ch cfg) 2 = some cfg.safeLevel := flagField_flagBit rfl
  have hpol : trigPolarityOf (field (setChannelBody ch cfg) 3 1) = some cfg.polarity := by
    rw [field_one (b := trigPolarityCode cfg.polarity) rfl, trigPolarityOf_code]
  have hch : toChannel (field (setChannelBody ch cfg) 0 1) = some ch := by
    rw [field_one (b := BitVec.ofNat 8 ch.val) rfl, channelByte_toNat, toChannel_val]
  have hfilter : byteField (setChannelBody ch cfg) 4 = cfg.filter := by
    rw [byteField, field_one (b := cfg.filter) rfl, BitVec.ofNat_toNat, BitVec.setWidth_eq]
  unfold State.setChannel
  rw [hen, hlevel, hpol]
  dsimp only
  rw [hch, hfilter]

/-! ### The expiry that is taken first (R80, log 8) -/

theorem takeFilterExpiry_trigger (s : State) (ch : Channel) : (s.takeFilterExpiry ch).trigger ch = (s.trigger ch).takeExpiry.1 := by
  rw [takeFilterExpiry_eq]
  exact setTrigger_trigger_self s ch _

theorem takeFilterExpiry_channelInUse (s : State) (ch : Channel) : (s.takeFilterExpiry ch).channelInUse ch = s.channelInUse ch := by
  have hstate : ((s.takeFilterExpiry ch).engine ch).state = (s.engine ch).state := by
    rw [takeFilterExpiry_eq, modEngine_engine_self]; rfl
  unfold State.channelInUse
  rw [hstate]
  rfl

/-- A configuration after the expiry is the configuration that takes it first. -/
theorem takeFilterExpiry_configure (s : State) (ch : Channel) (cfg : ChanConfig) :
    (s.takeFilterExpiry ch).configure ch cfg = s.configure ch cfg := by
  have htwice : (s.takeFilterExpiry ch).takeFilterExpiry ch = s.takeFilterExpiry ch :=
    takeFilterExpiry_none (by rw [takeFilterExpiry_trigger]; exact takeExpiry_timer _)
  rw [configure_eq, configure_eq, htwice]
  rfl

/-- For an accepted SET_CHANNEL the expiry of the filter timer may come first (log 8). -/
theorem setChannel_takes_expiry_first {s : State} {ch : Channel} {cfg : ChanConfig} {rq : Request} {rest : List Request}
    (hc : s.Carries rq rest) (hk : rq.kind = 0x05) (hfs : rq.fields = setChannelBody ch cfg)
    (hu : ¬ State.channelInUse { s with rxQueue := rest } ch = true) :
    exec .setChannel s = exec .setChannel (s.takeFilterExpiry ch) := by
  have hc' : (s.takeFilterExpiry ch).Carries rq rest := ⟨hc.running, hc.head, hc.room, hc.fresh⟩
  have huse : State.channelInUse { s.takeFilterExpiry ch with rxQueue := rest } ch = State.channelInUse { s with rxQueue := rest } ch :=
    takeFilterExpiry_channelInUse { s with rxQueue := rest } ch
  have hconf : State.configure { s.takeFilterExpiry ch with rxQueue := rest } ch cfg = State.configure { s with rxQueue := rest } ch cfg :=
    takeFilterExpiry_configure { s with rxQueue := rest } ch cfg
  rw [request_answersOn (fun fs s => s.setChannel fs) 8 hc hk hfs ((setChannel_defined _ ch cfg).trans (if_neg hu)),
    request_answersOn (fun fs s => s.setChannel fs) 8 hc' hk hfs ((setChannel_defined _ ch cfg).trans (if_neg (huse ▸ hu))), hconf]

/-! ### The configuration at the engine and at the trigger input (R57, R82) -/

section Configured

variable {s : State} {ch : Channel} {cfg : ChanConfig}

theorem configure_trigger (h : (s.trigger ch).filterTimer ≠ some 0) :
    (s.configure ch cfg).trigger ch = ((s.trigger ch).configure cfg.filter.toNat).1 := by
  rw [configure_eq, takeFilterExpiry_none h]
  exact setTrigger_trigger_self s ch _

theorem configure_engine (h : (s.trigger ch).filterTimer ≠ some 0) : (s.configure ch cfg).engine ch =
    { (s.engine ch).configure cfg s.latch with
      edgesHanded := (s.engine ch).edgesHanded + edgesOf cfg.polarity ((s.trigger ch).configure cfg.filter.toNat).2 } := by
  rw [configure_eq, takeFilterExpiry_none h, modEngine_engine_self]
  rfl

theorem configure_changes (h : (s.trigger ch).filterTimer ≠ some 0) : s.configure ch cfg =
    { s with
      engines := setAt s.engines ch ((s.configure ch cfg).engine ch)
      triggers := setAt s.triggers ch ((s.configure ch cfg).trigger ch) } := by
  rw [configure_trigger h, configure_engine h, configure_eq, takeFilterExpiry_none h]
  rfl

variable {e : Engine} {latch : Bool}

/-- The engine with its output at the safe level of the new configuration, in a state with a rest level (R57). -/
def Engine.movedTo (e : Engine) (cfg : ChanConfig) (st : ChanState) (restLevel : Bool) : Engine :=
  { e with
    config := cfg, state := st, outputLevel := cfg.safeLevel, out := cfg.safeLevel, changePending := false
    restLevel := restLevel }

theorem engineConfigure_enables (h : e.state = .off) (hen : cfg.enabled = true) :
    e.configure cfg latch = e.movedTo cfg (if latch then .safed else .idle) cfg.safeLevel := by
  unfold Engine.configure
  rw [h, hen]
  rfl

theorem engineConfigure_disables (h : e.state = .off ∨ e.state = .idle ∨ e.state = .safed) (hen : cfg.enabled = false) :
    e.configure cfg latch = e.movedTo cfg .off e.restLevel := by
  unfold Engine.configure
  rcases h with h | h | h
  · rw [h, hen]; rfl
  · rw [h, hen]; rfl
  · rw [h, hen]; rfl

theorem engineConfigure_keeps (h : e.state = .idle) (hen : cfg.enabled = true) :
    e.configure cfg latch = { e with config := cfg } := by
  unfold Engine.configure
  rw [h, hen]

theorem engineConfigure_safed (h : e.state = .safed) (hen : cfg.enabled = true) :
    e.configure cfg latch = e.movedTo cfg .safed cfg.safeLevel := by
  unfold Engine.configure
  rw [h, hen]
  rfl

variable {t : Trigger} {filter : Nat}

/-- A filtered level that agrees with the last sample stays (R82). -/
theorem triggerConfigure_settled (h : t.filtered = none ∨ t.filtered = some t.sample) :
    t.configure filter = ({ t with filterTimer := none }, none) := by
  unfold Trigger.configure
  rcases h with h | h
  · rw [h]
  · rw [h]
    exact if_pos rfl

theorem triggerConfigure_moves (h : t.filtered = some (!t.sample)) (hf : filter = 0) :
    t.configure filter = ({ t with filtered := some t.sample, filterTimer := none }, some t.sample) := by
  have hne : ¬ t.sample = !t.sample := by cases t.sample <;> decide
  unfold Trigger.configure
  rw [h]
  exact (if_neg hne).trans (if_pos hf)

theorem triggerConfigure_starts (h : t.filtered = some (!t.sample)) (hf : filter ≠ 0) :
    t.configure filter = ({ t with filterTimer := some filter }, none) := by
  have hne : ¬ t.sample = !t.sample := by cases t.sample <;> decide
  unfold Trigger.configure
  rw [h]
  exact (if_neg hne).trans ((if_neg hf).trans (by rw [← h]))

end Configured

/-- Settles O42: the refusals in their order, and the configuration at the engine and at the trigger input. -/
theorem setChannelRefusesOrActs : Obligations.SetChannelRefusesOrActs := by
  unfold Obligations.SetChannelRefusesOrActs
  refine ⟨?refused, ?accepted⟩
  case refused =>
    intro s rq rest n en level pol filter hc hk hfs refused badParam
    have answers : ∀ {st : Status}, State.setChannel { s with rxQueue := rest } [n, en, level, pol, filter]
        = (bare st, { s with rxQueue := rest }) → refused st :=
      fun h => request_answersOn (fun fs s => s.setChannel fs) 8 hc hk hfs h
    refine ⟨fun hb => answers (setChannel_badParam hb), fun hb hn => ?_, fun ch hb hn hu => ?_⟩
    · obtain ⟨cfg, hcfg⟩ := exists_configBytes (filter := filter) hb
      exact answers (by rw [hcfg]; exact setChannel_badChannel hn)
    · obtain ⟨cfg, hcfg⟩ := exists_configBytes (filter := filter) hb
      have huse := (channelInUse_iff { s with rxQueue := rest } ch).mpr hu
      exact answers (by rw [hcfg, hn]; exact (setChannel_defined _ ch cfg).trans (if_pos huse))
  case accepted =>
    intro s rq rest ch enabled safeLevel pol filter hc hk hfs hst hplan hstaged
    have hbody : rq.fields = setChannelBody ch { enabled := enabled, safeLevel := safeLevel, polarity := pol, filter := filter } := by
      rw [hfs, setChannelBody, configBytes, trigPolarityCode_eq]; rfl
    generalize hcfg : ({ enabled := enabled, safeLevel := safeLevel, polarity := pol, filter := filter } : ChanConfig) = cfg at hbody
    obtain rfl : cfg.enabled = enabled := by rw [← hcfg]
    obtain rfl : cfg.safeLevel = safeLevel := by rw [← hcfg]
    obtain rfl : cfg.polarity = pol := by rw [← hcfg]
    obtain rfl : cfg.filter = filter := by rw [← hcfg]
    have huse : ¬ State.channelInUse { s with rxQueue := rest } ch = true := fun k => by
      rcases (channelInUse_iff _ ch).mp k with k | k | k | k | ⟨g, hg, i, hi, r, hr, hch⟩
      · rcases hst with h | h | h <;> cases h.symm.trans k
      · rcases hst with h | h | h <;> cases h.symm.trans k
      · rcases hst with h | h | h <;> cases h.symm.trans k
      · exact k hplan
      · exact hstaged g hg i hi r hr hch
    refine ⟨fun ht => ⟨s.takeFilterExpiry ch, by unfold exec; exact whileRunning_running _ hc.running, ?_,
      setChannel_takes_expiry_first hc hk hbody huse⟩, fun ht => ?_⟩
    · rw [takeFilterExpiry_trigger, Trigger.takeExpiry, if_pos ht]
    have he : State.engine (State.configure { s with rxQueue := rest } ch cfg) ch = { (s.engine ch).configure cfg s.latch with
        edgesHanded := (s.engine ch).edgesHanded + edgesOf cfg.polarity ((s.trigger ch).configure cfg.filter.toNat).2 } :=
      configure_engine (s := { s with rxQueue := rest }) ht
    have hg : State.trigger (State.configure { s with rxQueue := rest } ch cfg) ch = ((s.trigger ch).configure cfg.filter.toNat).1 :=
      configure_trigger (s := { s with rxQueue := rest }) ht
    refine ⟨State.configure { s with rxQueue := rest } ch cfg,
      request_answersOn (fun fs s => s.setChannel fs) 8 hc hk hbody ((setChannel_defined _ ch cfg).trans (if_neg huse)),
      configure_changes (s := { s with rxQueue := rest }) ht, ?_⟩
    dsimp only
    rw [he, hg]
    have hzero : cfg.filter.toNat = 0 ↔ cfg.filter = 0 := by
      rw [← BitVec.toNat_inj]; rfl
    refine ⟨fun h hen => ?_, fun hen => ?_, fun h hen => ?_, fun h hen => ?_, fun h => ?_, fun h hf => ?_, fun h hf => ?_⟩
    · rw [engineConfigure_enables h hen]; rfl
    · rw [engineConfigure_disables hst hen]; rfl
    · rw [engineConfigure_keeps h hen]
    · rw [engineConfigure_safed h hen]; rfl
    · rw [triggerConfigure_settled h]
      exact ⟨rfl, rfl⟩
    · rw [triggerConfigure_moves h (hzero.mpr hf), edgesOf_some]
      exact ⟨rfl, rfl⟩
    · rw [triggerConfigure_starts h (mt hzero.mp hf)]
      exact ⟨rfl, rfl⟩

end Sys2Proof.Machine
end

section
/-!
PROOF. The latch setting at a plan (O19) and the skipped-span rule at a forward load (O18).
-/
namespace Sys2Proof.Machine

section Front

variable {s : State} {ch : Channel} {front l : List SlotNo}

/-! ### The front of a plan freed as MISSED -/

/-- The records at the front of a plan freed as MISSED, and the plan left as given. -/
def State.frontMissed (s : State) (ch : Channel) (p : Plan) (front : List SlotNo) : State :=
  State.freedAll { s with plans := setAt s.plans ch p } .missed front

theorem front_nodup (hh : s.Held) (hrec : (s.plan ch).records = front ++ l) : front.Nodup :=
  (List.nodup_append.mp (hrec ▸ hh.planOnce ch)).1

theorem front_record (hh : s.Held) (hrec : (s.plan ch).records = front ++ l) {i : SlotNo} (hi : i ∈ front) :
    ∃ r, s.record i = some r ∧ r.channel = ch := by
  have hmem : i ∈ (s.plan ch).records := by rw [hrec]; exact List.mem_append_left l hi
  obtain ⟨r, hr, hch, -⟩ := hh.plan_record hmem
  exact ⟨r, hr, hch⟩

/-- Dropping the front of a plan of which another part has changed (R47, R48). -/
theorem dropFront_eq_frontMissed (hh : s.Held) (hrec : (s.plan ch).records = front ++ l) {p : Plan} (hp : p.records = front ++ l) :
    front.foldl (fun s i => s.dropHead ch i .missed) { s with plans := setAt s.plans ch p } = s.frontMissed ch { p with records := l } front := by
  have hplan : State.plan { s with plans := setAt s.plans ch p } ch = p := getAt_setAt_self _ _ _
  rw [dropFold_eq ch .missed front { s with plans := setAt s.plans ch p } l (by rw [hplan, hp]) (hrec ▸ hh.planOnce ch) fun i hi =>
    (front_record hh hrec hi).imp fun _ h => h.1]
  unfold State.planWithout State.frontMissed
  rw [hplan, setAt_setAt]

theorem freedFront_freeList (hh : s.Held) (hrec : (s.plan ch).records = front ++ l) {u : State}
    (hu : ∀ i ∈ front, u.record i = s.record i) (hf : u.freeList = s.freeList) :
    (u.freedAll .missed front).freeList = s.freeList ++ front := by
  rw [freedAll_freeList .missed front u (front_nodup hh hrec) fun i hi => ?_, hf]
  obtain ⟨r, hr, -⟩ := front_record hh hrec hi
  exact ⟨r, (hu i hi).trans hr⟩

/-- The watch after the freeing of a plan's front in an event that frees nothing else (R125). -/
theorem watch_freedFront (hh : s.Held) (hrec : (s.plan ch).records = front ++ l) {u : State}
    (hu : ∀ i ∈ front, u.record i = s.record i) (hf : u.freeList = s.freeList) :
    u.FreesAll (watch (maskOf ch) s (u.freedAll .missed front)) front .missed := by
  refine watch_freed (freedFront_freeList hh hrec hu hf) (fun hne => names_channelsOf hne fun i hi => ?_) fun h => by rw [h]; rfl
  obtain ⟨r, hr, hch⟩ := front_record hh hrec hi
  exact ⟨r, (hu i hi).trans hr, hch⟩

end Front

/-! ### The latch setting at a plan (O19) -/

section SettingAtPlan

variable {s : State} {ch : Channel} {front rest : List SlotNo} {k : Nat}

/-- The due front of the plan is missed by the setting that is taken, a WAITING head among it (R47). -/
theorem takeSettingAtPlan_front (hh : s.Held) (hs : (s.plan ch).settings = k + 1) (hl : (s.plan ch).loads = [])
    (hrec : (s.plan ch).records = front ++ rest)
    (hfront : ∀ j ∈ front, ∀ r, s.record j = some r → r.state = .waiting ∨ r.start.toNat ≤ s.deviceTime.toNat)
    (hrest : ∀ j ∈ rest.head?, ∀ r, s.record j = some r → r.state = .planned ∧ s.deviceTime.toNat < r.start.toNat) :
    s.takeSettingAtPlan ch = s.frontMissed ch { s.plan ch with records := rest, settings := k } front := by
  have hmod : (s.modPlan ch fun p => { p with settings := p.settings - 1 })
      = { s with plans := setAt s.plans ch { s.plan ch with settings := k } } := by
    show { s with plans := setAt s.plans ch { s.plan ch with settings := (s.plan ch).settings - 1 } } = _
    rw [hs]
    rfl
  have hplan : State.plan { s with plans := setAt s.plans ch { s.plan ch with settings := k } } ch = { s.plan ch with settings := k } :=
    getAt_setAt_self _ _ _
  unfold State.takeSettingAtPlan
  rw [if_pos (by omega), hmod, hrec, missDue_fold ch front { s with plans := setAt s.plans ch { s.plan ch with settings := k } } rest (by rw [hplan]; exact hrec) (hrec ▸ hh.planOnce ch)
    (by rw [hplan]; exact hl) (fun i hi => ?_) hrest]
  · exact dropFront_eq_frontMissed hh hrec (p := { s.plan ch with settings := k }) hrec
  · obtain ⟨r, hr, -⟩ := front_record hh hrec hi
    exact ⟨r, hr, hfront i hi r hr⟩

end SettingAtPlan

/-- Settles O19: the due front of the plan is dropped in plan order. -/
theorem safeSettingAtPlanMissesDueHeads : Obligations.SafeSettingAtPlanMissesDueHeads := by
  unfold Obligations.SafeSettingAtPlanMissesDueHeads
  intro s ch hr hh
  refine ⟨fun hs => ?_, fun k front rest hs hl hrec hfront hrest => ?_⟩
  · have hnone : s.takeSettingAtPlan ch = s := if_neg (by omega)
    rw [safeSettingAtPlan_next hr, State.settingAtPlan, hnone, watch_same _ s s rfl]
  · intro s1
    have hnext : exec (.safeSettingAtPlan ch) s = .next (watch (maskOf ch) s (s1.freedAll .missed front)) := by
      rw [safeSettingAtPlan_next hr, State.settingAtPlan, takeSettingAtPlan_front hh hs hl hrec hfront hrest]
      rfl
    refine ⟨fun hnil => ?_, _, hnext, watch_freedFront hh hrec (fun _ _ => rfl) rfl⟩
    rw [hnext, hnil]
    exact congrArg Host.Outcome.next (watch_same _ s s1 rfl)

/-! ### The skipped-span rule (O18) -/

section SkippedSpan

variable {s : State} {ch : Channel}

/-- A plan whose head is WAITING or not due has no due handling to do (R39). -/
theorem dueAtPlan_headNotDue (h : s.HeadNotDue ch) : s.dueAtPlan ch = s := by
  have hstop : s.checkHead ch = s := by
    unfold State.checkHead
    cases hrec : (s.plan ch).records with
    | nil => rfl
    | cons i rest =>
      unfold settleList
      split
      · rfl
      · next r hr => exact if_neg fun ⟨hst, hdue⟩ => h i rest r hrec hr hst hdue
  rw [State.dueAtPlan, hstop, watch_same _ s s rfl]

/-- The due handling of a plan leaves none to do (R39). -/
theorem dueAtPlan_idempotent (hh : s.Held) : (s.dueAtPlan ch).dueAtPlan ch = s.dueAtPlan ch :=
  dueAtPlan_headNotDue (headNotDue_addsReports (watch_addsReports _ _ _) (settleList_headNotDue _ s hh rfl))

theorem loadAtPlan_nil (h : s.openLoads ch = []) : s.loadAtPlan ch = s := by
  have hbefore : s.dueBeforeLoad ch = s := by unfold State.dueBeforeLoad; rw [h]
  have htake : s.takeLoad ch = s := by unfold State.takeLoad; rw [h]
  rw [State.loadAtPlan, hbefore, htake, watch_same _ s s rfl]

theorem dueBeforeLoad_open (h : s.openLoads ch ≠ []) : s.dueBeforeLoad ch = s.dueAtPlan ch := by
  obtain ⟨x, more, hx⟩ := List.exists_cons_of_ne_nil h
  unfold State.dueBeforeLoad
  rw [hx]

/-- A load that comes with the due handling before it done does it no second time (R49). -/
theorem loadAtPlan_due (hh : s.Held) (h : s.openLoads ch ≠ []) : (s.dueAtPlan ch).loadAtPlan ch = s.loadAtPlan ch := by
  have hagain : (s.dueAtPlan ch).dueBeforeLoad ch = s.dueAtPlan ch := by
    unfold State.dueBeforeLoad
    split
    · rfl
    · exact dueAtPlan_idempotent hh
  rw [State.loadAtPlan, State.loadAtPlan, hagain, dueBeforeLoad_open h]

/-- One forward load is outstanding at the plan, with the front and the kept record that it passes (R48): no head is due by the time
before the load, and none behind the kept record by device time. -/
structure State.FindsSpan (s : State) (ch : Channel) (t0 t1 : Time) (front : List SlotNo) (kept : SlotNo) (rest : List SlotNo) : Prop where
  runs    : s.inReset = false
  held    : s.Held
  loads   : (s.plan ch).loads = [(t0, t1)]
  loaded  : t1.toNat ≤ s.deviceTime.toNat
  records : (s.plan ch).records = front ++ kept :: rest
  passed  : ∀ j ∈ front ++ [kept], ∀ q, s.record j = some q → q.start.toNat ≤ t1.toNat
  behind  : s.NextNotDue rest
  head    : ∀ j ∈ (front ++ [kept]).head?, ∀ q, s.record j = some q → q.state = .waiting ∨ t0.toNat < q.start.toNat

variable {t0 t1 : Time} {front rest : List SlotNo} {kept : SlotNo} {r : Record}

theorem findsSpan_front (h : s.FindsSpan ch t0 t1 front kept rest) : (s.plan ch).records = (front ++ [kept]) ++ rest := by
  rw [h.records, List.append_assoc]
  rfl

theorem findsSpan_span (h : s.FindsSpan ch t0 t1 front kept rest) : s.span ch t1 = front ++ [kept] := by
  refine span_eq h.records (fun j hj => ?_) fun j hj => ?_
  · obtain ⟨q, hq, -⟩ := front_record h.held (findsSpan_front h) hj
    rw [State.startOf, hq]
    exact h.passed j hj q hq
  · have hmem : j ∈ (s.plan ch).records := by
      rw [findsSpan_front h]
      exact List.mem_append_right _ (List.mem_of_mem_head? hj)
    obtain ⟨q, hq, -⟩ := h.held.plan_record hmem
    rw [State.startOf, hq]
    exact Nat.lt_of_le_of_lt h.loaded (h.behind j hj q hq)

theorem findsSpan_openLoads (h : s.FindsSpan ch t0 t1 front kept rest) : s.openLoads ch = [(t0, t1)] := by
  unfold State.openLoads
  rw [h.loads, List.dropWhile_cons, findsSpan_span h, if_neg (by simp)]

theorem findsSpan_headNotDue (h : s.FindsSpan ch t0 t1 front kept rest) : s.HeadNotDue ch := by
  intro i l q hrec hq hst hdue
  have hi : i ∈ (front ++ [kept]).head? := by
    have hhead : (front ++ [kept] ++ rest).head? = some i := by rw [← findsSpan_front h, hrec]; rfl
    rw [List.head?_append] at hhead
    cases front <;> exact hhead
  unfold State.isDue State.planTime at hdue
  rw [findsSpan_openLoads h, decide_eq_true_eq] at hdue
  rcases h.head i hi q hq with hw | hlt
  · rw [hst] at hw; cases hw
  · exact absurd hdue (Nat.not_le.mpr hlt)

/-- The plan with its load taken and only the last of the front kept. -/
def State.keptPlan (s : State) (ch : Channel) (kept : SlotNo) (rest : List SlotNo) : Plan :=
  { s.plan ch with records := kept :: rest, loads := [] }

/-- The load misses all of the front but the last, and the kept record is handled as the head (R48). -/
theorem findsSpan_takeLoad (h : s.FindsSpan ch t0 t1 front kept rest) :
    s.takeLoad ch = (s.frontMissed ch (s.keptPlan ch kept rest) front).checkHead ch := by
  have htaken : State.span { s with plans := setAt s.plans ch { s.plan ch with loads := [] } } ch t1 = front ++ [kept] := by
    rw [← findsSpan_span h]
    unfold State.span State.plan
    rw [getAt_setAt_self]
    rfl
  unfold State.takeLoad
  rw [findsSpan_openLoads h]
  show State.skipSpan { s with plans := setAt s.plans ch { s.plan ch with loads := [] } } ch t1 = _
  unfold State.skipSpan
  rw [htaken, if_neg (by simp), List.dropLast_concat,
    dropFront_eq_frontMissed h.held h.records (p := { s.plan ch with loads := [] }) h.records]
  rfl

theorem findsSpan_next (h : s.FindsSpan ch t0 t1 front kept rest) : exec (.skippedSpanRule ch) s
    = .next (watch (maskOf ch) s ((s.frontMissed ch (s.keptPlan ch kept rest) front).checkHead ch)) := by
  have hbefore : s.dueBeforeLoad ch = s := by
    rw [dueBeforeLoad_open (by rw [findsSpan_openLoads h]; exact List.cons_ne_nil _ _), dueAtPlan_headNotDue (findsSpan_headNotDue h)]
  rw [skippedSpanRule_next h.runs, State.loadAtPlan, hbefore, findsSpan_takeLoad h]

/-! ### What the kept record does -/

theorem findsSpan_kept_notMem (h : s.FindsSpan ch t0 t1 front kept rest) : kept ∉ front := by
  have hnd : (front ++ kept :: rest).Nodup := h.records ▸ h.held.planOnce ch
  intro hk
  exact (List.nodup_append.mp hnd).2.2 kept hk kept List.mem_cons_self rfl

theorem findsSpan_rest_notMem (h : s.FindsSpan ch t0 t1 front kept rest) {j : SlotNo} (hj : j ∈ rest) : j ∉ front ∧ j ≠ kept := by
  have hnd : (front ++ kept :: rest).Nodup := h.records ▸ h.held.planOnce ch
  obtain ⟨-, htail, hdisj⟩ := List.nodup_append.mp hnd
  refine ⟨fun hf => hdisj j hf j (List.mem_cons_of_mem _ hj) rfl, ?_⟩
  rintro rfl
  exact (List.nodup_cons.mp htail).1 hj

theorem frontMissed_plan (s : State) (ch : Channel) (p : Plan) (front : List SlotNo) : (s.frontMissed ch p front).plan ch = p :=
  (freedAll_plan _ _ _ ch).trans (getAt_setAt_self _ _ _)

theorem frontMissed_inReset (s : State) (ch : Channel) (p : Plan) (front : List SlotNo) : (s.frontMissed ch p front).inReset = s.inReset := by
  unfold State.frontMissed
  rw [freedAll_same]
  rfl

theorem frontMissed_fate (s : State) (ch : Channel) (p : Plan) (front : List SlotNo) (policy : Policy) :
    (s.frontMissed ch p front).fate ch policy = s.fate ch policy := by
  unfold State.fate State.frontMissed
  rw [freedAll_latch, freedAll_engine]
  rfl

theorem findsSpan_dueHead (h : s.FindsSpan ch t0 t1 front kept rest) (hr : s.record kept = some r) (hst : r.state = .planned) :
    (s.frontMissed ch (s.keptPlan ch kept rest) front).DueHead ch kept rest r := by
  refine ⟨by rw [frontMissed_plan]; rfl, ?_, hst, ?_, by rw [frontMissed_plan]; rfl⟩
  · exact (freedAll_record_notMem .missed { s with plans := _ } (findsSpan_kept_notMem h)).trans hr
  · unfold State.frontMissed
    rw [freedAll_deviceTime]
    exact (h.passed kept (List.mem_append_right _ List.mem_cons_self) r hr).trans h.loaded

theorem findsSpan_behind (h : s.FindsSpan ch t0 t1 front kept rest) {u : State} (ht : u.deviceTime = s.deviceTime)
    (hu : ∀ j, j ∉ front → j ≠ kept → u.record j = s.record j) : u.NextNotDue rest :=
  nextNotDue_congr h.behind ht fun j hj =>
    have hne := findsSpan_rest_notMem h hj
    hu j hne.1 hne.2

/-- The state of a kept record that starts on an IDLE channel, before the front is missed. -/
def State.keptStarted (s : State) (ch : Channel) (kept : SlotNo) (rest : List SlotNo) (r : Record) : State :=
  { s with
    slots := s.slotsWith kept r .current
    plans := setAt s.plans ch { s.plan ch with records := rest, loads := [] }
    engines := setAt s.engines ch ((s.engine ch).begun kept r s.deviceTime) }

/-- The state of a kept record that waits on a busy channel, before the front is missed. -/
def State.keptWaiting (s : State) (ch : Channel) (kept : SlotNo) (rest : List SlotNo) (r : Record) : State :=
  { s with
    slots := s.slotsWith kept r .waiting
    plans := setAt s.plans ch { s.plan ch with records := kept :: rest, loads := [] } }

/-- The start of the kept record does not meet the freeing of the records before it. -/
theorem keptStarted_freedAll (hk : kept ∉ front) : (s.frontMissed ch (s.keptPlan ch kept rest) front).headStarted ch kept rest r
    = (s.keptStarted ch kept rest r).freedAll .missed front := by
  have hplans : State.planWithout (s.frontMissed ch (s.keptPlan ch kept rest) front) ch rest
      = setAt s.plans ch { s.plan ch with records := rest, loads := [] } := by
    unfold State.planWithout
    rw [frontMissed_plan, State.frontMissed, freedAll_plans, setAt_setAt]
    rfl
  have hengines : setAt (s.frontMissed ch (s.keptPlan ch kept rest) front).engines ch
      (((s.frontMissed ch (s.keptPlan ch kept rest) front).engine ch).begun kept r (s.frontMissed ch (s.keptPlan ch kept rest) front).deviceTime)
      = setAt s.engines ch ((s.engine ch).begun kept r s.deviceTime) := by
    unfold State.frontMissed
    rw [freedAll_engines, freedAll_engine, freedAll_deviceTime]
    rfl
  have hset := freedAll_setRecord { r with state := .current } .missed front
    { s with
      plans := setAt s.plans ch { s.plan ch with records := rest, loads := [] }
      engines := setAt s.engines ch ((s.engine ch).begun kept r s.deviceTime) } hk
  unfold State.headStarted
  rw [hplans, hengines]
  refine Eq.trans ?_ hset.symm
  rw [freedAll_withEngines { s with plans := setAt s.plans ch { s.plan ch with records := rest, loads := [] } },
    freedAll_withPlans s]
  unfold State.frontMissed
  rw [freedAll_withPlans s]
  rfl

theorem busy_cases {c : ChanState} (h : c.busy = true) : c = .running ∨ c = .armed ∨ c = .firing := by
  cases c
  case running => exact .inl rfl
  case armed => exact .inr (.inl rfl)
  case firing => exact .inr (.inr rfl)
  all_goals cases h

/-- The kept record starts behind the records that are missed (R41, R48). -/
theorem findsSpan_starts (h : s.FindsSpan ch t0 t1 front kept rest) (hr : s.record kept = some r) (hst : r.state = .planned)
    (hl : s.latch = false) (hi : (s.engine ch).state = .idle) (hns : ∀ l, r.params ≠ .set l) :
    (s.frontMissed ch (s.keptPlan ch kept rest) front).checkHead ch = (s.keptStarted ch kept rest r).freedAll .missed front := by
  have hdue := findsSpan_dueHead h hr hst
  obtain ⟨hrec, -⟩ := id hdue
  have hnd : ((s.frontMissed ch (s.keptPlan ch kept rest) front).plan ch).records.Nodup := by
    rw [hrec]
    exact (List.nodup_append.mp (h.records ▸ h.held.planOnce ch)).2.1
  have hstart : (s.frontMissed ch (s.keptPlan ch kept rest) front).startHead ch kept r
      = (s.frontMissed ch (s.keptPlan ch kept rest) front).headStarted ch kept rest r := startHead_action hrec hnd hns
  rw [checkHead_due hdue, frontMissed_fate, fate_idle hl hi]
  dsimp only
  rw [hstart, ← keptStarted_freedAll (findsSpan_kept_notMem h)]
  refine settleList_notDue ?_ (findsSpan_behind h ?_ fun j hf hj => ?_)
  · rw [headStarted_plan, frontMissed_plan]; rfl
  · exact freedAll_deviceTime _ _ _
  · rw [headStarted_record_ne _ ch hj]
    exact freedAll_record_notMem .missed { s with plans := _ } hf

theorem findsSpan_waits (h : s.FindsSpan ch t0 t1 front kept rest) (hr : s.record kept = some r) (hst : r.state = .planned)
    (hl : s.latch = false) (hb : (s.engine ch).state.busy = true) (hp : r.policy = .wait) :
    (s.frontMissed ch (s.keptPlan ch kept rest) front).checkHead ch = (s.keptWaiting ch kept rest r).freedAll .missed front := by
  have hdue := findsSpan_dueHead h hr hst
  obtain ⟨-, hkept, -⟩ := id hdue
  have hfate : s.fate ch r.policy = .wait := by
    rw [fate_busy hl (busy_cases hb), hp]
    rfl
  rw [checkHead_due hdue, frontMissed_fate, hfate]
  exact (setRecState_eq hkept .waiting).trans
    (freedAll_setRecord { r with state := .waiting } .missed front _ (findsSpan_kept_notMem h)).symm

end SkippedSpan

/-- Settles O18: with one load outstanding the front is missed, and the kept record is the head that HEAD_DUE handles. -/
theorem skippedSpanRuleKeepsTheLast : Obligations.SkippedSpanRuleKeepsTheLast := by
  unfold Obligations.SkippedSpanRuleKeepsTheLast
  intro s ch hrun hh
  refine ⟨fun hnil => ?_, fun hopen => ?_, fun t0 t1 front kept rest r hloads ht1 hrec hr hpassed hbehind hhead => ?_⟩
  · rw [skippedSpanRule_next hrun, loadAtPlan_nil hnil]
  · have hrun' : (s.dueAtPlan ch).inReset = false := (dueAtPlan_works s ch).inReset.trans hrun
    exact ⟨_, headDue_next hrun ch, by rw [skippedSpanRule_next hrun, skippedSpanRule_next hrun', loadAtPlan_due hh hopen]⟩
  intro taken
  have h : s.FindsSpan ch t0 t1 front kept rest := ⟨hrun, hh, hloads, ht1, hrec, hpassed, hbehind, hhead⟩
  have hfree : (s.frontMissed ch (s.keptPlan ch kept rest) front).freeList = s.freeList ++ front :=
    freedFront_freeList hh hrec (fun _ _ => rfl) rfl
  have hkept : ∀ st, ∀ i ∈ front, (s.setRecord kept { r with state := st }).record i = s.record i := fun st i hi =>
    (setRecord_record s kept i _).trans (if_neg fun e : i = kept => findsSpan_kept_notMem h (e ▸ hi))
  refine ⟨fun hnil => ?_, fun hne hst => ?_, fun hne hst hl => ⟨fun hidle hns => ?_, fun hbusy hwait => ?_⟩⟩
  · subst hnil
    have hplan : s.keptPlan ch kept rest = { s.plan ch with loads := [] } := by
      unfold State.keptPlan
      rw [← show (s.plan ch).records = kept :: rest from hrec]
    rw [findsSpan_next h, hplan, headDue_next (u := { s with plans := taken }) hrun]
    rfl
  · intro missed
    have hmissed : missed.inReset = false := (frontMissed_inReset s ch (s.keptPlan ch kept rest) front).trans hrun
    have hmore : s.freeList.length < missed.freeList.length := by
      rw [show missed.freeList = s.freeList ++ front from hfree, List.length_append]
      exact Nat.lt_add_of_pos_right (List.length_pos_iff.mpr hne)
    exact ⟨_, headDue_next hmissed ch, (findsSpan_next h).trans (congrArg Host.Outcome.next (watch_checkHead hmore))⟩
  · refine ⟨_, findsSpan_next h, ?_⟩
    rw [findsSpan_starts h hr hst hl hidle hns]
    exact watch_freedFront (u := s.keptStarted ch kept rest r) hh hrec (hkept .current) rfl
  · refine ⟨_, findsSpan_next h, ?_⟩
    rw [findsSpan_waits h hr hst hl hbusy hwait]
    exact watch_freedFront (u := s.keptWaiting ch kept rest r) hh hrec (hkept .waiting) rfl

end Sys2Proof.Machine
end
